-- ==== Sys2Proof/Word.lean ====
section
/-! DEFINITION. The two word types of IPDE and nothing else.

Every host-visible register is 32 bits wide (spec 00_scope.md R11, 10_state.md R21) and every engine access to a memory
is one byte wide (20_memory.md R79). -/

namespace Sys2Proof

/-- A host-visible register's content (R11, R21). -/
abbrev Word := BitVec 32

/-- One byte of `IN`, `SINK`, `PIX` or a line buffer (R79). -/
abbrev Byte := BitVec 8

end Sys2Proof
end

