-- ==== Sys2Proof/Config.lean ====
section
/-! DEFINITION. What an implementation fixes (the three parameters of spec 00_scope.md R9) and the free values.

The parameters are plain data: a `Config` is a field of the machine's state that no step changes, so that every
statement about every state is a statement about every choice of them ("A model of IPDE takes these parameters as
arguments", R9). The free values are one constant without a body. -/

namespace Sys2Proof

/-- The implementation parameters of R9, each left OPEN by 92_eei_decisions.md D6, D7, D8. -/
structure Config where
  /-- `IN_LIMIT`: the size in bytes of the input memory `IN` (R9: at least 1). -/
  inLimit : Nat
  /-- `SINK_LIMIT`: the largest capacity the Byte Sink may grow to, and the size of `SINK` (R9, R70, R80). -/
  sinkLimit : Nat
  /-- `PIX_LIMIT`: the size in bytes of the pixel memory `PIX` (R9, R70). -/
  pixLimit : Nat
deriving DecidableEq, Repr

/-- R9's one constraint, and the DEDUCED bounds under which the 32-bit registers `SINK_CAP` and `PIX_LEN` hold what is
stored into them (notes/assumptions/16.md). A premise of the statements that need it, never a check of the machine. -/
abbrev Config.Sized (c : Config) : Prop :=
  1 ≤ c.inLimit ∧ c.inLimit ≤ 2 ^ 32 ∧ c.sinkLimit < 2 ^ 32 ∧ c.pixLimit < 2 ^ 32

/-- The parameters `State.reset` carries: 64 KiB each. DESIGN CHOICE (notes/assumptions/4.md): the spec leaves all
three open; only the statement that `State.reset` itself is legal rests on these numbers. -/
def Config.atReset : Config := ⟨65536, 65536, 65536⟩

/-- The free values: an unconstrained `w`-bit value for every draw number and every place within that draw. It has no
body on purpose: nothing can evaluate it or prove a value of it. The draw number is the state's counter `draws`, which
every step that draws advances. It stands for every value the spec calls unspecified after which the machine goes on
(93_implementation_defined.md U4, U8, U9, U10, U14; notes/assumptions/7.md), and for one it gives no meaning
(notes/assumptions/26.md). -/
opaque Config.freeBits (w draw place : Nat) : BitVec w

end Sys2Proof
end

