-- ==== Sys2Proof/Syntax.lean ====
section
/-! DEFINITION. The syntax: the eight selector spaces and the instructions of spec/opcode_table.json.

IPDE "executes no instruction words": each unit of a program that selects an action is an instruction, and the value
that selects it is read in a place that depends on where the command is (spec 30_encoding.md R112, R118). The eight
places are the formats of the opcode table; `Selector` names them. -/

namespace Sys2Proof

/-- The place an instruction's selecting value is read from: the table's column "format" (R112, R118). -/
inductive Selector where
  /-- the 32-bit value the host writes to `CMD` (R24) -/
  | cmd
  /-- the 2-bit `BTYPE` of a block header (R102, R183) -/
  | bh
  /-- a code-length symbol decoded with `CT` (R105, R202) -/
  | cl
  /-- a literal/length symbol decoded with `LT` (R106, R220) -/
  | ll
  /-- a distance symbol decoded with `DT` (R107, R225) -/
  | ds
  /-- the filter-type byte of a scanline (R110, R263) -/
  | sl
  /-- the field `IMG_FORMAT.CTYPE` (R34, R261, R262) -/
  | ctype
  /-- the field `IMG_FORMAT.DEPTH` (R34, R261) -/
  | depth
deriving DecidableEq, Repr

/-- The instructions: one constructor per mnemonic of spec/opcode_table.json. The rows that share a mnemonic (`CMD_NOP`,
`FT_RSVD`, `CTYPE_RSVD`, `DEPTH_RSVD`: reserved ranges cut into mask and match pairs) are one instruction whose operand
is the selecting value. Extra bits and a stored block's fields are read from the stream by the instruction itself, in
the order its rule gives, so they are no operands here. -/
inductive Instr where
  /-- INFLATE (R180): `CMD` value 1 -/
  | inflate
  /-- RECON (R260): `CMD` value 2 -/
  | recon
  /-- CMD_NOP (R24): any other `CMD` value `v` -/
  | cmdNop (v : Word)
  /-- STORED block (R184): `BTYPE` 0 -/
  | stored
  /-- FIXED block (R185): `BTYPE` 1 -/
  | fixed
  /-- DYNAMIC block (R186): `BTYPE` 2 -/
  | dynamic
  /-- reserved block type (R187): `BTYPE` 3 -/
  | btypeRsvd
  /-- CL_LEN (R203): code-length symbol `l`, 0 to 15 -/
  | clLen (l : BitVec 4)
  /-- CL_REP (R204): code-length symbol 16 -/
  | clRep
  /-- CL_ZERO3 (R205): code-length symbol 17 -/
  | clZero3
  /-- CL_ZERO11 (R206): code-length symbol 18 -/
  | clZero11
  /-- LIT (R222): literal/length symbol `b`, 0 to 255 -/
  | lit (b : Byte)
  /-- EOB (R223): literal/length symbol 256 -/
  | eob
  /-- LEN257 (R400): literal/length symbol 257 -/
  | len257
  /-- LEN258 (R401): literal/length symbol 258 -/
  | len258
  /-- LEN259 (R402): literal/length symbol 259 -/
  | len259
  /-- LEN260 (R403): literal/length symbol 260 -/
  | len260
  /-- LEN261 (R404): literal/length symbol 261 -/
  | len261
  /-- LEN262 (R405): literal/length symbol 262 -/
  | len262
  /-- LEN263 (R406): literal/length symbol 263 -/
  | len263
  /-- LEN264 (R407): literal/length symbol 264 -/
  | len264
  /-- LEN265 (R408): literal/length symbol 265 -/
  | len265
  /-- LEN266 (R409): literal/length symbol 266 -/
  | len266
  /-- LEN267 (R410): literal/length symbol 267 -/
  | len267
  /-- LEN268 (R411): literal/length symbol 268 -/
  | len268
  /-- LEN269 (R412): literal/length symbol 269 -/
  | len269
  /-- LEN270 (R413): literal/length symbol 270 -/
  | len270
  /-- LEN271 (R414): literal/length symbol 271 -/
  | len271
  /-- LEN272 (R415): literal/length symbol 272 -/
  | len272
  /-- LEN273 (R416): literal/length symbol 273 -/
  | len273
  /-- LEN274 (R417): literal/length symbol 274 -/
  | len274
  /-- LEN275 (R418): literal/length symbol 275 -/
  | len275
  /-- LEN276 (R419): literal/length symbol 276 -/
  | len276
  /-- LEN277 (R420): literal/length symbol 277 -/
  | len277
  /-- LEN278 (R421): literal/length symbol 278 -/
  | len278
  /-- LEN279 (R422): literal/length symbol 279 -/
  | len279
  /-- LEN280 (R423): literal/length symbol 280 -/
  | len280
  /-- LEN281 (R424): literal/length symbol 281 -/
  | len281
  /-- LEN282 (R425): literal/length symbol 282 -/
  | len282
  /-- LEN283 (R426): literal/length symbol 283 -/
  | len283
  /-- LEN284 (R427): literal/length symbol 284 -/
  | len284
  /-- LEN285 (R428): literal/length symbol 285 -/
  | len285
  /-- reserved literal/length symbol (R227) -/
  | llRsvd (sym : BitVec 9)
  /-- DIST0 (R440): distance symbol 0 -/
  | dist0
  /-- DIST1 (R441): distance symbol 1 -/
  | dist1
  /-- DIST2 (R442): distance symbol 2 -/
  | dist2
  /-- DIST3 (R443): distance symbol 3 -/
  | dist3
  /-- DIST4 (R444): distance symbol 4 -/
  | dist4
  /-- DIST5 (R445): distance symbol 5 -/
  | dist5
  /-- DIST6 (R446): distance symbol 6 -/
  | dist6
  /-- DIST7 (R447): distance symbol 7 -/
  | dist7
  /-- DIST8 (R448): distance symbol 8 -/
  | dist8
  /-- DIST9 (R449): distance symbol 9 -/
  | dist9
  /-- DIST10 (R450): distance symbol 10 -/
  | dist10
  /-- DIST11 (R451): distance symbol 11 -/
  | dist11
  /-- DIST12 (R452): distance symbol 12 -/
  | dist12
  /-- DIST13 (R453): distance symbol 13 -/
  | dist13
  /-- DIST14 (R454): distance symbol 14 -/
  | dist14
  /-- DIST15 (R455): distance symbol 15 -/
  | dist15
  /-- DIST16 (R456): distance symbol 16 -/
  | dist16
  /-- DIST17 (R457): distance symbol 17 -/
  | dist17
  /-- DIST18 (R458): distance symbol 18 -/
  | dist18
  /-- DIST19 (R459): distance symbol 19 -/
  | dist19
  /-- DIST20 (R460): distance symbol 20 -/
  | dist20
  /-- DIST21 (R461): distance symbol 21 -/
  | dist21
  /-- DIST22 (R462): distance symbol 22 -/
  | dist22
  /-- DIST23 (R463): distance symbol 23 -/
  | dist23
  /-- DIST24 (R464): distance symbol 24 -/
  | dist24
  /-- DIST25 (R465): distance symbol 25 -/
  | dist25
  /-- DIST26 (R466): distance symbol 26 -/
  | dist26
  /-- DIST27 (R467): distance symbol 27 -/
  | dist27
  /-- DIST28 (R468): distance symbol 28 -/
  | dist28
  /-- DIST29 (R469): distance symbol 29 -/
  | dist29
  /-- reserved distance symbol (R228): 30 or 31 -/
  | dsRsvd (sym : BitVec 5)
  /-- FILT_NONE (R264): filter type 0 -/
  | filtNone
  /-- FILT_SUB (R265): filter type 1 -/
  | filtSub
  /-- FILT_UP (R266): filter type 2 -/
  | filtUp
  /-- FILT_AVG (R267): filter type 3 -/
  | filtAvg
  /-- FILT_PAETH (R269): filter type 4 -/
  | filtPaeth
  /-- reserved filter type (R271): 5 to 255 -/
  | ftRsvd (ft : Byte)
  /-- FMT_GRAY (R281): colour type 0 -/
  | fmtGray
  /-- FMT_RGB (R282): colour type 2 -/
  | fmtRgb
  /-- FMT_GRAYA (R283): colour type 4 -/
  | fmtGraya
  /-- FMT_RGBA (R284): colour type 6 -/
  | fmtRgba
  /-- reserved colour type (R261): any value but 0, 2, 4, 6 -/
  | ctypeRsvd (c : Byte)
  /-- the supported bit depth (R261): 8 -/
  | depth8
  /-- reserved bit depth (R261): any value but 8 -/
  | depthRsvd (d : Byte)
deriving DecidableEq, Repr

end Sys2Proof
end

