-- ==== Sys2Proof/Machine/State.lean ====
section
/-! DEFINITION. The machine's state: every piece of state spec/10_state.md (R20) and 20_memory.md (R70) give IPDE, the
host's side of the interface (48_host_framing.md), and the model's own fields, each marked so. Plain data throughout. -/

namespace Sys2Proof.Machine

/-! ## Names -/

/-- The twelve error kinds (R340). -/
inductive Error where
  | badSignature
  | malformedPng
  | unsupportedMethod
  | badZlibHeader
  | checksumMismatch
  | invalidHuffmanCode
  | invalidBackReference
  | lengthMismatch
  | unsupportedBitDepth
  | unsupportedColorType
  | truncatedInput
  | outOfMemory
deriving DecidableEq, Repr

/-- `STATUS.STATE` (R25), in the order of its values 0 to 3. -/
inductive RunState where
  | idle
  | busy
  | done
  | error
deriving DecidableEq, Repr

/-- `PHASE` (R36): where a command is. -/
inductive Phase where
  | idle
  | header
  | stored
  | dynhdr
  | symbols
  | rcheck
  | rows
  | done
  | error
deriving DecidableEq, Repr

/-- The three byte-addressed memories (R70); the register space `REG` is the fields of `State`. -/
inductive Space where
  | input
  | sink
  | pix
deriving DecidableEq, Repr

/-- A memory's contents: address and byte pairs, addresses strictly rising, no pair whose byte is what an unlisted
address reads as (`Memory.wf` in Machine/Ops.lean says so). -/
abbrev Memory := List Host.Cell

/-! ## Why a step may stop -/

/-- The machine stops. None of these can happen in a state that meets the invariant of Sys2Proof/Safety.lean, except
`address` through a host access. -/
inductive Fault where
  /-- Raised by an access to a memory at an address at or past its size (R70, R71, R73, R74), which the spec says does not exist.
  The engine never makes one from a legal state (R343); the host may ask for one. Safe: the model stops. -/
  | address (sp : Space)
  /-- Raised by an index outside an internal register file: a slot of a Huffman table, an entry of `LENS` or `CLL`, a byte of a
  line buffer (R40, R41, R43). Never from a legal state (R169). Safe: the model stops. -/
  | regIndex
deriving DecidableEq, Repr

/-- The model gives no meaning. -/
inductive Refusal where
  /-- Raised by `exec` for an instruction that has no meaning yet. Safe. -/
  | notModelled (mnemonic : String)
  /-- Raised by a selecting value that no row of the opcode table has. Never from a legal state (R202). Safe. -/
  | undecodable
  /-- Raised by a host access to `IN`, `SINK` or `PIX` while a command is BUSY: "a model treats such an access as outside the spec
  and refuses it" (R380, 93_implementation_defined.md U5). Safe. -/
  | hostMemoryWhileBusy
  /-- Raised by a host access to the register file that is not 32 bits wide, not at a multiple of 4, or not within the 4 KiB
  the block decodes: "a model refuses it" (R22, U6). Safe. -/
  | registerAccess
deriving DecidableEq, Repr

/-! ## The engine's internal registers -/

/-- The Bit Reader (R31). -/
structure BitReader where
  /-- `BR_POS`: the slice-relative position of the next byte to fetch. -/
  pos : BitVec 32
  /-- `BR_ACC`: the bits not yet delivered, the next one at bit 0. -/
  acc : BitVec 32
  /-- `BR_CNT`: how many bits of `BR_ACC` are valid. -/
  cnt : BitVec 6
deriving DecidableEq, Repr

/-- The block decoder's working registers (R38). -/
structure BlockRegs where
  /-- `SYM`: the literal/length symbol just decoded. -/
  sym : BitVec 9
  /-- `LENGTH`: a back-reference's length. -/
  length : BitVec 9
  /-- `DSYM`: the distance symbol just decoded. -/
  dsym : BitVec 5
  /-- `DIST`: a back-reference's distance. -/
  dist : BitVec 16
  /-- `COPYLEFT`: bytes of the current back-reference still to copy. -/
  copyLeft : BitVec 9
deriving DecidableEq, Repr

/-- The stored-block registers (R39). -/
structure StoredRegs where
  /-- `LEN` as read. -/
  len : BitVec 16
  /-- `NLEN` as read. -/
  nlen : BitVec 16
  /-- `STOREDLEFT`: bytes still to copy. -/
  left : BitVec 16
deriving DecidableEq, Repr

/-- One Huffman table's register file (R40). A model may use mathematical integers for the signed entries (R166). -/
structure Table where
  /-- `max_code[1..15]`, entry 0 of the list for length 1; -1 when no code has the length. -/
  maxCode : List Int
  /-- `offset[1..15]`, entry 0 of the list for length 1. -/
  offset : List Int
  /-- `symbols[0 .. N)`. -/
  symbols : List (BitVec 9)
deriving DecidableEq, Repr

/-- The dynamic-header registers (R41). -/
structure HeaderRegs where
  /-- `HLIT` -/
  hlit : BitVec 9
  /-- `HDIST` -/
  hdist : BitVec 6
  /-- `HCLEN` -/
  hclen : BitVec 5
  /-- `CLL[0..18]` -/
  cll : List (BitVec 3)
  /-- `LENS[0..319]` -/
  lens : List (BitVec 4)
  /-- `NL`: the number of `LENS` entries filled. -/
  nl : BitVec 9
deriving DecidableEq, Repr

/-- The reconstructor's registers and line buffers (R43). -/
structure ReconRegs where
  /-- `BPP` -/
  bpp : BitVec 3
  /-- `STRIDE` -/
  stride : BitVec 34
  /-- `Y`: the current row. -/
  y : BitVec 32
  /-- `X`: the current byte within the row. -/
  x : BitVec 34
  /-- `FT`: the current row's filter type. -/
  ft : BitVec 8
  /-- `PREV[0 .. STRIDE)` -/
  prev : List Byte
  /-- `CUR[0 .. STRIDE)` -/
  cur : List Byte
deriving DecidableEq, Repr

/-- Every internal register of R31 and R37 to R43: what an error leaves unspecified (R345). -/
structure Engine where
  br : BitReader
  /-- `BFINAL` (R37) -/
  bfinal : BitVec 1
  /-- `BTYPE` (R37) -/
  btype : BitVec 2
  blk : BlockRegs
  sto : StoredRegs
  hdr : HeaderRegs
  rcn : ReconRegs
  /-- `LT`: the literal/length table, capacity 288 (R40) -/
  lt : Table
  /-- `DT`: the distance table, capacity 32 (R40) -/
  dt : Table
  /-- `CT`: the code-length table, capacity 19 (R40) -/
  ct : Table
deriving DecidableEq, Repr

/-! ## The host's side -/

/-- One thing the host does (00_scope.md R7; 48_host_framing.md; 60_exceptions.md R348; 70_reset_and_hazards.md R370). The
list of them in `State.script` is the outside world's input to the machine. -/
inductive HostAct where
  /-- an access of `bytes` bytes to the register file, writing `v` at offset `off` (R22) -/
  | regWrite (bytes off : Nat) (v : Word)
  /-- an access of `bytes` bytes to the register file, reading offset `off` (R22) -/
  | regRead (bytes off : Nat)
  /-- writing a byte of a memory (R70) -/
  | memWrite (sp : Space) (a : Nat) (v : Byte)
  /-- reading a byte of a memory (R70) -/
  | memRead (sp : Space) (a : Nat)
  /-- reading `STATUS` until `STATE` is not BUSY (R348) -/
  | poll
  /-- doing nothing while the engine takes one step -/
  | letRun
  /-- the platform asserting the reset input between two instructions (R370) -/
  | assertReset
  /-- the platform asserting the reset input while the engine is within its next instruction (R370: "at any time") -/
  | assertResetWithin
  /-- failing the running job with `STATUS.ERR` if `STATE` is ERROR (R304, R320) -/
  | checkStatus
  /-- failing the running job unless the sink's Adler-32 is `trailer` (R305, R306) -/
  | checkAdler (trailer : Word)
  /-- taking the sink's bytes as the job's result (R307) -/
  | takeSink
  /-- taking the pixels as the job's result (R320, R321) -/
  | takePix (w h : Word)
  /-- the end of a job -/
  | endJob
  /-- the zlib envelope on the buffer `z`, placed at address `a` of `IN` (R300 to R307) -/
  | zlib (z : List Byte) (a : Nat)
  /-- the decode entry point on the PNG file `f`, its zlib data placed at address `a` of `IN` (R320) -/
  | decodePng (f : List Byte) (a : Nat)
deriving DecidableEq, Repr

/-- What a host job ended with (R307, R320): an error's code (R340), the decompressed bytes, or an image. -/
inductive HostResult where
  | failed (code : BitVec 4)
  | bytes (d : List Byte)
  | image (w h : Word) (rgba : List Byte)
deriving DecidableEq, Repr

/-! ## The state -/

/-- The whole machine. -/
structure State where
  /-- the implementation's parameters (R9); no step changes them -/
  config : Config
  /-- `STATUS.STATE` (R25) -/
  runState : RunState
  /-- `STATUS.ERR` (R25) -/
  err : BitVec 4
  /-- `STATUS.LAST` (R25) -/
  last : BitVec 2
  /-- `IN_BASE` (R26) -/
  inBase : Word
  /-- `IN_SIZE` (R27) -/
  inSize : Word
  /-- `CONSUMED` (R28) -/
  consumed : Word
  /-- `SINK_LEN` (R29) -/
  sinkLen : Word
  /-- `SINK_CAP` (R30) -/
  sinkCap : Word
  /-- `IMG_WIDTH` (R32) -/
  imgWidth : Word
  /-- `IMG_HEIGHT` (R33) -/
  imgHeight : Word
  /-- `IMG_FORMAT` (R34) -/
  imgFormat : Word
  /-- `PIX_LEN` (R35) -/
  pixLen : Word
  /-- `PHASE` (R36) -/
  phase : Phase
  /-- the internal registers (R31, R37 to R43) -/
  eng : Engine
  /-- `IN` (R70) -/
  inMem : Memory
  /-- `SINK` (R70) -/
  sinkMem : Memory
  /-- `PIX` (R70) -/
  pixMem : Memory
  /-- the model's own: the selector space the engine reads its next instruction from, which refines `PHASE`
  (notes/assumptions/2.md) -/
  expect : Selector
  /-- the model's own: what the host does next, first first (notes/assumptions/9.md) -/
  script : List HostAct
  /-- the model's own: the value the host's last read returned (notes/assumptions/9.md) -/
  readData : Word
  /-- the model's own: what the host's last job ended with (notes/assumptions/9.md) -/
  result : Option HostResult
  /-- the model's own: whether `SINK_LEN` has wrapped since the last INFLATE emptied the sink (notes/assumptions/27.md) -/
  sinkWrapped : Bool
  /-- the model's own: how many draws of free values there have been (notes/assumptions/7.md) -/
  draws : Nat
deriving DecidableEq, Repr

/-- A table at reset: the spec says "unspecified" (R40, R370), so every entry is 0. DESIGN CHOICE
(notes/assumptions/6.md). -/
def Table.atReset (n : Nat) : Table := ⟨List.replicate 15 0, List.replicate 15 0, List.replicate n 0⟩

/-- The internal registers after reset (R370); the tables and line buffers, which R370 leaves unspecified, as
notes/assumptions/6.md says. -/
def Engine.atReset : Engine where
  br := ⟨0, 0, 0⟩
  bfinal := 0
  btype := 0
  blk := ⟨0, 0, 0, 0, 0⟩
  sto := ⟨0, 0, 0⟩
  hdr := ⟨0, 0, 0, List.replicate 19 0, List.replicate 320 0, 0⟩
  rcn := ⟨0, 0, 0, 0, 0, [], []⟩
  lt := Table.atReset 288
  dt := Table.atReset 32
  ct := Table.atReset 19

/-- The machine right after reset (R370), at power-on: nothing is pending, and the memories list nothing. -/
def State.reset : State where
  config := Config.atReset
  runState := .idle
  err := 0
  last := 0
  inBase := 0
  inSize := 0
  consumed := 0
  sinkLen := 0
  sinkCap := 0
  imgWidth := 0
  imgHeight := 0
  imgFormat := 0
  pixLen := 0
  phase := .idle
  eng := Engine.atReset
  inMem := []
  sinkMem := []
  pixMem := []
  expect := .cmd
  script := []
  readData := 0
  result := none
  sinkWrapped := false
  draws := 0

end Sys2Proof.Machine
end

