-- ==== Sys2Proof/Machine/Ops.lean ====
section
/-! DEFINITION. The named operations over memory and registers that every meaning uses: memory accesses, the internal
result of an operation, what an error does (`State.raiseError`, R345: the one way a command fails), and completion
(R188, R268). IPDE has no return from an error (R346): the next `CMD` write starts anew. -/

namespace Sys2Proof.Machine

/-! ## Memory -/

/-- What an address that a memory does not list reads as. DESIGN CHOICE (notes/assumptions/5.md): the spec gives the
memories no contents at power-on (R370, U11). -/
def unlistedByte : Byte := 0

/-- The canonical form: addresses strictly rising, and no entry equal to what an unlisted address reads as. -/
abbrev Memory.wf (m : Memory) : Prop :=
  m.Pairwise (fun p q => p.1 < q.1) ∧ ∀ c ∈ m, c.2 ≠ unlistedByte

/-- The byte at an address (R71). -/
def Memory.read : Memory → Nat → Byte
  | [], _ => unlistedByte
  | (k, b) :: m, a => if k = a then b else Memory.read m a

/-- Storing one byte, in canonical form. -/
def Memory.write : Memory → Nat → Byte → Memory
  | [], a, v => if v = unlistedByte then [] else [(a, v)]
  | (k, b) :: m, a, v =>
    if a < k then
      if v = unlistedByte then (k, b) :: m else (a, v) :: (k, b) :: m
    else if a = k then
      if v = unlistedByte then m else (a, v) :: m
    else (k, b) :: Memory.write m a v

/-- Storing consecutive bytes from address `a` up. -/
def Memory.load : Memory → Nat → List Byte → Memory
  | m, _, [] => m
  | m, a, b :: bs => Memory.load (Memory.write m a b) (a + 1) bs

/-- Every byte below `n` becomes a free value of the draw `draw` (R345, U8). -/
def Memory.scramble (m : Memory) (draw : Nat) : Nat → Memory
  | 0 => m
  | n + 1 => Memory.write (Memory.scramble m draw n) n (Config.freeBits 8 draw n)

/-- The `n` bytes from address 0 up. -/
def Memory.readTo (m : Memory) (n : Nat) : List Byte :=
  (List.range n).map m.read

/-- The contents of a memory. -/
def State.mem (s : State) : Space → Memory
  | .input => s.inMem
  | .sink => s.sinkMem
  | .pix => s.pixMem

/-- The size of a memory in bytes (R70). -/
def State.limit (s : State) : Space → Nat
  | .input => s.config.inLimit
  | .sink => s.config.sinkLimit
  | .pix => s.config.pixLimit

/-- Replacing a memory's contents. -/
def State.withMem (s : State) (sp : Space) (m : Memory) : State :=
  match sp with
  | .input => { s with inMem := m }
  | .sink => { s with sinkMem := m }
  | .pix => { s with pixMem := m }

/-! ## Updates of the internal registers -/

/-- Replacing the internal registers. -/
def State.withEng (s : State) (e : Engine) : State := { s with eng := e }

/-- Replacing the Bit Reader's registers (R31). -/
def State.withBr (s : State) (b : BitReader) : State := { s with eng := { s.eng with br := b } }

/-- Replacing the block decoder's working registers (R38). -/
def State.withBlk (s : State) (b : BlockRegs) : State := { s with eng := { s.eng with blk := b } }

/-- Replacing the stored-block registers (R39). -/
def State.withSto (s : State) (r : StoredRegs) : State := { s with eng := { s.eng with sto := r } }

/-- Replacing the dynamic-header registers (R41). -/
def State.withHdr (s : State) (h : HeaderRegs) : State := { s with eng := { s.eng with hdr := h } }

/-- Replacing the reconstructor's registers (R43). -/
def State.withRcn (s : State) (r : ReconRegs) : State := { s with eng := { s.eng with rcn := r } }

/-- Moving the command on: `PHASE`, and the space its next instruction is selected in. -/
def State.goTo (s : State) (p : Phase) (e : Selector) : State := { s with phase := p, expect := e }

/-! ## Results of operations -/

/-- What an operation of the engine ends in: a value and the state after it, an error raised with the state as the
failing step found it, or a fault of the model. -/
inductive Res (α : Type) where
  | ok (a : α) (s : State)
  | raise (e : Error) (s : State)
  | fault (f : Fault)
deriving Repr

/-- One operation after another; an error or a fault ends the sequence (R342, R343). -/
def Res.bind {α β : Type} (r : Res α) (k : α → State → Res β) : Res β :=
  match r with
  | .ok a s => k a s
  | .raise e s => .raise e s
  | .fault f => .fault f

/-! ## Byte accesses -/

/-- `MemRead(sp, a, 1)` (R14, R71). -/
def readByte (sp : Space) (a : Nat) (s : State) : Res Byte :=
  if a < s.limit sp then .ok ((s.mem sp).read a) s else .fault (.address sp)

/-- `MemWrite(sp, a, 1, v)` (R14). -/
def writeByte (sp : Space) (a : Nat) (v : Byte) (s : State) : Res Unit :=
  if a < s.limit sp then .ok () (s.withMem sp ((s.mem sp).write a v)) else .fault (.address sp)

/-! ## Errors -/

/-- The code of an error (R340). -/
def Error.code : Error → BitVec 4
  | .badSignature => 1
  | .malformedPng => 2
  | .unsupportedMethod => 3
  | .badZlibHeader => 4
  | .checksumMismatch => 5
  | .invalidHuffmanCode => 6
  | .invalidBackReference => 7
  | .lengthMismatch => 8
  | .unsupportedBitDepth => 9
  | .unsupportedColorType => 10
  | .truncatedInput => 11
  | .outOfMemory => 12

/-- `count` free `w`-bit values of the draw `draw`, from place `place` up. -/
def freeList (w draw place count : Nat) : List (BitVec w) :=
  (List.range count).map (fun i => Config.freeBits w draw (place + i))

/-- A table of capacity `n` whose every entry is a free value (R40, R345); places `place` to `place + n + 29`. -/
def Table.free (draw place n : Nat) : Table where
  maxCode := (freeList 32 draw place 15).map BitVec.toInt
  offset := (freeList 32 draw (place + 15) 15).map BitVec.toInt
  symbols := freeList 9 draw (place + 30) n

/-- The tables and the line buffers with unspecified contents (R370): free values, the buffers of the length they had. -/
def Engine.freeTables (draw : Nat) (e : Engine) : Engine :=
  { e with
    lt := Table.free draw 1000 288
    dt := Table.free draw 2000 32
    ct := Table.free draw 3000 19
    rcn := { e.rcn with
      prev := (List.range e.rcn.prev.length).map (fun i => Config.freeBits 8 draw (4000 + 2 * i))
      cur := (List.range e.rcn.cur.length).map (fun i => Config.freeBits 8 draw (4001 + 2 * i)) } }

/-- Every internal register with an unspecified value (R345, U9). -/
def Engine.free (draw : Nat) (e : Engine) : Engine :=
  { e.freeTables draw with
    br := ⟨Config.freeBits 32 draw 0, Config.freeBits 32 draw 1, Config.freeBits 6 draw 2⟩
    bfinal := Config.freeBits 1 draw 3
    btype := Config.freeBits 2 draw 4
    blk := ⟨Config.freeBits 9 draw 5, Config.freeBits 9 draw 6, Config.freeBits 5 draw 7, Config.freeBits 16 draw 8,
      Config.freeBits 9 draw 9⟩
    sto := ⟨Config.freeBits 16 draw 10, Config.freeBits 16 draw 11, Config.freeBits 16 draw 12⟩
    hdr := ⟨Config.freeBits 9 draw 13, Config.freeBits 6 draw 14, Config.freeBits 5 draw 15, freeList 3 draw 100 19,
      freeList 4 draw 200 320, Config.freeBits 9 draw 16⟩
    rcn := { (e.freeTables draw).rcn with
      bpp := Config.freeBits 3 draw 17
      stride := Config.freeBits 34 draw 18
      y := Config.freeBits 32 draw 19
      x := Config.freeBits 34 draw 20
      ft := Config.freeBits 8 draw 21 } }

/-- How many bytes of `SINK`, from 0 up, have been written since the last INFLATE emptied it: `SINK_LEN` (R180, R73), or, once `SINK_LEN`
has wrapped, every byte it can address (notes/assumptions/27.md). -/
def State.sinkFilled (s : State) : Nat :=
  min (if s.sinkWrapped then 2 ^ 32 else s.sinkLen.toNat) s.config.sinkLimit

/-- How many bytes of `SINK`, from 0 up, the running INFLATE has written: none before the command has emptied the sink. -/
def State.sinkWritten (s : State) : Nat :=
  match s.phase with
  | .header | .stored | .dynhdr | .symbols => s.sinkFilled
  | .idle | .rcheck | .rows | .done | .error => 0

/-- How many bytes of `PIX`, from 0 up, the running RECON has written: the rows before the current one (R271, R280). -/
def State.pixWritten (s : State) : Nat :=
  match s.phase with
  | .rows => min (s.eng.rcn.y.toNat * s.imgWidth.toNat * 4) s.config.pixLimit
  | .idle | .header | .stored | .dynhdr | .symbols | .rcheck | .done | .error => 0

/-- The result registers and the memory of a failed INFLATE (R345). -/
def State.dropInflate (s : State) : State :=
  { s with
    sinkMem := s.sinkMem.scramble (s.draws + 1) s.sinkWritten
    sinkLen := 0
    sinkCap := 0
    sinkWrapped := false
    consumed := 0 }

/-- The result register and the memory of a failed RECON (R345). -/
def State.dropRecon (s : State) : State :=
  { s with
    pixMem := s.pixMem.scramble (s.draws + 1) s.pixWritten
    pixLen := 0 }

/-- `raise E` (R345): the command ends in ERROR. The result registers of the command that failed are cleared, what it
wrote to its memory and every internal register becomes unspecified, and `STATUS` says which error it was. -/
def State.raiseError (e : Error) (s : State) : State :=
  let t := if s.last = 1 then s.dropInflate else if s.last = 2 then s.dropRecon else s
  { t with
    phase := .error
    expect := .cmd
    eng := s.eng.free s.draws
    err := e.code
    runState := .error
    draws := s.draws + 2 }

/-- How an instruction's operations end: in the state they leave, in the ERROR state, or in a fault of the model. -/
def Res.finish (r : Res Unit) : Host.Outcome State Fault Refusal :=
  match r with
  | .ok _ s => .next s
  | .raise e s => .next (s.raiseError e)
  | .fault f => .fault f

/-! ## The Byte Sink -/

/-- The capacity a growth step asks for (R80). -/
def growCap (cap : Nat) : Nat := max (cap * 2) 1024

/-- The first half of R80: growing the sink when it is full. -/
def growSink (s : State) : Res Unit :=
  if s.sinkLen = s.sinkCap then
    if growCap s.sinkCap.toNat > s.config.sinkLimit then .raise .outOfMemory s
    else .ok () { s with sinkCap := BitVec.ofNat 32 (growCap s.sinkCap.toNat) }
  else .ok () s

/-- `push(v)` (R80), and the model's own note that `SINK_LEN` has wrapped. -/
def push (v : Byte) (s : State) : Res Unit :=
  (growSink s).bind fun _ s =>
  (writeByte .sink s.sinkLen.toNat v s).bind fun _ s =>
  .ok () { s with sinkLen := s.sinkLen + 1, sinkWrapped := s.sinkWrapped || decide (s.sinkLen + 1 = 0) }

/-- The byte a back-reference copies next (R81): the one `DIST` behind the sink's end. R226 checks `DIST` once, before the copy, so only
where a `SINK_LIMIT` of 2^32 or more lets `SINK_LEN` wrap within the copy does `DIST` pass it. `SINK_LEN - DIST` is then negative (R13),
an address without a meaning in the spec, and the byte is a free value. DESIGN CHOICE (notes/assumptions/26.md). -/
def readBehind (s : State) : Res Byte :=
  if s.eng.blk.dist.toNat ≤ s.sinkLen.toNat then readByte .sink (s.sinkLen.toNat - s.eng.blk.dist.toNat) s
  else .ok (Config.freeBits 8 s.draws 0) { s with draws := s.draws + 1 }

/-- The copy loop of R226, `n` bytes to go: each byte is read behind the sink's end as it stands before its push (R81). -/
def copyBack : Nat → State → Res Unit
  | 0, s => .ok () s
  | n + 1, s =>
    (readBehind s).bind fun b s =>
    (push b s).bind fun _ s =>
    copyBack n (s.withBlk { s.eng.blk with copyLeft := BitVec.ofNat 9 n })

/-- Back-reference check and copy (R226). -/
def backReference (s : State) : Res Unit :=
  if s.eng.blk.dist.toNat = 0 ∨ s.eng.blk.dist.toNat > s.sinkLen.toNat then .raise .invalidBackReference s
  else copyBack s.eng.blk.length.toNat (s.withBlk { s.eng.blk with copyLeft := s.eng.blk.length })

/-! ## Completion -/

/-- An INFLATE ends DONE (R188). -/
def State.completeInflate (s : State) : State :=
  { s with consumed := s.eng.br.pos, phase := .done, runState := .done, expect := .cmd }

/-- The end of a block body (R181): the command completes after the final block, and otherwise the next header follows
from the next bit. -/
def State.endBlock (s : State) : State :=
  if s.eng.bfinal = 1 then s.completeInflate else s.goTo .header .bh

/-- A RECON ends DONE (R268). -/
def State.completeRecon (s : State) : State :=
  { s with
    pixLen := BitVec.ofNat 32 (s.imgWidth.toNat * s.imgHeight.toNat * 4)
    phase := .done
    runState := .done
    expect := .cmd }

end Sys2Proof.Machine
end

