-- ==== Sys2Proof/Machine/BitReader.lean ====
section
/-! DEFINITION. The Bit Reader (spec 40_bit_reader.md): the byte fetch and the three operations. -/

namespace Sys2Proof.Machine

/-- The byte fetch (R142). Callers test its precondition `BR_POS < IN_SIZE`. -/
def fetchByte (s : State) : Res Unit :=
  (readByte .input (s.inBase.toNat + s.eng.br.pos.toNat) s).bind fun b s =>
  .ok () (s.withBr
    { pos := s.eng.br.pos + 1
      acc := s.eng.br.acc ||| (b.setWidth 32 <<< s.eng.br.cnt.toNat)
      cnt := s.eng.br.cnt + 8 })

/-- The refill loop of R143. The first argument bounds the fetches: each adds 8 bits, so `n` of them always suffice for a
request of `n`. -/
def refill : Nat → Nat → State → Res Unit
  | 0, _, s => .ok () s
  | fuel + 1, n, s =>
    if s.eng.br.cnt.toNat < n then
      if s.inSize ≤ s.eng.br.pos then .raise .truncatedInput s
      else (fetchByte s).bind fun _ s => refill fuel n s
    else .ok () s

/-- `read_bits(n)` (R143), for n in 0 to 25. -/
def readBits (n : Nat) (s : State) : Res Nat :=
  (refill n n s).bind fun _ s =>
  .ok (s.eng.br.acc.toNat % 2 ^ n)
    (s.withBr { s.eng.br with acc := s.eng.br.acc >>> n, cnt := s.eng.br.cnt - BitVec.ofNat 6 n })

/-- `align_to_byte()` (R145). -/
def alignToByte (s : State) : State := s.withBr { s.eng.br with acc := 0, cnt := 0 }

/-- `read_byte_aligned()` (R146). -/
def readByteAligned (s : State) : Res Byte :=
  let s := alignToByte s
  if s.inSize ≤ s.eng.br.pos then .raise .truncatedInput s
  else
    (readByte .input (s.inBase.toNat + s.eng.br.pos.toNat) s).bind fun b s =>
    .ok b (s.withBr { s.eng.br with pos := s.eng.br.pos + 1 })

/-- Two bytes read low byte first (R77, R184). -/
def readPairAligned (s : State) : Res (BitVec 16) :=
  (readByteAligned s).bind fun lo s =>
  (readByteAligned s).bind fun hi s =>
  .ok (hi ++ lo) s

end Sys2Proof.Machine
end

