-- ==== Sys2Proof/Machine/Huffman.lean ====
section
/-! DEFINITION. The Huffman table builder and decoder (spec 41_huffman_table.md). -/

namespace Sys2Proof.Machine

/-- `bl_count[L]` (R161): how many symbols have code length `L`; `bl_count[0]` is 0, since length 0 is not counted (R163). -/
def codeCount (lengths : List Nat) (L : Nat) : Nat :=
  if L = 0 then 0 else lengths.count L

/-- `first[L]` (R161): the first code of length `L`. -/
def firstCode (lengths : List Nat) : Nat → Nat
  | 0 => 0
  | L + 1 => (firstCode lengths L + codeCount lengths L) * 2

/-- `start[L]` (R161): the slot of the first symbol of length `L`. -/
def startSlot (lengths : List Nat) : Nat → Nat
  | 0 => 0
  | L + 1 => startSlot lengths L + codeCount lengths L

/-- The symbols of code length `L`, in index order (R162). -/
def symbolsOfLength (lengths : List Nat) (L : Nat) : List Nat :=
  lengths.zipIdx.filterMap fun p => if p.1 = L then some p.2 else none

/-- The symbols in slot order: R161 gives length `L` the slots from `start[L]` up and fills them in index order, so the
filled slots hold the symbols of length 1, then those of length 2, and so on to 15. -/
def usedSymbols (lengths : List Nat) : List Nat :=
  (List.range 15).flatMap fun k => symbolsOfLength lengths (k + 1)

/-- `T.max_code[L]` (R161). -/
def maxCodeOf (lengths : List Nat) (L : Nat) : Int :=
  if codeCount lengths L = 0 then -1 else (firstCode lengths L : Int) + codeCount lengths L - 1

/-- `T.offset[L]` (R161). -/
def offsetOf (lengths : List Nat) (L : Nat) : Int :=
  (startSlot lengths L : Int) - firstCode lengths L

/-- `build` (R161) for a table of capacity `cap`. The slots past the last used one are left unspecified: free values of
the draw `draw`. It never fails (R167). -/
def buildTable (cap : Nat) (lengths : List Nat) (draw : Nat) : Table where
  maxCode := (List.range 15).map fun k => maxCodeOf lengths (k + 1)
  offset := (List.range 15).map fun k => offsetOf lengths (k + 1)
  symbols := (usedSymbols lengths).map (BitVec.ofNat 9) ++ freeList 9 draw 0 (cap - (usedSymbols lengths).length)

/-- Building `LT` (capacity 288). -/
def State.buildLt (s : State) (lengths : List Nat) : State :=
  { s with eng := { s.eng with lt := buildTable 288 lengths s.draws }, draws := s.draws + 1 }

/-- Building `DT` (capacity 32). -/
def State.buildDt (s : State) (lengths : List Nat) : State :=
  { s with eng := { s.eng with dt := buildTable 32 lengths s.draws }, draws := s.draws + 1 }

/-- Building `CT` (capacity 19). -/
def State.buildCt (s : State) (lengths : List Nat) : State :=
  { s with eng := { s.eng with ct := buildTable 19 lengths s.draws }, draws := s.draws + 1 }

/-- `T.symbols[i]` for an index that may lie outside the table; the spec proves that it does not (R169). -/
def symbolAt (t : Table) (i : Int) (s : State) : Res Nat :=
  if i < 0 then .fault .regIndex
  else
    match t.symbols[i.toNat]? with
    | some sym => .ok sym.toNat s
    | none => .fault .regIndex

/-- The loop of `decode` (R168) with `fuel` lengths left to try: `L` is the list place of the current length (length
`L + 1`), and `v` the value read so far. -/
def decodeFrom (t : Table) : Nat → Nat → Nat → State → Res Nat
  | 0, _, _, s => .raise .invalidHuffmanCode s
  | fuel + 1, L, v, s =>
    (readBits 1 s).bind fun b s =>
    match t.maxCode[L]?, t.offset[L]? with
    | some m, some o =>
      if 0 ≤ m ∧ ((2 * v + b : Nat) : Int) ≤ m then symbolAt t (o + (2 * v + b : Nat)) s
      else decodeFrom t fuel (L + 1) (2 * v + b) s
    | _, _ => .fault .regIndex

/-- `decode(T)` (R168): up to 15 code bits. -/
def decodeSymbol (t : Table) (s : State) : Res Nat := decodeFrom t 15 0 0 s

end Sys2Proof.Machine
end

