-- ==== Sys2Proof/Machine/Operands.lean ====
section
/-! DEFINITION. The constant tables (spec 10_state.md R42) and the operand forms (30_encoding.md R108). -/

namespace Sys2Proof.Machine

/-- `FIXED_LIT_LEN[0..287]` (R221). -/
def fixedLitLen : List Nat :=
  List.replicate 144 8 ++ List.replicate 112 9 ++ List.replicate 24 7 ++ List.replicate 8 8

/-- `FIXED_DIST_LEN[0..31]` (R221). -/
def fixedDistLen : List Nat := List.replicate 32 5

/-- `LEN_BASE[0..28]` (R224). -/
def lenBase : List Nat :=
  [3, 4, 5, 6, 7, 8, 9, 10, 11, 13, 15, 17, 19, 23, 27, 31, 35, 43, 51, 59, 67, 83, 99, 115, 131, 163, 195, 227, 258]

/-- `LEN_EXTRA[0..28]` (R224). -/
def lenExtra : List Nat :=
  [0, 0, 0, 0, 0, 0, 0, 0, 1, 1, 1, 1, 2, 2, 2, 2, 3, 3, 3, 3, 4, 4, 4, 4, 5, 5, 5, 5, 0]

/-- `DIST_BASE[0..29]` (R225). -/
def distBase : List Nat :=
  [1, 2, 3, 4, 5, 7, 9, 13, 17, 25, 33, 49, 65, 97, 129, 193, 257, 385, 513, 769, 1025, 1537, 2049, 3073, 4097, 6145,
    8193, 12289, 16385, 24577]

/-- `DIST_EXTRA[0..29]` (R225). -/
def distExtra : List Nat :=
  [0, 0, 0, 0, 1, 1, 2, 2, 3, 3, 4, 4, 5, 5, 6, 6, 7, 7, 8, 8, 9, 9, 10, 10, 11, 11, 12, 12, 13, 13]

/-- `PERM[0..18]` (R201). -/
def perm : List Nat := [16, 17, 18, 0, 8, 7, 9, 6, 10, 5, 11, 4, 12, 3, 13, 2, 14, 1, 15]

/-- `IMG_FORMAT.DEPTH` (R34). -/
def State.depth (s : State) : BitVec 8 := s.imgFormat.extractLsb' 0 8

/-- `IMG_FORMAT.CTYPE` (R34). -/
def State.ctype (s : State) : BitVec 8 := s.imgFormat.extractLsb' 8 8

/-- A length symbol's operand (R108, R224): `LENGTH <- base + read_bits(extra)`; the distance operand follows. -/
def readLength (sym base extra : Nat) (s : State) : Res Unit :=
  (readBits extra s).bind fun v s =>
  .ok () (s.withBlk { s.eng.blk with sym := BitVec.ofNat 9 sym, length := BitVec.ofNat 9 (base + v) })

/-- A distance symbol's operand (R108, R225): `DIST <- base + read_bits(extra)`. -/
def readDistance (dsym base extra : Nat) (s : State) : Res Unit :=
  let s := s.withBlk { s.eng.blk with dsym := BitVec.ofNat 5 dsym }
  (readBits extra s).bind fun v s =>
  .ok () (s.withBlk { s.eng.blk with dist := BitVec.ofNat 16 (base + v) })

/-- A code-length run's operand (R108): `rep <- base + read_bits(extra)`. -/
def readRepeat (base extra : Nat) (s : State) : Res Nat :=
  (readBits extra s).bind fun v s => .ok (base + v) s

end Sys2Proof.Machine
end

