-- ==== Sys2Proof/Machine/Block.lean ====
section
/-! DEFINITION. The block-header instructions (spec 42_stream_decoder.md R183 to R187). The header itself, `BFINAL` and `BTYPE`,
has been read when one of them runs (R182). -/

namespace Sys2Proof.Machine

/-- The copy loop of R184, `n` bytes to go. -/
def copyStored : Nat → State → Res Unit
  | 0, s => .ok () s
  | n + 1, s =>
    (readByteAligned s).bind fun b s =>
    (push b s).bind fun _ s =>
    copyStored n (s.withSto { s.eng.sto with left := BitVec.ofNat 16 n })

/-- A stored block's body (R184). -/
def storedBody (s : State) : Res Unit :=
  (readPairAligned (alignToByte (s.goTo .stored .bh))).bind fun len s =>
  (readPairAligned (s.withSto { s.eng.sto with len := len })).bind fun nlen s =>
  let s := s.withSto { s.eng.sto with nlen := nlen }
  if len ≠ ~~~nlen then .raise .lengthMismatch s
  else copyStored len.toNat (s.withSto { s.eng.sto with left := len })

/-- STORED (R184), and the end of the block (R181). -/
def execStored (s : State) : Host.Outcome State Fault Refusal :=
  ((storedBody s).bind fun _ s => .ok () s.endBlock).finish

/-- FIXED (R185): both tables are built from the constant lengths; the symbol loop follows. -/
def execFixed (s : State) : Host.Outcome State Fault Refusal :=
  .next (((s.buildLt fixedLitLen).buildDt fixedDistLen).goTo .symbols .ll)

/-- The loop over the code-length-code lengths (R200, R201): one 3-bit field for each of the given symbols. -/
def readCodeLengthLengths : List Nat → State → Res Unit
  | [], s => .ok () s
  | p :: ps, s =>
    (readBits 3 s).bind fun v s =>
    readCodeLengthLengths ps (s.withHdr { s.eng.hdr with cll := s.eng.hdr.cll.set p (BitVec.ofNat 3 v) })

/-- The fixed part of a dynamic header (R200), up to `NL <- 0`. -/
def dynamicHeader (s : State) : Res Unit :=
  (readBits 5 (s.goTo .dynhdr .cl)).bind fun v s =>
  (readBits 5 (s.withHdr { s.eng.hdr with hlit := BitVec.ofNat 9 (v + 257) })).bind fun v s =>
  (readBits 4 (s.withHdr { s.eng.hdr with hdist := BitVec.ofNat 6 (v + 1) })).bind fun v s =>
  (readCodeLengthLengths (perm.take (v + 4))
    (s.withHdr { s.eng.hdr with hclen := BitVec.ofNat 5 (v + 4), cll := List.replicate 19 0 })).bind fun _ s =>
  let s := s.buildCt (s.eng.hdr.cll.map BitVec.toNat)
  .ok () (s.withHdr { s.eng.hdr with nl := 0 })

/-- DYNAMIC (R186): the header's fixed part; the code-length instructions follow (R200, R202). -/
def execDynamic (s : State) : Host.Outcome State Fault Refusal := (dynamicHeader s).finish

/-- BTYPE_RSVD (R187): "type 3 is invalid and fails immediately". -/
def execBtypeRsvd (s : State) : Host.Outcome State Fault Refusal :=
  .next (s.raiseError .invalidHuffmanCode)

end Sys2Proof.Machine
end

