-- ==== Sys2Proof/Machine/CodeLength.lean ====
section
/-! DEFINITION. The code-length instructions (spec 43_dynamic_header.md R202 to R207). -/

namespace Sys2Proof.Machine

/-- How many code lengths the header declares: `HLIT + HDIST` (R200). -/
def State.lengthsWanted (s : State) : Nat := s.eng.hdr.hlit.toNat + s.eng.hdr.hdist.toNat

/-- Writing `rep` entries of `LENS` from `NL` up and moving `NL` past them. `LENS` has 320 entries (R41). -/
def fillLens (rep : Nat) (l : BitVec 4) (s : State) : Res Unit :=
  if s.eng.hdr.nl.toNat + rep ≤ 320 then
    .ok () (s.withHdr { s.eng.hdr with
      lens := s.eng.hdr.lens.take s.eng.hdr.nl.toNat ++ List.replicate rep l ++
        s.eng.hdr.lens.drop (s.eng.hdr.nl.toNat + rep)
      nl := s.eng.hdr.nl + BitVec.ofNat 9 rep })
  else .fault .regIndex

/-- The loop test of R200 after an instruction: either the next code-length instruction follows, or the sequence is split (R208),
both tables are built (R200, R209) and the symbol loop begins (R186). -/
def State.continueHeader (s : State) : State :=
  if s.eng.hdr.nl.toNat < s.lengthsWanted then s.goTo .dynhdr .cl
  else
    ((s.buildLt ((s.eng.hdr.lens.take s.eng.hdr.hlit.toNat).map BitVec.toNat)).buildDt
      (((s.eng.hdr.lens.drop s.eng.hdr.hlit.toNat).take s.eng.hdr.hdist.toNat).map BitVec.toNat)).goTo .symbols .ll

/-- The run overflow check (R207), then the run itself. -/
def checkedRun (rep : Nat) (l : BitVec 4) (s : State) : Res Unit :=
  if s.eng.hdr.nl.toNat + rep > s.lengthsWanted then .raise .invalidHuffmanCode s
  else (fillLens rep l s).bind fun _ s => .ok () s.continueHeader

/-- CL_LEN (R203). -/
def execClLen (l : BitVec 4) (s : State) : Host.Outcome State Fault Refusal :=
  ((fillLens 1 l s).bind fun _ s => .ok () s.continueHeader).finish

/-- CL_REP (R204): the previous length, 3 to 6 times; its absence is tested before the extra bits are read. -/
def execClRep (s : State) : Host.Outcome State Fault Refusal :=
  Res.finish <|
    if s.eng.hdr.nl = 0 then .raise .invalidHuffmanCode s
    else
      match s.eng.hdr.lens[s.eng.hdr.nl.toNat - 1]? with
      | some prev => (readRepeat 3 2 s).bind fun rep s => checkedRun rep prev s
      | none => .fault .regIndex

/-- CL_ZERO3 (R205): 3 to 10 zero lengths. -/
def execClZero3 (s : State) : Host.Outcome State Fault Refusal :=
  ((readRepeat 3 3 s).bind fun rep s => checkedRun rep 0 s).finish

/-- CL_ZERO11 (R206): 11 to 138 zero lengths. -/
def execClZero11 (s : State) : Host.Outcome State Fault Refusal :=
  ((readRepeat 11 7 s).bind fun rep s => checkedRun rep 0 s).finish

end Sys2Proof.Machine
end

