-- ==== Sys2Proof/Machine/Flags.lean ====
section
/-! DEFINITION. The flags and the status register (spec 10_state.md R24, R25, R37). IPDE has no condition codes. -/

namespace Sys2Proof.Machine

/-- The two bits of `STATUS.STATE` (R25). -/
def RunState.code : RunState → BitVec 2
  | .idle => 0
  | .busy => 1
  | .done => 2
  | .error => 3

/-- `STATUS` as the host reads it (R25): `STATE` [1:0], `ERR` [7:4], `LAST` [9:8], every other bit 0. -/
def State.statusWord (s : State) : Word :=
  (0 : BitVec 22) ++ s.last ++ s.err ++ (0 : BitVec 2) ++ s.runState.code

/-- Starting a command (R24): `STATE <- BUSY`, `ERR <- 0`, `LAST <- v` in one step. -/
def State.startCommand (s : State) (v : BitVec 2) : State :=
  { s with runState := .busy, err := 0, last := v }

/-- `BFINAL` and `BTYPE`, written by the block-header read and by nothing else (R37, R182). -/
def State.withHeaderFlags (s : State) (bfinal btype : Nat) : State :=
  { s with eng := { s.eng with bfinal := BitVec.ofNat 1 bfinal, btype := BitVec.ofNat 2 btype } }

end Sys2Proof.Machine
end

