-- ==== Sys2Proof/Machine/Command.lean ====
section
/-! DEFINITION. The command instructions: what a write to `CMD` does (spec 10_state.md R24). Each checks for itself that no
command is BUSY. -/

namespace Sys2Proof.Machine

/-- The beginning of an INFLATE (R180), after `STATUS` has been written: the slice check, and a new Bit Reader and Byte Sink. The block
loop (R181) then runs step by step. -/
def startInflate (s : State) : Res Unit :=
  if s.inBase.toNat + s.inSize.toNat > s.config.inLimit then .raise .truncatedInput s
  else .ok () { s.withBr ⟨0, 0, 0⟩ with sinkLen := 0, sinkCap := 0, sinkWrapped := false, phase := .header, expect := .bh }

/-- INFLATE (R24, R180). -/
def execInflate (s : State) : Host.Outcome State Fault Refusal :=
  if s.runState = .busy then .next s else (startInflate (s.startCommand 1)).finish

/-- RECON (R24, R260): the parameter checks begin with `DEPTH` (R261). -/
def execRecon (s : State) : Host.Outcome State Fault Refusal :=
  if s.runState = .busy then .next s else .next ((s.startCommand 2).goTo .rcheck .depth)

/-- CMD_NOP (R24): "A write of any other value ... has no effect". -/
def execCmdNop (_v : Word) (s : State) : Host.Outcome State Fault Refusal := .next s

end Sys2Proof.Machine
end

