-- ==== Sys2Proof/Machine/Distance.lean ====
section
/-! DEFINITION. The distance instructions (spec 44_block_decoder.md R225, R226, R228; 45_length_distance_symbols.md R440 to R469). The
symbol's code has been read when one of them runs. -/

namespace Sys2Proof.Machine

/-- The distance operand and the back-reference (R225, R226); the next literal/length symbol follows. -/
def distanceSymbol (dsym base extra : Nat) (s : State) : Host.Outcome State Fault Refusal :=
  ((readDistance dsym base extra s).bind fun _ s =>
   (backReference s).bind fun _ s => .ok () (s.goTo .symbols .ll)).finish

/-- DS_RSVD (R228). No distance extra bits are read. -/
def execDsRsvd (_sym : BitVec 5) (s : State) : Host.Outcome State Fault Refusal :=
  .next (s.raiseError .invalidHuffmanCode)

/-- DIST0 (R440): `DSYM <- 0`; `DIST <- 1`; then R226. -/
def execDist0 (s : State) : Host.Outcome State Fault Refusal := distanceSymbol 0 1 0 s

/-- DIST1 (R441): `DSYM <- 1`; `DIST <- 2`; then R226. -/
def execDist1 (s : State) : Host.Outcome State Fault Refusal := distanceSymbol 1 2 0 s

/-- DIST2 (R442): `DSYM <- 2`; `DIST <- 3`; then R226. -/
def execDist2 (s : State) : Host.Outcome State Fault Refusal := distanceSymbol 2 3 0 s

/-- DIST3 (R443): `DSYM <- 3`; `DIST <- 4`; then R226. -/
def execDist3 (s : State) : Host.Outcome State Fault Refusal := distanceSymbol 3 4 0 s

/-- DIST4 (R444): `DSYM <- 4`; `DIST <- 5 + read_bits(1)`; then R226. -/
def execDist4 (s : State) : Host.Outcome State Fault Refusal := distanceSymbol 4 5 1 s

/-- DIST5 (R445): `DSYM <- 5`; `DIST <- 7 + read_bits(1)`; then R226. -/
def execDist5 (s : State) : Host.Outcome State Fault Refusal := distanceSymbol 5 7 1 s

/-- DIST6 (R446): `DSYM <- 6`; `DIST <- 9 + read_bits(2)`; then R226. -/
def execDist6 (s : State) : Host.Outcome State Fault Refusal := distanceSymbol 6 9 2 s

/-- DIST7 (R447): `DSYM <- 7`; `DIST <- 13 + read_bits(2)`; then R226. -/
def execDist7 (s : State) : Host.Outcome State Fault Refusal := distanceSymbol 7 13 2 s

/-- DIST8 (R448): `DSYM <- 8`; `DIST <- 17 + read_bits(3)`; then R226. -/
def execDist8 (s : State) : Host.Outcome State Fault Refusal := distanceSymbol 8 17 3 s

/-- DIST9 (R449): `DSYM <- 9`; `DIST <- 25 + read_bits(3)`; then R226. -/
def execDist9 (s : State) : Host.Outcome State Fault Refusal := distanceSymbol 9 25 3 s

/-- DIST10 (R450): `DSYM <- 10`; `DIST <- 33 + read_bits(4)`; then R226. -/
def execDist10 (s : State) : Host.Outcome State Fault Refusal := distanceSymbol 10 33 4 s

/-- DIST11 (R451): `DSYM <- 11`; `DIST <- 49 + read_bits(4)`; then R226. -/
def execDist11 (s : State) : Host.Outcome State Fault Refusal := distanceSymbol 11 49 4 s

/-- DIST12 (R452): `DSYM <- 12`; `DIST <- 65 + read_bits(5)`; then R226. -/
def execDist12 (s : State) : Host.Outcome State Fault Refusal := distanceSymbol 12 65 5 s

/-- DIST13 (R453): `DSYM <- 13`; `DIST <- 97 + read_bits(5)`; then R226. -/
def execDist13 (s : State) : Host.Outcome State Fault Refusal := distanceSymbol 13 97 5 s

/-- DIST14 (R454): `DSYM <- 14`; `DIST <- 129 + read_bits(6)`; then R226. -/
def execDist14 (s : State) : Host.Outcome State Fault Refusal := distanceSymbol 14 129 6 s

/-- DIST15 (R455): `DSYM <- 15`; `DIST <- 193 + read_bits(6)`; then R226. -/
def execDist15 (s : State) : Host.Outcome State Fault Refusal := distanceSymbol 15 193 6 s

/-- DIST16 (R456): `DSYM <- 16`; `DIST <- 257 + read_bits(7)`; then R226. -/
def execDist16 (s : State) : Host.Outcome State Fault Refusal := distanceSymbol 16 257 7 s

/-- DIST17 (R457): `DSYM <- 17`; `DIST <- 385 + read_bits(7)`; then R226. -/
def execDist17 (s : State) : Host.Outcome State Fault Refusal := distanceSymbol 17 385 7 s

/-- DIST18 (R458): `DSYM <- 18`; `DIST <- 513 + read_bits(8)`; then R226. -/
def execDist18 (s : State) : Host.Outcome State Fault Refusal := distanceSymbol 18 513 8 s

/-- DIST19 (R459): `DSYM <- 19`; `DIST <- 769 + read_bits(8)`; then R226. -/
def execDist19 (s : State) : Host.Outcome State Fault Refusal := distanceSymbol 19 769 8 s

/-- DIST20 (R460): `DSYM <- 20`; `DIST <- 1025 + read_bits(9)`; then R226. -/
def execDist20 (s : State) : Host.Outcome State Fault Refusal := distanceSymbol 20 1025 9 s

/-- DIST21 (R461): `DSYM <- 21`; `DIST <- 1537 + read_bits(9)`; then R226. -/
def execDist21 (s : State) : Host.Outcome State Fault Refusal := distanceSymbol 21 1537 9 s

/-- DIST22 (R462): `DSYM <- 22`; `DIST <- 2049 + read_bits(10)`; then R226. -/
def execDist22 (s : State) : Host.Outcome State Fault Refusal := distanceSymbol 22 2049 10 s

/-- DIST23 (R463): `DSYM <- 23`; `DIST <- 3073 + read_bits(10)`; then R226. -/
def execDist23 (s : State) : Host.Outcome State Fault Refusal := distanceSymbol 23 3073 10 s

/-- DIST24 (R464): `DSYM <- 24`; `DIST <- 4097 + read_bits(11)`; then R226. -/
def execDist24 (s : State) : Host.Outcome State Fault Refusal := distanceSymbol 24 4097 11 s

/-- DIST25 (R465): `DSYM <- 25`; `DIST <- 6145 + read_bits(11)`; then R226. -/
def execDist25 (s : State) : Host.Outcome State Fault Refusal := distanceSymbol 25 6145 11 s

/-- DIST26 (R466): `DSYM <- 26`; `DIST <- 8193 + read_bits(12)`; then R226. -/
def execDist26 (s : State) : Host.Outcome State Fault Refusal := distanceSymbol 26 8193 12 s

/-- DIST27 (R467): `DSYM <- 27`; `DIST <- 12289 + read_bits(12)`; then R226. -/
def execDist27 (s : State) : Host.Outcome State Fault Refusal := distanceSymbol 27 12289 12 s

/-- DIST28 (R468): `DSYM <- 28`; `DIST <- 16385 + read_bits(13)`; then R226. -/
def execDist28 (s : State) : Host.Outcome State Fault Refusal := distanceSymbol 28 16385 13 s

/-- DIST29 (R469): `DSYM <- 29`; `DIST <- 24577 + read_bits(13)`; then R226. -/
def execDist29 (s : State) : Host.Outcome State Fault Refusal := distanceSymbol 29 24577 13 s

end Sys2Proof.Machine
end

