-- ==== Sys2Proof/Machine/Filter.lean ====
section
/-! DEFINITION. The filter instructions (spec 46_pixel_reconstructor.md R263 to R271). The row's filter-type byte has been read
when one of them runs. -/

namespace Sys2Proof.Machine

/-- A predictor: the value added to a raw byte, from the left, above and above-left neighbours (R263). -/
abbrev Predictor := Byte → Byte → Byte → Byte

/-- R264: `pred = 0`. -/
def predNone : Predictor := fun _ _ _ => 0

/-- R265: `pred = a`. -/
def predSub : Predictor := fun a _ _ => a

/-- R266: `pred = b`. -/
def predUp : Predictor := fun _ b _ => b

/-- R267: `pred = (a + b) >> 1`, the sum in full precision. -/
def predAvg : Predictor := fun a b _ => BitVec.ofNat 8 ((a.toNat + b.toNat) / 2)

/-- `PaethPredictor(a, b, c)` (R270), in signed integers and with its exact branch order. -/
def paethPredictor : Predictor := fun a b c =>
  let p : Int := (a.toNat : Int) + b.toNat - c.toNat
  let pa := (p - a.toNat).natAbs
  let pb := (p - b.toNat).natAbs
  let pc := (p - c.toNat).natAbs
  if pa ≤ pb ∧ pa ≤ pc then a else if pb ≤ pc then b else c

/-- The scanline's first byte in `SINK` (R110, R263). -/
def State.rowBase (s : State) : Nat := s.eng.rcn.y.toNat * (s.eng.rcn.stride.toNat + 1)

/-- A neighbour `BPP` bytes back in a row, or straight above with `back = 0` (R263): 0 outside the image; `none` past the end of
the line buffer. -/
def neighbour (inside : Bool) (row : List Byte) (X back : Nat) : Option Byte :=
  if inside && back ≤ X then row[X - back]? else some 0

/-- The byte loop of R263 with `n` bytes to go from byte `X` on; `done` holds the reconstructed bytes before `X`. -/
def rowBytes (pred : Predictor) (s : State) : Nat → Nat → List Byte → Res (List Byte)
  | 0, _, done => .ok done s
  | n + 1, X, done =>
    (readByte .sink (s.rowBase + 1 + X) s).bind fun raw s =>
    match neighbour true done X s.eng.rcn.bpp.toNat, neighbour (s.eng.rcn.y != 0) s.eng.rcn.prev X 0,
        neighbour (s.eng.rcn.y != 0) s.eng.rcn.prev X s.eng.rcn.bpp.toNat with
    | some a, some b, some c => rowBytes pred s n (X + 1) (done ++ [raw + pred a b c])
    | _, _, _ => .fault .regIndex

/-- `X` after the byte loop: the last value the loop gave it (R14's `for`, notes/assumptions/13.md). -/
def State.lastByte (s : State) : BitVec 34 :=
  if s.eng.rcn.stride = 0 then s.eng.rcn.x else s.eng.rcn.stride - 1

/-- Reconstructing row `Y` into `CUR` (R263); the formatter follows (R260). -/
def filterRow (ft : Byte) (pred : Predictor) (s : State) : Host.Outcome State Fault Refusal :=
  Res.finish <|
    (rowBytes pred s s.eng.rcn.stride.toNat 0 []).bind fun row s =>
    .ok () ((s.withRcn { s.eng.rcn with ft := ft, cur := row, x := s.lastByte }).goTo .rows .ctype)

/-- FILT_NONE (R264). -/
def execFiltNone (s : State) : Host.Outcome State Fault Refusal := filterRow 0 predNone s

/-- FILT_SUB (R265). -/
def execFiltSub (s : State) : Host.Outcome State Fault Refusal := filterRow 1 predSub s

/-- FILT_UP (R266). -/
def execFiltUp (s : State) : Host.Outcome State Fault Refusal := filterRow 2 predUp s

/-- FILT_AVG (R267). -/
def execFiltAvg (s : State) : Host.Outcome State Fault Refusal := filterRow 3 predAvg s

/-- FILT_PAETH (R269). -/
def execFiltPaeth (s : State) : Host.Outcome State Fault Refusal := filterRow 4 paethPredictor s

/-- FT_RSVD (R271), raised before any byte of the row is written (R263). -/
def execFtRsvd (_ft : Byte) (s : State) : Host.Outcome State Fault Refusal :=
  .next (s.raiseError .malformedPng)

end Sys2Proof.Machine
end

