-- ==== Sys2Proof/Machine/LitLen.lean ====
section
/-! DEFINITION. The literal/length instructions (spec 44_block_decoder.md R222 to R224, R227; 45_length_distance_symbols.md R400
to R428). The symbol's code has been read when one of them runs (R220). -/

namespace Sys2Proof.Machine

/-- LIT (R222): `push(SYM)`; the next symbol follows. -/
def execLit (b : Byte) (s : State) : Host.Outcome State Fault Refusal :=
  ((push b s).bind fun _ s => .ok () (s.goTo .symbols .ll)).finish

/-- EOB (R223): back to the block loop. -/
def execEob (s : State) : Host.Outcome State Fault Refusal := .next s.endBlock

/-- LL_RSVD (R227): "Any other symbol value is `InvalidHuffmanCode`". No extra bits are read. -/
def execLlRsvd (_sym : BitVec 9) (s : State) : Host.Outcome State Fault Refusal :=
  .next (s.raiseError .invalidHuffmanCode)

/-- The LENGTH family (R224): the length, and then the distance operand, which is the next instruction
(notes/assumptions/3.md). -/
def lengthSymbol (sym base extra : Nat) (s : State) : Host.Outcome State Fault Refusal :=
  ((readLength sym base extra s).bind fun _ s => .ok () (s.goTo .symbols .ds)).finish

/-- LEN257 (R400): `LENGTH <- 3`. -/
def execLen257 (s : State) : Host.Outcome State Fault Refusal := lengthSymbol 257 3 0 s

/-- LEN258 (R401): `LENGTH <- 4`. -/
def execLen258 (s : State) : Host.Outcome State Fault Refusal := lengthSymbol 258 4 0 s

/-- LEN259 (R402): `LENGTH <- 5`. -/
def execLen259 (s : State) : Host.Outcome State Fault Refusal := lengthSymbol 259 5 0 s

/-- LEN260 (R403): `LENGTH <- 6`. -/
def execLen260 (s : State) : Host.Outcome State Fault Refusal := lengthSymbol 260 6 0 s

/-- LEN261 (R404): `LENGTH <- 7`. -/
def execLen261 (s : State) : Host.Outcome State Fault Refusal := lengthSymbol 261 7 0 s

/-- LEN262 (R405): `LENGTH <- 8`. -/
def execLen262 (s : State) : Host.Outcome State Fault Refusal := lengthSymbol 262 8 0 s

/-- LEN263 (R406): `LENGTH <- 9`. -/
def execLen263 (s : State) : Host.Outcome State Fault Refusal := lengthSymbol 263 9 0 s

/-- LEN264 (R407): `LENGTH <- 10`. -/
def execLen264 (s : State) : Host.Outcome State Fault Refusal := lengthSymbol 264 10 0 s

/-- LEN265 (R408): `LENGTH <- 11 + read_bits(1)`. -/
def execLen265 (s : State) : Host.Outcome State Fault Refusal := lengthSymbol 265 11 1 s

/-- LEN266 (R409): `LENGTH <- 13 + read_bits(1)`. -/
def execLen266 (s : State) : Host.Outcome State Fault Refusal := lengthSymbol 266 13 1 s

/-- LEN267 (R410): `LENGTH <- 15 + read_bits(1)`. -/
def execLen267 (s : State) : Host.Outcome State Fault Refusal := lengthSymbol 267 15 1 s

/-- LEN268 (R411): `LENGTH <- 17 + read_bits(1)`. -/
def execLen268 (s : State) : Host.Outcome State Fault Refusal := lengthSymbol 268 17 1 s

/-- LEN269 (R412): `LENGTH <- 19 + read_bits(2)`. -/
def execLen269 (s : State) : Host.Outcome State Fault Refusal := lengthSymbol 269 19 2 s

/-- LEN270 (R413): `LENGTH <- 23 + read_bits(2)`. -/
def execLen270 (s : State) : Host.Outcome State Fault Refusal := lengthSymbol 270 23 2 s

/-- LEN271 (R414): `LENGTH <- 27 + read_bits(2)`. -/
def execLen271 (s : State) : Host.Outcome State Fault Refusal := lengthSymbol 271 27 2 s

/-- LEN272 (R415): `LENGTH <- 31 + read_bits(2)`. -/
def execLen272 (s : State) : Host.Outcome State Fault Refusal := lengthSymbol 272 31 2 s

/-- LEN273 (R416): `LENGTH <- 35 + read_bits(3)`. -/
def execLen273 (s : State) : Host.Outcome State Fault Refusal := lengthSymbol 273 35 3 s

/-- LEN274 (R417): `LENGTH <- 43 + read_bits(3)`. -/
def execLen274 (s : State) : Host.Outcome State Fault Refusal := lengthSymbol 274 43 3 s

/-- LEN275 (R418): `LENGTH <- 51 + read_bits(3)`. -/
def execLen275 (s : State) : Host.Outcome State Fault Refusal := lengthSymbol 275 51 3 s

/-- LEN276 (R419): `LENGTH <- 59 + read_bits(3)`. -/
def execLen276 (s : State) : Host.Outcome State Fault Refusal := lengthSymbol 276 59 3 s

/-- LEN277 (R420): `LENGTH <- 67 + read_bits(4)`. -/
def execLen277 (s : State) : Host.Outcome State Fault Refusal := lengthSymbol 277 67 4 s

/-- LEN278 (R421): `LENGTH <- 83 + read_bits(4)`. -/
def execLen278 (s : State) : Host.Outcome State Fault Refusal := lengthSymbol 278 83 4 s

/-- LEN279 (R422): `LENGTH <- 99 + read_bits(4)`. -/
def execLen279 (s : State) : Host.Outcome State Fault Refusal := lengthSymbol 279 99 4 s

/-- LEN280 (R423): `LENGTH <- 115 + read_bits(4)`. -/
def execLen280 (s : State) : Host.Outcome State Fault Refusal := lengthSymbol 280 115 4 s

/-- LEN281 (R424): `LENGTH <- 131 + read_bits(5)`. -/
def execLen281 (s : State) : Host.Outcome State Fault Refusal := lengthSymbol 281 131 5 s

/-- LEN282 (R425): `LENGTH <- 163 + read_bits(5)`. -/
def execLen282 (s : State) : Host.Outcome State Fault Refusal := lengthSymbol 282 163 5 s

/-- LEN283 (R426): `LENGTH <- 195 + read_bits(5)`. -/
def execLen283 (s : State) : Host.Outcome State Fault Refusal := lengthSymbol 283 195 5 s

/-- LEN284 (R427): `LENGTH <- 227 + read_bits(5)`. -/
def execLen284 (s : State) : Host.Outcome State Fault Refusal := lengthSymbol 284 227 5 s

/-- LEN285 (R428): `LENGTH <- 258`. -/
def execLen285 (s : State) : Host.Outcome State Fault Refusal := lengthSymbol 285 258 0 s

end Sys2Proof.Machine
end

