-- ==== Sys2Proof/Machine/Pixel.lean ====
section
/-! DEFINITION. The instructions that the fields of `IMG_FORMAT` select (spec 46_pixel_reconstructor.md R261, R262;
47_rgba_formatter.md R280 to R284). A colour type acts twice in a RECON: in the parameter checks it gives `BPP`, and after
each reconstructed row it formats the row (notes/assumptions/21.md). -/

namespace Sys2Proof.Machine

/-- The checks of R261 that follow the colour type's, in their order, and the beginning of the row loop (R260). -/
def checkImage (bpp : Nat) (s : State) : Res Unit :=
  let s := s.withRcn { s.eng.rcn with bpp := BitVec.ofNat 3 bpp }
  if s.imgWidth = 0 ∨ s.imgHeight = 0 then .raise .malformedPng s
  else if s.imgWidth.toNat * s.imgHeight.toNat * 4 > s.config.pixLimit then .raise .outOfMemory s
  else
    let s := s.withRcn { s.eng.rcn with stride := BitVec.ofNat 34 (s.imgWidth.toNat * bpp) }
    if s.sinkLen.toNat < s.imgHeight.toNat * (s.imgWidth.toNat * bpp + 1) then .raise .malformedPng s
    else .ok () ((s.withRcn { s.eng.rcn with y := 0 }).goTo .rows .sl)

/-- What a formatter makes of a pixel's samples: the bytes R, G, B, A (R78, R280); `none` for a wrong number of samples. -/
abbrev Formatter := List Byte → Option (Byte × Byte × Byte × Byte)

/-- R281: `fmt = (G, G, G, 255)`. -/
def fmtGray : Formatter
  | [g] => some (g, g, g, 255)
  | _ => none

/-- R282: `fmt = (R, G, B, 255)`. -/
def fmtRgb : Formatter
  | [r, g, b] => some (r, g, b, 255)
  | _ => none

/-- R283: `fmt = (G, G, G, A)`. -/
def fmtGraya : Formatter
  | [g, a] => some (g, g, g, a)
  | _ => none

/-- R284: `fmt = (R, G, B, A)`. -/
def fmtRgba : Formatter
  | [r, g, b, a] => some (r, g, b, a)
  | _ => none

/-- The loop of R280 with `n` pixels to go from pixel `x` on. -/
def formatPixels (fmt : Formatter) : Nat → Nat → State → Res Unit
  | 0, _, s => .ok () s
  | n + 1, x, s =>
    match fmt ((s.eng.rcn.cur.drop (x * s.eng.rcn.bpp.toNat)).take s.eng.rcn.bpp.toNat) with
    | none => .fault .regIndex
    | some (r, g, b, al) =>
      let o := (s.eng.rcn.y.toNat * s.imgWidth.toNat + x) * 4
      (writeByte .pix o r s).bind fun _ s =>
      (writeByte .pix (o + 1) g s).bind fun _ s =>
      (writeByte .pix (o + 2) b s).bind fun _ s =>
      (writeByte .pix (o + 3) al s).bind fun _ s =>
      formatPixels fmt n (x + 1) s

/-- The end of a row (R260): `PREV <- CUR`, and then the next row or completion (R268). After the last row `Y` keeps its
value (notes/assumptions/13.md). -/
def State.endRow (s : State) : State :=
  let s := s.withRcn { s.eng.rcn with prev := s.eng.rcn.cur }
  if s.eng.rcn.y.toNat + 1 < s.imgHeight.toNat then
    (s.withRcn { s.eng.rcn with y := s.eng.rcn.y + 1 }).goTo .rows .sl
  else s.completeRecon

/-- The row formatter (R280) and the end of the row. -/
def formatRow (fmt : Formatter) (s : State) : Res Unit :=
  (formatPixels fmt s.imgWidth.toNat 0 s).bind fun _ s => .ok () s.endRow

/-- A colour type's instruction: the rest of the checks, or the row formatter. -/
def colourType (bpp : Nat) (fmt : Formatter) (s : State) : Host.Outcome State Fault Refusal :=
  Res.finish <| if s.phase = .rcheck then checkImage bpp s else formatRow fmt s

/-- FMT_GRAY (R262, R281). -/
def execFmtGray (s : State) : Host.Outcome State Fault Refusal := colourType 1 fmtGray s

/-- FMT_RGB (R262, R282). -/
def execFmtRgb (s : State) : Host.Outcome State Fault Refusal := colourType 3 fmtRgb s

/-- FMT_GRAYA (R262, R283). -/
def execFmtGraya (s : State) : Host.Outcome State Fault Refusal := colourType 2 fmtGraya s

/-- FMT_RGBA (R262, R284). -/
def execFmtRgba (s : State) : Host.Outcome State Fault Refusal := colourType 4 fmtRgba s

/-- CTYPE_RSVD (R261): `raise UnsupportedColorType`. -/
def execCtypeRsvd (_c : Byte) (s : State) : Host.Outcome State Fault Refusal :=
  .next (s.raiseError .unsupportedColorType)

/-- DEPTH8 (R261): the first check passes; the colour type's follows. -/
def execDepth8 (s : State) : Host.Outcome State Fault Refusal := .next (s.goTo .rcheck .ctype)

/-- DEPTH_RSVD (R261): `raise UnsupportedBitDepth`. -/
def execDepthRsvd (_d : Byte) (s : State) : Host.Outcome State Fault Refusal :=
  .next (s.raiseError .unsupportedBitDepth)

end Sys2Proof.Machine
end

