-- ==== Sys2Proof/Machine/HostFraming.lean ====
section
/-! DEFINITION. The host's framing (spec 48_host_framing.md): the zlib envelope's checks and checksum, the PNG parser, and
the sequence of host acts that each amounts to. -/

namespace Sys2Proof.Machine

/-- A big-endian number (R301, R311). -/
def bigEndian (bytes : List Byte) : Nat := bytes.foldl (fun acc b => acc * 256 + b.toNat) 0

/-! ## The zlib envelope -/

/-- The zlib checks, in their order (R302, R303); `none` when all pass. -/
def zlibCheck (z : List Byte) : Option Error :=
  if z.length < 6 then some .truncatedInput
  else if (z.getD 0 0).toNat % 16 ≠ 8 then some .unsupportedMethod
  else if ((z.getD 0 0).toNat * 256 + (z.getD 1 0).toNat) % 31 ≠ 0 then some .badZlibHeader
  else if (z.getD 1 0).getLsbD 5 then some .unsupportedMethod
  else none

/-- The Adler-32 trailer: the last four bytes, the first the most significant (R301). -/
def zlibTrailer (z : List Byte) : Word := BitVec.ofNat 32 (bigEndian (z.drop (z.length - 4)))

/-- One byte of the Adler-32 sums `(s1, s2)` (R305). -/
def adlerStep (p : Nat × Nat) (b : Byte) : Nat × Nat :=
  ((p.1 + b.toNat) % 65521, (p.2 + (p.1 + b.toNat) % 65521) % 65521)

/-- Adler-32 (R305). -/
def adler32 (d : List Byte) : Word :=
  BitVec.ofNat 32 ((d.foldl adlerStep (1, 0)).2 * 65536 + (d.foldl adlerStep (1, 0)).1)

/-- The acts that place bytes in `IN` from address `a` up (R304). -/
def loadActs : Nat → List Byte → List HostAct
  | _, [] => []
  | a, b :: bs => .memWrite .input a b :: loadActs (a + 1) bs

/-- The envelope from placing the buffer to the trailer check (R304 to R306). -/
def zlibActs (z : List Byte) (a : Nat) : List HostAct :=
  loadActs a z ++
  [.regWrite 4 0x08 (BitVec.ofNat 32 (a + 2)), .regWrite 4 0x0C (BitVec.ofNat 32 (z.length - 6)), .regWrite 4 0x00 1, .poll,
    .checkStatus, .checkAdler (zlibTrailer z)]

/-- RECON and its result (R320). -/
def reconActs (w h : Word) (depth ctype : Byte) : List HostAct :=
  [.regWrite 4 0x1C w, .regWrite 4 0x20 h, .regWrite 4 0x24 (depth.setWidth 32 ||| (ctype.setWidth 32 <<< 8)),
    .regWrite 4 0x00 2, .poll, .checkStatus, .takePix w h]

/-- A job fails (R304, R306, R320): its result is the error, and the acts left of it are dropped. -/
def State.failJob (s : State) (code : BitVec 4) : State :=
  { s with result := some (.failed code), script := (s.script.dropWhile (· != .endJob)).drop 1 }

/-- Where the host places a buffer of `size` bytes in `IN`: at the address it chose, moved down where the buffer would
pass the end (R304 asks for `A + size ≤ IN_LIMIT`; notes/assumptions/12.md). -/
def State.placeAt (s : State) (a size : Nat) : Nat := min a (s.config.inLimit - size)

/-- Starting the envelope on `z` with the acts `after` to follow it: the checks of R302, then whether the buffer fits in
`IN` (R304), and then the acts. -/
def State.startZlib (s : State) (z : List Byte) (a : Nat) (after : List HostAct) : State :=
  match zlibCheck z with
  | some e => { s with result := some (.failed e.code) }
  | none =>
    if z.length > s.config.inLimit then { s with result := some (.failed Error.outOfMemory.code) }
    else
      { s with
        result := none
        script := zlibActs z (s.placeAt a z.length) ++ after ++ .endJob :: s.script }

/-! ## The PNG parser -/

/-- The PNG signature (R310). -/
def pngSignature : List Byte := [0x89, 0x50, 0x4E, 0x47, 0x0D, 0x0A, 0x1A, 0x0A]

/-- The chunk types the parser knows (R312), as four ASCII bytes. -/
def typeIhdr : List Byte := [0x49, 0x48, 0x44, 0x52]
def typeIdat : List Byte := [0x49, 0x44, 0x41, 0x54]
def typeIend : List Byte := [0x49, 0x45, 0x4E, 0x44]

/-- What the parser captures (R312). -/
structure PngRecord where
  width : Word
  height : Word
  depth : Byte
  ctype : Byte
  idat : List Byte
deriving DecidableEq, Repr

/-- What a chunk does to the record (R313, R314, R317). -/
def pngChunk (type payload : List Byte) (r : PngRecord) : PngRecord :=
  if type = typeIhdr ∧ 13 ≤ payload.length then
    { r with
      width := BitVec.ofNat 32 (bigEndian (payload.take 4))
      height := BitVec.ofNat 32 (bigEndian ((payload.drop 4).take 4))
      depth := payload.getD 8 0
      ctype := payload.getD 9 0 }
  else if type = typeIdat then { r with idat := r.idat ++ payload }
  else r

/-- The chunk walk (R312) over the bytes from `q` on. Each round takes at least 12 bytes, so the file's length bounds the
rounds. -/
def pngWalk : Nat → List Byte → PngRecord → Except Error PngRecord
  | 0, _, r => .ok r
  | fuel + 1, f, r =>
    if f.length < 12 then .ok r
    else
      let ln := bigEndian (f.take 4)
      let type := (f.drop 4).take 4
      if 12 + ln > f.length then .error .malformedPng
      else if type = typeIend then .ok r
      else pngWalk fuel (f.drop (12 + ln)) (pngChunk type ((f.drop 8).take ln) r)

/-- The final checks (R316). -/
def pngFinal (r : PngRecord) : Except Error PngRecord :=
  if r.width = 0 ∨ r.height = 0 ∨ r.idat = [] then .error .malformedPng else .ok r

/-- The PNG parser (R310 to R317). -/
def pngParse (f : List Byte) : Except Error PngRecord :=
  if f.take 8 ≠ pngSignature then .error .badSignature
  else (pngWalk f.length (f.drop 8) ⟨0, 0, 0, 0, []⟩).bind pngFinal

/-! ## The decode entry point -/

/-- Starting the decode entry point (R320): the parser, then the envelope, then RECON. -/
def State.startDecode (s : State) (f : List Byte) (a : Nat) : State :=
  match pngParse f with
  | .error e => { s with result := some (.failed e.code) }
  | .ok r => s.startZlib r.idat a (reconActs r.width r.height r.depth r.ctype)

end Sys2Proof.Machine
end

