-- ==== Sys2Proof/Machine/HostPort.lean ====
section
/-! DEFINITION. The host's accesses (spec 10_state.md R21 to R35; 20_memory.md R70; 70_reset_and_hazards.md R370, R380). -/

namespace Sys2Proof.Machine

/-- What a host act does with the step it is given: it ends in an outcome, hands a value to `CMD`, leaves the step to the engine,
or tears the engine's instruction with a reset. -/
inductive HostMove where
  | over (o : Host.Outcome State Fault Refusal)
  | command (v : Nat) (s : State)
  | engine (s : State)
  | torn (s : State)
deriving Repr

/-- A register access the spec gives a meaning to: 32 bits, at a multiple of 4, within the 4 KiB (R22). -/
def regAccessOk (bytes off : Nat) : Bool := bytes == 4 && off % 4 == 0 && off < 4096

/-- A write to a register other than `CMD`. The five writable registers keep their value while BUSY (R23); `IMG_FORMAT` has 16 writable
bits (R34); every other offset ignores it (R21, R22). -/
def State.writeReg (s : State) (off : Nat) (v : Word) : State :=
  if s.runState = .busy then s
  else if off = 0x08 then { s with inBase := v }
  else if off = 0x0C then { s with inSize := v }
  else if off = 0x1C then { s with imgWidth := v }
  else if off = 0x20 then { s with imgHeight := v }
  else if off = 0x24 then { s with imgFormat := v &&& 0xFFFF }
  else s

/-- A read of a result register: a free value while BUSY (R23). -/
def State.readResult (s : State) (v : Word) : State :=
  if s.runState = .busy then { s with readData := Config.freeBits 32 s.draws 0, draws := s.draws + 1 }
  else { s with readData := v }

/-- A read of a register (R21): `CMD` and the offsets without a register read 0 (R22, R24). -/
def State.readReg (s : State) (off : Nat) : State :=
  if off = 0x04 then { s with readData := s.statusWord }
  else if off = 0x08 then { s with readData := s.inBase }
  else if off = 0x0C then { s with readData := s.inSize }
  else if off = 0x10 then s.readResult s.consumed
  else if off = 0x14 then s.readResult s.sinkLen
  else if off = 0x18 then s.readResult s.sinkCap
  else if off = 0x1C then { s with readData := s.imgWidth }
  else if off = 0x20 then { s with readData := s.imgHeight }
  else if off = 0x24 then { s with readData := s.imgFormat }
  else if off = 0x28 then s.readResult s.pixLen
  else { s with readData := 0 }

/-- A host access to the first `n` bytes of a memory, with what it leads to: refused while BUSY (R380), a fault past the end (R70). -/
def hostAccess (s : State) (sp : Space) (n : Nat) (k : State) : Host.Outcome State Fault Refusal :=
  if s.runState = .busy then .refused .hostMemoryWhileBusy
  else if s.limit sp < n then .fault (.address sp)
  else .next k

/-- Reset (R370) with the first `nSink` bytes of `SINK` and `nPix` of `PIX` unspecified: every register as listed there; the tables and
line buffers unspecified; every other byte of the memories unchanged. The host's own fields stay. -/
def State.resetFreeing (s : State) (nSink nPix : Nat) : State :=
  { State.reset with
    config := s.config
    eng := { Engine.atReset with
      lt := (s.eng.freeTables s.draws).lt
      dt := (s.eng.freeTables s.draws).dt
      ct := (s.eng.freeTables s.draws).ct
      rcn := { Engine.atReset.rcn with
        prev := (s.eng.freeTables s.draws).rcn.prev
        cur := (s.eng.freeTables s.draws).rcn.cur } }
    inMem := s.inMem
    sinkMem := s.sinkMem.scramble (s.draws + 1) nSink
    pixMem := s.pixMem.scramble (s.draws + 1) nPix
    script := s.script
    readData := s.readData
    result := s.result
    draws := s.draws + 2 }

/-- Reset asserted between two instructions: "reset does not change them" (the memories, R370), but for the bytes a command abandoned
while BUSY has written (U14, notes/assumptions/17.md). -/
def State.applyReset (s : State) : State :=
  if s.runState = .busy then s.resetFreeing s.sinkWritten s.pixWritten else s.resetFreeing 0 0

/-- How many bytes of `SINK`, from 0 up, the last command has written by the end of the instruction that led to this state. An error has
made them unspecified already (R345). -/
def State.sinkTouched (s : State) : Nat :=
  if s.last = 1 then s.sinkFilled else 0

/-- The same of `PIX`: the whole image after the last row (`PIX_LEN` may have wrapped, R13), and otherwise the rows before the
current one. -/
def State.pixTouched (s : State) : Nat :=
  if s.last = 2 then if s.runState = .done then min (s.imgWidth.toNat * s.imgHeight.toNat * 4) s.config.pixLimit else s.pixWritten else 0

/-- Reset asserted within the engine's next instruction, given how that instruction would end: the command is abandoned without
completing (R370), and every byte it may have written, those of that instruction included, is unspecified (U14,
notes/assumptions/22.md). A waiting engine runs no instruction, so the reset finds nothing to tear. -/
def State.tornReset (s : State) (o : Host.Outcome State Fault Refusal) : Host.Outcome State Fault Refusal :=
  if s.runState = .busy then
    match o with
    | .next t => .next (t.resetFreeing t.sinkTouched t.pixTouched)
    | .fault f => .fault f
    | .refused r => .refused r
  else .next s.applyReset

/-- One host act, in the state `s` whose script has already lost it. -/
def hostAct (act : HostAct) (s : State) : HostMove :=
  match act with
  | .regWrite bytes off v =>
    if regAccessOk bytes off = false then .over (.refused .registerAccess)
    else if off = 0 then .command v.toNat s
    else .over (.next (s.writeReg off v))
  | .regRead bytes off =>
    if regAccessOk bytes off = false then .over (.refused .registerAccess) else .over (.next (s.readReg off))
  | .memWrite sp a v => .over (hostAccess s sp (a + 1) (s.withMem sp ((s.mem sp).write a v)))
  | .memRead sp a => .over (hostAccess s sp (a + 1) { s with readData := ((s.mem sp).read a).setWidth 32 })
  | .poll =>
    if s.runState = .busy then .engine { s with script := .poll :: s.script }
    else .over (.next { s with readData := s.statusWord })
  | .letRun => .engine s
  | .assertReset => .over (.next s.applyReset)
  | .assertResetWithin => .torn s
  | .checkStatus => .over (.next (if s.runState = .error then s.failJob s.err else s))
  | .checkAdler trailer =>
    .over (hostAccess s .sink s.sinkLen.toNat
      (if adler32 (s.sinkMem.readTo s.sinkLen.toNat) = trailer then s else s.failJob Error.checksumMismatch.code))
  | .takeSink =>
    .over (hostAccess s .sink s.sinkLen.toNat { s with result := some (.bytes (s.sinkMem.readTo s.sinkLen.toNat)) })
  | .takePix w h =>
    .over (hostAccess s .pix s.pixLen.toNat { s with result := some (.image w h (s.pixMem.readTo s.pixLen.toNat)) })
  | .endJob => .over (.next s)
  | .zlib z a => .over (.next (s.startZlib z a [.takeSink]))
  | .decodePng f a => .over (.next (s.startDecode f a))

end Sys2Proof.Machine
end

