-- ==== Sys2Proof/WellFormed.lean ====
section
/-! DEFINITION. When an instruction is well formed: its operand is a value that the opcode table gives to it.

Only the reserved ranges can be ill formed, since every other operand's type already has exactly the legal values. -/

namespace Sys2Proof

/-- `true` iff the operand lies in the range the opcode table (R112) gives the mnemonic. -/
def Instr.wf : Instr → Bool
  | .cmdNop v => v != 1 && v != 2
  | .llRsvd sym => 286 ≤ sym.toNat
  | .dsRsvd sym => 30 ≤ sym.toNat
  | .ftRsvd ft => 5 ≤ ft.toNat
  | .ctypeRsvd c => c != 0 && c != 2 && c != 4 && c != 6
  | .depthRsvd d => d != 8
  | .inflate | .recon | .stored | .fixed | .dynamic | .btypeRsvd => true
  | .clLen _ | .clRep | .clZero3 | .clZero11 | .lit _ | .eob => true
  | .len257 | .len258 | .len259 | .len260 | .len261 | .len262 | .len263 | .len264 | .len265 | .len266 => true
  | .len267 | .len268 | .len269 | .len270 | .len271 | .len272 | .len273 | .len274 | .len275 | .len276 => true
  | .len277 | .len278 | .len279 | .len280 | .len281 | .len282 | .len283 | .len284 | .len285 => true
  | .dist0 | .dist1 | .dist2 | .dist3 | .dist4 | .dist5 | .dist6 | .dist7 | .dist8 | .dist9 => true
  | .dist10 | .dist11 | .dist12 | .dist13 | .dist14 | .dist15 | .dist16 | .dist17 | .dist18 | .dist19 => true
  | .dist20 | .dist21 | .dist22 | .dist23 | .dist24 | .dist25 | .dist26 | .dist27 | .dist28 | .dist29 => true
  | .filtNone | .filtSub | .filtUp | .filtAvg | .filtPaeth => true
  | .fmtGray | .fmtRgb | .fmtGraya | .fmtRgba | .depth8 => true

end Sys2Proof
end

