-- ==== Sys2Proof/Decode.lean ====
section
/-! DEFINITION. The decoder, total on every value in every selector space, and after it the encoder.

`decodeSel` is the machine's decoder: the step (Machine/Step.lean) gives it the selecting value it has read and the
space it was read in. `decodeTableWord` is the same decoder behind the opcode table's numbering, for the host's probe. -/

namespace Sys2Proof

/-- The length instructions in symbol order, 257 first (R112, R400 to R428). -/
def lengthInstrs : List Instr :=
  [.len257, .len258, .len259, .len260, .len261, .len262, .len263, .len264, .len265, .len266,
   .len267, .len268, .len269, .len270, .len271, .len272, .len273, .len274, .len275, .len276,
   .len277, .len278, .len279, .len280, .len281, .len282, .len283, .len284, .len285]

/-- The distance instructions in symbol order, 0 first (R112, R440 to R469). -/
def distanceInstrs : List Instr :=
  [.dist0, .dist1, .dist2, .dist3, .dist4, .dist5, .dist6, .dist7, .dist8, .dist9,
   .dist10, .dist11, .dist12, .dist13, .dist14, .dist15, .dist16, .dist17, .dist18, .dist19,
   .dist20, .dist21, .dist22, .dist23, .dist24, .dist25, .dist26, .dist27, .dist28, .dist29]

/-- The value written to `CMD` (R24). -/
def decodeCmd (v : Nat) : Option Instr :=
  if v = 1 then some .inflate
  else if v = 2 then some .recon
  else if v < 2 ^ 32 then some (.cmdNop (BitVec.ofNat 32 v))
  else none

/-- `BTYPE` (R183). -/
def decodeBlockType (v : Nat) : Option Instr :=
  if v = 0 then some .stored
  else if v = 1 then some .fixed
  else if v = 2 then some .dynamic
  else if v = 3 then some .btypeRsvd
  else none

/-- A code-length symbol (R202): 0 to 18 and no other. -/
def decodeCodeLength (v : Nat) : Option Instr :=
  if v < 16 then some (.clLen (BitVec.ofNat 4 v))
  else if v = 16 then some .clRep
  else if v = 17 then some .clZero3
  else if v = 18 then some .clZero11
  else none

/-- A literal/length symbol, in the order of R220's tests. The last case is R220's "else": a 9-bit value above 287, which no table
holds, is taken with 286 and 287 (notes/assumptions/14.md). -/
def decodeLitLen (v : Nat) : Option Instr :=
  if v ≤ 255 then some (.lit (BitVec.ofNat 8 v))
  else if v = 256 then some .eob
  else if v ≤ 285 then lengthInstrs[v - 257]?
  else if v < 512 then some (.llRsvd (BitVec.ofNat 9 v))
  else none

/-- A distance symbol (R225): 0 to 29, then the reserved 30 and 31. -/
def decodeDistance (v : Nat) : Option Instr :=
  if v < 30 then distanceInstrs[v]?
  else if v < 32 then some (.dsRsvd (BitVec.ofNat 5 v))
  else none

/-- A filter-type byte (R263 to R271). -/
def decodeFilter (v : Nat) : Option Instr :=
  if v = 0 then some .filtNone
  else if v = 1 then some .filtSub
  else if v = 2 then some .filtUp
  else if v = 3 then some .filtAvg
  else if v = 4 then some .filtPaeth
  else if v < 256 then some (.ftRsvd (BitVec.ofNat 8 v))
  else none

/-- `IMG_FORMAT.CTYPE` (R261, R262). -/
def decodeColourType (v : Nat) : Option Instr :=
  if v = 0 then some .fmtGray
  else if v = 2 then some .fmtRgb
  else if v = 4 then some .fmtGraya
  else if v = 6 then some .fmtRgba
  else if v < 256 then some (.ctypeRsvd (BitVec.ofNat 8 v))
  else none

/-- `IMG_FORMAT.DEPTH` (R261). -/
def decodeDepth (v : Nat) : Option Instr :=
  if v = 8 then some .depth8
  else if v < 256 then some (.depthRsvd (BitVec.ofNat 8 v))
  else none

/-- The decoder: the instruction that the value `v` selects in the space `sel` (R112); `none` where the space has no
row for it. -/
def decodeSel (sel : Selector) (v : Nat) : Option Instr :=
  match sel with
  | .cmd => decodeCmd v
  | .bh => decodeBlockType v
  | .cl => decodeCodeLength v
  | .ll => decodeLitLen v
  | .ds => decodeDistance v
  | .sl => decodeFilter v
  | .ctype => decodeColourType v
  | .depth => decodeDepth v

/-- The space a row of the opcode table stands in, guessed from its width and value alone. The table numbers each row
within its own space (R118), so one byte value names up to six instructions, and no function of the pair can be right for all of
them: each value is given to one row, so that every space is shown. The two-byte values below 30 are the
rows whose reader-made fields count past bit 7 (notes/assumptions/11.md). Only `decodeTableWord` and `State.withFetchWord` use it. -/
def tableSelector (nbits w : Nat) : Option Selector :=
  if nbits = 32 then some .cmd
  else if nbits = 16 then
    if w = 8 then some .depth
    else if w = 18 then some .cl
    else if 19 ≤ w ∧ w ≤ 29 then some .ds
    else some .ll
  else if nbits = 8 then
    if w ≤ 3 then some .bh
    else if w = 4 then some .sl
    else if w = 6 then some .ctype
    else if w = 8 ∨ w = 9 then some .depth
    else if 16 ≤ w ∧ w ≤ 18 then some .cl
    else if w < 32 then some .ds
    else some .sl
  else none

/-- The instruction the decoder reads from a row of the opcode table whose bits are `w`, numbered as the table numbers
them. -/
def decodeTableWord (nbits w : Nat) : Option Instr :=
  match tableSelector nbits w with
  | some sel => decodeSel sel w
  | none => none

/-! ## The encoder -/

/-- The space an instruction is selected in: the table's column "format" (R112). -/
def Instr.selector : Instr → Selector
  | .inflate | .recon | .cmdNop _ => .cmd
  | .stored | .fixed | .dynamic | .btypeRsvd => .bh
  | .clLen _ | .clRep | .clZero3 | .clZero11 => .cl
  | .lit _ | .eob | .llRsvd _ => .ll
  | .len257 | .len258 | .len259 | .len260 | .len261 | .len262 | .len263 | .len264 | .len265 | .len266 => .ll
  | .len267 | .len268 | .len269 | .len270 | .len271 | .len272 | .len273 | .len274 | .len275 | .len276 => .ll
  | .len277 | .len278 | .len279 | .len280 | .len281 | .len282 | .len283 | .len284 | .len285 => .ll
  | .dist0 | .dist1 | .dist2 | .dist3 | .dist4 | .dist5 | .dist6 | .dist7 | .dist8 | .dist9 => .ds
  | .dist10 | .dist11 | .dist12 | .dist13 | .dist14 | .dist15 | .dist16 | .dist17 | .dist18 | .dist19 => .ds
  | .dist20 | .dist21 | .dist22 | .dist23 | .dist24 | .dist25 | .dist26 | .dist27 | .dist28 | .dist29 => .ds
  | .dsRsvd _ => .ds
  | .filtNone | .filtSub | .filtUp | .filtAvg | .filtPaeth | .ftRsvd _ => .sl
  | .fmtGray | .fmtRgb | .fmtGraya | .fmtRgba | .ctypeRsvd _ => .ctype
  | .depth8 | .depthRsvd _ => .depth

/-- The value that selects an instruction in its space: the table's column "match" with the operand in the masked-out
bits (R112, R118). -/
def encode : Instr → Nat
  | .inflate => 1
  | .recon => 2
  | .cmdNop v => v.toNat
  | .stored => 0
  | .fixed => 1
  | .dynamic => 2
  | .btypeRsvd => 3
  | .clLen l => l.toNat
  | .clRep => 16
  | .clZero3 => 17
  | .clZero11 => 18
  | .lit b => b.toNat
  | .eob => 256
  | .len257 => 257
  | .len258 => 258
  | .len259 => 259
  | .len260 => 260
  | .len261 => 261
  | .len262 => 262
  | .len263 => 263
  | .len264 => 264
  | .len265 => 265
  | .len266 => 266
  | .len267 => 267
  | .len268 => 268
  | .len269 => 269
  | .len270 => 270
  | .len271 => 271
  | .len272 => 272
  | .len273 => 273
  | .len274 => 274
  | .len275 => 275
  | .len276 => 276
  | .len277 => 277
  | .len278 => 278
  | .len279 => 279
  | .len280 => 280
  | .len281 => 281
  | .len282 => 282
  | .len283 => 283
  | .len284 => 284
  | .len285 => 285
  | .llRsvd sym => sym.toNat
  | .dist0 => 0
  | .dist1 => 1
  | .dist2 => 2
  | .dist3 => 3
  | .dist4 => 4
  | .dist5 => 5
  | .dist6 => 6
  | .dist7 => 7
  | .dist8 => 8
  | .dist9 => 9
  | .dist10 => 10
  | .dist11 => 11
  | .dist12 => 12
  | .dist13 => 13
  | .dist14 => 14
  | .dist15 => 15
  | .dist16 => 16
  | .dist17 => 17
  | .dist18 => 18
  | .dist19 => 19
  | .dist20 => 20
  | .dist21 => 21
  | .dist22 => 22
  | .dist23 => 23
  | .dist24 => 24
  | .dist25 => 25
  | .dist26 => 26
  | .dist27 => 27
  | .dist28 => 28
  | .dist29 => 29
  | .dsRsvd sym => sym.toNat
  | .filtNone => 0
  | .filtSub => 1
  | .filtUp => 2
  | .filtAvg => 3
  | .filtPaeth => 4
  | .ftRsvd ft => ft.toNat
  | .fmtGray => 0
  | .fmtRgb => 2
  | .fmtGraya => 4
  | .fmtRgba => 6
  | .ctypeRsvd c => c.toNat
  | .depth8 => 8
  | .depthRsvd d => d.toNat

/-! ## The bit image of a static block's symbols -/

/-- A field's bits in stream order: the low bit first (R75). -/
def bitsLow : Nat → Nat → List Bool
  | 0, _ => []
  | n + 1, v => (v % 2 == 1) :: bitsLow n (v / 2)

/-- A Huffman code's bits in stream order: the high bit of the `n` first (R76). -/
def bitsHigh : Nat → Nat → List Bool
  | 0, _ => []
  | n + 1, v => (v / 2 ^ n % 2 == 1) :: bitsHigh n v

/-- The static code of a literal/length symbol and its length in bits (R113). -/
def staticLitLenCode (sym : Nat) : Nat × Nat :=
  if sym ≤ 143 then (0x30 + sym, 8)
  else if sym ≤ 255 then (0x190 + (sym - 144), 9)
  else if sym ≤ 279 then (sym - 256, 7)
  else (0xC0 + (sym - 280), 8)

/-- The stream bits that spell a literal/length symbol in a static block (R113). -/
def staticLitLenBits (sym : Nat) : List Bool :=
  bitsHigh (staticLitLenCode sym).2 (staticLitLenCode sym).1

/-- The stream bits that spell a distance symbol in a static block (R113): its 5-bit value. -/
def staticDistanceBits (sym : Nat) : List Bool :=
  bitsHigh 5 sym

/-- The value of up to eight bits, the first the least significant (R75). -/
def byteOfBits (bits : List Bool) : Nat :=
  bits.foldr (fun b acc => (if b then 1 else 0) + 2 * acc) 0

/-- Bits packed into bytes in stream order, the last byte padded with zero bits (R116). The first argument bounds the
number of bytes; `bits.length` is always enough. -/
def packBits : Nat → List Bool → List Byte
  | 0, _ => []
  | n + 1, bits =>
    if bits.isEmpty then []
    else BitVec.ofNat 8 (byteOfBits (bits.take 8)) :: packBits n (bits.drop 8)

end Sys2Proof
end

