-- ==== Sys2Proof/Machine/Fetch.lean ====
section
/-! DEFINITION. Fetching: the engine reads the value that selects its next instruction, from the place `State.expect` names. -/

namespace Sys2Proof.Machine

/-- The block header (R182): `BFINAL <- read_bits(1); BTYPE <- read_bits(2)`. It starts at whatever bit the previous block ended on. -/
def fetchHeader (s : State) : Res Nat :=
  (readBits 1 (s.goTo .header .bh)).bind fun f s =>
  (readBits 2 s).bind fun t s =>
  .ok t (s.withHeaderFlags f t)

/-- A literal/length symbol (R220): `SYM <- decode(LT)`. -/
def fetchLitLen (s : State) : Res Nat :=
  (decodeSymbol s.eng.lt s).bind fun v s =>
  .ok v (s.withBlk { s.eng.blk with sym := BitVec.ofNat 9 v })

/-- A distance symbol (R225): `DSYM <- decode(DT)`, a 5-bit register. -/
def fetchDistance (s : State) : Res Nat :=
  (decodeSymbol s.eng.dt s).bind fun v s =>
  .ok (BitVec.ofNat 5 v).toNat (s.withBlk { s.eng.blk with dsym := BitVec.ofNat 5 v })

/-- A scanline's filter type (R263): `FT <- MemRead(SINK, base, 1)`. -/
def fetchFilter (s : State) : Res Nat :=
  (readByte .sink s.rowBase s).bind fun b s =>
  .ok b.toNat (s.withRcn { s.eng.rcn with ft := b })

/-- The selecting value of the engine's next instruction, and the state after reading it. The value of `CMD` comes from the host
(Machine/HostPort.lean), so a BUSY engine never expects it. -/
def fetchSelector (s : State) : Res Nat :=
  match s.expect with
  | .cmd => .fault .regIndex
  | .bh => fetchHeader s
  | .cl => decodeSymbol s.eng.ct s
  | .ll => fetchLitLen s
  | .ds => fetchDistance s
  | .sl => fetchFilter s
  | .ctype => .ok s.ctype.toNat s
  | .depth => .ok s.depth.toNat s

end Sys2Proof.Machine
end

