-- ==== Sys2Proof/Machine/Probe.lean ====
section
/-! DEFINITION. What `State.withFetchWord` sets up: a state whose next step fetches a given selecting value from a given space. -/

namespace Sys2Proof.Machine

/-- A stream that begins with the given bits and goes on with zeros, as the slice `IN[0 .. 64)`, with a fresh Bit Reader. -/
def State.withStream (s : State) (bits : List Bool) : State :=
  { s.withBr ⟨0, 0, 0⟩ with
    inMem := s.inMem.load 0 ((packBits 64 bits ++ List.replicate 64 0).take 64)
    inBase := 0
    inSize := 64 }

/-- A command under way in a given place, and the host silent. -/
def State.inCommand (s : State) (last : BitVec 2) (p : Phase) (e : Selector) : State :=
  { (s.startCommand last).goTo p e with script := [] }

/-- The state in which the next step fetches the value `w` in the space `sel`. The Huffman-coded spaces get the fixed tables (R113), and
the code-length space one with a 5-bit code for every symbol, equal to the symbol. -/
def State.placeWord (s : State) (sel : Selector) (w : Nat) : State :=
  match sel with
  | .cmd => { s with script := .regWrite 4 0 (BitVec.ofNat 32 w) :: s.script }
  | .bh => ((s.inCommand 1 .header .bh).withStream (bitsLow 1 0 ++ bitsLow 2 w))
  | .cl =>
    let s := ((s.inCommand 1 .dynhdr .cl).withStream (bitsHigh 5 w)).buildCt (List.replicate 19 5)
    s.withHdr { s.eng.hdr with hlit := 257, hdist := 1, nl := 0 }
  | .ll => ((s.inCommand 1 .symbols .ll).withStream (staticLitLenBits w)).buildLt fixedLitLen
  | .ds => ((s.inCommand 1 .symbols .ds).withStream (staticDistanceBits w)).buildDt fixedDistLen
  | .sl =>
    let s := s.inCommand 2 .rows .sl
    { s.withRcn { s.eng.rcn with bpp := 1, stride := 1, y := 0 } with
      imgWidth := 1, imgHeight := 1, imgFormat := 8, sinkLen := 2, sinkCap := 1024
      sinkMem := s.sinkMem.load 0 [BitVec.ofNat 8 w, 0] }
  | .ctype => { s.inCommand 2 .rcheck .ctype with imgFormat := BitVec.ofNat 32 (8 + 256 * w) }
  | .depth => { s.inCommand 2 .rcheck .depth with imgFormat := BitVec.ofNat 32 w }

end Sys2Proof.Machine
end

