-- ==== Sys2Proof/Machine/Step.lean ====
section
/-! DEFINITION. One step of the machine: the host's next act, or else one instruction of the engine. -/

namespace Sys2Proof.Machine

/-- One instruction of a BUSY engine: the selecting value is fetched from the place `expect` names, decoded and executed. An error
met in fetching ends the command (R345). -/
def engineStep (s : State) : Host.Outcome State Fault Refusal :=
  match fetchSelector s with
  | .ok v t =>
    match decodeSel s.expect v with
    | some i => exec i t
    | none => .refused .undecodable
  | .raise e t => .next (t.raiseError e)
  | .fault f => .fault f

/-- The engine's turn: one instruction while BUSY; otherwise it waits, in IDLE, DONE and ERROR alike (R350, R373). -/
def engineTurn (s : State) : Host.Outcome State Fault Refusal :=
  if s.runState = .busy then engineStep s else .next s

/-- A value written to `CMD` (R24). -/
def commandStep (v : Nat) (s : State) : Host.Outcome State Fault Refusal :=
  match decodeSel .cmd v with
  | some i => exec i s
  | none => .refused .undecodable

/-- One step. The script says which agent moves: the host does its next act; with none left, or where the act leaves the
step to it, the engine moves. -/
def step (s : State) : Host.Outcome State Fault Refusal :=
  match s.script with
  | [] => engineTurn s
  | act :: rest =>
    match hostAct act { s with script := rest } with
    | .over o => o
    | .command v t => commandStep v t
    | .engine t => engineTurn t
    | .torn t => t.tornReset (engineTurn t)

/-- For the host's probe: the state in which the very next step fetches and runs the table row's instruction
(notes/assumptions/11.md). -/
def State.withFetchWord (s : State) (nbits w : Nat) : State :=
  match tableSelector nbits w with
  | some sel => s.placeWord sel w
  | none => s

end Sys2Proof.Machine
end

