-- ==== Sys2Proof/Safety.lean ====
section
/-! DEFINITION. The vocabulary of the claims: the bits of the stream a command reads, and the invariant of legal states, which
is what counts as a safe run: no state that meets it lets an instruction stop the machine. -/

namespace Sys2Proof

/-- How many values a selecting field has (R112, R118): its width's, but for a code-length symbol, of which there are 19. -/
def Selector.bound : Selector → Nat
  | .cmd => 2 ^ 32
  | .bh => 4
  | .cl => 19
  | .ll => 512
  | .ds => 32
  | .sl => 256
  | .ctype => 256
  | .depth => 256

end Sys2Proof

namespace Sys2Proof.Machine

/-! ## The stream -/

/-- Bit `k` of the slice (R12): bit `k mod 8` of its byte `k div 8`. -/
def State.streamBit (s : State) (k : Nat) : Nat :=
  (s.inMem.read (s.inBase.toNat + k / 8)).toNat / 2 ^ (k % 8) % 2

/-- The field of `n` stream bits from bit `k` on, the first the least significant (R75). -/
def State.streamField (s : State) (k : Nat) : Nat → Nat
  | 0 => 0
  | n + 1 => s.streamField k n + s.streamBit (k + n) * 2 ^ n

/-- The value of `n` stream bits from bit `k` on read as a Huffman code, the first the most significant (R76). -/
def State.streamCode (s : State) (k : Nat) : Nat → Nat
  | 0 => 0
  | n + 1 => 2 * s.streamCode k n + s.streamBit (k + n)

/-- `BITPOS` (R31): how many stream bits have been consumed. -/
def State.bitPos (s : State) : Nat := 8 * s.eng.br.pos.toNat - s.eng.br.cnt.toNat

/-- How many stream bits are left (R144). -/
def State.bitsLeft (s : State) : Nat := 8 * s.inSize.toNat - s.bitPos

/-- The Bit Reader's invariants (R148), with the slice inside `IN` (R180): the buffered bits are the last ones of the bytes fetched. -/
structure ReaderOk (s : State) : Prop where
  slice : s.inBase.toNat + s.inSize.toNat ≤ s.config.inLimit
  pos : s.eng.br.pos.toNat ≤ s.inSize.toNat
  cnt : s.eng.br.cnt.toNat ≤ 7
  fetched : s.eng.br.cnt.toNat ≤ 8 * s.eng.br.pos.toNat
  acc : s.eng.br.acc.toNat = s.streamField s.bitPos s.eng.br.cnt.toNat

/-- The Bit Reader's registers once `k` stream bits have been consumed, in the only way R148 allows: every byte begun is fetched,
and `BR_ACC` holds what is left of the last one. -/
def State.readerAt (s : State) (k : Nat) : BitReader where
  pos := BitVec.ofNat 32 ((k + 7) / 8)
  acc := BitVec.ofNat 32 (s.streamField k (8 * ((k + 7) / 8) - k))
  cnt := BitVec.ofNat 6 (8 * ((k + 7) / 8) - k)

/-- The state whose Bit Reader has consumed `k` stream bits. -/
def State.atBit (s : State) (k : Nat) : State := s.withBr (s.readerAt k)

/-- Byte `p` of the slice (R26, R71). -/
def State.sliceByte (s : State) (p : Nat) : Byte := s.inMem.read (s.inBase.toNat + p)

/-- Bytes `p` and `p + 1` of the slice, the low-order one first (R77). -/
def State.slicePair (s : State) (p : Nat) : BitVec 16 := s.sliceByte (p + 1) ++ s.sliceByte p

/-! ## The tables -/

/-- A list of code lengths that `build` accepts for a table of capacity `cap` (R161). -/
abbrev LengthsOk (cap : Nat) (lengths : List Nat) : Prop :=
  lengths.length ≤ cap ∧ ∀ l ∈ lengths, l ≤ 15

/-- A table that `build` has filled (R160). -/
def Built (cap : Nat) (t : Table) : Prop :=
  ∃ lengths draw, LengthsOk cap lengths ∧ t = buildTable cap lengths draw

/-- How many symbols before `sym` have its code length: the place of its code among those of its length (R162). -/
def codeRank (lengths : List Nat) (sym : Nat) : Nat := (lengths.take sym).count (lengths.getD sym 0)

/-- The code `build` gives a symbol (R162). -/
def codeOf (lengths : List Nat) (sym : Nat) : Nat :=
  firstCode lengths (lengths.getD sym 0) + codeRank lengths sym

/-- The used lengths satisfy the sum of 2^-L ≤ 1 of R170, counted in units of 2^-15. -/
def Kraft (lengths : List Nat) : Prop :=
  ((lengths.filter fun l => 1 ≤ l).map fun l => 2 ^ (15 - l)).sum ≤ 2 ^ 15

/-! `build` as R161 writes it, loop by loop, beside the model's `buildTable`. -/

/-- The counting loop: one length. -/
def countStep (bl : List Nat) (l : Nat) : List Nat :=
  if 1 ≤ l ∧ l ≤ 15 then bl.set l (bl.getD l 0 + 1) else bl

/-- The variables of the loop over `L`; a list's entry `L - 1` is the rule's entry `L`. -/
structure Levels where
  code : Nat
  slot : Nat
  start : List Nat
  maxCode : List Int
  offset : List Int
deriving DecidableEq, Repr

/-- The loop over `L`: one value of `L`. -/
def levelStep (bl : List Nat) (r : Levels) (L : Nat) : Levels where
  code := (r.code + bl.getD (L - 1) 0) * 2
  slot := r.slot + bl.getD L 0
  start := r.start ++ [r.slot]
  maxCode := r.maxCode ++
    [if bl.getD L 0 = 0 then -1 else (((r.code + bl.getD (L - 1) 0) * 2 : Nat) : Int) + bl.getD L 0 - 1]
  offset := r.offset ++ [(r.slot : Int) - ((r.code + bl.getD (L - 1) 0) * 2 : Nat)]

/-- The filling loop: one symbol, with its length before it in the pair. -/
def placeStep (r : List Nat × List (BitVec 9)) (p : Nat × Nat) : List Nat × List (BitVec 9) :=
  if 1 ≤ p.1 then
    (r.1.set (p.1 - 1) (r.1.getD (p.1 - 1) 0 + 1), r.2.set (r.1.getD (p.1 - 1) 0) (BitVec.ofNat 9 p.2))
  else r

/-- The loop over `L` from 1 to 15. -/
def levelsByRule (lengths : List Nat) : Levels :=
  [1, 2, 3, 4, 5, 6, 7, 8, 9, 10, 11, 12, 13, 14, 15].foldl (levelStep (lengths.foldl countStep (List.replicate 16 0)))
    ⟨0, 0, [], [], []⟩

/-- `build` (R161), into a table whose slots hold 0 before. -/
def buildByRule (cap : Nat) (lengths : List Nat) : Table where
  maxCode := (levelsByRule lengths).maxCode
  offset := (levelsByRule lengths).offset
  symbols := (lengths.zipIdx.foldl placeStep ((levelsByRule lengths).start, List.replicate cap 0)).2

/-- `K` (R161): how many symbols are used. -/
def usedCount (lengths : List Nat) : Nat := (lengths.filter fun l => 1 ≤ l).length

/-- A run of `rep` code lengths `l` written into `LENS` from `NL` up, and `NL` moved past it (R203 to R206). -/
def State.filled (s : State) (rep : Nat) (l : BitVec 4) : State :=
  s.withHdr { s.eng.hdr with
    lens := (List.range 320).map fun j =>
      if s.eng.hdr.nl.toNat ≤ j ∧ j < s.eng.hdr.nl.toNat + rep then l else s.eng.hdr.lens.getD j 0
    nl := BitVec.ofNat 9 (s.eng.hdr.nl.toNat + rep) }

/-! ## The sink -/

/-- The capacity of a sink of capacity `cap` that has grown by R80's steps until it holds `need` bytes. The first argument
bounds the steps; `need` is always enough. -/
def capFor : Nat → Nat → Nat → Nat
  | 0, _, cap => cap
  | fuel + 1, need, cap => if need ≤ cap then cap else capFor fuel need (growCap cap)

/-- `SINK_CAP` after `n` pushes (R80). -/
def State.capAfter (s : State) (n : Nat) : Nat := capFor (s.sinkLen.toNat + n) (s.sinkLen.toNat + n) s.sinkCap.toNat

/-- Replacing the sink: its bytes, its length and its capacity. -/
def State.withSink (s : State) (m : Memory) (len cap : Nat) : State :=
  { s with sinkMem := m, sinkLen := BitVec.ofNat 32 len, sinkCap := BitVec.ofNat 32 cap }

/-- `m'` is `m` with the `n` bytes `f 0`, `f 1`, ... stored from address `a` up, in canonical form if `m` is. -/
structure Stored (m m' : Memory) (a n : Nat) (f : Nat → Byte) : Prop where
  wf : m.wf → m'.wf
  inside : m.wf → ∀ k, k < n → m'.read (a + k) = f k
  outside : ∀ x, x < a ∨ a + n ≤ x → m'.read x = m.read x

/-! ## Rows -/

/-- The reconstructed byte `X` of the current row, given the row (R263). -/
def State.rowByte (s : State) (pred : Predictor) (row : List Byte) (X : Nat) : Byte :=
  s.sinkMem.read (s.rowBase + 1 + X) +
    pred (if s.eng.rcn.bpp.toNat ≤ X then row.getD (X - s.eng.rcn.bpp.toNat) 0 else 0)
      (if s.eng.rcn.y ≠ 0 then s.eng.rcn.prev.getD X 0 else 0)
      (if s.eng.rcn.y ≠ 0 ∧ s.eng.rcn.bpp.toNat ≤ X then s.eng.rcn.prev.getD (X - s.eng.rcn.bpp.toNat) 0 else 0)

/-- The premises of the row loop: the row lies in `SINK`, and the previous row is there when there is one. -/
structure RowReady (s : State) : Prop where
  bpp : 1 ≤ s.eng.rcn.bpp.toNat
  data : s.rowBase + 1 + s.eng.rcn.stride.toNat ≤ s.config.sinkLimit
  prev : s.eng.rcn.y ≠ 0 → s.eng.rcn.prev.length = s.eng.rcn.stride.toNat

/-- `row` is the current row reconstructed with the predictor `pred` (R263). -/
structure RowIs (s : State) (pred : Predictor) (row : List Byte) : Prop where
  length : row.length = s.eng.rcn.stride.toNat
  byte : ∀ X, X < s.eng.rcn.stride.toNat → row[X]? = some (s.rowByte pred row X)

/-! ## Errors -/

/-- What `raise E` leaves of the state it is raised in (R345), but for the unspecified contents. -/
structure FailedWith (e : Error) (s t : State) : Prop where
  phase : t.phase = .error
  status : t.runState = .error ∧ t.err = e.code ∧ t.last = s.last
  inflate : s.last = 1 → t.sinkLen = 0 ∧ t.sinkCap = 0 ∧ t.consumed = 0 ∧ t.pixMem = s.pixMem ∧ t.pixLen = s.pixLen
  recon : s.last = 2 → t.pixLen = 0 ∧ t.sinkMem = s.sinkMem ∧ t.sinkLen = s.sinkLen ∧ t.sinkCap = s.sinkCap ∧
    t.consumed = s.consumed
  host : t.inBase = s.inBase ∧ t.inSize = s.inSize ∧ t.imgWidth = s.imgWidth ∧ t.imgHeight = s.imgHeight ∧
    t.imgFormat = s.imgFormat ∧ t.inMem = s.inMem
  model : t.config = s.config ∧ t.script = s.script ∧ t.readData = s.readData ∧ t.result = s.result

/-! ## Files -/

/-- A 32-bit number as four bytes, the most significant first (R311). -/
def wordBytes (v : Word) : List Byte :=
  [v.extractLsb' 24 8, v.extractLsb' 16 8, v.extractLsb' 8 8, v.extractLsb' 0 8]

/-- A PNG chunk (R311): its payload's length, its type, its payload and its CRC. -/
def chunkBytes (type payload crc : List Byte) : List Byte :=
  wordBytes (BitVec.ofNat 32 payload.length) ++ type ++ payload ++ crc

/-! ## Legal states -/

/-- The capacities the sink can have (R30): 0 and 1024 times a power of two. -/
def CapLegal (cap : Nat) : Prop := cap = 0 ∨ ∃ k, cap = 1024 * 2 ^ k

/-- Memories in canonical form and within their sizes (R70). -/
structure MemoryOk (s : State) : Prop where
  wf : ∀ sp, (s.mem sp).wf
  size : ∀ sp, ∀ c ∈ s.mem sp, c.1 < s.limit sp

/-- `STATUS` as R25 allows it: an error code exactly in ERROR, none before the first command, and a command known while one runs. -/
structure StatusOk (s : State) : Prop where
  err : if s.runState = .error then 1 ≤ s.err.toNat ∧ s.err.toNat ≤ 12 else s.err = 0
  last : s.last.toNat ≤ 2
  idle : s.runState = .idle → s.last = 0
  started : s.runState ≠ .idle → s.last ≠ 0

/-- The Byte Sink: "length ≤ capacity always" (R29), with a legal capacity within its limit (R30). -/
structure SinkOk (s : State) : Prop where
  len : s.sinkLen.toNat ≤ s.sinkCap.toNat
  cap : s.sinkCap.toNat ≤ s.config.sinkLimit
  legal : CapLegal s.sinkCap.toNat

/-- The sizes of the internal register files (R40, R41). -/
structure FilesOk (s : State) : Prop where
  cll : s.eng.hdr.cll.length = 19
  lens : s.eng.hdr.lens.length = 320

/-- A dynamic header under way (R200): `CT` is built, the counts are in range and more lengths are wanted. -/
structure HeaderOk (s : State) : Prop where
  ct : Built 19 s.eng.ct
  hlit : 257 ≤ s.eng.hdr.hlit.toNat ∧ s.eng.hdr.hlit.toNat ≤ 288
  hdist : 1 ≤ s.eng.hdr.hdist.toNat ∧ s.eng.hdr.hdist.toNat ≤ 32
  nl : s.eng.hdr.nl.toNat < s.lengthsWanted

/-- An INFLATE under way: which place it can be in, and what holds there. -/
structure InflateOk (s : State) : Prop where
  last : s.last = 1
  reader : ReaderOk s
  place : (s.phase = .header ∧ s.expect = .bh) ∨ (s.phase = .dynhdr ∧ s.expect = .cl ∧ HeaderOk s) ∨
    (s.phase = .symbols ∧ Built 288 s.eng.lt ∧ Built 32 s.eng.dt ∧
      (s.expect = .ll ∨ (s.expect = .ds ∧ 3 ≤ s.eng.blk.length.toNat ∧ s.eng.blk.length.toNat ≤ 258)))

/-- The bytes per pixel of a colour type (R262); 0 for the reserved ones. -/
def bppOf (ctype : BitVec 8) : Nat :=
  if ctype = 0 then 1 else if ctype = 2 then 3 else if ctype = 4 then 2 else if ctype = 6 then 4 else 0

/-- A RECON in its row loop (R260, R261): the checks have passed, and the registers say so. -/
structure RowsOk (s : State) : Prop where
  ctype : s.ctype = 0 ∨ s.ctype = 2 ∨ s.ctype = 4 ∨ s.ctype = 6
  bpp : s.eng.rcn.bpp.toNat = bppOf s.ctype
  stride : s.eng.rcn.stride.toNat = s.imgWidth.toNat * bppOf s.ctype
  size : s.imgWidth.toNat * s.imgHeight.toNat * 4 ≤ s.config.pixLimit
  width : 1 ≤ s.imgWidth.toNat
  data : s.imgHeight.toNat * (s.eng.rcn.stride.toNat + 1) ≤ s.sinkLen.toNat
  y : s.eng.rcn.y.toNat < s.imgHeight.toNat
  prev : s.eng.rcn.y ≠ 0 → s.eng.rcn.prev.length = s.eng.rcn.stride.toNat

/-- A RECON under way: which place it can be in, and what holds there. -/
structure ReconOk (s : State) : Prop where
  last : s.last = 2
  place : (s.phase = .rcheck ∧ s.expect = .depth) ∨ (s.phase = .rcheck ∧ s.expect = .ctype ∧ s.depth = 8) ∨
    (s.phase = .rows ∧ s.depth = 8 ∧ RowsOk s ∧
      (s.expect = .sl ∨ (s.expect = .ctype ∧ s.eng.rcn.cur.length = s.eng.rcn.stride.toNat)))

/-- The waiting states (R350, R373): `PHASE` says how the last command ended, and only `CMD` is read. -/
structure WaitingOk (s : State) : Prop where
  expect : s.expect = .cmd
  phase : (s.runState = .idle ∧ s.phase = .idle) ∨ (s.runState = .done ∧ s.phase = .done) ∨
    (s.runState = .error ∧ s.phase = .error)

/-- The invariant of legal states. -/
structure Inv (s : State) : Prop where
  sized : s.config.Sized
  memory : MemoryOk s
  status : StatusOk s
  sink : SinkOk s
  files : FilesOk s
  format : s.imgFormat.toNat < 2 ^ 16
  pixLen : s.pixLen.toNat ≤ s.config.pixLimit
  running : if s.runState = .busy then InflateOk s ∨ ReconOk s else WaitingOk s

/-- `k` steps, stopping at the first fault or refusal. -/
def runFor : Nat → State → Host.Outcome State Fault Refusal
  | 0, s => .next s
  | k + 1, s =>
    match step s with
    | .next t => runFor k t
    | .fault f => .fault f
    | .refused r => .refused r

/-- A bound on the instructions left of the running command (R189, R384): one for each stream bit left of an INFLATE; two for each
row left of a RECON, and its checks. -/
def State.stepsLeft (s : State) : Nat :=
  if s.last = 1 then s.bitsLeft + 1
  else if s.phase = .rows then
    2 * (s.imgHeight.toNat - s.eng.rcn.y.toNat) + (if s.expect = .sl then 1 else 0)
  else 2 * s.imgHeight.toNat + (if s.expect = .depth then 3 else 2)

end Sys2Proof.Machine
end

