-- ==== Sys2Proof/Certificates/Slice0/Obligations.lean ====
section
/-! DEFINITION. The statements for the provers, in the order of spec/: encoding, fetching, the Bit Reader, the Huffman tables, the Byte
Sink, the instructions of an INFLATE and of a RECON, errors, the whole machine, and the host's side. A next state that is written out
names the model's own fields too: `expect` (notes/assumptions/2.md), `draws` (7) and `script` (9) are the model's, not the spec's. -/

section

open Sys2Proof Sys2Proof.Machine

/-! ## Encoding -/

/-- A few words of the opcode table, at least one of each format, written out bit by bit (R112). -/
def Obligations.OpcodeTableWordsDecode : Prop :=
  decodeSel .cmd 0b00000000000000000000000000000001 = some .inflate ∧
  decodeSel .cmd 0b00000000000000000000000000000010 = some .recon ∧
  decodeSel .cmd 0b00000000000000000000000000000011 = some (.cmdNop 3) ∧
  decodeSel .bh 0b00 = some .stored ∧ decodeSel .bh 0b01 = some .fixed ∧
  decodeSel .bh 0b10 = some .dynamic ∧ decodeSel .bh 0b11 = some .btypeRsvd ∧
  decodeSel .cl 0b00101 = some (.clLen 5) ∧ decodeSel .cl 0b10000 = some .clRep ∧
  decodeSel .cl 0b10001 = some .clZero3 ∧ decodeSel .cl 0b10010 = some .clZero11 ∧
  decodeSel .ll 0b001000001 = some (.lit 0x41) ∧ decodeSel .ll 0b100000000 = some .eob ∧
  decodeSel .ll 0b100000001 = some .len257 ∧ decodeSel .ll 0b100001001 = some .len265 ∧
  decodeSel .ll 0b100011101 = some .len285 ∧ decodeSel .ll 0b100011110 = some (.llRsvd 286) ∧
  decodeSel .ds 0b00000 = some .dist0 ∧ decodeSel .ds 0b00100 = some .dist4 ∧
  decodeSel .ds 0b11101 = some .dist29 ∧ decodeSel .ds 0b11110 = some (.dsRsvd 30) ∧
  decodeSel .sl 0b00000011 = some .filtAvg ∧ decodeSel .sl 0b00000100 = some .filtPaeth ∧
  decodeSel .sl 0b00000101 = some (.ftRsvd 5) ∧
  decodeSel .ctype 0b00000010 = some .fmtRgb ∧ decodeSel .ctype 0b00000110 = some .fmtRgba ∧
  decodeSel .ctype 0b00000011 = some (.ctypeRsvd 3) ∧
  decodeSel .depth 0b00001000 = some .depth8 ∧ decodeSel .depth 0b00010000 = some (.depthRsvd 16)

/-- Decoding what the encoder writes gives the instruction back; what the decoder reads is well formed and encodes to the value it was
read from; and every value that a selecting field can hold, and no other, selects an instruction (R112, R114, R118, R202). Literal/length
values above 287 are notes/assumptions/14.md's. -/
def Obligations.DecodeEncodeAgree : Prop :=
  (∀ i : Instr, i.wf = true → decodeSel i.selector (encode i) = some i) ∧
  (∀ (sel : Selector) (v : Nat) (i : Instr), decodeSel sel v = some i → i.wf = true ∧ i.selector = sel ∧ encode i = v) ∧
  ∀ (sel : Selector) (v : Nat), (decodeSel sel v).isSome = true ↔
    v < sel.bound

/-- In a static block, the stream bits that R113 gives a symbol make the engine fetch that symbol, and leave it right after them: all
288 literal/length symbols and all 32 distance symbols. -/
def Obligations.StaticCodesFetchTheirSymbols : Prop :=
  (∀ (s : State) (d sym : Nat), ReaderOk s → s.expect = .ll → s.eng.lt = buildTable 288 fixedLitLen d → sym < 288 →
    (∀ k b, (staticLitLenBits sym)[k]? = some b →
      k < s.bitsLeft ∧ s.streamBit (s.bitPos + k) = if b = true then 1 else 0) →
    fetchSelector s = .ok sym ((s.atBit (s.bitPos + (staticLitLenBits sym).length)).withBlk
      { s.eng.blk with sym := BitVec.ofNat 9 sym })) ∧
  (∀ (s : State) (d sym : Nat), ReaderOk s → s.expect = .ds → s.eng.dt = buildTable 32 fixedDistLen d → sym < 32 →
    (∀ k b, (staticDistanceBits sym)[k]? = some b →
      k < s.bitsLeft ∧ s.streamBit (s.bitPos + k) = if b = true then 1 else 0) →
    fetchSelector s = .ok sym ((s.atBit (s.bitPos + 5)).withBlk { s.eng.blk with dsym := BitVec.ofNat 5 sym }))

/-! ## Stepping and fetching -/

/-- A step of a BUSY engine with a silent host runs the instruction that the fetched value selects; an error met in fetching ends the
command; and a `CMD` write runs the command instruction its value selects. Who moves, and that a step is one instruction, are the
model's choice (notes/assumptions/1.md, 2.md and 9.md). -/
def Obligations.StepRunsTheDecodedInstruction : Prop :=
  (∀ (s t : State) (v : Nat) (i : Instr), s.script = [] → s.runState = .busy → fetchSelector s = .ok v t →
    decodeSel s.expect v = some i → step s = exec i t) ∧
  (∀ (s t : State) (e : Error), s.script = [] → s.runState = .busy → fetchSelector s = .raise e t →
    step s = .next (t.raiseError e)) ∧
  (∀ (s : State) (rest : List HostAct) (v : Word) (i : Instr), s.script = .regWrite 4 0 v :: rest →
    decodeSel .cmd v.toNat = some i → step s = exec i { s with script := rest })

/-- The block header (R182): `BFINAL` is the next bit and `BTYPE` the two after it, wherever the last block ended; with fewer than
three bits left it raises TruncatedInput. -/
def Obligations.BlockHeaderFetch : Prop :=
  ∀ s : State, ReaderOk s → s.expect = .bh →
    (3 ≤ s.bitsLeft → fetchSelector s = .ok (s.streamField (s.bitPos + 1) 2)
      (((s.goTo .header .bh).atBit (s.bitPos + 3)).withHeaderFlags (s.streamBit s.bitPos)
        (s.streamField (s.bitPos + 1) 2))) ∧
    (s.bitsLeft < 3 → ∃ t, fetchSelector s = .raise .truncatedInput t)

/-- The other places a selecting value is read from: `decode` with the table of the place, the filter-type byte of the current row, and
the two fields of `IMG_FORMAT` (R202, R220, R225, R263, R261). -/
def Obligations.SelectorFetches : Prop :=
  ∀ s : State,
    (s.expect = .cl → fetchSelector s = decodeSymbol s.eng.ct s) ∧
    (∀ v t, s.expect = .ll → decodeSymbol s.eng.lt s = .ok v t →
      fetchSelector s = .ok v (t.withBlk { t.eng.blk with sym := BitVec.ofNat 9 v })) ∧
    (∀ v t, s.expect = .ds → decodeSymbol s.eng.dt s = .ok v t → v < 32 →
      fetchSelector s = .ok v (t.withBlk { t.eng.blk with dsym := BitVec.ofNat 5 v })) ∧
    (∀ e t, (s.expect = .ll ∧ decodeSymbol s.eng.lt s = .raise e t) ∨ (s.expect = .ds ∧ decodeSymbol s.eng.dt s = .raise e t) →
      fetchSelector s = .raise e t) ∧
    (s.expect = .sl → s.eng.rcn.y.toNat * (s.eng.rcn.stride.toNat + 1) < s.config.sinkLimit →
      fetchSelector s = .ok (s.sinkMem.read (s.eng.rcn.y.toNat * (s.eng.rcn.stride.toNat + 1))).toNat
        (s.withRcn { s.eng.rcn with ft := s.sinkMem.read (s.eng.rcn.y.toNat * (s.eng.rcn.stride.toNat + 1)) })) ∧
    (s.expect = .ctype → fetchSelector s = .ok (s.imgFormat.toNat / 256 % 256) s) ∧
    (s.expect = .depth → fetchSelector s = .ok (s.imgFormat.toNat % 256) s)

/-! ## The Bit Reader -/

/-- `read_bits(n)` (R143, R75, R149): it delivers the next `n` stream bits, the first the least significant, and moves past them; with
fewer bits left it raises TruncatedInput; and `read_bits(0)` changes nothing. -/
def Obligations.ReadBitsDelivers : Prop :=
  ∀ (s : State) (n : Nat), ReaderOk s → n ≤ 25 →
    (n ≤ s.bitsLeft → readBits n s = .ok (s.streamField s.bitPos n) (s.atBit (s.bitPos + n))) ∧
    (s.bitsLeft < n → ∃ b, readBits n s = .raise .truncatedInput (s.withBr b)) ∧
    readBits 0 s = .ok 0 s

/-- `align_to_byte()` and `read_byte_aligned()` (R145, R146). -/
def Obligations.AlignedReads : Prop :=
  ∀ s : State, alignToByte s = s.withBr ⟨s.eng.br.pos, 0, 0⟩ ∧
    (ReaderOk s → alignToByte s = s.atBit (8 * s.eng.br.pos.toNat) ∧ s.eng.br.pos.toNat = (s.bitPos + 7) / 8 ∧
      (s.eng.br.pos.toNat < s.inSize.toNat → readByteAligned s =
        .ok (s.inMem.read (s.inBase.toNat + s.eng.br.pos.toNat)) (s.atBit (8 * (s.eng.br.pos.toNat + 1)))) ∧
      (s.inSize.toNat ≤ s.eng.br.pos.toNat → readByteAligned s = .raise .truncatedInput (s.withBr ⟨s.eng.br.pos, 0, 0⟩)))

/-- What `IN` holds outside the slice does not matter (R144): a step of the engine with other bytes there ends in the same way, and in
the same state but for those bytes. -/
def Obligations.BytesOutsideTheSliceDoNotMatter : Prop :=
  ∀ (s : State) (m : Memory),
    (∀ a, s.inBase.toNat ≤ a → a < s.inBase.toNat + s.inSize.toNat → m.read a = s.inMem.read a) →
    (∀ t, engineStep s = .next t → engineStep { s with inMem := m } = .next { t with inMem := m }) ∧
    (∀ f, engineStep s = .fault f → engineStep { s with inMem := m } = .fault f) ∧
    (∀ r, engineStep s = .refused r → engineStep { s with inMem := m } = .refused r)

/-! ## The Huffman tables -/

/-- `build` is the pseudocode of R161: `max_code` and `offset` entry by entry, and the slots `symbols[0 .. K)`; the table has all its
slots, and `build` succeeds for every list of lengths. -/
def Obligations.BuildFollowsThePseudocode : Prop :=
  ∀ (cap : Nat) (lengths : List Nat) (d : Nat), LengthsOk cap lengths →
    (buildTable cap lengths d).maxCode = (buildByRule cap lengths).maxCode ∧
    (buildTable cap lengths d).offset = (buildByRule cap lengths).offset ∧
    (buildTable cap lengths d).symbols.take (usedCount lengths) =
      (buildByRule cap lengths).symbols.take (usedCount lengths) ∧
    (buildTable cap lengths d).symbols.length = cap ∧ usedCount lengths ≤ cap

/-- The lookup identity (R164): "T.symbols[T.offset[L] + c] = s" for every used symbol `s` of length `L` with code `c` (R162). -/
def Obligations.LookupIdentity : Prop :=
  ∀ (cap : Nat) (lengths : List Nat) (d sym L : Nat), LengthsOk cap lengths → cap ≤ 512 → lengths[sym]? = some L → 1 ≤ L →
    ∃ o, (buildTable cap lengths d).offset[L - 1]? = some o ∧ 0 ≤ o + codeOf lengths sym ∧
      (buildTable cap lengths d).symbols[(o + codeOf lengths sym).toNat]? = some (BitVec.ofNat 9 sym)

/-- Decoding a Huffman code gives its symbol: if the stream goes on with the code of a used symbol, the first bit the most significant,
`decode` answers that symbol and consumes exactly its code (R162, R168, R170). -/
def Obligations.CodeDecodesToItsSymbol : Prop :=
  ∀ (cap : Nat) (lengths : List Nat) (d : Nat) (s : State) (sym L : Nat), LengthsOk cap lengths → cap ≤ 512 → ReaderOk s →
    lengths[sym]? = some L → 1 ≤ L → L ≤ s.bitsLeft → s.streamCode s.bitPos L = codeOf lengths sym →
    decodeSymbol (buildTable cap lengths d) s = .ok sym (s.atBit (s.bitPos + L))

/-- Where the stream goes on with no used symbol's code, `decode` raises InvalidHuffmanCode after 15 bits, or TruncatedInput if the
slice ends first (R168, R171). -/
def Obligations.UnmatchedCodeRaises : Prop :=
  ∀ (cap : Nat) (lengths : List Nat) (d : Nat) (s : State), LengthsOk cap lengths → cap ≤ 512 → ReaderOk s →
    (∀ sym L, lengths[sym]? = some L → 1 ≤ L → L ≤ s.bitsLeft → s.streamCode s.bitPos L ≠ codeOf lengths sym) →
    ∃ b, decodeSymbol (buildTable cap lengths d) s =
      .raise (if 15 ≤ s.bitsLeft then .invalidHuffmanCode else .truncatedInput) (s.withBr b)

/-- `decode` never reads an unfilled entry of a built table (R169), for any lengths, oversubscribed ones included: any other table with the
same `max_code` and `offset` and the same first `K` slots, whatever it holds past them and however many slots it has, decodes alike, from
any reader. -/
def Obligations.UnfilledSlotsDoNotMatter : Prop :=
  ∀ (cap : Nat) (lengths : List Nat) (d : Nat) (t : Table) (s : State), LengthsOk cap lengths →
    t.maxCode = (buildTable cap lengths d).maxCode → t.offset = (buildTable cap lengths d).offset →
    (∀ i, i < usedCount lengths → t.symbols[i]? = (buildTable cap lengths d).symbols[i]?) →
    decodeSymbol t s = decodeSymbol (buildTable cap lengths d) s

/-- The canonical codes are prefix-free, and each fits its length when the lengths satisfy the sum of R170. -/
def Obligations.CanonicalCodesArePrefixFree : Prop :=
  ∀ lengths : List Nat, (∀ l ∈ lengths, l ≤ 15) → Kraft lengths →
    (∀ a L, lengths[a]? = some L → 1 ≤ L → codeOf lengths a < 2 ^ L) ∧
    ∀ a b L n, lengths[a]? = some L → lengths[b]? = some (L + n) → 1 ≤ L → a ≠ b →
      codeOf lengths b / 2 ^ n ≠ codeOf lengths a

/-- The fixed code lengths and the tables they build (R221). -/
def Obligations.FixedTables : Prop :=
  fixedLitLen.length = 288 ∧ fixedDistLen.length = 32 ∧
  (∀ sym, sym < 288 → fixedLitLen[sym]? =
    some (if sym ≤ 143 then 8 else if sym ≤ 255 then 9 else if sym ≤ 279 then 7 else 8)) ∧
  (∀ sym, sym < 32 → fixedDistLen[sym]? = some 5) ∧
  ∀ d : Nat,
    (buildTable 288 fixedLitLen d).maxCode = [-1, -1, -1, -1, -1, -1, 23, 199, 511, -1, -1, -1, -1, -1, -1] ∧
    ((buildTable 288 fixedLitLen d).offset.drop 6).take 3 = [0, -24, -224] ∧
    (buildTable 288 fixedLitLen d).symbols =
      (List.range 24).map (fun i => BitVec.ofNat 9 (256 + i)) ++ (List.range 144).map (BitVec.ofNat 9) ++
      (List.range 8).map (fun i => BitVec.ofNat 9 (280 + i)) ++ (List.range 112).map (fun i => BitVec.ofNat 9 (144 + i)) ∧
    (buildTable 32 fixedDistLen d).maxCode = [-1, -1, -1, -1, 31, -1, -1, -1, -1, -1, -1, -1, -1, -1, -1] ∧
    (buildTable 32 fixedDistLen d).offset[4]? = some 0 ∧
    (buildTable 32 fixedDistLen d).symbols = (List.range 32).map (BitVec.ofNat 9)

/-! ## The memories and the Byte Sink -/

/-- A byte written is read back and no other byte changes, the canonical form is kept, and equal contents are equal memories: the
reads and writes of R71, R73 and R74 over the model's representation (notes/assumptions/5.md). -/
def Obligations.MemoryReadsWhatWasWritten : Prop :=
  ∀ (m : Memory) (a : Nat) (v : Byte), m.wf →
    (m.write a v).wf ∧ (∀ x, (m.write a v).read x = if x = a then v else m.read x) ∧
    ∀ m' : Memory, m'.wf → (∀ x, m'.read x = m.read x) → m' = m

/-- `push(v)` (R80): when `SINK_LEN = SINK_CAP` the sink grows, or OutOfMemory is raised and nothing is written; then the byte goes to
`SINK[SINK_LEN]` and `SINK_LEN` moves on. -/
def Obligations.PushAppends : Prop :=
  ∀ (s : State) (v : Byte), SinkOk s → s.config.Sized →
    (s.sinkLen = s.sinkCap → s.config.sinkLimit < max (s.sinkCap.toNat * 2) 1024 → push v s = .raise .outOfMemory s) ∧
    (s.sinkLen = s.sinkCap → max (s.sinkCap.toNat * 2) 1024 ≤ s.config.sinkLimit → push v s = .ok ()
      { s with sinkCap := BitVec.ofNat 32 (max (s.sinkCap.toNat * 2) 1024)
               sinkMem := s.sinkMem.write s.sinkLen.toNat v, sinkLen := s.sinkLen + 1 }) ∧
    (s.sinkLen ≠ s.sinkCap → push v s = .ok ()
      { s with sinkMem := s.sinkMem.write s.sinkLen.toNat v, sinkLen := s.sinkLen + 1 })

/-- `capAfter n`, which the statements below use for the capacity after `n` pushes, is the least legal capacity (R30) that is no smaller
than the present one and holds the bytes. -/
def Obligations.CapacityAfterPushesIsLeast : Prop :=
  ∀ (s : State) (n : Nat), CapLegal s.sinkCap.toNat →
    CapLegal (s.capAfter n) ∧ s.sinkCap.toNat ≤ s.capAfter n ∧ s.sinkLen.toNat + n ≤ s.capAfter n ∧
    ∀ c, CapLegal c → s.sinkCap.toNat ≤ c → s.sinkLen.toNat + n ≤ c → s.capAfter n ≤ c

/-! ## Commands -/

/-- INFLATE (R24, R180): with a slice inside `IN` the command starts, at the first block header, with a new Bit Reader and an empty
sink (`sinkWrapped` is the model's own, notes/assumptions/27.md); with a slice that passes the end of `IN` it fails at once. -/
def Obligations.InflateStarts : Prop :=
  ∀ s : State, s.runState ≠ .busy →
    (s.inBase.toNat + s.inSize.toNat ≤ s.config.inLimit → exec .inflate s = .next
      { s with runState := .busy, err := 0, last := 1, eng := { s.eng with br := ⟨0, 0, 0⟩ }
               sinkLen := 0, sinkCap := 0, sinkWrapped := false, phase := .header, expect := .bh }) ∧
    (s.config.inLimit < s.inBase.toNat + s.inSize.toNat → exec .inflate s = .next
      (({ s with runState := .busy, err := 0, last := 1 } : State).raiseError .truncatedInput))

/-- RECON (R24, R260) starts with its parameter checks; a `CMD` write of another value, or any `CMD` write while BUSY, has no effect. -/
def Obligations.ReconStartsAndOtherCommandsDoNothing : Prop :=
  ∀ s : State,
    (s.runState ≠ .busy → exec .recon s = .next
      { s with runState := .busy, err := 0, last := 2, phase := .rcheck, expect := .depth }) ∧
    (∀ v, exec (.cmdNop v) s = .next s) ∧
    (s.runState = .busy → exec .inflate s = .next s ∧ exec .recon s = .next s)

/-! ## Blocks -/

/-- A STORED block (R184): from the next byte boundary, `LEN` and its complement `NLEN`, low byte first, and then `LEN` bytes copied
to the sink. The end of the block is `Obligations.EndOfBlock`'s. -/
def Obligations.StoredCopies : Prop :=
  ∀ s : State, ReaderOk s → SinkOk s → s.config.Sized → s.sinkMem.wf →
    let p := s.eng.br.pos.toNat
    let len := (s.slicePair p).toNat
    p + 4 + len ≤ s.inSize.toNat → s.slicePair (p + 2) = ~~~ s.slicePair p → s.capAfter len ≤ s.config.sinkLimit →
    ∃ m, Stored s.sinkMem m s.sinkLen.toNat len (fun k => s.sliceByte (p + 4 + k)) ∧
      exec .stored s = .next ((((s.goTo .stored .bh).withSink m (s.sinkLen.toNat + len) (s.capAfter len)).withSto
        ⟨s.slicePair p, ~~~ s.slicePair p, 0⟩).atBit (8 * (p + 4 + len))).endBlock

/-- The errors of a STORED block (R184): the slice ends within `LEN` or `NLEN`; then the complement is wrong, before any data byte is
read; then, byte by byte and the read before the push, the slice ends within the data, or the sink cannot grow. With `avail` data bytes
left in the slice, the sink fails first exactly where it cannot hold the first `min LEN avail` of them. -/
def Obligations.StoredFails : Prop :=
  ∀ s : State, ReaderOk s → SinkOk s → s.config.Sized → s.sinkMem.wf → s.last = 1 → s.phase = .header →
    let p := s.eng.br.pos.toNat
    let len := (s.slicePair p).toNat
    let avail := s.inSize.toNat - (p + 4)
    (s.inSize.toNat < p + 4 → exec .stored s = .next (s.raiseError .truncatedInput)) ∧
    (p + 4 ≤ s.inSize.toNat → s.slicePair (p + 2) ≠ ~~~ s.slicePair p →
      exec .stored s = .next (s.raiseError .lengthMismatch)) ∧
    (p + 4 ≤ s.inSize.toNat → s.slicePair (p + 2) = ~~~ s.slicePair p → avail < len →
      s.capAfter avail ≤ s.config.sinkLimit → ∃ t, exec .stored s = .next t ∧ FailedWith .truncatedInput s t) ∧
    (p + 4 ≤ s.inSize.toNat → s.slicePair (p + 2) = ~~~ s.slicePair p →
      s.config.sinkLimit < s.capAfter (min len avail) → ∃ t, exec .stored s = .next t ∧ FailedWith .outOfMemory s t)

/-- A FIXED block (R185): both tables are built from the constant lengths, and the symbol loop begins. -/
def Obligations.FixedBuildsItsTables : Prop :=
  ∀ s : State, exec .fixed s = .next
    { s with eng := { s.eng with lt := buildTable 288 fixedLitLen s.draws, dt := buildTable 32 fixedDistLen (s.draws + 1) }
             draws := s.draws + 2, phase := .symbols, expect := .ll }

/-- A DYNAMIC block's header up to its code-length code (R200, R201): the three counts, the code-length-code lengths in the order
16, 17, 18, 0, 8, 7, 9, 6, 10, 5, 11, 4, 12, 3, 13, 2, 14, 1, 15, 0 for the symbols whose field is absent, and `CT` built from them. -/
def Obligations.DynamicHeaderIsRead : Prop :=
  ∀ s : State, ReaderOk s →
    let hclen := s.streamField (s.bitPos + 10) 4 + 4
    let order : List Nat := [16, 17, 18, 0, 8, 7, 9, 6, 10, 5, 11, 4, 12, 3, 13, 2, 14, 1, 15]
    let cll : List (BitVec 3) := (List.range 19).map fun sym =>
      if order.idxOf sym < hclen then BitVec.ofNat 3 (s.streamField (s.bitPos + 14 + 3 * order.idxOf sym) 3) else 0
    (14 + 3 * hclen ≤ s.bitsLeft → exec .dynamic s = .next
      ((((s.goTo .dynhdr .cl).atBit (s.bitPos + 14 + 3 * hclen)).withHdr
        { s.eng.hdr with hlit := BitVec.ofNat 9 (s.streamField s.bitPos 5 + 257)
                         hdist := BitVec.ofNat 6 (s.streamField (s.bitPos + 5) 5 + 1)
                         hclen := BitVec.ofNat 5 hclen, cll := cll, nl := 0 }).buildCt (cll.map BitVec.toNat))) ∧
    (s.bitsLeft < 14 ∨ s.bitsLeft < 14 + 3 * hclen → s.last = 1 → s.phase = .header →
      exec .dynamic s = .next (s.raiseError .truncatedInput))

/-! ## Code-length instructions -/

/-- CL_LEN, CL_REP, CL_ZERO3 and CL_ZERO11 (R203 to R206) when the run fits: the lengths are written from `NL` up. What follows is
`Obligations.HeaderEndsInItsTables`'s. -/
def Obligations.CodeLengthsAreWritten : Prop :=
  ∀ s : State, ReaderOk s → s.eng.hdr.lens.length = 320 → s.lengthsWanted ≤ 320 →
    let nl := s.eng.hdr.nl.toNat
    (∀ l, nl < s.lengthsWanted → exec (.clLen l) s = .next (s.filled 1 l).continueHeader) ∧
    (1 ≤ nl → 2 ≤ s.bitsLeft → nl + (3 + s.streamField s.bitPos 2) ≤ s.lengthsWanted → exec .clRep s = .next
      (((s.filled (3 + s.streamField s.bitPos 2) (s.eng.hdr.lens.getD (nl - 1) 0)).atBit (s.bitPos + 2)).continueHeader)) ∧
    (3 ≤ s.bitsLeft → nl + (3 + s.streamField s.bitPos 3) ≤ s.lengthsWanted → exec .clZero3 s = .next
      (((s.filled (3 + s.streamField s.bitPos 3) 0).atBit (s.bitPos + 3)).continueHeader)) ∧
    (7 ≤ s.bitsLeft → nl + (11 + s.streamField s.bitPos 7) ≤ s.lengthsWanted → exec .clZero11 s = .next
      (((s.filled (11 + s.streamField s.bitPos 7) 0).atBit (s.bitPos + 7)).continueHeader))

/-- The errors of the code-length instructions, in their order (R204, R207): CL_REP without a previous length, before its extra bits
are read; the slice ends; the run passes `HLIT + HDIST`, before any entry is written. -/
def Obligations.CodeLengthRunsFail : Prop :=
  ∀ s : State, ReaderOk s → s.eng.hdr.lens.length = 320 → s.lengthsWanted ≤ 320 →
    let nl := s.eng.hdr.nl.toNat
    (nl = 0 → exec .clRep s = .next (s.raiseError .invalidHuffmanCode)) ∧
    (1 ≤ nl → nl ≤ 320 → s.bitsLeft < 2 → exec .clRep s = .next (s.raiseError .truncatedInput)) ∧
    (s.bitsLeft < 3 → exec .clZero3 s = .next (s.raiseError .truncatedInput)) ∧
    (s.bitsLeft < 7 → exec .clZero11 s = .next (s.raiseError .truncatedInput)) ∧
    (1 ≤ nl → nl ≤ 320 → 2 ≤ s.bitsLeft → s.lengthsWanted < nl + (3 + s.streamField s.bitPos 2) →
      exec .clRep s = .next (s.raiseError .invalidHuffmanCode)) ∧
    (3 ≤ s.bitsLeft → s.lengthsWanted < nl + (3 + s.streamField s.bitPos 3) →
      exec .clZero3 s = .next (s.raiseError .invalidHuffmanCode)) ∧
    (7 ≤ s.bitsLeft → s.lengthsWanted < nl + (11 + s.streamField s.bitPos 7) →
      exec .clZero11 s = .next (s.raiseError .invalidHuffmanCode))

/-- After a code-length instruction (R200, R208): the next one follows while lengths are wanted; then the one sequence is split, both
tables are built, and the symbol loop begins. -/
def Obligations.HeaderEndsInItsTables : Prop :=
  ∀ s : State,
    (s.eng.hdr.nl.toNat < s.eng.hdr.hlit.toNat + s.eng.hdr.hdist.toNat →
      s.continueHeader = { s with phase := .dynhdr, expect := .cl }) ∧
    (s.eng.hdr.hlit.toNat + s.eng.hdr.hdist.toNat ≤ s.eng.hdr.nl.toNat →
      s.continueHeader =
        { s with eng := { s.eng with
                   lt := buildTable 288 ((s.eng.hdr.lens.take s.eng.hdr.hlit.toNat).map BitVec.toNat) s.draws
                   dt := buildTable 32
                     (((s.eng.hdr.lens.drop s.eng.hdr.hlit.toNat).take s.eng.hdr.hdist.toNat).map BitVec.toNat) (s.draws + 1) }
                 draws := s.draws + 2, phase := .symbols, expect := .ll })

/-! ## Symbols -/

/-- LIT (R222): the byte is pushed, and the next symbol follows; where the sink cannot grow, OutOfMemory. -/
def Obligations.LiteralIsPushed : Prop :=
  ∀ (s : State) (b : Byte), SinkOk s → s.config.Sized →
    (s.capAfter 1 ≤ s.config.sinkLimit → exec (.lit b) s = .next
      ((s.withSink (s.sinkMem.write s.sinkLen.toNat b) (s.sinkLen.toNat + 1) (s.capAfter 1)).goTo .symbols .ll)) ∧
    (s.config.sinkLimit < s.capAfter 1 → exec (.lit b) s = .next (s.raiseError .outOfMemory))

/-- EOB (R223), and the end of every block (R181, R188): after the final block the command is DONE, with `CONSUMED` the bytes fetched;
otherwise the next header follows from the next bit, with nothing realigned. -/
def Obligations.EndOfBlock : Prop :=
  ∀ s : State, exec .eob s = .next s.endBlock ∧
    (s.eng.bfinal = 1 → s.endBlock =
      { s with consumed := s.eng.br.pos, phase := .done, runState := .done, expect := .cmd }) ∧
    (s.eng.bfinal ≠ 1 → s.endBlock = { s with phase := .header, expect := .bh })

/-- The 29 length symbols (R224, R400 to R428): each one's base and number of extra bits; the extra bits are read before the distance
operand, which follows as an instruction of its own (the model's choice, notes/assumptions/3.md). With too few bits left,
TruncatedInput. -/
def Obligations.LengthSymbols : Prop :=
  ∀ (i : Instr) (sym base extra : Nat), (i, sym, base, extra) ∈
    ([(.len257, 257, 3, 0), (.len258, 258, 4, 0), (.len259, 259, 5, 0), (.len260, 260, 6, 0), (.len261, 261, 7, 0),
      (.len262, 262, 8, 0), (.len263, 263, 9, 0), (.len264, 264, 10, 0), (.len265, 265, 11, 1), (.len266, 266, 13, 1),
      (.len267, 267, 15, 1), (.len268, 268, 17, 1), (.len269, 269, 19, 2), (.len270, 270, 23, 2), (.len271, 271, 27, 2),
      (.len272, 272, 31, 2), (.len273, 273, 35, 3), (.len274, 274, 43, 3), (.len275, 275, 51, 3), (.len276, 276, 59, 3),
      (.len277, 277, 67, 4), (.len278, 278, 83, 4), (.len279, 279, 99, 4), (.len280, 280, 115, 4), (.len281, 281, 131, 5),
      (.len282, 282, 163, 5), (.len283, 283, 195, 5), (.len284, 284, 227, 5), (.len285, 285, 258, 0)] :
      List (Instr × Nat × Nat × Nat)) →
    ∀ s : State, ReaderOk s →
      (extra ≤ s.bitsLeft → exec i s = .next (((s.atBit (s.bitPos + extra)).withBlk
        { s.eng.blk with sym := BitVec.ofNat 9 sym
                         length := BitVec.ofNat 9 (base + s.streamField s.bitPos extra) }).goTo .symbols .ds)) ∧
      (s.bitsLeft < extra → exec i s = .next (s.raiseError .truncatedInput))

/-- The 30 distance symbols (R225, R226, R440 to R469): each one's base and number of extra bits, and the copy. Byte `k` of the copy is
byte `k mod DIST` of the last `DIST` bytes of the sink, for a copy may read what it has itself written; nothing else in `SINK` changes. -/
def Obligations.DistanceSymbolsCopy : Prop :=
  ∀ (i : Instr) (dsym base extra : Nat), (i, dsym, base, extra) ∈
    ([(.dist0, 0, 1, 0), (.dist1, 1, 2, 0), (.dist2, 2, 3, 0), (.dist3, 3, 4, 0), (.dist4, 4, 5, 1), (.dist5, 5, 7, 1),
      (.dist6, 6, 9, 2), (.dist7, 7, 13, 2), (.dist8, 8, 17, 3), (.dist9, 9, 25, 3), (.dist10, 10, 33, 4),
      (.dist11, 11, 49, 4), (.dist12, 12, 65, 5), (.dist13, 13, 97, 5), (.dist14, 14, 129, 6), (.dist15, 15, 193, 6),
      (.dist16, 16, 257, 7), (.dist17, 17, 385, 7), (.dist18, 18, 513, 8), (.dist19, 19, 769, 8), (.dist20, 20, 1025, 9),
      (.dist21, 21, 1537, 9), (.dist22, 22, 2049, 10), (.dist23, 23, 3073, 10), (.dist24, 24, 4097, 11),
      (.dist25, 25, 6145, 11), (.dist26, 26, 8193, 12), (.dist27, 27, 12289, 12), (.dist28, 28, 16385, 13),
      (.dist29, 29, 24577, 13)] : List (Instr × Nat × Nat × Nat)) →
    ∀ s : State, ReaderOk s → SinkOk s → s.config.Sized → s.sinkMem.wf → extra ≤ s.bitsLeft →
      let dist := base + s.streamField s.bitPos extra
      let length := s.eng.blk.length.toNat
      dist ≤ s.sinkLen.toNat → s.capAfter length ≤ s.config.sinkLimit →
      ∃ m, Stored s.sinkMem m s.sinkLen.toNat length (fun k => s.sinkMem.read (s.sinkLen.toNat - dist + k % dist)) ∧
        exec i s = .next ((((s.withSink m (s.sinkLen.toNat + length) (s.capAfter length)).atBit (s.bitPos + extra)).withBlk
          { s.eng.blk with dsym := BitVec.ofNat 5 dsym, dist := BitVec.ofNat 16 dist, copyLeft := 0 }).goTo .symbols .ll)

/-- The errors of the distance symbols, in the order of R229: the slice ends within the extra bits; the distance passes the sink's
beginning, and no byte is pushed; the sink cannot grow. -/
def Obligations.DistanceSymbolsFail : Prop :=
  ∀ (k : Nat) (i : Instr), distanceInstrs[k]? = some i → ∀ s : State,
    ReaderOk s → SinkOk s → s.config.Sized → s.sinkMem.wf → s.last = 1 →
    let extra := distExtra.getD k 0
    let dist := distBase.getD k 0 + s.streamField s.bitPos extra
    (s.bitsLeft < extra → exec i s = .next (s.raiseError .truncatedInput)) ∧
    (extra ≤ s.bitsLeft → s.sinkLen.toNat < dist → exec i s = .next (s.raiseError .invalidBackReference)) ∧
    (extra ≤ s.bitsLeft → dist ≤ s.sinkLen.toNat → s.config.sinkLimit < s.capAfter s.eng.blk.length.toNat →
      ∃ t, exec i s = .next t ∧ FailedWith .outOfMemory s t)

/-- The back-reference check and copy (R226), byte by byte, from any registers: a distance of 0 or above `SINK_LEN` raises
InvalidBackReference and pushes nothing; otherwise `LENGTH` bytes are pushed, or OutOfMemory is raised. -/
def Obligations.BackReferenceCopies : Prop :=
  ∀ s : State, SinkOk s → s.config.Sized → s.sinkMem.wf →
    let dist := s.eng.blk.dist.toNat
    let length := s.eng.blk.length.toNat
    (dist = 0 ∨ s.sinkLen.toNat < dist → backReference s = .raise .invalidBackReference s) ∧
    (1 ≤ dist → dist ≤ s.sinkLen.toNat → s.capAfter length ≤ s.config.sinkLimit →
      ∃ t, backReference s = .ok () t ∧ t.eng.blk.copyLeft = 0 ∧ t.sinkLen.toNat = s.sinkLen.toNat + length ∧
        (∀ a, a < s.sinkLen.toNat → t.sinkMem.read a = s.sinkMem.read a) ∧
        (∀ k, k < length → t.sinkMem.read (s.sinkLen.toNat + k) = t.sinkMem.read (s.sinkLen.toNat + k - dist))) ∧
    (1 ≤ dist → dist ≤ s.sinkLen.toNat → s.config.sinkLimit < s.capAfter length →
      ∃ t, backReference s = .raise .outOfMemory t)

/-! ## Rows and pixels -/

/-- DEPTH8 and the colour types in RECON's checks (R261, R262), the first check that fails ending the command: sizes of 0, too large an
output, too little data; then `BPP` and `STRIDE` are set and the first row follows. That the formatters' instructions run these checks in
`RCHECK` is the model's choice (notes/assumptions/21.md). -/
def Obligations.ReconChecks : Prop :=
  (∀ s : State, exec .depth8 s = .next { s with phase := .rcheck, expect := .ctype }) ∧
  ∀ (i : Instr) (bpp : Nat), (i, bpp) ∈ ([(.fmtGray, 1), (.fmtRgb, 3), (.fmtGraya, 2), (.fmtRgba, 4)] : List (Instr × Nat)) →
    ∀ s : State, s.phase = .rcheck →
      let w := s.imgWidth.toNat
      let h := s.imgHeight.toNat
      (w = 0 ∨ h = 0 → exec i s = .next (s.raiseError .malformedPng)) ∧
      (w ≠ 0 → h ≠ 0 → s.config.pixLimit < w * h * 4 → exec i s = .next (s.raiseError .outOfMemory)) ∧
      (w ≠ 0 → h ≠ 0 → w * h * 4 ≤ s.config.pixLimit → s.sinkLen.toNat < h * (w * bpp + 1) →
        exec i s = .next (s.raiseError .malformedPng)) ∧
      (w ≠ 0 → h ≠ 0 → w * h * 4 ≤ s.config.pixLimit → h * (w * bpp + 1) ≤ s.sinkLen.toNat →
        exec i s = .next ((s.withRcn
          { s.eng.rcn with bpp := BitVec.ofNat 3 bpp, stride := BitVec.ofNat 34 (w * bpp), y := 0 }).goTo .rows .sl))

/-- The five filters (R263 to R269): each reconstructed byte is the raw byte plus the filter's predictor of its left, above and
above-left neighbours, 0 outside the image; only `CUR`, `FT` and `X` are written (`X` as notes/assumptions/13.md says). -/
def Obligations.FiltersReconstructTheRow : Prop :=
  ∀ (i : Instr) (ft : Byte) (pred : Predictor), (i, ft, pred) ∈
    ([(.filtNone, 0, fun _ _ _ => 0), (.filtSub, 1, fun a _ _ => a), (.filtUp, 2, fun _ b _ => b),
      (.filtAvg, 3, fun a b _ => BitVec.ofNat 8 ((a.toNat + b.toNat) / 2)), (.filtPaeth, 4, paethPredictor)] :
      List (Instr × Byte × Predictor)) →
    ∀ s : State, RowReady s → ∃ row, RowIs s pred row ∧
      exec i s = .next ((s.withRcn { s.eng.rcn with ft := ft, cur := row, x := s.lastByte }).goTo .rows .ctype)

/-- `PaethPredictor` (R270): its branch order, in signed integers, the rule's worked examples, and R269's corner cases. -/
def Obligations.PaethPredictorRule : Prop :=
  (∀ a b c : Byte,
    let p : Int := (a.toNat : Int) + b.toNat - c.toNat
    let pa := |p - a.toNat|
    let pb := |p - b.toNat|
    let pc := |p - c.toNat|
    (pa ≤ pb → pa ≤ pc → paethPredictor a b c = a) ∧
    (¬ (pa ≤ pb ∧ pa ≤ pc) → pb ≤ pc → paethPredictor a b c = b) ∧
    (¬ (pa ≤ pb ∧ pa ≤ pc) → ¬ pb ≤ pc → paethPredictor a b c = c)) ∧
  paethPredictor 10 10 10 = 10 ∧ paethPredictor 0 0 10 = 0 ∧ paethPredictor 100 50 70 = 70 ∧
  paethPredictor 1 2 255 = 1 ∧ paethPredictor 255 0 0 = 255 ∧
  (∀ a : Byte, paethPredictor a 0 0 = a) ∧ ∀ b : Byte, paethPredictor 0 b 0 = b

/-- The four row formatters (R280 to R284): pixel `x` of the current row becomes the four bytes R, G, B, A of its samples at
`PIX[(Y*IMG_WIDTH + x)*4]`; no other byte of `PIX` changes. That the same instruction, in the phase `ROWS`, then ends the row (R260) is
the model's choice (notes/assumptions/21.md); what the end of a row does is `Obligations.EndOfRow`'s. -/
def Obligations.FormattersWriteTheRow : Prop :=
  ∀ (i : Instr) (bpp : Nat) (fmt : (Nat → Byte) → Nat → Byte), (i, bpp, fmt) ∈
    ([(.fmtGray, 1, fun p c => if c < 3 then p 0 else 255), (.fmtRgb, 3, fun p c => if c < 3 then p c else 255),
      (.fmtGraya, 2, fun p c => if c < 3 then p 0 else p 1), (.fmtRgba, 4, fun p c => p c)] :
      List (Instr × Nat × ((Nat → Byte) → Nat → Byte))) →
    ∀ s : State, s.phase = .rows → s.eng.rcn.bpp.toNat = bpp → s.eng.rcn.cur.length = s.imgWidth.toNat * bpp →
      let w := s.imgWidth.toNat
      let y := s.eng.rcn.y.toNat
      (y + 1) * w * 4 ≤ s.config.pixLimit →
      ∃ m, Stored s.pixMem m (y * w * 4) (w * 4)
          (fun k => fmt (fun j => s.eng.rcn.cur.getD (k / 4 * bpp + j) 0) (k % 4)) ∧
        exec i s = .next ({ s with pixMem := m } : State).endRow

/-- The end of a row (R260) and of a RECON (R268): `PREV` takes the row over; the next row follows, or after the last one the command is
DONE with `PIX_LEN` the size of the image. That `Y` keeps its last value is the model's choice (notes/assumptions/13.md). -/
def Obligations.EndOfRow : Prop :=
  ∀ s : State,
    (s.eng.rcn.y.toNat + 1 < s.imgHeight.toNat → s.endRow =
      { s with eng := { s.eng with rcn := { s.eng.rcn with prev := s.eng.rcn.cur, y := s.eng.rcn.y + 1 } }
               phase := .rows, expect := .sl }) ∧
    (s.imgHeight.toNat ≤ s.eng.rcn.y.toNat + 1 → s.endRow =
      { s with eng := { s.eng with rcn := { s.eng.rcn with prev := s.eng.rcn.cur } }
               pixLen := BitVec.ofNat 32 (s.imgWidth.toNat * s.imgHeight.toNat * 4)
               phase := .done, runState := .done, expect := .cmd })

/-! ## Errors -/

/-- The error codes (R340). -/
def Obligations.ErrorCodes : Prop :=
  [Error.badSignature, .malformedPng, .unsupportedMethod, .badZlibHeader, .checksumMismatch, .invalidHuffmanCode,
    .invalidBackReference, .lengthMismatch, .unsupportedBitDepth, .unsupportedColorType, .truncatedInput, .outOfMemory].map
      Error.code = [1, 2, 3, 4, 5, 6, 7, 8, 9, 10, 11, 12] ∧
  ∀ e : Error, 1 ≤ e.code.toNat ∧ e.code.toNat ≤ 12

/-- The reserved instructions end the command with their errors: BTYPE 3 (R187), literal/length symbols 286 and 287 (R227), distance symbols
30 and 31 (R228), filter types 5 to 255 (R271), the unsupported colour types and depths (R261). -/
def Obligations.ReservedInstructionsFail : Prop :=
  ∀ s : State,
    exec .btypeRsvd s = .next (s.raiseError .invalidHuffmanCode) ∧
    (∀ sym, exec (.llRsvd sym) s = .next (s.raiseError .invalidHuffmanCode)) ∧
    (∀ sym, exec (.dsRsvd sym) s = .next (s.raiseError .invalidHuffmanCode)) ∧
    (∀ ft, exec (.ftRsvd ft) s = .next (s.raiseError .malformedPng)) ∧
    (∀ c, exec (.ctypeRsvd c) s = .next (s.raiseError .unsupportedColorType)) ∧
    ∀ d, exec (.depthRsvd d) s = .next (s.raiseError .unsupportedBitDepth)

/-- `raise E` (R345): `PHASE`, `STATUS` and the result registers of the command that failed; a RECON error leaves the sink and
`CONSUMED`, an INFLATE error leaves `PIX` and `PIX_LEN`, and neither touches what the host wrote. -/
def Obligations.RaiseErrorEffect : Prop :=
  ∀ (s : State) (e : Error),
    (s.raiseError e).phase = .error ∧ (s.raiseError e).runState = .error ∧ (s.raiseError e).err = e.code ∧
    (s.raiseError e).last = s.last ∧
    (s.last = 1 → (s.raiseError e).sinkLen = 0 ∧ (s.raiseError e).sinkCap = 0 ∧ (s.raiseError e).consumed = 0 ∧
      (s.raiseError e).pixMem = s.pixMem ∧ (s.raiseError e).pixLen = s.pixLen) ∧
    (s.last = 2 → (s.raiseError e).pixLen = 0 ∧ (s.raiseError e).sinkMem = s.sinkMem ∧ (s.raiseError e).sinkLen = s.sinkLen ∧
      (s.raiseError e).sinkCap = s.sinkCap ∧ (s.raiseError e).consumed = s.consumed) ∧
    (s.raiseError e).inBase = s.inBase ∧ (s.raiseError e).inSize = s.inSize ∧ (s.raiseError e).imgWidth = s.imgWidth ∧
    (s.raiseError e).imgHeight = s.imgHeight ∧ (s.raiseError e).imgFormat = s.imgFormat ∧ (s.raiseError e).inMem = s.inMem

/-! ## The whole machine -/

/-- Every step keeps the invariant of legal states: the engine's and the host's. -/
def Obligations.StepKeepsInv : Prop :=
  ∀ s t : State, Inv s → step s = .next t → Inv t

/-- The state after reset is legal, with R370's register values and whatever stands where the spec gives no value: the three sizes
(R9, within `Config.Sized`, log entry 16), the memories within their sizes (log entry 5), the tables and the line buffers (log entry 6).
That `State.reset` itself is legal rests on the model's choices there: its sizes of 65536 (log entry 4), and memories that list nothing
(log entry 5). -/
def Obligations.ResetIsLegal : Prop :=
  (∀ (c : Config) (inMem sinkMem pixMem : Memory) (lt dt ct : Table) (prev cur : List Byte),
    let s := { State.reset with
      config := c, inMem := inMem, sinkMem := sinkMem, pixMem := pixMem
      eng := { State.reset.eng with lt := lt, dt := dt, ct := ct, rcn := { State.reset.eng.rcn with prev := prev, cur := cur } } }
    c.Sized → MemoryOk s → Inv s) ∧
  Inv State.reset

/-- In a legal state the engine never stops the machine: there is no bus error (R343) and no undecodable value (R202), whatever the
stream and the sink hold. -/
def Obligations.EngineNeverStops : Prop :=
  ∀ s : State, Inv s → s.runState = .busy → s.script = [] → ∃ t, step s = .next t

/-- Every command ends (R189, R348, R384): from a legal BUSY state, with a silent host, DONE or ERROR is reached within `stepsLeft`
steps, a number that an INFLATE starts with no larger than `8*IN_SIZE + 1`, and a RECON no larger than `2*IMG_HEIGHT + 3`. What one
step is, is the model's choice (notes/assumptions/1.md). -/
def Obligations.EveryCommandEnds : Prop :=
  (∀ s : State, Inv s → s.runState = .busy → s.script = [] →
    ∃ k t, k ≤ s.stepsLeft ∧ runFor k s = .next t ∧ (t.runState = .done ∨ t.runState = .error)) ∧
  (∀ s t : State, s.runState ≠ .busy → exec .inflate s = .next t → t.runState = .busy →
    t.stepsLeft ≤ 8 * s.inSize.toNat + 1) ∧
  ∀ s t : State, s.runState ≠ .busy → exec .recon s = .next t → t.stepsLeft ≤ 2 * s.imgHeight.toNat + 3

/-- A command that fails leaves no partial result (R345), whichever step it fails in; one that succeeds leaves its result
registers (R188, R268) and no error code (R25). An INFLATE writes no pixel memory (R74, R35); a RECON writes no sink and no `CONSUMED`
(R260). -/
def Obligations.CommandsEndAsTheRulesSay : Prop :=
  ∀ s t : State, Inv s → s.runState = .busy → s.script = [] → step s = .next t →
    (t.runState = .error → ∃ e, FailedWith e s t) ∧
    (t.runState = .done → t.phase = .done ∧ t.err = 0 ∧
      (s.last = 1 → t.consumed = t.eng.br.pos ∧ t.consumed.toNat ≤ s.inSize.toNat ∧ t.eng.bfinal = 1) ∧
      (s.last = 2 → t.pixLen.toNat = s.imgWidth.toNat * s.imgHeight.toNat * 4)) ∧
    t.runState ≠ .idle ∧
    (s.last = 1 → t.pixMem = s.pixMem ∧ t.pixLen = s.pixLen) ∧
    (s.last = 2 → t.sinkMem = s.sinkMem ∧ t.sinkLen = s.sinkLen ∧ t.sinkCap = s.sinkCap ∧ t.consumed = s.consumed)

/-- From any state whatever the engine never writes `IN` (R72), nor the registers the host writes (R23, R345), nor `LAST`, which only a
`CMD` write sets (R24); nor the model's own fields for the host, `script`, `readData` and `result` (notes/assumptions/9.md), nor the
parameters (notes/assumptions/4.md). -/
def Obligations.EngineWritesNothingOfTheHost : Prop :=
  ∀ s t : State, s.script = [] → step s = .next t →
    t.inMem = s.inMem ∧ t.inBase = s.inBase ∧ t.inSize = s.inSize ∧ t.imgWidth = s.imgWidth ∧ t.imgHeight = s.imgHeight ∧
    t.imgFormat = s.imgFormat ∧ t.last = s.last ∧ t.config = s.config ∧ t.script = [] ∧ t.readData = s.readData ∧
    t.result = s.result

/-- A step of an INFLATE that does not fail only appends to the sink (R29, R80): neither length nor capacity shrinks, and the bytes below
`SINK_LEN` stay; and it moves forward in the stream (R149), within the slice (R144). -/
def Obligations.InflateOnlyAppends : Prop :=
  ∀ s t : State, Inv s → s.runState = .busy → s.script = [] → s.last = 1 → step s = .next t → t.runState ≠ .error →
    s.sinkLen.toNat ≤ t.sinkLen.toNat ∧ s.sinkCap.toNat ≤ t.sinkCap.toNat ∧
    (∀ a, a < s.sinkLen.toNat → t.sinkMem.read a = s.sinkMem.read a) ∧
    s.bitPos < t.bitPos ∧ t.bitPos ≤ 8 * s.inSize.toNat

/-- IDLE, DONE and ERROR keep every register but the ones the host writes, and nothing but a `CMD` write or reset leaves them
(R350, R373). -/
def Obligations.WaitingStatesStay : Prop :=
  ∀ s t : State, s.runState ≠ .busy → (∀ v rest, s.script ≠ .regWrite 4 0 v :: rest) →
    (∀ rest, s.script ≠ .assertReset :: rest) → (∀ rest, s.script ≠ .assertResetWithin :: rest) → step s = .next t →
    t.runState = s.runState ∧ t.phase = s.phase ∧ t.err = s.err ∧ t.last = s.last ∧ t.consumed = s.consumed ∧
    t.sinkLen = s.sinkLen ∧ t.sinkCap = s.sinkCap ∧ t.pixLen = s.pixLen ∧ t.eng = s.eng ∧ t.expect = s.expect

/-! ## The host's side -/

/-- `STATUS` (R25): its fields and its reserved bits. -/
def Obligations.StatusLayout : Prop :=
  ∀ s : State,
    (s.runState = .idle → s.statusWord.extractLsb' 0 2 = 0) ∧ (s.runState = .busy → s.statusWord.extractLsb' 0 2 = 1) ∧
    (s.runState = .done → s.statusWord.extractLsb' 0 2 = 2) ∧ (s.runState = .error → s.statusWord.extractLsb' 0 2 = 3) ∧
    s.statusWord.extractLsb' 2 2 = 0 ∧ s.statusWord.extractLsb' 4 4 = s.err ∧ s.statusWord.extractLsb' 8 2 = s.last ∧
    s.statusWord.extractLsb' 10 22 = 0

/-- Register reads (R21 to R24): each offset's register, 0 for `CMD` and the offsets without one; while BUSY the four result registers
read as free values (notes/assumptions/7.md). -/
def Obligations.RegisterReads : Prop :=
  ∀ (s : State) (off : Nat) (rest : List HostAct), s.script = .regRead 4 off :: rest → off < 4096 → off % 4 = 0 →
    (off = 0x04 → step s = .next { s with script := rest, readData := s.statusWord }) ∧
    (off = 0x08 → step s = .next { s with script := rest, readData := s.inBase }) ∧
    (off = 0x0C → step s = .next { s with script := rest, readData := s.inSize }) ∧
    (off = 0x1C → step s = .next { s with script := rest, readData := s.imgWidth }) ∧
    (off = 0x20 → step s = .next { s with script := rest, readData := s.imgHeight }) ∧
    (off = 0x24 → step s = .next { s with script := rest, readData := s.imgFormat }) ∧
    (s.runState ≠ .busy →
      (off = 0x10 → step s = .next { s with script := rest, readData := s.consumed }) ∧
      (off = 0x14 → step s = .next { s with script := rest, readData := s.sinkLen }) ∧
      (off = 0x18 → step s = .next { s with script := rest, readData := s.sinkCap }) ∧
      (off = 0x28 → step s = .next { s with script := rest, readData := s.pixLen })) ∧
    (s.runState = .busy → (off = 0x10 ∨ off = 0x14 ∨ off = 0x18 ∨ off = 0x28) →
      step s = .next { s with script := rest, readData := Config.freeBits 32 s.draws 0, draws := s.draws + 1 }) ∧
    (off = 0 ∨ 0x2C ≤ off → step s = .next { s with script := rest, readData := 0 })

/-- Register writes other than to `CMD` (R21 to R23, R34): the five writable registers, the reserved half of `IMG_FORMAT`, no effect on any
other offset, and no effect at all while BUSY. -/
def Obligations.RegisterWrites : Prop :=
  ∀ (s : State) (off : Nat) (v : Word) (rest : List HostAct), s.script = .regWrite 4 off v :: rest → off < 4096 →
    off % 4 = 0 → off ≠ 0 →
    (s.runState = .busy → step s = .next { s with script := rest }) ∧
    (s.runState ≠ .busy →
      (off = 0x08 → step s = .next { s with script := rest, inBase := v }) ∧
      (off = 0x0C → step s = .next { s with script := rest, inSize := v }) ∧
      (off = 0x1C → step s = .next { s with script := rest, imgWidth := v }) ∧
      (off = 0x20 → step s = .next { s with script := rest, imgHeight := v }) ∧
      (off = 0x24 → step s = .next { s with script := rest, imgFormat := v &&& 0xFFFF }) ∧
      (off ≠ 0x08 → off ≠ 0x0C → off ≠ 0x1C → off ≠ 0x20 → off ≠ 0x24 → step s = .next { s with script := rest }))

/-- The host's accesses to the memories (R70, R380) and the accesses that have no meaning (R22): refused while BUSY, refused at a wrong
width or offset, a fault past a memory's end (notes/assumptions/10.md), and otherwise the byte. -/
def Obligations.HostAccesses : Prop :=
  ∀ (s : State) (rest : List HostAct),
    (∀ bytes off v, (bytes ≠ 4 ∨ off % 4 ≠ 0 ∨ 4096 ≤ off) →
      (s.script = .regWrite bytes off v :: rest → step s = .refused .registerAccess) ∧
      (s.script = .regRead bytes off :: rest → step s = .refused .registerAccess)) ∧
    ∀ (sp : Space) (a : Nat) (v : Byte),
      (s.runState = .busy →
        (s.script = .memWrite sp a v :: rest → step s = .refused .hostMemoryWhileBusy) ∧
        (s.script = .memRead sp a :: rest → step s = .refused .hostMemoryWhileBusy)) ∧
      (s.runState ≠ .busy → a < s.limit sp →
        (s.script = .memWrite sp a v :: rest →
          step s = .next (({ s with script := rest } : State).withMem sp ((s.mem sp).write a v))) ∧
        (s.script = .memRead sp a :: rest →
          step s = .next { s with script := rest, readData := ((s.mem sp).read a).setWidth 32 })) ∧
      (s.runState ≠ .busy → s.limit sp ≤ a →
        (s.script = .memWrite sp a v :: rest → step s = .fault (.address sp)) ∧
        (s.script = .memRead sp a :: rest → step s = .fault (.address sp)))

/-- Reset (R370), at power-on and asserted at any time, between two instructions or within one: every register has the value of R370's
table, and the memories keep their contents but for what an abandoned command may have written. Which bytes those are is the model's
reading: `sinkWritten` and `pixWritten` bytes between two instructions (notes/assumptions/17.md), and with a reset within an instruction
those of that instruction too, `sinkTouched` and `pixTouched` of the state it would have led to (notes/assumptions/22.md). They are free
values. -/
def Obligations.ResetValues : Prop :=
  (∀ t : State, (t = State.reset ∨ ∃ (s : State) (rest : List HostAct),
      (s.script = .assertReset :: rest ∨ s.script = .assertResetWithin :: rest) ∧ step s = .next t) →
    t.runState = .idle ∧ t.err = 0 ∧ t.last = 0 ∧ t.statusWord = 0 ∧ t.inBase = 0 ∧ t.inSize = 0 ∧ t.consumed = 0 ∧
    t.sinkLen = 0 ∧ t.sinkCap = 0 ∧ t.imgWidth = 0 ∧ t.imgHeight = 0 ∧ t.imgFormat = 0 ∧ t.pixLen = 0 ∧
    t.eng.br = ⟨0, 0, 0⟩ ∧ t.phase = .idle ∧ t.eng.bfinal = 0 ∧ t.eng.btype = 0 ∧ t.eng.blk = ⟨0, 0, 0, 0, 0⟩ ∧
    t.eng.sto = ⟨0, 0, 0⟩ ∧ t.eng.hdr = ⟨0, 0, 0, List.replicate 19 0, List.replicate 320 0, 0⟩ ∧ t.eng.rcn.bpp = 0 ∧
    t.eng.rcn.stride = 0 ∧ t.eng.rcn.y = 0 ∧ t.eng.rcn.x = 0 ∧ t.eng.rcn.ft = 0) ∧
  (∀ (s : State) (rest : List HostAct), (s.script = .assertReset :: rest ∨ s.script = .assertResetWithin :: rest) →
    s.runState ≠ .busy → ∃ t, step s = .next t ∧ t.inMem = s.inMem ∧ t.sinkMem = s.sinkMem ∧ t.pixMem = s.pixMem) ∧
  (∀ (s : State) (rest : List HostAct), s.script = .assertReset :: rest → s.runState = .busy → s.sinkMem.wf → s.pixMem.wf →
    ∃ t, step s = .next t ∧ t.inMem = s.inMem ∧
      (∀ a, s.sinkWritten ≤ a → t.sinkMem.read a = s.sinkMem.read a) ∧
      (∀ a, s.pixWritten ≤ a → t.pixMem.read a = s.pixMem.read a) ∧
      (∀ a, a < s.sinkWritten → t.sinkMem.read a = Config.freeBits 8 (s.draws + 1) a) ∧
      (∀ a, a < s.pixWritten → t.pixMem.read a = Config.freeBits 8 (s.draws + 1) a)) ∧
  ∀ (s u : State) (rest : List HostAct), s.script = .assertResetWithin :: rest → s.runState = .busy →
    engineStep { s with script := rest } = .next u → u.sinkMem.wf → u.pixMem.wf →
    ∃ t, step s = .next t ∧ t.inMem = u.inMem ∧
      (∀ a, u.sinkTouched ≤ a → t.sinkMem.read a = u.sinkMem.read a) ∧
      (∀ a, u.pixTouched ≤ a → t.pixMem.read a = u.pixMem.read a) ∧
      (∀ a, a < u.sinkTouched → t.sinkMem.read a = Config.freeBits 8 (u.draws + 1) a) ∧
      (∀ a, a < u.pixTouched → t.pixMem.read a = Config.freeBits 8 (u.draws + 1) a)

/-- The zlib checks, in their order (R302, R303). -/
def Obligations.ZlibHeaderChecks : Prop :=
  ∀ z : List Byte,
    let z0 := (z.getD 0 0).toNat
    let z1 := (z.getD 1 0).toNat
    (z.length < 6 → zlibCheck z = some .truncatedInput) ∧
    (6 ≤ z.length → z0 &&& 0x0F ≠ 8 → zlibCheck z = some .unsupportedMethod) ∧
    (6 ≤ z.length → z0 &&& 0x0F = 8 → (z0 * 256 + z1) % 31 ≠ 0 → zlibCheck z = some .badZlibHeader) ∧
    (6 ≤ z.length → z0 &&& 0x0F = 8 → (z0 * 256 + z1) % 31 = 0 → z1 &&& 0x20 ≠ 0 → zlibCheck z = some .unsupportedMethod) ∧
    (6 ≤ z.length → z0 &&& 0x0F = 8 → (z0 * 256 + z1) % 31 = 0 → z1 &&& 0x20 = 0 → zlibCheck z = none)

/-- Adler-32 (R305) in closed form: the low half is 1 plus the sum of the bytes, the high half the sum of all its values along the
way, both modulo 65521. -/
def Obligations.AdlerClosedForm : Prop :=
  ∀ d : List Byte, adler32 d = BitVec.ofNat 32
    ((d.length + ((List.range d.length).map fun i => (d.length - i) * (d.getD i 0).toNat).sum) % 65521 * 65536 +
      (1 + (d.map BitVec.toNat).sum) % 65521)

/-- The zlib envelope as a job (R302 to R306): a failed check, or a buffer that does not fit in `IN`, ends it without starting IPDE;
otherwise the host places the buffer at an address `A` with `A + size ≤ IN_LIMIT`, the one it chose where that fits, and runs INFLATE over
the bytes `[2, size-4)`. Where `STATE` is then ERROR, the job, be it an envelope or a whole decode (R320), ends with the code of
`STATUS.ERR`; a wrong trailer ends it with ChecksumMismatch. A job is the model's `script` (notes/assumptions/9.md), and where a forbidden
address is moved to is notes/assumptions/12.md's. -/
def Obligations.EnvelopeFailures : Prop :=
  ∀ (s : State) (rest : List HostAct),
    (∀ z a e, s.script = .zlib z a :: rest → zlibCheck z = some e →
      step s = .next { s with script := rest, result := some (.failed e.code) }) ∧
    (∀ z a, s.script = .zlib z a :: rest → zlibCheck z = none → s.config.inLimit < z.length →
      step s = .next { s with script := rest, result := some (.failed 12) }) ∧
    (∀ z a, s.script = .zlib z a :: rest → zlibCheck z = none → z.length ≤ s.config.inLimit →
      ∃ A, A + z.length ≤ s.config.inLimit ∧ (a + z.length ≤ s.config.inLimit → A = a) ∧
        step s = .next { s with
          result := none
          script := (List.range z.length).map (fun k => .memWrite .input (A + k) (z.getD k 0)) ++
            [.regWrite 4 0x08 (BitVec.ofNat 32 (A + 2)), .regWrite 4 0x0C (BitVec.ofNat 32 (z.length - 6)), .regWrite 4 0x00 1,
              .poll, .checkStatus, .checkAdler (BitVec.ofNat 32 (bigEndian (z.drop (z.length - 4)))), .takeSink, .endJob] ++
            rest }) ∧
    (∀ acts more, s.script = .checkStatus :: acts ++ .endJob :: more → (∀ x ∈ acts, x ≠ .endJob) →
      (s.runState = .error → step s = .next { s with script := more, result := some (.failed s.err) }) ∧
      (s.runState ≠ .error → step s = .next { s with script := acts ++ .endJob :: more })) ∧
    (∀ trailer more, s.script = .checkAdler trailer :: .takeSink :: .endJob :: more → s.runState ≠ .busy →
      s.sinkLen.toNat ≤ s.config.sinkLimit →
      (adler32 (s.sinkMem.readTo s.sinkLen.toNat) ≠ trailer →
        step s = .next { s with script := more, result := some (.failed 5) }) ∧
      (adler32 (s.sinkMem.readTo s.sinkLen.toNat) = trailer →
        step s = .next { s with script := .takeSink :: .endJob :: more }))

/-- The PNG parser (R310 to R317) on a signature, any number of chunks before an IEND, whatever their types and CRCs, and what follows
them: an IEND with anything after it, or fewer than 12 bytes. The size, depth and colour type are those of the last IHDR of at least 13
bytes (0 without one), the data is the payloads of the IDATs in file order, every other chunk is skipped, and a width or height of 0 or
no data is MalformedPNG. A chunk that passes the end of the file, after any number of others, is MalformedPNG; and a file without the
signature is BadSignature. -/
def Obligations.PngParserReadsBack : Prop :=
  (∀ (chunks : List (List Byte × List Byte × List Byte)) (tail : List Byte),
    (∀ c ∈ chunks, c.1.length = 4 ∧ c.1 ≠ [0x49, 0x45, 0x4E, 0x44] ∧ c.2.1.length < 2 ^ 32 ∧ c.2.2.length = 4) →
    let file := [0x89, 0x50, 0x4E, 0x47, 0x0D, 0x0A, 0x1A, 0x0A] ++ chunks.flatMap (fun c => chunkBytes c.1 c.2.1 c.2.2) ++ tail
    let head := ((chunks.filter fun c => c.1 = [0x49, 0x48, 0x44, 0x52] ∧ 13 ≤ c.2.1.length).map fun c => c.2.1).getLastD []
    let data := ((chunks.filter fun c => c.1 = [0x49, 0x44, 0x41, 0x54]).map fun c => c.2.1).flatten
    let w := BitVec.ofNat 32 (bigEndian (head.take 4))
    let h := BitVec.ofNat 32 (bigEndian ((head.drop 4).take 4))
    (tail.length < 12 ∨ (12 + bigEndian (tail.take 4) ≤ tail.length ∧ (tail.drop 4).take 4 = [0x49, 0x45, 0x4E, 0x44]) →
      pngParse file = if w = 0 ∨ h = 0 ∨ data = [] then .error .malformedPng
        else .ok ⟨w, h, head.getD 8 0, head.getD 9 0, data⟩) ∧
    (12 ≤ tail.length → tail.length < 12 + bigEndian (tail.take 4) → pngParse file = .error .malformedPng)) ∧
  ∀ f : List Byte, f.take 8 ≠ [0x89, 0x50, 0x4E, 0x47, 0x0D, 0x0A, 0x1A, 0x0A] → pngParse f = .error .badSignature

/-- What a failed command may have written becomes unspecified (R345, U8), and no other byte changes, whatever the sizes. An INFLATE has
written the first `sinkWritten` bytes of `SINK`: a push leaves its byte among them and loses none, even where `SINK_LEN` wraps
(notes/assumptions/8.md and 27.md). A RECON has written the first `pixWritten` bytes of `PIX`. At the end of a row the bytes that a reset
within it frees are the rows up to it (notes/assumptions/22.md). -/
def Obligations.ErrorsFreeWhatWasWritten : Prop :=
  (∀ (s t : State) (v : Byte), s.phase ∈ [Phase.header, .stored, .dynhdr, .symbols] → push v s = .ok () t →
    s.sinkWritten ≤ t.sinkWritten ∧ s.sinkLen.toNat < t.sinkWritten ∧
    ∀ a, t.sinkWritten ≤ a → t.sinkMem.read a = s.sinkMem.read a) ∧
  (∀ (s : State) (e : Error), s.last = 1 → s.sinkMem.wf → ∀ a, (s.raiseError e).sinkMem.read a =
    if a < s.sinkWritten then Config.freeBits 8 (s.draws + 1) a else s.sinkMem.read a) ∧
  (∀ (s : State) (e : Error), s.last = 2 → s.pixMem.wf → ∀ a, (s.raiseError e).pixMem.read a =
    if a < s.pixWritten then Config.freeBits 8 (s.draws + 1) a else s.pixMem.read a) ∧
  ∀ s : State, s.last = 2 → s.phase = .rows → s.runState = .busy → s.eng.rcn.y.toNat < s.imgHeight.toNat →
    (s.eng.rcn.y.toNat + 1) * s.imgWidth.toNat * 4 ≤ s.config.pixLimit →
    s.pixWritten = s.eng.rcn.y.toNat * s.imgWidth.toNat * 4 ∧
    s.endRow.pixTouched = (s.eng.rcn.y.toNat + 1) * s.imgWidth.toNat * 4

end
end

