-- ==== Sys2Proof/Laws/State.lean ====
section
/-! SUPPORT. One lemma per field per named update of the state, each true by `rfl`: no later proof unfolds an update. -/

namespace Sys2Proof.Machine

/-! ### `s.withEng e` -/

@[simp] theorem State.withEng_config (s : State) (e : Engine) : (s.withEng e).config = s.config := rfl
@[simp] theorem State.withEng_runState (s : State) (e : Engine) : (s.withEng e).runState = s.runState := rfl
@[simp] theorem State.withEng_err (s : State) (e : Engine) : (s.withEng e).err = s.err := rfl
@[simp] theorem State.withEng_last (s : State) (e : Engine) : (s.withEng e).last = s.last := rfl
@[simp] theorem State.withEng_inBase (s : State) (e : Engine) : (s.withEng e).inBase = s.inBase := rfl
@[simp] theorem State.withEng_inSize (s : State) (e : Engine) : (s.withEng e).inSize = s.inSize := rfl
@[simp] theorem State.withEng_consumed (s : State) (e : Engine) : (s.withEng e).consumed = s.consumed := rfl
@[simp] theorem State.withEng_sinkLen (s : State) (e : Engine) : (s.withEng e).sinkLen = s.sinkLen := rfl
@[simp] theorem State.withEng_sinkCap (s : State) (e : Engine) : (s.withEng e).sinkCap = s.sinkCap := rfl
@[simp] theorem State.withEng_imgWidth (s : State) (e : Engine) : (s.withEng e).imgWidth = s.imgWidth := rfl
@[simp] theorem State.withEng_imgHeight (s : State) (e : Engine) : (s.withEng e).imgHeight = s.imgHeight := rfl
@[simp] theorem State.withEng_imgFormat (s : State) (e : Engine) : (s.withEng e).imgFormat = s.imgFormat := rfl
@[simp] theorem State.withEng_pixLen (s : State) (e : Engine) : (s.withEng e).pixLen = s.pixLen := rfl
@[simp] theorem State.withEng_phase (s : State) (e : Engine) : (s.withEng e).phase = s.phase := rfl
@[simp] theorem State.withEng_eng (s : State) (e : Engine) : (s.withEng e).eng = e := rfl
@[simp] theorem State.withEng_inMem (s : State) (e : Engine) : (s.withEng e).inMem = s.inMem := rfl
@[simp] theorem State.withEng_sinkMem (s : State) (e : Engine) : (s.withEng e).sinkMem = s.sinkMem := rfl
@[simp] theorem State.withEng_pixMem (s : State) (e : Engine) : (s.withEng e).pixMem = s.pixMem := rfl
@[simp] theorem State.withEng_expect (s : State) (e : Engine) : (s.withEng e).expect = s.expect := rfl
@[simp] theorem State.withEng_script (s : State) (e : Engine) : (s.withEng e).script = s.script := rfl
@[simp] theorem State.withEng_readData (s : State) (e : Engine) : (s.withEng e).readData = s.readData := rfl
@[simp] theorem State.withEng_result (s : State) (e : Engine) : (s.withEng e).result = s.result := rfl
@[simp] theorem State.withEng_sinkWrapped (s : State) (e : Engine) : (s.withEng e).sinkWrapped = s.sinkWrapped := rfl
@[simp] theorem State.withEng_draws (s : State) (e : Engine) : (s.withEng e).draws = s.draws := rfl

@[simp] theorem State.withEng_mem (s : State) (e : Engine) (sp : Space) : (s.withEng e).mem sp = s.mem sp := by cases sp <;> rfl
@[simp] theorem State.withEng_limit (s : State) (e : Engine) (sp : Space) : (s.withEng e).limit sp = s.limit sp := by cases sp <;> rfl
@[simp] theorem State.withEng_streamBit (s : State) (e : Engine) (k : Nat) : (s.withEng e).streamBit k = s.streamBit k := rfl

/-! ### `s.withBr b` -/

@[simp] theorem State.withBr_config (s : State) (b : BitReader) : (s.withBr b).config = s.config := rfl
@[simp] theorem State.withBr_runState (s : State) (b : BitReader) : (s.withBr b).runState = s.runState := rfl
@[simp] theorem State.withBr_err (s : State) (b : BitReader) : (s.withBr b).err = s.err := rfl
@[simp] theorem State.withBr_last (s : State) (b : BitReader) : (s.withBr b).last = s.last := rfl
@[simp] theorem State.withBr_inBase (s : State) (b : BitReader) : (s.withBr b).inBase = s.inBase := rfl
@[simp] theorem State.withBr_inSize (s : State) (b : BitReader) : (s.withBr b).inSize = s.inSize := rfl
@[simp] theorem State.withBr_consumed (s : State) (b : BitReader) : (s.withBr b).consumed = s.consumed := rfl
@[simp] theorem State.withBr_sinkLen (s : State) (b : BitReader) : (s.withBr b).sinkLen = s.sinkLen := rfl
@[simp] theorem State.withBr_sinkCap (s : State) (b : BitReader) : (s.withBr b).sinkCap = s.sinkCap := rfl
@[simp] theorem State.withBr_imgWidth (s : State) (b : BitReader) : (s.withBr b).imgWidth = s.imgWidth := rfl
@[simp] theorem State.withBr_imgHeight (s : State) (b : BitReader) : (s.withBr b).imgHeight = s.imgHeight := rfl
@[simp] theorem State.withBr_imgFormat (s : State) (b : BitReader) : (s.withBr b).imgFormat = s.imgFormat := rfl
@[simp] theorem State.withBr_pixLen (s : State) (b : BitReader) : (s.withBr b).pixLen = s.pixLen := rfl
@[simp] theorem State.withBr_phase (s : State) (b : BitReader) : (s.withBr b).phase = s.phase := rfl
@[simp] theorem State.withBr_eng (s : State) (b : BitReader) : (s.withBr b).eng = { s.eng with br := b } := rfl
@[simp] theorem State.withBr_inMem (s : State) (b : BitReader) : (s.withBr b).inMem = s.inMem := rfl
@[simp] theorem State.withBr_sinkMem (s : State) (b : BitReader) : (s.withBr b).sinkMem = s.sinkMem := rfl
@[simp] theorem State.withBr_pixMem (s : State) (b : BitReader) : (s.withBr b).pixMem = s.pixMem := rfl
@[simp] theorem State.withBr_expect (s : State) (b : BitReader) : (s.withBr b).expect = s.expect := rfl
@[simp] theorem State.withBr_script (s : State) (b : BitReader) : (s.withBr b).script = s.script := rfl
@[simp] theorem State.withBr_readData (s : State) (b : BitReader) : (s.withBr b).readData = s.readData := rfl
@[simp] theorem State.withBr_result (s : State) (b : BitReader) : (s.withBr b).result = s.result := rfl
@[simp] theorem State.withBr_sinkWrapped (s : State) (b : BitReader) : (s.withBr b).sinkWrapped = s.sinkWrapped := rfl
@[simp] theorem State.withBr_draws (s : State) (b : BitReader) : (s.withBr b).draws = s.draws := rfl

@[simp] theorem State.withBr_mem (s : State) (b : BitReader) (sp : Space) : (s.withBr b).mem sp = s.mem sp := by cases sp <;> rfl
@[simp] theorem State.withBr_limit (s : State) (b : BitReader) (sp : Space) : (s.withBr b).limit sp = s.limit sp := by cases sp <;> rfl
@[simp] theorem State.withBr_streamBit (s : State) (b : BitReader) (k : Nat) : (s.withBr b).streamBit k = s.streamBit k := rfl

/-! ### `s.withBlk b` -/

@[simp] theorem State.withBlk_config (s : State) (b : BlockRegs) : (s.withBlk b).config = s.config := rfl
@[simp] theorem State.withBlk_runState (s : State) (b : BlockRegs) : (s.withBlk b).runState = s.runState := rfl
@[simp] theorem State.withBlk_err (s : State) (b : BlockRegs) : (s.withBlk b).err = s.err := rfl
@[simp] theorem State.withBlk_last (s : State) (b : BlockRegs) : (s.withBlk b).last = s.last := rfl
@[simp] theorem State.withBlk_inBase (s : State) (b : BlockRegs) : (s.withBlk b).inBase = s.inBase := rfl
@[simp] theorem State.withBlk_inSize (s : State) (b : BlockRegs) : (s.withBlk b).inSize = s.inSize := rfl
@[simp] theorem State.withBlk_consumed (s : State) (b : BlockRegs) : (s.withBlk b).consumed = s.consumed := rfl
@[simp] theorem State.withBlk_sinkLen (s : State) (b : BlockRegs) : (s.withBlk b).sinkLen = s.sinkLen := rfl
@[simp] theorem State.withBlk_sinkCap (s : State) (b : BlockRegs) : (s.withBlk b).sinkCap = s.sinkCap := rfl
@[simp] theorem State.withBlk_imgWidth (s : State) (b : BlockRegs) : (s.withBlk b).imgWidth = s.imgWidth := rfl
@[simp] theorem State.withBlk_imgHeight (s : State) (b : BlockRegs) : (s.withBlk b).imgHeight = s.imgHeight := rfl
@[simp] theorem State.withBlk_imgFormat (s : State) (b : BlockRegs) : (s.withBlk b).imgFormat = s.imgFormat := rfl
@[simp] theorem State.withBlk_pixLen (s : State) (b : BlockRegs) : (s.withBlk b).pixLen = s.pixLen := rfl
@[simp] theorem State.withBlk_phase (s : State) (b : BlockRegs) : (s.withBlk b).phase = s.phase := rfl
@[simp] theorem State.withBlk_eng (s : State) (b : BlockRegs) : (s.withBlk b).eng = { s.eng with blk := b } := rfl
@[simp] theorem State.withBlk_inMem (s : State) (b : BlockRegs) : (s.withBlk b).inMem = s.inMem := rfl
@[simp] theorem State.withBlk_sinkMem (s : State) (b : BlockRegs) : (s.withBlk b).sinkMem = s.sinkMem := rfl
@[simp] theorem State.withBlk_pixMem (s : State) (b : BlockRegs) : (s.withBlk b).pixMem = s.pixMem := rfl
@[simp] theorem State.withBlk_expect (s : State) (b : BlockRegs) : (s.withBlk b).expect = s.expect := rfl
@[simp] theorem State.withBlk_script (s : State) (b : BlockRegs) : (s.withBlk b).script = s.script := rfl
@[simp] theorem State.withBlk_readData (s : State) (b : BlockRegs) : (s.withBlk b).readData = s.readData := rfl
@[simp] theorem State.withBlk_result (s : State) (b : BlockRegs) : (s.withBlk b).result = s.result := rfl
@[simp] theorem State.withBlk_sinkWrapped (s : State) (b : BlockRegs) : (s.withBlk b).sinkWrapped = s.sinkWrapped := rfl
@[simp] theorem State.withBlk_draws (s : State) (b : BlockRegs) : (s.withBlk b).draws = s.draws := rfl

@[simp] theorem State.withBlk_mem (s : State) (b : BlockRegs) (sp : Space) : (s.withBlk b).mem sp = s.mem sp := by cases sp <;> rfl
@[simp] theorem State.withBlk_limit (s : State) (b : BlockRegs) (sp : Space) : (s.withBlk b).limit sp = s.limit sp := by cases sp <;> rfl
@[simp] theorem State.withBlk_streamBit (s : State) (b : BlockRegs) (k : Nat) : (s.withBlk b).streamBit k = s.streamBit k := rfl

/-! ### `s.withSto r` -/

@[simp] theorem State.withSto_config (s : State) (r : StoredRegs) : (s.withSto r).config = s.config := rfl
@[simp] theorem State.withSto_runState (s : State) (r : StoredRegs) : (s.withSto r).runState = s.runState := rfl
@[simp] theorem State.withSto_err (s : State) (r : StoredRegs) : (s.withSto r).err = s.err := rfl
@[simp] theorem State.withSto_last (s : State) (r : StoredRegs) : (s.withSto r).last = s.last := rfl
@[simp] theorem State.withSto_inBase (s : State) (r : StoredRegs) : (s.withSto r).inBase = s.inBase := rfl
@[simp] theorem State.withSto_inSize (s : State) (r : StoredRegs) : (s.withSto r).inSize = s.inSize := rfl
@[simp] theorem State.withSto_consumed (s : State) (r : StoredRegs) : (s.withSto r).consumed = s.consumed := rfl
@[simp] theorem State.withSto_sinkLen (s : State) (r : StoredRegs) : (s.withSto r).sinkLen = s.sinkLen := rfl
@[simp] theorem State.withSto_sinkCap (s : State) (r : StoredRegs) : (s.withSto r).sinkCap = s.sinkCap := rfl
@[simp] theorem State.withSto_imgWidth (s : State) (r : StoredRegs) : (s.withSto r).imgWidth = s.imgWidth := rfl
@[simp] theorem State.withSto_imgHeight (s : State) (r : StoredRegs) : (s.withSto r).imgHeight = s.imgHeight := rfl
@[simp] theorem State.withSto_imgFormat (s : State) (r : StoredRegs) : (s.withSto r).imgFormat = s.imgFormat := rfl
@[simp] theorem State.withSto_pixLen (s : State) (r : StoredRegs) : (s.withSto r).pixLen = s.pixLen := rfl
@[simp] theorem State.withSto_phase (s : State) (r : StoredRegs) : (s.withSto r).phase = s.phase := rfl
@[simp] theorem State.withSto_eng (s : State) (r : StoredRegs) : (s.withSto r).eng = { s.eng with sto := r } := rfl
@[simp] theorem State.withSto_inMem (s : State) (r : StoredRegs) : (s.withSto r).inMem = s.inMem := rfl
@[simp] theorem State.withSto_sinkMem (s : State) (r : StoredRegs) : (s.withSto r).sinkMem = s.sinkMem := rfl
@[simp] theorem State.withSto_pixMem (s : State) (r : StoredRegs) : (s.withSto r).pixMem = s.pixMem := rfl
@[simp] theorem State.withSto_expect (s : State) (r : StoredRegs) : (s.withSto r).expect = s.expect := rfl
@[simp] theorem State.withSto_script (s : State) (r : StoredRegs) : (s.withSto r).script = s.script := rfl
@[simp] theorem State.withSto_readData (s : State) (r : StoredRegs) : (s.withSto r).readData = s.readData := rfl
@[simp] theorem State.withSto_result (s : State) (r : StoredRegs) : (s.withSto r).result = s.result := rfl
@[simp] theorem State.withSto_sinkWrapped (s : State) (r : StoredRegs) : (s.withSto r).sinkWrapped = s.sinkWrapped := rfl
@[simp] theorem State.withSto_draws (s : State) (r : StoredRegs) : (s.withSto r).draws = s.draws := rfl

@[simp] theorem State.withSto_mem (s : State) (r : StoredRegs) (sp : Space) : (s.withSto r).mem sp = s.mem sp := by cases sp <;> rfl
@[simp] theorem State.withSto_limit (s : State) (r : StoredRegs) (sp : Space) : (s.withSto r).limit sp = s.limit sp := by cases sp <;> rfl
@[simp] theorem State.withSto_streamBit (s : State) (r : StoredRegs) (k : Nat) : (s.withSto r).streamBit k = s.streamBit k := rfl

/-! ### `s.withHdr h` -/

@[simp] theorem State.withHdr_config (s : State) (h : HeaderRegs) : (s.withHdr h).config = s.config := rfl
@[simp] theorem State.withHdr_runState (s : State) (h : HeaderRegs) : (s.withHdr h).runState = s.runState := rfl
@[simp] theorem State.withHdr_err (s : State) (h : HeaderRegs) : (s.withHdr h).err = s.err := rfl
@[simp] theorem State.withHdr_last (s : State) (h : HeaderRegs) : (s.withHdr h).last = s.last := rfl
@[simp] theorem State.withHdr_inBase (s : State) (h : HeaderRegs) : (s.withHdr h).inBase = s.inBase := rfl
@[simp] theorem State.withHdr_inSize (s : State) (h : HeaderRegs) : (s.withHdr h).inSize = s.inSize := rfl
@[simp] theorem State.withHdr_consumed (s : State) (h : HeaderRegs) : (s.withHdr h).consumed = s.consumed := rfl
@[simp] theorem State.withHdr_sinkLen (s : State) (h : HeaderRegs) : (s.withHdr h).sinkLen = s.sinkLen := rfl
@[simp] theorem State.withHdr_sinkCap (s : State) (h : HeaderRegs) : (s.withHdr h).sinkCap = s.sinkCap := rfl
@[simp] theorem State.withHdr_imgWidth (s : State) (h : HeaderRegs) : (s.withHdr h).imgWidth = s.imgWidth := rfl
@[simp] theorem State.withHdr_imgHeight (s : State) (h : HeaderRegs) : (s.withHdr h).imgHeight = s.imgHeight := rfl
@[simp] theorem State.withHdr_imgFormat (s : State) (h : HeaderRegs) : (s.withHdr h).imgFormat = s.imgFormat := rfl
@[simp] theorem State.withHdr_pixLen (s : State) (h : HeaderRegs) : (s.withHdr h).pixLen = s.pixLen := rfl
@[simp] theorem State.withHdr_phase (s : State) (h : HeaderRegs) : (s.withHdr h).phase = s.phase := rfl
@[simp] theorem State.withHdr_eng (s : State) (h : HeaderRegs) : (s.withHdr h).eng = { s.eng with hdr := h } := rfl
@[simp] theorem State.withHdr_inMem (s : State) (h : HeaderRegs) : (s.withHdr h).inMem = s.inMem := rfl
@[simp] theorem State.withHdr_sinkMem (s : State) (h : HeaderRegs) : (s.withHdr h).sinkMem = s.sinkMem := rfl
@[simp] theorem State.withHdr_pixMem (s : State) (h : HeaderRegs) : (s.withHdr h).pixMem = s.pixMem := rfl
@[simp] theorem State.withHdr_expect (s : State) (h : HeaderRegs) : (s.withHdr h).expect = s.expect := rfl
@[simp] theorem State.withHdr_script (s : State) (h : HeaderRegs) : (s.withHdr h).script = s.script := rfl
@[simp] theorem State.withHdr_readData (s : State) (h : HeaderRegs) : (s.withHdr h).readData = s.readData := rfl
@[simp] theorem State.withHdr_result (s : State) (h : HeaderRegs) : (s.withHdr h).result = s.result := rfl
@[simp] theorem State.withHdr_sinkWrapped (s : State) (h : HeaderRegs) : (s.withHdr h).sinkWrapped = s.sinkWrapped := rfl
@[simp] theorem State.withHdr_draws (s : State) (h : HeaderRegs) : (s.withHdr h).draws = s.draws := rfl

@[simp] theorem State.withHdr_mem (s : State) (h : HeaderRegs) (sp : Space) : (s.withHdr h).mem sp = s.mem sp := by cases sp <;> rfl
@[simp] theorem State.withHdr_limit (s : State) (h : HeaderRegs) (sp : Space) : (s.withHdr h).limit sp = s.limit sp := by cases sp <;> rfl
@[simp] theorem State.withHdr_streamBit (s : State) (h : HeaderRegs) (k : Nat) : (s.withHdr h).streamBit k = s.streamBit k := rfl

/-! ### `s.withRcn r` -/

@[simp] theorem State.withRcn_config (s : State) (r : ReconRegs) : (s.withRcn r).config = s.config := rfl
@[simp] theorem State.withRcn_runState (s : State) (r : ReconRegs) : (s.withRcn r).runState = s.runState := rfl
@[simp] theorem State.withRcn_err (s : State) (r : ReconRegs) : (s.withRcn r).err = s.err := rfl
@[simp] theorem State.withRcn_last (s : State) (r : ReconRegs) : (s.withRcn r).last = s.last := rfl
@[simp] theorem State.withRcn_inBase (s : State) (r : ReconRegs) : (s.withRcn r).inBase = s.inBase := rfl
@[simp] theorem State.withRcn_inSize (s : State) (r : ReconRegs) : (s.withRcn r).inSize = s.inSize := rfl
@[simp] theorem State.withRcn_consumed (s : State) (r : ReconRegs) : (s.withRcn r).consumed = s.consumed := rfl
@[simp] theorem State.withRcn_sinkLen (s : State) (r : ReconRegs) : (s.withRcn r).sinkLen = s.sinkLen := rfl
@[simp] theorem State.withRcn_sinkCap (s : State) (r : ReconRegs) : (s.withRcn r).sinkCap = s.sinkCap := rfl
@[simp] theorem State.withRcn_imgWidth (s : State) (r : ReconRegs) : (s.withRcn r).imgWidth = s.imgWidth := rfl
@[simp] theorem State.withRcn_imgHeight (s : State) (r : ReconRegs) : (s.withRcn r).imgHeight = s.imgHeight := rfl
@[simp] theorem State.withRcn_imgFormat (s : State) (r : ReconRegs) : (s.withRcn r).imgFormat = s.imgFormat := rfl
@[simp] theorem State.withRcn_pixLen (s : State) (r : ReconRegs) : (s.withRcn r).pixLen = s.pixLen := rfl
@[simp] theorem State.withRcn_phase (s : State) (r : ReconRegs) : (s.withRcn r).phase = s.phase := rfl
@[simp] theorem State.withRcn_eng (s : State) (r : ReconRegs) : (s.withRcn r).eng = { s.eng with rcn := r } := rfl
@[simp] theorem State.withRcn_inMem (s : State) (r : ReconRegs) : (s.withRcn r).inMem = s.inMem := rfl
@[simp] theorem State.withRcn_sinkMem (s : State) (r : ReconRegs) : (s.withRcn r).sinkMem = s.sinkMem := rfl
@[simp] theorem State.withRcn_pixMem (s : State) (r : ReconRegs) : (s.withRcn r).pixMem = s.pixMem := rfl
@[simp] theorem State.withRcn_expect (s : State) (r : ReconRegs) : (s.withRcn r).expect = s.expect := rfl
@[simp] theorem State.withRcn_script (s : State) (r : ReconRegs) : (s.withRcn r).script = s.script := rfl
@[simp] theorem State.withRcn_readData (s : State) (r : ReconRegs) : (s.withRcn r).readData = s.readData := rfl
@[simp] theorem State.withRcn_result (s : State) (r : ReconRegs) : (s.withRcn r).result = s.result := rfl
@[simp] theorem State.withRcn_sinkWrapped (s : State) (r : ReconRegs) : (s.withRcn r).sinkWrapped = s.sinkWrapped := rfl
@[simp] theorem State.withRcn_draws (s : State) (r : ReconRegs) : (s.withRcn r).draws = s.draws := rfl

@[simp] theorem State.withRcn_mem (s : State) (r : ReconRegs) (sp : Space) : (s.withRcn r).mem sp = s.mem sp := by cases sp <;> rfl
@[simp] theorem State.withRcn_limit (s : State) (r : ReconRegs) (sp : Space) : (s.withRcn r).limit sp = s.limit sp := by cases sp <;> rfl
@[simp] theorem State.withRcn_streamBit (s : State) (r : ReconRegs) (k : Nat) : (s.withRcn r).streamBit k = s.streamBit k := rfl

/-! ### `s.goTo p e` -/

@[simp] theorem State.goTo_config (s : State) (p : Phase) (e : Selector) : (s.goTo p e).config = s.config := rfl
@[simp] theorem State.goTo_runState (s : State) (p : Phase) (e : Selector) : (s.goTo p e).runState = s.runState := rfl
@[simp] theorem State.goTo_err (s : State) (p : Phase) (e : Selector) : (s.goTo p e).err = s.err := rfl
@[simp] theorem State.goTo_last (s : State) (p : Phase) (e : Selector) : (s.goTo p e).last = s.last := rfl
@[simp] theorem State.goTo_inBase (s : State) (p : Phase) (e : Selector) : (s.goTo p e).inBase = s.inBase := rfl
@[simp] theorem State.goTo_inSize (s : State) (p : Phase) (e : Selector) : (s.goTo p e).inSize = s.inSize := rfl
@[simp] theorem State.goTo_consumed (s : State) (p : Phase) (e : Selector) : (s.goTo p e).consumed = s.consumed := rfl
@[simp] theorem State.goTo_sinkLen (s : State) (p : Phase) (e : Selector) : (s.goTo p e).sinkLen = s.sinkLen := rfl
@[simp] theorem State.goTo_sinkCap (s : State) (p : Phase) (e : Selector) : (s.goTo p e).sinkCap = s.sinkCap := rfl
@[simp] theorem State.goTo_imgWidth (s : State) (p : Phase) (e : Selector) : (s.goTo p e).imgWidth = s.imgWidth := rfl
@[simp] theorem State.goTo_imgHeight (s : State) (p : Phase) (e : Selector) : (s.goTo p e).imgHeight = s.imgHeight := rfl
@[simp] theorem State.goTo_imgFormat (s : State) (p : Phase) (e : Selector) : (s.goTo p e).imgFormat = s.imgFormat := rfl
@[simp] theorem State.goTo_pixLen (s : State) (p : Phase) (e : Selector) : (s.goTo p e).pixLen = s.pixLen := rfl
@[simp] theorem State.goTo_phase (s : State) (p : Phase) (e : Selector) : (s.goTo p e).phase = p := rfl
@[simp] theorem State.goTo_eng (s : State) (p : Phase) (e : Selector) : (s.goTo p e).eng = s.eng := rfl
@[simp] theorem State.goTo_inMem (s : State) (p : Phase) (e : Selector) : (s.goTo p e).inMem = s.inMem := rfl
@[simp] theorem State.goTo_sinkMem (s : State) (p : Phase) (e : Selector) : (s.goTo p e).sinkMem = s.sinkMem := rfl
@[simp] theorem State.goTo_pixMem (s : State) (p : Phase) (e : Selector) : (s.goTo p e).pixMem = s.pixMem := rfl
@[simp] theorem State.goTo_expect (s : State) (p : Phase) (e : Selector) : (s.goTo p e).expect = e := rfl
@[simp] theorem State.goTo_script (s : State) (p : Phase) (e : Selector) : (s.goTo p e).script = s.script := rfl
@[simp] theorem State.goTo_readData (s : State) (p : Phase) (e : Selector) : (s.goTo p e).readData = s.readData := rfl
@[simp] theorem State.goTo_result (s : State) (p : Phase) (e : Selector) : (s.goTo p e).result = s.result := rfl
@[simp] theorem State.goTo_sinkWrapped (s : State) (p : Phase) (e : Selector) : (s.goTo p e).sinkWrapped = s.sinkWrapped := rfl
@[simp] theorem State.goTo_draws (s : State) (p : Phase) (e : Selector) : (s.goTo p e).draws = s.draws := rfl

@[simp] theorem State.goTo_mem (s : State) (p : Phase) (e : Selector) (sp : Space) : (s.goTo p e).mem sp = s.mem sp := by cases sp <;> rfl
@[simp] theorem State.goTo_limit (s : State) (p : Phase) (e : Selector) (sp : Space) : (s.goTo p e).limit sp = s.limit sp := by cases sp <;> rfl
@[simp] theorem State.goTo_streamBit (s : State) (p : Phase) (e : Selector) (k : Nat) : (s.goTo p e).streamBit k = s.streamBit k := rfl

/-! ### `s.startCommand v` -/

@[simp] theorem State.startCommand_config (s : State) (v : BitVec 2) : (s.startCommand v).config = s.config := rfl
@[simp] theorem State.startCommand_runState (s : State) (v : BitVec 2) : (s.startCommand v).runState = .busy := rfl
@[simp] theorem State.startCommand_err (s : State) (v : BitVec 2) : (s.startCommand v).err = 0 := rfl
@[simp] theorem State.startCommand_last (s : State) (v : BitVec 2) : (s.startCommand v).last = v := rfl
@[simp] theorem State.startCommand_inBase (s : State) (v : BitVec 2) : (s.startCommand v).inBase = s.inBase := rfl
@[simp] theorem State.startCommand_inSize (s : State) (v : BitVec 2) : (s.startCommand v).inSize = s.inSize := rfl
@[simp] theorem State.startCommand_consumed (s : State) (v : BitVec 2) : (s.startCommand v).consumed = s.consumed := rfl
@[simp] theorem State.startCommand_sinkLen (s : State) (v : BitVec 2) : (s.startCommand v).sinkLen = s.sinkLen := rfl
@[simp] theorem State.startCommand_sinkCap (s : State) (v : BitVec 2) : (s.startCommand v).sinkCap = s.sinkCap := rfl
@[simp] theorem State.startCommand_imgWidth (s : State) (v : BitVec 2) : (s.startCommand v).imgWidth = s.imgWidth := rfl
@[simp] theorem State.startCommand_imgHeight (s : State) (v : BitVec 2) : (s.startCommand v).imgHeight = s.imgHeight := rfl
@[simp] theorem State.startCommand_imgFormat (s : State) (v : BitVec 2) : (s.startCommand v).imgFormat = s.imgFormat := rfl
@[simp] theorem State.startCommand_pixLen (s : State) (v : BitVec 2) : (s.startCommand v).pixLen = s.pixLen := rfl
@[simp] theorem State.startCommand_phase (s : State) (v : BitVec 2) : (s.startCommand v).phase = s.phase := rfl
@[simp] theorem State.startCommand_eng (s : State) (v : BitVec 2) : (s.startCommand v).eng = s.eng := rfl
@[simp] theorem State.startCommand_inMem (s : State) (v : BitVec 2) : (s.startCommand v).inMem = s.inMem := rfl
@[simp] theorem State.startCommand_sinkMem (s : State) (v : BitVec 2) : (s.startCommand v).sinkMem = s.sinkMem := rfl
@[simp] theorem State.startCommand_pixMem (s : State) (v : BitVec 2) : (s.startCommand v).pixMem = s.pixMem := rfl
@[simp] theorem State.startCommand_expect (s : State) (v : BitVec 2) : (s.startCommand v).expect = s.expect := rfl
@[simp] theorem State.startCommand_script (s : State) (v : BitVec 2) : (s.startCommand v).script = s.script := rfl
@[simp] theorem State.startCommand_readData (s : State) (v : BitVec 2) : (s.startCommand v).readData = s.readData := rfl
@[simp] theorem State.startCommand_result (s : State) (v : BitVec 2) : (s.startCommand v).result = s.result := rfl
@[simp] theorem State.startCommand_sinkWrapped (s : State) (v : BitVec 2) : (s.startCommand v).sinkWrapped = s.sinkWrapped := rfl
@[simp] theorem State.startCommand_draws (s : State) (v : BitVec 2) : (s.startCommand v).draws = s.draws := rfl

@[simp] theorem State.startCommand_mem (s : State) (v : BitVec 2) (sp : Space) : (s.startCommand v).mem sp = s.mem sp := by cases sp <;> rfl
@[simp] theorem State.startCommand_limit (s : State) (v : BitVec 2) (sp : Space) : (s.startCommand v).limit sp = s.limit sp := by cases sp <;> rfl
@[simp] theorem State.startCommand_streamBit (s : State) (v : BitVec 2) (k : Nat) : (s.startCommand v).streamBit k = s.streamBit k := rfl

/-! ### `s.withHeaderFlags f t` -/

@[simp] theorem State.withHeaderFlags_config (s : State) (f t : Nat) : (s.withHeaderFlags f t).config = s.config := rfl
@[simp] theorem State.withHeaderFlags_runState (s : State) (f t : Nat) : (s.withHeaderFlags f t).runState = s.runState := rfl
@[simp] theorem State.withHeaderFlags_err (s : State) (f t : Nat) : (s.withHeaderFlags f t).err = s.err := rfl
@[simp] theorem State.withHeaderFlags_last (s : State) (f t : Nat) : (s.withHeaderFlags f t).last = s.last := rfl
@[simp] theorem State.withHeaderFlags_inBase (s : State) (f t : Nat) : (s.withHeaderFlags f t).inBase = s.inBase := rfl
@[simp] theorem State.withHeaderFlags_inSize (s : State) (f t : Nat) : (s.withHeaderFlags f t).inSize = s.inSize := rfl
@[simp] theorem State.withHeaderFlags_consumed (s : State) (f t : Nat) : (s.withHeaderFlags f t).consumed = s.consumed := rfl
@[simp] theorem State.withHeaderFlags_sinkLen (s : State) (f t : Nat) : (s.withHeaderFlags f t).sinkLen = s.sinkLen := rfl
@[simp] theorem State.withHeaderFlags_sinkCap (s : State) (f t : Nat) : (s.withHeaderFlags f t).sinkCap = s.sinkCap := rfl
@[simp] theorem State.withHeaderFlags_imgWidth (s : State) (f t : Nat) : (s.withHeaderFlags f t).imgWidth = s.imgWidth := rfl
@[simp] theorem State.withHeaderFlags_imgHeight (s : State) (f t : Nat) : (s.withHeaderFlags f t).imgHeight = s.imgHeight := rfl
@[simp] theorem State.withHeaderFlags_imgFormat (s : State) (f t : Nat) : (s.withHeaderFlags f t).imgFormat = s.imgFormat := rfl
@[simp] theorem State.withHeaderFlags_pixLen (s : State) (f t : Nat) : (s.withHeaderFlags f t).pixLen = s.pixLen := rfl
@[simp] theorem State.withHeaderFlags_phase (s : State) (f t : Nat) : (s.withHeaderFlags f t).phase = s.phase := rfl
@[simp] theorem State.withHeaderFlags_eng (s : State) (f t : Nat) : (s.withHeaderFlags f t).eng = { s.eng with bfinal := BitVec.ofNat 1 f, btype := BitVec.ofNat 2 t } := rfl
@[simp] theorem State.withHeaderFlags_inMem (s : State) (f t : Nat) : (s.withHeaderFlags f t).inMem = s.inMem := rfl
@[simp] theorem State.withHeaderFlags_sinkMem (s : State) (f t : Nat) : (s.withHeaderFlags f t).sinkMem = s.sinkMem := rfl
@[simp] theorem State.withHeaderFlags_pixMem (s : State) (f t : Nat) : (s.withHeaderFlags f t).pixMem = s.pixMem := rfl
@[simp] theorem State.withHeaderFlags_expect (s : State) (f t : Nat) : (s.withHeaderFlags f t).expect = s.expect := rfl
@[simp] theorem State.withHeaderFlags_script (s : State) (f t : Nat) : (s.withHeaderFlags f t).script = s.script := rfl
@[simp] theorem State.withHeaderFlags_readData (s : State) (f t : Nat) : (s.withHeaderFlags f t).readData = s.readData := rfl
@[simp] theorem State.withHeaderFlags_result (s : State) (f t : Nat) : (s.withHeaderFlags f t).result = s.result := rfl
@[simp] theorem State.withHeaderFlags_sinkWrapped (s : State) (f t : Nat) : (s.withHeaderFlags f t).sinkWrapped = s.sinkWrapped := rfl
@[simp] theorem State.withHeaderFlags_draws (s : State) (f t : Nat) : (s.withHeaderFlags f t).draws = s.draws := rfl

@[simp] theorem State.withHeaderFlags_mem (s : State) (f t : Nat) (sp : Space) : (s.withHeaderFlags f t).mem sp = s.mem sp := by cases sp <;> rfl
@[simp] theorem State.withHeaderFlags_limit (s : State) (f t : Nat) (sp : Space) : (s.withHeaderFlags f t).limit sp = s.limit sp := by cases sp <;> rfl
@[simp] theorem State.withHeaderFlags_streamBit (s : State) (f t : Nat) (k : Nat) : (s.withHeaderFlags f t).streamBit k = s.streamBit k := rfl

/-! ### `s.buildLt l` -/

@[simp] theorem State.buildLt_config (s : State) (l : List Nat) : (s.buildLt l).config = s.config := rfl
@[simp] theorem State.buildLt_runState (s : State) (l : List Nat) : (s.buildLt l).runState = s.runState := rfl
@[simp] theorem State.buildLt_err (s : State) (l : List Nat) : (s.buildLt l).err = s.err := rfl
@[simp] theorem State.buildLt_last (s : State) (l : List Nat) : (s.buildLt l).last = s.last := rfl
@[simp] theorem State.buildLt_inBase (s : State) (l : List Nat) : (s.buildLt l).inBase = s.inBase := rfl
@[simp] theorem State.buildLt_inSize (s : State) (l : List Nat) : (s.buildLt l).inSize = s.inSize := rfl
@[simp] theorem State.buildLt_consumed (s : State) (l : List Nat) : (s.buildLt l).consumed = s.consumed := rfl
@[simp] theorem State.buildLt_sinkLen (s : State) (l : List Nat) : (s.buildLt l).sinkLen = s.sinkLen := rfl
@[simp] theorem State.buildLt_sinkCap (s : State) (l : List Nat) : (s.buildLt l).sinkCap = s.sinkCap := rfl
@[simp] theorem State.buildLt_imgWidth (s : State) (l : List Nat) : (s.buildLt l).imgWidth = s.imgWidth := rfl
@[simp] theorem State.buildLt_imgHeight (s : State) (l : List Nat) : (s.buildLt l).imgHeight = s.imgHeight := rfl
@[simp] theorem State.buildLt_imgFormat (s : State) (l : List Nat) : (s.buildLt l).imgFormat = s.imgFormat := rfl
@[simp] theorem State.buildLt_pixLen (s : State) (l : List Nat) : (s.buildLt l).pixLen = s.pixLen := rfl
@[simp] theorem State.buildLt_phase (s : State) (l : List Nat) : (s.buildLt l).phase = s.phase := rfl
@[simp] theorem State.buildLt_eng (s : State) (l : List Nat) : (s.buildLt l).eng = { s.eng with lt := buildTable 288 l s.draws } := rfl
@[simp] theorem State.buildLt_inMem (s : State) (l : List Nat) : (s.buildLt l).inMem = s.inMem := rfl
@[simp] theorem State.buildLt_sinkMem (s : State) (l : List Nat) : (s.buildLt l).sinkMem = s.sinkMem := rfl
@[simp] theorem State.buildLt_pixMem (s : State) (l : List Nat) : (s.buildLt l).pixMem = s.pixMem := rfl
@[simp] theorem State.buildLt_expect (s : State) (l : List Nat) : (s.buildLt l).expect = s.expect := rfl
@[simp] theorem State.buildLt_script (s : State) (l : List Nat) : (s.buildLt l).script = s.script := rfl
@[simp] theorem State.buildLt_readData (s : State) (l : List Nat) : (s.buildLt l).readData = s.readData := rfl
@[simp] theorem State.buildLt_result (s : State) (l : List Nat) : (s.buildLt l).result = s.result := rfl
@[simp] theorem State.buildLt_sinkWrapped (s : State) (l : List Nat) : (s.buildLt l).sinkWrapped = s.sinkWrapped := rfl
@[simp] theorem State.buildLt_draws (s : State) (l : List Nat) : (s.buildLt l).draws = s.draws + 1 := rfl

@[simp] theorem State.buildLt_mem (s : State) (l : List Nat) (sp : Space) : (s.buildLt l).mem sp = s.mem sp := by cases sp <;> rfl
@[simp] theorem State.buildLt_limit (s : State) (l : List Nat) (sp : Space) : (s.buildLt l).limit sp = s.limit sp := by cases sp <;> rfl
@[simp] theorem State.buildLt_streamBit (s : State) (l : List Nat) (k : Nat) : (s.buildLt l).streamBit k = s.streamBit k := rfl

/-! ### `s.buildDt l` -/

@[simp] theorem State.buildDt_config (s : State) (l : List Nat) : (s.buildDt l).config = s.config := rfl
@[simp] theorem State.buildDt_runState (s : State) (l : List Nat) : (s.buildDt l).runState = s.runState := rfl
@[simp] theorem State.buildDt_err (s : State) (l : List Nat) : (s.buildDt l).err = s.err := rfl
@[simp] theorem State.buildDt_last (s : State) (l : List Nat) : (s.buildDt l).last = s.last := rfl
@[simp] theorem State.buildDt_inBase (s : State) (l : List Nat) : (s.buildDt l).inBase = s.inBase := rfl
@[simp] theorem State.buildDt_inSize (s : State) (l : List Nat) : (s.buildDt l).inSize = s.inSize := rfl
@[simp] theorem State.buildDt_consumed (s : State) (l : List Nat) : (s.buildDt l).consumed = s.consumed := rfl
@[simp] theorem State.buildDt_sinkLen (s : State) (l : List Nat) : (s.buildDt l).sinkLen = s.sinkLen := rfl
@[simp] theorem State.buildDt_sinkCap (s : State) (l : List Nat) : (s.buildDt l).sinkCap = s.sinkCap := rfl
@[simp] theorem State.buildDt_imgWidth (s : State) (l : List Nat) : (s.buildDt l).imgWidth = s.imgWidth := rfl
@[simp] theorem State.buildDt_imgHeight (s : State) (l : List Nat) : (s.buildDt l).imgHeight = s.imgHeight := rfl
@[simp] theorem State.buildDt_imgFormat (s : State) (l : List Nat) : (s.buildDt l).imgFormat = s.imgFormat := rfl
@[simp] theorem State.buildDt_pixLen (s : State) (l : List Nat) : (s.buildDt l).pixLen = s.pixLen := rfl
@[simp] theorem State.buildDt_phase (s : State) (l : List Nat) : (s.buildDt l).phase = s.phase := rfl
@[simp] theorem State.buildDt_eng (s : State) (l : List Nat) : (s.buildDt l).eng = { s.eng with dt := buildTable 32 l s.draws } := rfl
@[simp] theorem State.buildDt_inMem (s : State) (l : List Nat) : (s.buildDt l).inMem = s.inMem := rfl
@[simp] theorem State.buildDt_sinkMem (s : State) (l : List Nat) : (s.buildDt l).sinkMem = s.sinkMem := rfl
@[simp] theorem State.buildDt_pixMem (s : State) (l : List Nat) : (s.buildDt l).pixMem = s.pixMem := rfl
@[simp] theorem State.buildDt_expect (s : State) (l : List Nat) : (s.buildDt l).expect = s.expect := rfl
@[simp] theorem State.buildDt_script (s : State) (l : List Nat) : (s.buildDt l).script = s.script := rfl
@[simp] theorem State.buildDt_readData (s : State) (l : List Nat) : (s.buildDt l).readData = s.readData := rfl
@[simp] theorem State.buildDt_result (s : State) (l : List Nat) : (s.buildDt l).result = s.result := rfl
@[simp] theorem State.buildDt_sinkWrapped (s : State) (l : List Nat) : (s.buildDt l).sinkWrapped = s.sinkWrapped := rfl
@[simp] theorem State.buildDt_draws (s : State) (l : List Nat) : (s.buildDt l).draws = s.draws + 1 := rfl

@[simp] theorem State.buildDt_mem (s : State) (l : List Nat) (sp : Space) : (s.buildDt l).mem sp = s.mem sp := by cases sp <;> rfl
@[simp] theorem State.buildDt_limit (s : State) (l : List Nat) (sp : Space) : (s.buildDt l).limit sp = s.limit sp := by cases sp <;> rfl
@[simp] theorem State.buildDt_streamBit (s : State) (l : List Nat) (k : Nat) : (s.buildDt l).streamBit k = s.streamBit k := rfl

/-! ### `s.buildCt l` -/

@[simp] theorem State.buildCt_config (s : State) (l : List Nat) : (s.buildCt l).config = s.config := rfl
@[simp] theorem State.buildCt_runState (s : State) (l : List Nat) : (s.buildCt l).runState = s.runState := rfl
@[simp] theorem State.buildCt_err (s : State) (l : List Nat) : (s.buildCt l).err = s.err := rfl
@[simp] theorem State.buildCt_last (s : State) (l : List Nat) : (s.buildCt l).last = s.last := rfl
@[simp] theorem State.buildCt_inBase (s : State) (l : List Nat) : (s.buildCt l).inBase = s.inBase := rfl
@[simp] theorem State.buildCt_inSize (s : State) (l : List Nat) : (s.buildCt l).inSize = s.inSize := rfl
@[simp] theorem State.buildCt_consumed (s : State) (l : List Nat) : (s.buildCt l).consumed = s.consumed := rfl
@[simp] theorem State.buildCt_sinkLen (s : State) (l : List Nat) : (s.buildCt l).sinkLen = s.sinkLen := rfl
@[simp] theorem State.buildCt_sinkCap (s : State) (l : List Nat) : (s.buildCt l).sinkCap = s.sinkCap := rfl
@[simp] theorem State.buildCt_imgWidth (s : State) (l : List Nat) : (s.buildCt l).imgWidth = s.imgWidth := rfl
@[simp] theorem State.buildCt_imgHeight (s : State) (l : List Nat) : (s.buildCt l).imgHeight = s.imgHeight := rfl
@[simp] theorem State.buildCt_imgFormat (s : State) (l : List Nat) : (s.buildCt l).imgFormat = s.imgFormat := rfl
@[simp] theorem State.buildCt_pixLen (s : State) (l : List Nat) : (s.buildCt l).pixLen = s.pixLen := rfl
@[simp] theorem State.buildCt_phase (s : State) (l : List Nat) : (s.buildCt l).phase = s.phase := rfl
@[simp] theorem State.buildCt_eng (s : State) (l : List Nat) : (s.buildCt l).eng = { s.eng with ct := buildTable 19 l s.draws } := rfl
@[simp] theorem State.buildCt_inMem (s : State) (l : List Nat) : (s.buildCt l).inMem = s.inMem := rfl
@[simp] theorem State.buildCt_sinkMem (s : State) (l : List Nat) : (s.buildCt l).sinkMem = s.sinkMem := rfl
@[simp] theorem State.buildCt_pixMem (s : State) (l : List Nat) : (s.buildCt l).pixMem = s.pixMem := rfl
@[simp] theorem State.buildCt_expect (s : State) (l : List Nat) : (s.buildCt l).expect = s.expect := rfl
@[simp] theorem State.buildCt_script (s : State) (l : List Nat) : (s.buildCt l).script = s.script := rfl
@[simp] theorem State.buildCt_readData (s : State) (l : List Nat) : (s.buildCt l).readData = s.readData := rfl
@[simp] theorem State.buildCt_result (s : State) (l : List Nat) : (s.buildCt l).result = s.result := rfl
@[simp] theorem State.buildCt_sinkWrapped (s : State) (l : List Nat) : (s.buildCt l).sinkWrapped = s.sinkWrapped := rfl
@[simp] theorem State.buildCt_draws (s : State) (l : List Nat) : (s.buildCt l).draws = s.draws + 1 := rfl

@[simp] theorem State.buildCt_mem (s : State) (l : List Nat) (sp : Space) : (s.buildCt l).mem sp = s.mem sp := by cases sp <;> rfl
@[simp] theorem State.buildCt_limit (s : State) (l : List Nat) (sp : Space) : (s.buildCt l).limit sp = s.limit sp := by cases sp <;> rfl
@[simp] theorem State.buildCt_streamBit (s : State) (l : List Nat) (k : Nat) : (s.buildCt l).streamBit k = s.streamBit k := rfl

/-! ### `s.completeInflate` -/

@[simp] theorem State.completeInflate_config (s : State) : (s.completeInflate).config = s.config := rfl
@[simp] theorem State.completeInflate_runState (s : State) : (s.completeInflate).runState = .done := rfl
@[simp] theorem State.completeInflate_err (s : State) : (s.completeInflate).err = s.err := rfl
@[simp] theorem State.completeInflate_last (s : State) : (s.completeInflate).last = s.last := rfl
@[simp] theorem State.completeInflate_inBase (s : State) : (s.completeInflate).inBase = s.inBase := rfl
@[simp] theorem State.completeInflate_inSize (s : State) : (s.completeInflate).inSize = s.inSize := rfl
@[simp] theorem State.completeInflate_consumed (s : State) : (s.completeInflate).consumed = s.eng.br.pos := rfl
@[simp] theorem State.completeInflate_sinkLen (s : State) : (s.completeInflate).sinkLen = s.sinkLen := rfl
@[simp] theorem State.completeInflate_sinkCap (s : State) : (s.completeInflate).sinkCap = s.sinkCap := rfl
@[simp] theorem State.completeInflate_imgWidth (s : State) : (s.completeInflate).imgWidth = s.imgWidth := rfl
@[simp] theorem State.completeInflate_imgHeight (s : State) : (s.completeInflate).imgHeight = s.imgHeight := rfl
@[simp] theorem State.completeInflate_imgFormat (s : State) : (s.completeInflate).imgFormat = s.imgFormat := rfl
@[simp] theorem State.completeInflate_pixLen (s : State) : (s.completeInflate).pixLen = s.pixLen := rfl
@[simp] theorem State.completeInflate_phase (s : State) : (s.completeInflate).phase = .done := rfl
@[simp] theorem State.completeInflate_eng (s : State) : (s.completeInflate).eng = s.eng := rfl
@[simp] theorem State.completeInflate_inMem (s : State) : (s.completeInflate).inMem = s.inMem := rfl
@[simp] theorem State.completeInflate_sinkMem (s : State) : (s.completeInflate).sinkMem = s.sinkMem := rfl
@[simp] theorem State.completeInflate_pixMem (s : State) : (s.completeInflate).pixMem = s.pixMem := rfl
@[simp] theorem State.completeInflate_expect (s : State) : (s.completeInflate).expect = .cmd := rfl
@[simp] theorem State.completeInflate_script (s : State) : (s.completeInflate).script = s.script := rfl
@[simp] theorem State.completeInflate_readData (s : State) : (s.completeInflate).readData = s.readData := rfl
@[simp] theorem State.completeInflate_result (s : State) : (s.completeInflate).result = s.result := rfl
@[simp] theorem State.completeInflate_sinkWrapped (s : State) : (s.completeInflate).sinkWrapped = s.sinkWrapped := rfl
@[simp] theorem State.completeInflate_draws (s : State) : (s.completeInflate).draws = s.draws := rfl

@[simp] theorem State.completeInflate_mem (s : State) (sp : Space) : (s.completeInflate).mem sp = s.mem sp := by cases sp <;> rfl
@[simp] theorem State.completeInflate_limit (s : State) (sp : Space) : (s.completeInflate).limit sp = s.limit sp := by cases sp <;> rfl
@[simp] theorem State.completeInflate_streamBit (s : State) (k : Nat) : (s.completeInflate).streamBit k = s.streamBit k := rfl

/-! ### `s.completeRecon` -/

@[simp] theorem State.completeRecon_config (s : State) : (s.completeRecon).config = s.config := rfl
@[simp] theorem State.completeRecon_runState (s : State) : (s.completeRecon).runState = .done := rfl
@[simp] theorem State.completeRecon_err (s : State) : (s.completeRecon).err = s.err := rfl
@[simp] theorem State.completeRecon_last (s : State) : (s.completeRecon).last = s.last := rfl
@[simp] theorem State.completeRecon_inBase (s : State) : (s.completeRecon).inBase = s.inBase := rfl
@[simp] theorem State.completeRecon_inSize (s : State) : (s.completeRecon).inSize = s.inSize := rfl
@[simp] theorem State.completeRecon_consumed (s : State) : (s.completeRecon).consumed = s.consumed := rfl
@[simp] theorem State.completeRecon_sinkLen (s : State) : (s.completeRecon).sinkLen = s.sinkLen := rfl
@[simp] theorem State.completeRecon_sinkCap (s : State) : (s.completeRecon).sinkCap = s.sinkCap := rfl
@[simp] theorem State.completeRecon_imgWidth (s : State) : (s.completeRecon).imgWidth = s.imgWidth := rfl
@[simp] theorem State.completeRecon_imgHeight (s : State) : (s.completeRecon).imgHeight = s.imgHeight := rfl
@[simp] theorem State.completeRecon_imgFormat (s : State) : (s.completeRecon).imgFormat = s.imgFormat := rfl
@[simp] theorem State.completeRecon_pixLen (s : State) : (s.completeRecon).pixLen = BitVec.ofNat 32 (s.imgWidth.toNat * s.imgHeight.toNat * 4) := rfl
@[simp] theorem State.completeRecon_phase (s : State) : (s.completeRecon).phase = .done := rfl
@[simp] theorem State.completeRecon_eng (s : State) : (s.completeRecon).eng = s.eng := rfl
@[simp] theorem State.completeRecon_inMem (s : State) : (s.completeRecon).inMem = s.inMem := rfl
@[simp] theorem State.completeRecon_sinkMem (s : State) : (s.completeRecon).sinkMem = s.sinkMem := rfl
@[simp] theorem State.completeRecon_pixMem (s : State) : (s.completeRecon).pixMem = s.pixMem := rfl
@[simp] theorem State.completeRecon_expect (s : State) : (s.completeRecon).expect = .cmd := rfl
@[simp] theorem State.completeRecon_script (s : State) : (s.completeRecon).script = s.script := rfl
@[simp] theorem State.completeRecon_readData (s : State) : (s.completeRecon).readData = s.readData := rfl
@[simp] theorem State.completeRecon_result (s : State) : (s.completeRecon).result = s.result := rfl
@[simp] theorem State.completeRecon_sinkWrapped (s : State) : (s.completeRecon).sinkWrapped = s.sinkWrapped := rfl
@[simp] theorem State.completeRecon_draws (s : State) : (s.completeRecon).draws = s.draws := rfl

@[simp] theorem State.completeRecon_mem (s : State) (sp : Space) : (s.completeRecon).mem sp = s.mem sp := by cases sp <;> rfl
@[simp] theorem State.completeRecon_limit (s : State) (sp : Space) : (s.completeRecon).limit sp = s.limit sp := by cases sp <;> rfl
@[simp] theorem State.completeRecon_streamBit (s : State) (k : Nat) : (s.completeRecon).streamBit k = s.streamBit k := rfl

/-! ### `s.withMem sp m` -/

@[simp] theorem State.withMem_config (s : State) (sp : Space) (m : Memory) : (s.withMem sp m).config = s.config := by
  cases sp <;> rfl
@[simp] theorem State.withMem_runState (s : State) (sp : Space) (m : Memory) : (s.withMem sp m).runState = s.runState := by
  cases sp <;> rfl
@[simp] theorem State.withMem_err (s : State) (sp : Space) (m : Memory) : (s.withMem sp m).err = s.err := by
  cases sp <;> rfl
@[simp] theorem State.withMem_last (s : State) (sp : Space) (m : Memory) : (s.withMem sp m).last = s.last := by
  cases sp <;> rfl
@[simp] theorem State.withMem_inBase (s : State) (sp : Space) (m : Memory) : (s.withMem sp m).inBase = s.inBase := by
  cases sp <;> rfl
@[simp] theorem State.withMem_inSize (s : State) (sp : Space) (m : Memory) : (s.withMem sp m).inSize = s.inSize := by
  cases sp <;> rfl
@[simp] theorem State.withMem_consumed (s : State) (sp : Space) (m : Memory) : (s.withMem sp m).consumed = s.consumed := by
  cases sp <;> rfl
@[simp] theorem State.withMem_sinkLen (s : State) (sp : Space) (m : Memory) : (s.withMem sp m).sinkLen = s.sinkLen := by
  cases sp <;> rfl
@[simp] theorem State.withMem_sinkCap (s : State) (sp : Space) (m : Memory) : (s.withMem sp m).sinkCap = s.sinkCap := by
  cases sp <;> rfl
@[simp] theorem State.withMem_imgWidth (s : State) (sp : Space) (m : Memory) : (s.withMem sp m).imgWidth = s.imgWidth := by
  cases sp <;> rfl
@[simp] theorem State.withMem_imgHeight (s : State) (sp : Space) (m : Memory) : (s.withMem sp m).imgHeight = s.imgHeight := by
  cases sp <;> rfl
@[simp] theorem State.withMem_imgFormat (s : State) (sp : Space) (m : Memory) : (s.withMem sp m).imgFormat = s.imgFormat := by
  cases sp <;> rfl
@[simp] theorem State.withMem_pixLen (s : State) (sp : Space) (m : Memory) : (s.withMem sp m).pixLen = s.pixLen := by
  cases sp <;> rfl
@[simp] theorem State.withMem_phase (s : State) (sp : Space) (m : Memory) : (s.withMem sp m).phase = s.phase := by
  cases sp <;> rfl
@[simp] theorem State.withMem_eng (s : State) (sp : Space) (m : Memory) : (s.withMem sp m).eng = s.eng := by
  cases sp <;> rfl
@[simp] theorem State.withMem_expect (s : State) (sp : Space) (m : Memory) : (s.withMem sp m).expect = s.expect := by
  cases sp <;> rfl
@[simp] theorem State.withMem_script (s : State) (sp : Space) (m : Memory) : (s.withMem sp m).script = s.script := by
  cases sp <;> rfl
@[simp] theorem State.withMem_readData (s : State) (sp : Space) (m : Memory) : (s.withMem sp m).readData = s.readData := by
  cases sp <;> rfl
@[simp] theorem State.withMem_result (s : State) (sp : Space) (m : Memory) : (s.withMem sp m).result = s.result := by
  cases sp <;> rfl
@[simp] theorem State.withMem_sinkWrapped (s : State) (sp : Space) (m : Memory) : (s.withMem sp m).sinkWrapped = s.sinkWrapped := by
  cases sp <;> rfl
@[simp] theorem State.withMem_draws (s : State) (sp : Space) (m : Memory) : (s.withMem sp m).draws = s.draws := by
  cases sp <;> rfl
@[simp] theorem State.withMem_limit (s : State) (sp sq : Space) (m : Memory) : (s.withMem sp m).limit sq = s.limit sq := by
  cases sp <;> cases sq <;> rfl
@[simp] theorem State.withMem_mem_same (s : State) (sp : Space) (m : Memory) : (s.withMem sp m).mem sp = m := by
  cases sp <;> rfl
theorem State.withMem_mem_other (s : State) (sp sq : Space) (m : Memory) (h : sq ≠ sp) :
    (s.withMem sp m).mem sq = s.mem sq := by
  cases sp <;> cases sq <;> first | rfl | exact absurd rfl h
@[simp] theorem State.withMem_self (s : State) (sp : Space) : s.withMem sp (s.mem sp) = s := by
  cases sp <;> rfl
@[simp] theorem State.withMem_sink_inMem (s : State) (m : Memory) : (s.withMem .sink m).inMem = s.inMem := rfl
@[simp] theorem State.withMem_sink_sinkMem (s : State) (m : Memory) : (s.withMem .sink m).sinkMem = m := rfl
@[simp] theorem State.withMem_sink_pixMem (s : State) (m : Memory) : (s.withMem .sink m).pixMem = s.pixMem := rfl
@[simp] theorem State.withMem_pix_inMem (s : State) (m : Memory) : (s.withMem .pix m).inMem = s.inMem := rfl
@[simp] theorem State.withMem_pix_sinkMem (s : State) (m : Memory) : (s.withMem .pix m).sinkMem = s.sinkMem := rfl
@[simp] theorem State.withMem_pix_pixMem (s : State) (m : Memory) : (s.withMem .pix m).pixMem = m := rfl

/-! ### What an error leaves -/

@[simp] theorem State.raiseError_config (e : Error) (s : State) : (s.raiseError e).config = s.config := by
  unfold State.raiseError State.dropInflate State.dropRecon; split <;> [rfl; (split <;> rfl)]
@[simp] theorem State.raiseError_runState (e : Error) (s : State) : (s.raiseError e).runState = .error := rfl
@[simp] theorem State.raiseError_err (e : Error) (s : State) : (s.raiseError e).err = e.code := rfl
@[simp] theorem State.raiseError_last (e : Error) (s : State) : (s.raiseError e).last = s.last := by
  unfold State.raiseError State.dropInflate State.dropRecon; split <;> [rfl; (split <;> rfl)]
@[simp] theorem State.raiseError_inBase (e : Error) (s : State) : (s.raiseError e).inBase = s.inBase := by
  unfold State.raiseError State.dropInflate State.dropRecon; split <;> [rfl; (split <;> rfl)]
@[simp] theorem State.raiseError_inSize (e : Error) (s : State) : (s.raiseError e).inSize = s.inSize := by
  unfold State.raiseError State.dropInflate State.dropRecon; split <;> [rfl; (split <;> rfl)]
theorem State.raiseError_consumed (e : Error) (s : State) :
    (s.raiseError e).consumed = if s.last = 1 then 0 else s.consumed := by
  unfold State.raiseError State.dropInflate State.dropRecon; split <;> [rfl; (split <;> rfl)]
theorem State.raiseError_sinkLen (e : Error) (s : State) :
    (s.raiseError e).sinkLen = if s.last = 1 then 0 else s.sinkLen := by
  unfold State.raiseError State.dropInflate State.dropRecon; split <;> [rfl; (split <;> rfl)]
theorem State.raiseError_sinkCap (e : Error) (s : State) :
    (s.raiseError e).sinkCap = if s.last = 1 then 0 else s.sinkCap := by
  unfold State.raiseError State.dropInflate State.dropRecon; split <;> [rfl; (split <;> rfl)]
@[simp] theorem State.raiseError_imgWidth (e : Error) (s : State) : (s.raiseError e).imgWidth = s.imgWidth := by
  unfold State.raiseError State.dropInflate State.dropRecon; split <;> [rfl; (split <;> rfl)]
@[simp] theorem State.raiseError_imgHeight (e : Error) (s : State) : (s.raiseError e).imgHeight = s.imgHeight := by
  unfold State.raiseError State.dropInflate State.dropRecon; split <;> [rfl; (split <;> rfl)]
@[simp] theorem State.raiseError_imgFormat (e : Error) (s : State) : (s.raiseError e).imgFormat = s.imgFormat := by
  unfold State.raiseError State.dropInflate State.dropRecon; split <;> [rfl; (split <;> rfl)]
theorem State.raiseError_pixLen (e : Error) (s : State) :
    (s.raiseError e).pixLen = if s.last = 1 then s.pixLen else if s.last = 2 then 0 else s.pixLen := by
  unfold State.raiseError State.dropInflate State.dropRecon; split <;> [rfl; (split <;> rfl)]
@[simp] theorem State.raiseError_phase (e : Error) (s : State) : (s.raiseError e).phase = .error := rfl
@[simp] theorem State.raiseError_eng (e : Error) (s : State) : (s.raiseError e).eng = s.eng.free s.draws := rfl
@[simp] theorem State.raiseError_inMem (e : Error) (s : State) : (s.raiseError e).inMem = s.inMem := by
  unfold State.raiseError State.dropInflate State.dropRecon; split <;> [rfl; (split <;> rfl)]
theorem State.raiseError_sinkMem (e : Error) (s : State) :
    (s.raiseError e).sinkMem = if s.last = 1 then s.sinkMem.scramble (s.draws + 1) s.sinkWritten else s.sinkMem := by
  unfold State.raiseError State.dropInflate State.dropRecon; split <;> [rfl; (split <;> rfl)]
theorem State.raiseError_pixMem (e : Error) (s : State) :
    (s.raiseError e).pixMem = if s.last = 1 then s.pixMem else if s.last = 2 then s.pixMem.scramble (s.draws + 1) s.pixWritten else s.pixMem := by
  unfold State.raiseError State.dropInflate State.dropRecon; split <;> [rfl; (split <;> rfl)]
@[simp] theorem State.raiseError_expect (e : Error) (s : State) : (s.raiseError e).expect = .cmd := rfl
@[simp] theorem State.raiseError_script (e : Error) (s : State) : (s.raiseError e).script = s.script := by
  unfold State.raiseError State.dropInflate State.dropRecon; split <;> [rfl; (split <;> rfl)]
@[simp] theorem State.raiseError_readData (e : Error) (s : State) : (s.raiseError e).readData = s.readData := by
  unfold State.raiseError State.dropInflate State.dropRecon; split <;> [rfl; (split <;> rfl)]
@[simp] theorem State.raiseError_result (e : Error) (s : State) : (s.raiseError e).result = s.result := by
  unfold State.raiseError State.dropInflate State.dropRecon; split <;> [rfl; (split <;> rfl)]
theorem State.raiseError_sinkWrapped (e : Error) (s : State) :
    (s.raiseError e).sinkWrapped = if s.last = 1 then false else s.sinkWrapped := by
  unfold State.raiseError State.dropInflate State.dropRecon; split <;> [rfl; (split <;> rfl)]
@[simp] theorem State.raiseError_draws (e : Error) (s : State) : (s.raiseError e).draws = s.draws + 2 := rfl

end Sys2Proof.Machine
end

