-- ==== Sys2Proof/Laws/Memory.lean ====
section
/-! SUPPORT. The laws of memory: a read after a write, the canonical form, and the range of the listed addresses. -/

namespace Sys2Proof.Machine

@[simp] theorem Memory.read_nil (a : Nat) : Memory.read [] a = unlistedByte := rfl

/-- Every listed address lies below `n`. -/
abbrev Memory.below (m : Memory) (n : Nat) : Prop := ∀ c ∈ m, c.1 < n

theorem Memory.wf_nil : Memory.wf [] := by simp [Memory.wf]

theorem Memory.wf_tail {c : Host.Cell} {m : Memory} (h : Memory.wf (c :: m)) : Memory.wf m :=
  ⟨h.1.of_cons, fun d hd => h.2 d (List.mem_cons_of_mem _ hd)⟩

/-- An address below every listed one reads as unlisted. -/
theorem Memory.read_of_lt {m : Memory} {a : Nat} (h : ∀ c ∈ m, a < c.1) : m.read a = unlistedByte := by
  induction m with
  | nil => rfl
  | cons c m ih =>
    have hc := h c (by simp)
    have : ¬ c.1 = a := by omega
    simp only [Memory.read, this, if_false]
    exact ih fun d hd => h d (List.mem_cons_of_mem _ hd)

theorem Memory.head_lt {k : Nat} {b : Byte} {m : Memory} (h : Memory.wf ((k, b) :: m)) : ∀ c ∈ m, k < c.1 := by
  intro c hc
  exact (List.pairwise_cons.1 h.1).1 c hc

/-- Where a write may have put a new entry. -/
theorem Memory.mem_write {m : Memory} {a : Nat} {v : Byte} {c : Host.Cell} (h : c ∈ m.write a v) :
    c ∈ m ∨ (c = (a, v) ∧ v ≠ unlistedByte) := by
  induction m with
  | nil =>
    simp only [Memory.write] at h
    split at h <;> simp_all
  | cons d m ih =>
    obtain ⟨k, b⟩ := d
    simp only [Memory.write] at h
    split at h
    · split at h
      · exact .inl h
      · rename_i hv
        rcases List.mem_cons.1 h with rfl | h
        · exact .inr ⟨rfl, hv⟩
        · exact .inl h
    · split at h
      · split at h
        · exact .inl (List.mem_cons_of_mem _ h)
        · rename_i hv
          rcases List.mem_cons.1 h with rfl | h
          · exact .inr ⟨rfl, hv⟩
          · exact .inl (List.mem_cons_of_mem _ h)
      · rcases List.mem_cons.1 h with rfl | h
        · exact .inl (by simp)
        · rcases ih h with h | h
          · exact .inl (List.mem_cons_of_mem _ h)
          · exact .inr h

/-- A write keeps the canonical form. -/
theorem Memory.write_wf {m : Memory} (h : m.wf) (a : Nat) (v : Byte) : (m.write a v).wf := by
  induction m with
  | nil =>
    simp only [Memory.write]
    split
    · exact h
    · rename_i hv; simp [Memory.wf, hv]
  | cons d m ih =>
    obtain ⟨k, b⟩ := d
    have hlt := Memory.head_lt h
    have hb : b ≠ unlistedByte := h.2 (k, b) (by simp)
    simp only [Memory.write]
    split
    · split
      · exact h
      · rename_i hk hv
        refine ⟨List.pairwise_cons.2 ⟨?_, h.1⟩, ?_⟩
        · intro c hc
          rcases List.mem_cons.1 hc with rfl | hc
          · exact hk
          · have := hlt c hc; simp only; omega
        · intro c hc
          rcases List.mem_cons.1 hc with rfl | hc
          · exact hv
          · exact h.2 c hc
    · split
      · rename_i hk
        subst hk
        split
        · exact Memory.wf_tail h
        · rename_i hv
          refine ⟨List.pairwise_cons.2 ⟨hlt, (Memory.wf_tail h).1⟩, ?_⟩
          intro c hc
          rcases List.mem_cons.1 hc with rfl | hc
          · exact hv
          · exact h.2 c (List.mem_cons_of_mem _ hc)
      · rename_i hk hne
        have ih := ih (Memory.wf_tail h)
        refine ⟨List.pairwise_cons.2 ⟨?_, ih.1⟩, ?_⟩
        · intro c hc
          rcases Memory.mem_write hc with hc | ⟨rfl, _⟩
          · exact hlt c hc
          · simp only; omega
        · intro c hc
          rcases List.mem_cons.1 hc with rfl | hc
          · exact hb
          · exact ih.2 c hc

/-- A write within a memory's size lists no address past it. -/
theorem Memory.write_below {m : Memory} {n : Nat} (h : m.below n) {a : Nat} (ha : a < n) (v : Byte) :
    (m.write a v).below n := by
  intro c hc
  rcases Memory.mem_write hc with hc | ⟨rfl, _⟩
  · exact h c hc
  · exact ha

/-- Reading the address just written gives the value written. -/
theorem Memory.read_write_same {m : Memory} (h : m.wf) (a : Nat) (v : Byte) : (m.write a v).read a = v := by
  induction m with
  | nil =>
    simp only [Memory.write]
    split
    · rename_i hv; simp [hv]
    · simp [Memory.read]
  | cons d m ih =>
    obtain ⟨k, b⟩ := d
    have hlt := Memory.head_lt h
    simp only [Memory.write]
    split
    · rename_i hk
      split
      · rename_i hv
        rw [hv]
        refine Memory.read_of_lt fun c hc => ?_
        rcases List.mem_cons.1 hc with rfl | hc
        · exact hk
        · have := hlt c hc; omega
      · simp [Memory.read]
    · split
      · rename_i hk
        subst hk
        split
        · rename_i hv; rw [hv]; exact Memory.read_of_lt hlt
        · simp [Memory.read]
      · rename_i hk hne
        have : ¬ k = a := fun e => hne e.symm
        simp only [Memory.read, this, if_false]
        exact ih (Memory.wf_tail h)

/-- A write leaves every other address alone. -/
theorem Memory.read_write_other {m : Memory} {a x : Nat} (v : Byte) (hx : x ≠ a) :
    (m.write a v).read x = m.read x := by
  have ha : ¬ a = x := fun e => hx e.symm
  induction m with
  | nil =>
    simp only [Memory.write]
    split
    · rfl
    · simp [Memory.read, ha]
  | cons d m ih =>
    obtain ⟨k, b⟩ := d
    simp only [Memory.write]
    split
    · split
      · rfl
      · simp [Memory.read, ha]
    · split
      · rename_i hk
        subst hk
        split <;> simp [Memory.read, ha]
      · simp [Memory.read, ih]

/-- Reading after a write, both cases. -/
theorem Memory.read_write {m : Memory} (h : m.wf) (a x : Nat) (v : Byte) :
    (m.write a v).read x = if x = a then v else m.read x := by
  split
  · rename_i e; rw [e]; exact Memory.read_write_same h a v
  · rename_i e; exact Memory.read_write_other v e

/-- Equal contents are equal data. -/
theorem Memory.ext_read {m m' : Memory} (h : m.wf) (h' : m'.wf) (he : ∀ a, m.read a = m'.read a) : m = m' := by
  induction m generalizing m' with
  | nil =>
    cases m' with
    | nil => rfl
    | cons d m' =>
      have := he d.1
      simp [Memory.read] at this
      exact absurd this.symm (h'.2 d (by simp))
  | cons c m ih =>
    obtain ⟨k, b⟩ := c
    have hb : b ≠ unlistedByte := h.2 (k, b) (by simp)
    cases m' with
    | nil =>
      have := he k
      simp [Memory.read] at this
      exact absurd this hb
    | cons d m' =>
      obtain ⟨k', b'⟩ := d
      have hb' : b' ≠ unlistedByte := h'.2 (k', b') (by simp)
      have hlt := Memory.head_lt h
      have hlt' := Memory.head_lt h'
      have hk : k = k' := by
        rcases Nat.lt_trichotomy k k' with hk | hk | hk
        · have := he k
          simp only [Memory.read, if_true] at this
          rw [if_neg (by omega), Memory.read_of_lt fun c hc => by have := hlt' c hc; omega] at this
          exact absurd this hb
        · exact hk
        · have := he k'
          simp only [Memory.read, if_true] at this
          rw [if_neg (by omega), Memory.read_of_lt fun c hc => by have := hlt c hc; omega] at this
          exact absurd this.symm hb'
      subst hk
      have hbb : b = b' := by
        have := he k
        simpa [Memory.read] using this
      subst hbb
      congr 1
      refine ih (Memory.wf_tail h) (Memory.wf_tail h') fun a => ?_
      by_cases ha : k = a
      · subst ha
        rw [Memory.read_of_lt hlt, Memory.read_of_lt hlt']
      · have := he a
        simpa [Memory.read, ha] using this

/-! ## Loading -/

theorem Memory.load_wf {m : Memory} (h : m.wf) (a : Nat) (bs : List Byte) : (m.load a bs).wf := by
  induction bs generalizing m a with
  | nil => exact h
  | cons b bs ih => exact ih (Memory.write_wf h a b) _

theorem Memory.load_below {m : Memory} {n a : Nat} (h : m.below n) (bs : List Byte) (ha : a + bs.length ≤ n) :
    (m.load a bs).below n := by
  induction bs generalizing m a with
  | nil => exact h
  | cons b bs ih =>
    simp only [List.length_cons] at ha
    exact ih (Memory.write_below h (by omega) b) (by omega)

/-- What a loaded memory reads as: the bytes loaded, and elsewhere what was there. -/
theorem Memory.read_load {m : Memory} (h : m.wf) (a x : Nat) (bs : List Byte) :
    (m.load a bs).read x = if a ≤ x then (bs[x - a]?).getD (m.read x) else m.read x := by
  induction bs generalizing m a with
  | nil => simp [Memory.load]
  | cons b bs ih =>
    simp only [Memory.load]
    rw [ih (Memory.write_wf h a b), Memory.read_write h]
    by_cases hx : a ≤ x
    · by_cases he : x = a
      · subst he; simp
      · have h1 : a + 1 ≤ x := by omega
        have h2 : x - a = (x - (a + 1)) + 1 := by omega
        simp [hx, h1, he, h2]
    · have h1 : ¬ a + 1 ≤ x := by omega
      have he : ¬ x = a := by omega
      simp [hx, h1, he]

/-! ## Free contents -/

theorem Memory.scramble_wf {m : Memory} (h : m.wf) (d n : Nat) : (m.scramble d n).wf := by
  induction n with
  | zero => exact h
  | succ n ih => exact Memory.write_wf ih _ _

theorem Memory.scramble_below {m : Memory} {k : Nat} (h : m.below k) (d : Nat) {n : Nat} (hn : n ≤ k) :
    (m.scramble d n).below k := by
  induction n with
  | zero => exact h
  | succ n ih => exact Memory.write_below (ih (by omega)) (by omega) _

/-- A scrambled memory is free below the bound and unchanged from there on. -/
theorem Memory.read_scramble {m : Memory} (h : m.wf) (d n x : Nat) :
    (m.scramble d n).read x = if x < n then Config.freeBits 8 d x else m.read x := by
  induction n with
  | zero => simp [Memory.scramble]
  | succ n ih =>
    simp only [Memory.scramble]
    rw [Memory.read_write (Memory.scramble_wf h d n), ih]
    by_cases he : x = n
    · subst he; simp
    · by_cases hx : x < n
      · have : x < n + 1 := by omega
        simp [he, hx, this]
      · have : ¬ x < n + 1 := by omega
        simp [he, hx, this]

@[simp] theorem Memory.readTo_length (m : Memory) (n : Nat) : (m.readTo n).length = n := by simp [Memory.readTo]

/-! ## Updating one of the three memories -/

theorem State.withMem_mem (s : State) (sp sp' : Space) (m : Memory) :
    (s.withMem sp m).mem sp' = if sp' = sp then m else s.mem sp' := by
  cases sp <;> cases sp' <;> rfl

/-- Replacing one memory by a legal one keeps the memories legal. -/
theorem MemoryOk.withMem {s : State} (h : MemoryOk s) (sp : Space) {m : Memory} (hw : m.wf) (hb : m.below (s.limit sp)) :
    MemoryOk (s.withMem sp m) := by
  constructor
  · intro sp'
    rw [State.withMem_mem]
    split
    · exact hw
    · exact h.wf sp'
  · intro sp'
    rw [State.withMem_mem, State.withMem_limit]
    split
    · rename_i e; rw [e]; exact hb
    · exact h.size sp'

/-- Memory after reset (R370). -/
theorem MemoryOk.reset : MemoryOk State.reset := by
  constructor <;> intro sp <;> cases sp <;> simp [State.mem, State.reset, Memory.wf]

end Sys2Proof.Machine
end

