-- ==== Sys2Proof/Laws/Ops.lean ====
section
/-! SUPPORT. The laws of the shared operations: sequencing, byte accesses, and what an error leaves (R345). -/

namespace Sys2Proof.Machine

/-! ## Sequencing -/

@[simp] theorem Res.bind_ok {α β : Type} (a : α) (s : State) (k : α → State → Res β) : (Res.ok a s).bind k = k a s := rfl
@[simp] theorem Res.bind_raise {α β : Type} (e : Error) (s : State) (k : α → State → Res β) :
    (Res.raise e s : Res α).bind k = .raise e s := rfl
@[simp] theorem Res.bind_fault {α β : Type} (f : Fault) (k : α → State → Res β) :
    (Res.fault f : Res α).bind k = .fault f := rfl
@[simp] theorem Res.finish_ok (s : State) : (Res.ok () s).finish = .next s := rfl
@[simp] theorem Res.finish_raise (e : Error) (s : State) : (Res.raise e s).finish = .next (s.raiseError e) := rfl
@[simp] theorem Res.finish_fault (f : Fault) : (Res.fault f).finish = .fault f := rfl

theorem Res.bind_assoc {α β γ : Type} (r : Res α) (k : α → State → Res β) (l : β → State → Res γ) :
    (r.bind k).bind l = r.bind fun a s => (k a s).bind l := by
  cases r <;> rfl

/-- A result that is no fault of the model, with what holds of the value and the state it ends in, or of the error and
the state it is raised in. -/
def Res.Sat {α : Type} (r : Res α) (Q : α → State → Prop) (E : Error → State → Prop) : Prop :=
  match r with
  | .ok a s => Q a s
  | .raise e s => E e s
  | .fault _ => False

theorem Res.Sat.bind {α β : Type} {r : Res α} {k : α → State → Res β} {P : α → State → Prop} {Q : β → State → Prop}
    {E : Error → State → Prop} (h : r.Sat P E) (hk : ∀ a s, P a s → (k a s).Sat Q E) : (r.bind k).Sat Q E := by
  cases r with
  | ok a s => exact hk a s h
  | raise e s => exact h
  | fault f => exact h.elim

theorem Res.Sat.mono {α : Type} {r : Res α} {P Q : α → State → Prop} {E F : Error → State → Prop} (h : r.Sat P E)
    (hQ : ∀ a s, P a s → Q a s) (hF : ∀ e s, E e s → F e s) : r.Sat Q F := by
  cases r with
  | ok a s => exact hQ a s h
  | raise e s => exact hF e s h
  | fault f => exact h.elim

/-- An instruction whose operations satisfy a postcondition ends in a next state. -/
theorem Res.Sat.finish {r : Res Unit} {P : State → Prop} (h : r.Sat (fun _ s => P s) fun e s => P (s.raiseError e)) :
    ∃ t, r.finish = .next t ∧ P t := by
  cases r with
  | ok a s => exact ⟨s, rfl, h⟩
  | raise e s => exact ⟨_, rfl, h⟩
  | fault f => exact h.elim

/-! ## Byte accesses -/

theorem readByte_ok {sp : Space} {a : Nat} {s : State} (h : a < s.limit sp) :
    readByte sp a s = .ok ((s.mem sp).read a) s := by simp [readByte, h]

theorem writeByte_ok {sp : Space} {a : Nat} {v : Byte} {s : State} (h : a < s.limit sp) :
    writeByte sp a v s = .ok () (s.withMem sp ((s.mem sp).write a v)) := by simp [writeByte, h]

/-! ## What an error leaves -/

theorem Error.code_range (e : Error) : 1 ≤ e.code.toNat ∧ e.code.toNat ≤ 12 := by cases e <;> decide

theorem Error.code_injective {e f : Error} (h : e.code = f.code) : e = f := by
  cases e <;> cases f <;> first | rfl | (exact absurd h (by decide))

/-- An error forgets the internal registers: which of them a step had written before it failed does not matter. -/
theorem State.raiseError_withBr (e : Error) (s : State) (b : BitReader) : (s.withBr b).raiseError e = s.raiseError e := by
  unfold State.raiseError
  rw [State.withBr_last]
  split <;> [rfl; (split <;> rfl)]
theorem State.raiseError_withBlk (e : Error) (s : State) (b : BlockRegs) : (s.withBlk b).raiseError e = s.raiseError e := by
  unfold State.raiseError
  rw [State.withBlk_last]
  split <;> [rfl; (split <;> rfl)]
theorem State.raiseError_withSto (e : Error) (s : State) (r : StoredRegs) : (s.withSto r).raiseError e = s.raiseError e := by
  unfold State.raiseError
  rw [State.withSto_last]
  split <;> [rfl; (split <;> rfl)]
theorem State.raiseError_withHdr (e : Error) (s : State) (h : HeaderRegs) : (s.withHdr h).raiseError e = s.raiseError e := by
  unfold State.raiseError
  rw [State.withHdr_last]
  split <;> [rfl; (split <;> rfl)]
theorem State.raiseError_withHeaderFlags (e : Error) (s : State) (f t : Nat) : (s.withHeaderFlags f t).raiseError e = s.raiseError e := by
  unfold State.raiseError
  rw [State.withHeaderFlags_last]
  split <;> [rfl; (split <;> rfl)]

/-! What a command has written lies within its memory. -/

theorem State.sinkFilled_le (s : State) : s.sinkFilled ≤ s.config.sinkLimit := Nat.min_le_right _ _

theorem State.sinkWritten_le (s : State) : s.sinkWritten ≤ s.config.sinkLimit := by
  unfold State.sinkWritten
  split <;> first | exact s.sinkFilled_le | exact Nat.zero_le _

theorem State.pixWritten_le (s : State) : s.pixWritten ≤ s.config.pixLimit := by
  unfold State.pixWritten
  split <;> omega

/-- Which of an INFLATE's phases an error is raised in does not matter. -/
theorem State.raiseError_goTo {s : State} (hl : s.last = 1) (hp : s.phase = .header) {p : Phase}
    (hq : p = .header ∨ p = .stored ∨ p = .dynhdr ∨ p = .symbols) (x : Selector) (e : Error) :
    (s.goTo p x).raiseError e = s.raiseError e := by
  have hw : (s.goTo p x).sinkWritten = s.sinkWritten := by
    unfold State.sinkWritten
    rw [hp]
    rcases hq with rfl | rfl | rfl | rfl <;> rfl
  have hd : (s.goTo p x).dropInflate = s.dropInflate.goTo p x := by unfold State.dropInflate; rw [hw]; rfl
  unfold State.raiseError
  rw [if_pos (show (s.goTo p x).last = 1 from hl), if_pos hl, hd]
  rfl

/-- The sizes of the internal register files after an error. -/
theorem FilesOk.free (d : Nat) (s : State) : FilesOk (s.withEng (s.eng.free d)) := by
  constructor <;> simp [Engine.free, freeList]

end Sys2Proof.Machine
end

