-- ==== Sys2Proof/Laws/BitReader.lean ====
section
/-! SUPPORT. The laws of the Bit Reader (spec 40_bit_reader.md): fields of the stream, and what each operation does from a legal
reader. -/

namespace Sys2Proof.Machine

/-! ## Fields of the stream -/

theorem State.streamBit_lt (s : State) (k : Nat) : s.streamBit k < 2 := Nat.mod_lt _ (by decide)

theorem State.streamField_lt (s : State) (k n : Nat) : s.streamField k n < 2 ^ n := by
  induction n with
  | zero => simp [State.streamField]
  | succ n ih =>
    have := s.streamBit_lt (k + n)
    have h : s.streamBit (k + n) = 0 ∨ s.streamBit (k + n) = 1 := by omega
    simp only [State.streamField, Nat.pow_succ]
    rcases h with h | h <;> simp [h] <;> omega

/-- A field cut in two. -/
theorem State.streamField_add (s : State) (k m n : Nat) :
    s.streamField k (m + n) = s.streamField k m + s.streamField (k + m) n * 2 ^ m := by
  induction n with
  | zero => simp [State.streamField]
  | succ n ih =>
    rw [← Nat.add_assoc, State.streamField, ih, State.streamField, Nat.add_mul, Nat.pow_add, Nat.add_assoc, Nat.add_assoc]
    congr 2
    ring

theorem State.streamField_mod (s : State) (k m n : Nat) : s.streamField k (m + n) % 2 ^ m = s.streamField k m := by
  rw [State.streamField_add, Nat.add_mul_mod_self_right, Nat.mod_eq_of_lt (s.streamField_lt k m)]

theorem State.streamField_div (s : State) (k m n : Nat) : s.streamField k (m + n) / 2 ^ m = s.streamField (k + m) n := by
  rw [State.streamField_add, Nat.add_mul_div_right _ _ (by positivity), Nat.div_eq_of_lt (s.streamField_lt k m), Nat.zero_add]

/-- Eight bits from a byte boundary are the byte. -/
theorem State.streamField_byte (s : State) (p : Nat) :
    s.streamField (8 * p) 8 = (s.inMem.read (s.inBase.toNat + p)).toNat := by
  have hd : ∀ i, i < 8 → s.streamBit (8 * p + i) = (s.inMem.read (s.inBase.toNat + p)).toNat / 2 ^ i % 2 := by
    intro i hi
    have h1 : (8 * p + i) / 8 = p := by omega
    have h2 : (8 * p + i) % 8 = i := by omega
    rw [State.streamBit, h1, h2]
  have := (s.inMem.read (s.inBase.toNat + p)).isLt
  simp only [State.streamField, hd 0 (by omega), hd 1 (by omega), hd 2 (by omega), hd 3 (by omega), hd 4 (by omega),
    hd 5 (by omega), hd 6 (by omega), hd 7 (by omega)]
  generalize (s.inMem.read (s.inBase.toNat + p)).toNat = x at *
  norm_num
  omega

@[simp] theorem State.withBr_streamField (s : State) (b : BitReader) (k n : Nat) :
    (s.withBr b).streamField k n = s.streamField k n := by
  induction n with
  | zero => rfl
  | succ n ih => simp only [State.streamField, ih]; rfl

@[simp] theorem State.withBr_streamCode (s : State) (b : BitReader) (k n : Nat) :
    (s.withBr b).streamCode k n = s.streamCode k n := by
  induction n with
  | zero => rfl
  | succ n ih => simp only [State.streamCode, ih]; rfl

/-! ## The refill -/

/-- `ReaderOk` but for the bound on the buffered bits, which a request of `n` bits exceeds while it runs (R31). -/
structure Buffered (s : State) : Prop where
  slice : s.inBase.toNat + s.inSize.toNat ≤ s.config.inLimit
  pos : s.eng.br.pos.toNat ≤ s.inSize.toNat
  cnt : s.eng.br.cnt.toNat ≤ 32
  fetched : s.eng.br.cnt.toNat ≤ 8 * s.eng.br.pos.toNat
  acc : s.eng.br.acc.toNat = s.streamField s.bitPos s.eng.br.cnt.toNat

theorem ReaderOk.buffered {s : State} (h : ReaderOk s) : Buffered s :=
  ⟨h.slice, h.pos, by have := h.cnt; omega, h.fetched, h.acc⟩

theorem Buffered.bitsLeft {s : State} (h : Buffered s) :
    s.bitsLeft = s.eng.br.cnt.toNat + 8 * (s.inSize.toNat - s.eng.br.pos.toNat) := by
  have := h.pos; have := h.fetched
  unfold State.bitsLeft State.bitPos
  omega

/-- The byte fetch (R142): 8 more bits, and the place in the stream stays. -/
theorem fetchByte_ok {s : State} (h : Buffered s) (hc : s.eng.br.cnt.toNat ≤ 24)
    (hp : s.eng.br.pos.toNat < s.inSize.toNat) :
    ∃ b : BitReader, fetchByte s = .ok () (s.withBr b) ∧ Buffered (s.withBr b) ∧ (s.withBr b).bitPos = s.bitPos ∧
      b.cnt.toNat = s.eng.br.cnt.toNat + 8 ∧ b.pos.toNat = s.eng.br.pos.toNat + 1 := by
  have hs := h.slice
  have hf := h.fetched
  have hlt := s.inSize.isLt
  have hcnt : (s.eng.br.cnt + 8).toNat = s.eng.br.cnt.toNat + 8 := by
    rw [BitVec.toNat_add]; simp; omega
  have hpos : (s.eng.br.pos + 1).toNat = s.eng.br.pos.toNat + 1 := by
    rw [BitVec.toNat_add]; simp; omega
  have hbp : 8 * (s.eng.br.pos.toNat + 1) - (s.eng.br.cnt.toNat + 8) = s.bitPos := by unfold State.bitPos; omega
  refine ⟨_, by rw [fetchByte, readByte_ok (by show _ < s.config.inLimit; omega)]; rfl, ?_, ?_, hcnt, hpos⟩
  · refine ⟨hs, ?_, ?_, ?_, ?_⟩
    · simp only [State.withBr_eng, hpos, State.withBr_inSize]; omega
    · simp only [State.withBr_eng, hcnt]; omega
    · simp only [State.withBr_eng, hpos, hcnt]; omega
    · simp only [State.withBr_streamField, State.bitPos, State.withBr_eng, hpos, hcnt]
      rw [hbp, State.streamField_add]
      have he : s.bitPos + s.eng.br.cnt.toNat = 8 * s.eng.br.pos.toNat := by unfold State.bitPos; omega
      rw [he, State.streamField_byte, ← h.acc]
      have hacc : s.eng.br.acc.toNat < 2 ^ s.eng.br.cnt.toNat := by rw [h.acc]; exact s.streamField_lt _ _
      have hbyte := (s.inMem.read (s.inBase.toNat + s.eng.br.pos.toNat)).isLt
      have hsh : ((s.inMem.read (s.inBase.toNat + s.eng.br.pos.toNat)).setWidth 32 <<< s.eng.br.cnt.toNat).toNat =
          (s.inMem.read (s.inBase.toNat + s.eng.br.pos.toNat)).toNat * 2 ^ s.eng.br.cnt.toNat := by
        rw [BitVec.toNat_shiftLeft, BitVec.toNat_setWidth,
          Nat.mod_eq_of_lt (Nat.lt_of_lt_of_le hbyte (by decide : 2 ^ 8 ≤ 2 ^ 32)), Nat.shiftLeft_eq]
        apply Nat.mod_eq_of_lt
        calc _ < 2 ^ 8 * 2 ^ s.eng.br.cnt.toNat := by
              apply Nat.mul_lt_mul_of_pos_right hbyte (by positivity)
          _ = 2 ^ (8 + s.eng.br.cnt.toNat) := by rw [Nat.pow_add]
          _ ≤ 2 ^ 32 := Nat.pow_le_pow_right (by decide) (by omega)
      rw [BitVec.toNat_or]
      rw [show (s.mem .input) = s.inMem from rfl, hsh, Nat.or_comm, ← Nat.shiftLeft_eq,
        ← Nat.shiftLeft_add_eq_or_of_lt hacc, Nat.shiftLeft_eq, Nat.add_comm]
  · simp only [State.bitPos, State.withBr_eng, hpos, hcnt]; exact hbp

/-- The refill loop (R143): enough bits are buffered, or the slice is exhausted. -/
theorem refill_spec (fuel n : Nat) (s : State) (h : Buffered s) (hn : n ≤ 25) (hc : s.eng.br.cnt.toNat ≤ n + 7)
    (hf : n ≤ s.eng.br.cnt.toNat + 8 * fuel) :
    ∃ b : BitReader, Buffered (s.withBr b) ∧ (s.withBr b).bitPos = s.bitPos ∧
      if n ≤ s.bitsLeft then refill fuel n s = .ok () (s.withBr b) ∧ n ≤ b.cnt.toNat ∧ b.cnt.toNat ≤ n + 7 ∧
        (n ≤ s.eng.br.cnt.toNat → b = s.eng.br)
      else refill fuel n s = .raise .truncatedInput (s.withBr b) := by
  induction fuel generalizing s with
  | zero =>
    refine ⟨s.eng.br, h, rfl, ?_⟩
    have hb := h.bitsLeft
    rw [if_pos (by omega)]
    exact ⟨rfl, by omega, hc, fun _ => rfl⟩
  | succ fuel ih =>
    have hb := h.bitsLeft
    by_cases hlt : s.eng.br.cnt.toNat < n
    · by_cases hp : s.eng.br.pos.toNat < s.inSize.toNat
      · obtain ⟨b, he, hB, hbp, hbc, hbpos⟩ := fetchByte_ok h (by omega) hp
        obtain ⟨b', hB', hbp', hr⟩ := ih (s.withBr b) hB (by simp [hbc]; omega) (by simp [hbc]; omega)
        have hl : (s.withBr b).bitsLeft = s.bitsLeft := by unfold State.bitsLeft; rw [hbp]; rfl
        have hnp : ¬ s.inSize ≤ s.eng.br.pos := by rw [BitVec.le_def]; omega
        refine ⟨b', hB', hbp'.trans hbp, ?_⟩
        rw [hl] at hr
        simp only [refill, hlt, hnp, if_true, if_false, he, Res.bind_ok]
        split
        · rename_i h1
          rw [if_pos h1] at hr
          exact ⟨hr.1, hr.2.1, hr.2.2.1, fun h => absurd h (by omega)⟩
        · rename_i h1
          rw [if_neg h1] at hr
          exact hr
      · have hnp : s.inSize ≤ s.eng.br.pos := by rw [BitVec.le_def]; omega
        refine ⟨s.eng.br, h, rfl, ?_⟩
        rw [if_neg (by omega)]
        simp only [refill, hlt, hnp, if_true]
        rfl
    · refine ⟨s.eng.br, h, rfl, ?_⟩
      rw [if_pos (by omega)]
      refine ⟨by simp only [refill, hlt, if_false]; rfl, by omega, hc, fun _ => rfl⟩

/-! ## The three operations -/

/-- `read_bits(n)` with enough bits left (R143, R75, R149): it delivers the field and moves past it. -/
theorem readBits_ok {s : State} (h : ReaderOk s) {n : Nat} (hn : n ≤ 25) (hl : n ≤ s.bitsLeft) :
    ∃ b : BitReader, readBits n s = .ok (s.streamField s.bitPos n) (s.withBr b) ∧ ReaderOk (s.withBr b) ∧
      (s.withBr b).bitPos = s.bitPos + n := by
  have hc7 := h.cnt
  obtain ⟨b, hB, hbp, hr⟩ := refill_spec n n s h.buffered hn (by omega) (by omega)
  rw [if_pos hl] at hr
  obtain ⟨hr, hn1, hn2, -⟩ := hr
  have hacc := hB.acc
  have hbf := hB.fetched
  simp only [State.withBr_streamField, hbp, State.withBr_eng] at hacc hbf
  have hsplit : b.cnt.toNat = n + (b.cnt.toNat - n) := by omega
  have hn6 : (BitVec.ofNat 6 n).toNat = n := by simp; omega
  have hcnt : (b.cnt - BitVec.ofNat 6 n).toNat = b.cnt.toNat - n := by
    rw [BitVec.toNat_sub_of_le (by rw [BitVec.le_def, hn6]; exact hn1), hn6]
  have hbp' : 8 * b.pos.toNat - b.cnt.toNat = s.bitPos := hbp
  have hbpos : 8 * b.pos.toNat - (b.cnt.toNat - n) = s.bitPos + n := by omega
  refine ⟨⟨b.pos, b.acc >>> n, b.cnt - BitVec.ofNat 6 n⟩, ?_, ?_, ?_⟩
  · simp only [readBits, hr, Res.bind_ok]
    congr 1
    simp only [State.withBr_eng, hacc]
    rw [hsplit, State.streamField_mod]
  · refine ⟨h.slice, hB.pos, ?_, ?_, ?_⟩
    · simp only [State.withBr_eng, hcnt]; omega
    · simp only [State.withBr_eng, hcnt]; omega
    · have hbp2 : (s.withBr ⟨b.pos, b.acc >>> n, b.cnt - BitVec.ofNat 6 n⟩).bitPos = s.bitPos + n := by
        rw [← hbpos, ← hcnt]; rfl
      rw [hbp2]
      simp only [State.withBr_streamField, State.withBr_eng, hcnt]
      rw [BitVec.toNat_ushiftRight, hacc, Nat.shiftRight_eq_div_pow]
      conv => lhs; rw [hsplit, State.streamField_div]
  · rw [← hbpos, ← hcnt]; rfl

/-- `read_bits(n)` with too few bits left (R143, R144). -/
theorem readBits_truncated {s : State} (h : ReaderOk s) {n : Nat} (hn : n ≤ 25) (hl : s.bitsLeft < n) :
    ∃ b : BitReader, readBits n s = .raise .truncatedInput (s.withBr b) := by
  have hc7 := h.cnt
  obtain ⟨b, -, -, hr⟩ := refill_spec n n s h.buffered hn (by omega) (by omega)
  rw [if_neg (by omega)] at hr
  exact ⟨b, by simp only [readBits, hr, Res.bind_raise]⟩

/-- `read_bits(0)` returns 0 and changes nothing (R143). -/
theorem readBits_zero (s : State) : readBits 0 s = .ok 0 s := by
  have h0 : s.eng.br.cnt - BitVec.ofNat 6 0 = s.eng.br.cnt := by simp
  simp only [readBits, refill, Res.bind_ok, Nat.pow_zero, Nat.mod_one, BitVec.ushiftRight_zero, h0]
  rfl

/-- A legal reader stays legal when only other parts of the state change. -/
theorem ReaderOk.congr {s t : State} (h : ReaderOk s) (hb : t.eng.br = s.eng.br) (hi : t.inBase = s.inBase)
    (hz : t.inSize = s.inSize) (hm : t.inMem = s.inMem) (hc : t.config = s.config) : ReaderOk t := by
  have hf : ∀ k n, t.streamField k n = s.streamField k n := by
    intro k n
    induction n with
    | zero => rfl
    | succ n ih => simp only [State.streamField, ih, State.streamBit, hi, hm]
  have hp : t.bitPos = s.bitPos := by unfold State.bitPos; rw [hb]
  exact ⟨by rw [hi, hz, hc]; exact h.slice, by rw [hb, hz]; exact h.pos, by rw [hb]; exact h.cnt,
    by rw [hb]; exact h.fetched, by rw [hb, hp, hf]; exact h.acc⟩

theorem State.bitPos_congr {s t : State} (hb : t.eng.br = s.eng.br) : t.bitPos = s.bitPos := by
  unfold State.bitPos; rw [hb]

theorem State.bitsLeft_congr {s t : State} (hb : t.eng.br = s.eng.br) (hz : t.inSize = s.inSize) :
    t.bitsLeft = s.bitsLeft := by
  unfold State.bitsLeft State.bitPos; rw [hb, hz]

/-- `align_to_byte()` (R145): the place moves to the next byte boundary. -/
theorem alignToByte_ok {s : State} (h : ReaderOk s) :
    ReaderOk (alignToByte s) ∧ (alignToByte s).bitPos = 8 * s.eng.br.pos.toNat ∧ s.bitPos ≤ (alignToByte s).bitPos := by
  refine ⟨⟨h.slice, h.pos, ?_, ?_, ?_⟩, ?_, ?_⟩
  · simp [alignToByte]
  · simp [alignToByte]
  · simp [alignToByte, State.streamField]
  · simp [alignToByte, State.bitPos]
  · simp [alignToByte, State.bitPos]

/-- `read_byte_aligned()` with a byte left (R146): it returns the byte at `BR_POS`, whatever was buffered. -/
theorem readByteAligned_ok {s : State} (h : ReaderOk s) (hp : s.eng.br.pos.toNat < s.inSize.toNat) :
    ∃ b : BitReader, readByteAligned s = .ok (s.inMem.read (s.inBase.toNat + s.eng.br.pos.toNat)) (s.withBr b) ∧
      b.pos.toNat = s.eng.br.pos.toNat + 1 ∧ b.cnt = 0 ∧ b.acc = 0 ∧ ReaderOk (s.withBr b) ∧
      (s.withBr b).bitPos = 8 * (s.eng.br.pos.toNat + 1) := by
  have hs := h.slice
  have hlt := s.inSize.isLt
  have hpos : (s.eng.br.pos + 1).toNat = s.eng.br.pos.toNat + 1 := by
    rw [BitVec.toNat_add]; simp; omega
  have hnp : ¬ s.inSize ≤ s.eng.br.pos := by rw [BitVec.le_def]; omega
  refine ⟨⟨s.eng.br.pos + 1, 0, 0⟩, ?_, hpos, rfl, rfl, ⟨hs, ?_, ?_, ?_, ?_⟩, ?_⟩
  · simp only [readByteAligned, alignToByte, State.withBr_eng, State.withBr_inSize, hnp, if_false, State.withBr_inBase]
    rw [readByte_ok (by show _ < s.config.inLimit; omega)]
    rfl
  · simp only [State.withBr_eng, hpos, State.withBr_inSize]; omega
  · simp
  · simp
  · simp [State.streamField]
  · simp only [State.bitPos, State.withBr_eng, hpos]; simp

/-- `read_byte_aligned()` at the end of the slice (R146). -/
theorem readByteAligned_truncated {s : State} (hp : s.inSize.toNat ≤ s.eng.br.pos.toNat) :
    readByteAligned s = .raise .truncatedInput (alignToByte s) := by
  have hnp : s.inSize ≤ s.eng.br.pos := by rw [BitVec.le_def]; omega
  simp only [readByteAligned, alignToByte, State.withBr_eng, State.withBr_inSize, hnp, if_true]

/-! ## The reader at a place -/

/-- The stream is in `IN` and the slice's registers only. -/
theorem State.streamField_congr {s t : State} (hi : t.inBase = s.inBase) (hm : t.inMem = s.inMem) (k n : Nat) :
    t.streamField k n = s.streamField k n := by
  induction n with
  | zero => rfl
  | succ n ih => simp only [State.streamField, ih, State.streamBit, hi, hm]

theorem State.readerAt_congr {s t : State} (hi : t.inBase = s.inBase) (hm : t.inMem = s.inMem) (k : Nat) :
    t.readerAt k = s.readerAt k := by
  unfold State.readerAt; rw [State.streamField_congr hi hm]

@[simp] theorem State.withBr_readerAt (s : State) (b : BitReader) (k : Nat) : (s.withBr b).readerAt k = s.readerAt k :=
  State.readerAt_congr (s := s) (t := s.withBr b) rfl rfl k

/-- A legal Bit Reader is the one its place in the stream determines (R148). -/
theorem ReaderOk.eq_readerAt {s : State} (h : ReaderOk s) : s.eng.br = s.readerAt s.bitPos := by
  have hp := h.pos
  have hc := h.cnt
  have hf := h.fetched
  have e1 : (s.bitPos + 7) / 8 = s.eng.br.pos.toNat := by unfold State.bitPos; omega
  have e2 : 8 * s.eng.br.pos.toNat - s.bitPos = s.eng.br.cnt.toNat := by unfold State.bitPos; omega
  unfold State.readerAt
  rw [e1, e2, ← h.acc]
  simp

/-- What an operation leaves, when it leaves a legal reader at bit `k`. -/
theorem ReaderOk.atBit {s : State} {b : BitReader} (h : ReaderOk (s.withBr b)) {k : Nat} (hk : (s.withBr b).bitPos = k) :
    s.withBr b = s.atBit k := by
  have h := h.eq_readerAt
  rw [hk, State.withBr_readerAt] at h
  exact congrArg s.withBr h

/-- `read_bits(n)`, with the state it leaves (R143). -/
theorem readBits_atBit {s : State} (h : ReaderOk s) {n : Nat} (hn : n ≤ 25) (hl : n ≤ s.bitsLeft) :
    readBits n s = .ok (s.streamField s.bitPos n) (s.atBit (s.bitPos + n)) ∧ ReaderOk (s.atBit (s.bitPos + n)) ∧
      (s.atBit (s.bitPos + n)).bitPos = s.bitPos + n := by
  obtain ⟨b, he, hr, hp⟩ := readBits_ok h hn hl
  rw [← hr.atBit hp]
  exact ⟨he, hr, hp⟩

/-- `read_byte_aligned()`, with the state it leaves (R146). -/
theorem readByteAligned_atBit {s : State} (h : ReaderOk s) (hp : s.eng.br.pos.toNat < s.inSize.toNat) :
    readByteAligned s = .ok (s.sliceByte s.eng.br.pos.toNat) (s.atBit (8 * (s.eng.br.pos.toNat + 1))) ∧
      ReaderOk (s.atBit (8 * (s.eng.br.pos.toNat + 1))) ∧
      (s.atBit (8 * (s.eng.br.pos.toNat + 1))).eng.br.pos.toNat = s.eng.br.pos.toNat + 1 := by
  obtain ⟨b, he, hpos, _, _, hr, hb⟩ := readByteAligned_ok h hp
  rw [← hr.atBit hb]
  exact ⟨he, hr, hpos⟩

/-! ## One place after another -/

@[simp] theorem State.atBit_atBit (s : State) (j k : Nat) : (s.atBit j).atBit k = s.atBit k := by
  unfold State.atBit; rw [State.withBr_readerAt]; rfl

@[simp] theorem State.atBit_streamField (s : State) (j k n : Nat) : (s.atBit j).streamField k n = s.streamField k n :=
  State.streamField_congr (by rfl) (by rfl) k n

theorem State.atBit_bitsLeft {s : State} {k : Nat} (h : (s.atBit k).bitPos = k) :
    (s.atBit k).bitsLeft = 8 * s.inSize.toNat - k := by
  unfold State.bitsLeft; rw [h]; rfl

/-- A reader placed anywhere in a slice that lies inside `IN` is legal. -/
theorem ReaderOk.place {s : State} {k : Nat} (hs : s.inBase.toNat + s.inSize.toNat ≤ s.config.inLimit)
    (hk : k ≤ 8 * s.inSize.toNat) : ReaderOk (s.atBit k) ∧ (s.atBit k).bitPos = k := by
  have hz := s.inSize.isLt
  have e1 : (s.atBit k).eng.br.pos.toNat = (k + 7) / 8 := by
    show (BitVec.ofNat 32 ((k + 7) / 8)).toNat = _
    rw [BitVec.toNat_ofNat, Nat.mod_eq_of_lt (by omega)]
  have e2 : (s.atBit k).eng.br.cnt.toNat = 8 * ((k + 7) / 8) - k := by
    show (BitVec.ofNat 6 (8 * ((k + 7) / 8) - k)).toNat = _
    rw [BitVec.toNat_ofNat, Nat.mod_eq_of_lt (by omega)]
  have hb : (s.atBit k).bitPos = k := by unfold State.bitPos; omega
  refine ⟨⟨hs, ?_, by omega, by omega, ?_⟩, hb⟩
  · show _ ≤ s.inSize.toNat
    omega
  · rw [hb, e2, State.atBit_streamField]
    show (BitVec.ofNat 32 (s.streamField k (8 * ((k + 7) / 8) - k))).toNat = _
    have h1 := s.streamField_lt k (8 * ((k + 7) / 8) - k)
    have h2 : 2 ^ (8 * ((k + 7) / 8) - k) ≤ 2 ^ 32 := Nat.pow_le_pow_right (by decide) (by omega)
    rw [BitVec.toNat_ofNat, Nat.mod_eq_of_lt (by omega)]

/-- Two bytes, low byte first (R77), with the state they leave. -/
theorem readPairAligned_atBit {s : State} (h : ReaderOk s) (hp : s.eng.br.pos.toNat + 2 ≤ s.inSize.toNat) :
    readPairAligned s = .ok (s.slicePair s.eng.br.pos.toNat) (s.atBit (8 * (s.eng.br.pos.toNat + 2))) ∧
      ReaderOk (s.atBit (8 * (s.eng.br.pos.toNat + 2))) ∧
      (s.atBit (8 * (s.eng.br.pos.toNat + 2))).eng.br.pos.toNat = s.eng.br.pos.toNat + 2 := by
  obtain ⟨e1, r1, q1⟩ := readByteAligned_atBit h (by omega)
  obtain ⟨e2, r2, q2⟩ := readByteAligned_atBit r1 (by rw [q1]; show _ < s.inSize.toNat; omega)
  rw [q1, State.atBit_atBit] at e2 r2 q2
  refine ⟨?_, r2, q2⟩
  unfold readPairAligned
  rw [e1, Res.bind_ok, e2]
  rfl

/-- Two bytes where the slice ends within them. -/
theorem readPairAligned_truncated {s : State} (h : ReaderOk s) (hp : s.inSize.toNat < s.eng.br.pos.toNat + 2) :
    ∃ b, readPairAligned s = .raise .truncatedInput (s.withBr b) := by
  unfold readPairAligned
  by_cases h1 : s.eng.br.pos.toNat < s.inSize.toNat
  · obtain ⟨e1, r1, q1⟩ := readByteAligned_atBit h h1
    rw [e1, Res.bind_ok, readByteAligned_truncated (s := s.atBit (8 * (s.eng.br.pos.toNat + 1)))
      (by rw [q1]; show s.inSize.toNat ≤ _; omega)]
    exact ⟨_, rfl⟩
  · rw [readByteAligned_truncated (s := s) (by omega)]
    exact ⟨_, rfl⟩

end Sys2Proof.Machine
end

