-- ==== Sys2Proof/Laws/CodeLength.lean ====
section
/-! SUPPORT. The law of the code-length instructions' writes (R203 to R206): what `fillLens` leaves in `LENS`, entry by entry. -/

namespace Sys2Proof.Machine

theorem lens_filled (lens : List (BitVec 4)) (nl rep : Nat) (l : BitVec 4) (h : lens.length = 320) (hn : nl + rep ≤ 320) :
    lens.take nl ++ List.replicate rep l ++ lens.drop (nl + rep) =
      (List.range 320).map fun j => if nl ≤ j ∧ j < nl + rep then l else lens.getD j 0 := by
  apply List.ext_getElem?
  intro j
  by_cases hj : j < 320
  · rw [List.getElem?_map, List.getElem?_range hj, Option.map_some]
    by_cases h1 : j < nl
    · rw [List.getElem?_append_left (by simp; omega), List.getElem?_append_left (by simp; omega),
        List.getElem?_take_of_lt h1, if_neg (by omega)]
      simp [List.getD, List.getElem?_eq_getElem (show j < lens.length by omega)]
    · by_cases h2 : j < nl + rep
      · rw [List.getElem?_append_left (by simp; omega), List.getElem?_append_right (by simp; omega), if_pos (by omega)]
        simp only [List.length_take]
        rw [List.getElem?_replicate, if_pos (by omega)]
      · rw [List.getElem?_append_right (by simp; omega), if_neg (by omega), List.getElem?_drop,
          show nl + rep + (j - (List.take nl lens ++ List.replicate rep l).length) = j by simp; omega]
        simp [List.getD, List.getElem?_eq_getElem (show j < lens.length by omega)]
  · rw [List.getElem?_eq_none (by simp; omega), List.getElem?_eq_none (by simp; omega)]

theorem fillLens_filled {s : State} (rep : Nat) (l : BitVec 4) (h : s.eng.hdr.lens.length = 320)
    (hn : s.eng.hdr.nl.toNat + rep ≤ 320) : fillLens rep l s = .ok () (s.filled rep l) := by
  unfold fillLens State.filled
  rw [if_pos hn, lens_filled _ _ _ _ h hn]
  congr 4
  rw [BitVec.ofNat_add, BitVec.ofNat_toNat, BitVec.setWidth_eq]

@[simp] theorem State.atBit_filled (s : State) (k rep : Nat) (l : BitVec 4) :
    (s.atBit k).filled rep l = (s.filled rep l).atBit k := by
  show (s.filled rep l).withBr (s.readerAt k) = (s.filled rep l).withBr ((s.filled rep l).readerAt k)
  rw [State.readerAt_congr (s := s) (t := s.filled rep l) rfl rfl]

end Sys2Proof.Machine
end

