-- ==== Sys2Proof/Laws/Huffman.lean ====
section
/-! SUPPORT. The laws of the Huffman tables (spec 41_huffman_table.md): where `build` puts each symbol, and what `decode` reads. -/

namespace Sys2Proof.Machine

/-! ## Codes -/

theorem State.streamCode_lt (s : State) (k n : Nat) : s.streamCode k n < 2 ^ n := by
  induction n with
  | zero => simp [State.streamCode]
  | succ n ih =>
    have := s.streamBit_lt (k + n)
    simp only [State.streamCode, Nat.pow_succ]
    omega

/-- A longer code read at the same place begins with the shorter one. -/
theorem State.streamCode_add (s : State) (k m n : Nat) :
    s.streamCode k m * 2 ^ n ≤ s.streamCode k (m + n) ∧ s.streamCode k (m + n) < (s.streamCode k m + 1) * 2 ^ n := by
  induction n with
  | zero => simp
  | succ n ih =>
    have := s.streamBit_lt (k + (m + n))
    rw [← Nat.add_assoc]
    simp only [State.streamCode, Nat.pow_succ, ← Nat.mul_assoc]
    omega

/-- The first code of a length leaves room for every shorter code (R161). -/
theorem firstCode_add (lengths : List Nat) (L n : Nat) :
    (firstCode lengths L + codeCount lengths L) * 2 ^ (n + 1) ≤ firstCode lengths (L + (n + 1)) := by
  induction n with
  | zero => simp [firstCode]
  | succ n ih =>
    have : firstCode lengths (L + (n + 1 + 1)) =
        (firstCode lengths (L + (n + 1)) + codeCount lengths (L + (n + 1))) * 2 := rfl
    rw [this, Nat.pow_succ, ← Nat.mul_assoc]
    omega

/-! ## Slots -/

theorem symbolsOfLength_aux_length (L : Nat) (l : List Nat) (n : Nat) :
    ((l.zipIdx n).filterMap fun p => if p.1 = L then some p.2 else none).length = l.count L := by
  induction l generalizing n with
  | nil => rfl
  | cons x l ih =>
    simp only [List.zipIdx_cons, List.filterMap_cons, List.count_cons]
    by_cases h : x = L
    · simp [h, ih]
    · simp [h, ih]

theorem symbolsOfLength_aux_get (L : Nat) (l : List Nat) (n j sym : Nat) :
    ((l.zipIdx n).filterMap fun p => if p.1 = L then some p.2 else none)[j]? = some sym ↔
      n ≤ sym ∧ l[sym - n]? = some L ∧ (l.take (sym - n)).count L = j := by
  induction l generalizing n j with
  | nil => simp
  | cons x l ih =>
    simp only [List.zipIdx_cons, List.filterMap_cons]
    by_cases hs : sym = n
    · subst hs
      by_cases h : x = L
      · subst h
        cases j with
        | zero => simp
        | succ j => simp [ih]
      · simp [h, ih]
    · by_cases hlt : n < sym
      · have h1 : sym - n = (sym - (n + 1)) + 1 := by omega
        by_cases h : x = L
        · subst h
          cases j with
          | zero => simp [h1]; omega
          | succ j => simp [ih, h1]; omega
        · simp [h, ih, h1]; omega
      · by_cases h : x = L
        · subst h
          cases j with
          | zero => simp; omega
          | succ j => simp [ih]; omega
        · simp [h, ih]; omega

theorem symbolsOfLength_length (lengths : List Nat) (L : Nat) :
    (symbolsOfLength lengths (L + 1)).length = codeCount lengths (L + 1) := by
  simp [symbolsOfLength, codeCount, symbolsOfLength_aux_length]

/-- The symbols of a length, by rank (R162). -/
theorem symbolsOfLength_get (lengths : List Nat) (L j sym : Nat) :
    (symbolsOfLength lengths L)[j]? = some sym ↔ lengths[sym]? = some L ∧ codeRank lengths sym = j := by
  have := symbolsOfLength_aux_get L lengths 0 j sym
  simp only [symbolsOfLength]
  rw [this]
  simp only [Nat.zero_le, Nat.sub_zero, true_and]
  constructor
  · rintro ⟨h1, h2⟩
    exact ⟨h1, by simp [codeRank, List.getD, h1, h2]⟩
  · rintro ⟨h1, h2⟩
    refine ⟨h1, ?_⟩
    simpa [codeRank, List.getD, h1] using h2

theorem usedSymbols_prefix_length (lengths : List Nat) (m : Nat) :
    ((List.range m).flatMap fun k => symbolsOfLength lengths (k + 1)).length = startSlot lengths (m + 1) := by
  induction m with
  | zero => simp [startSlot, codeCount]
  | succ m ih =>
    rw [List.range_succ, List.flatMap_append, List.length_append, ih]
    simp [symbolsOfLength_length, startSlot]

theorem usedSymbols_prefix_get (lengths : List Nat) {L j n : Nat} (hL : L < n) (hj : j < codeCount lengths (L + 1)) :
    ((List.range n).flatMap fun k => symbolsOfLength lengths (k + 1))[startSlot lengths (L + 1) + j]? =
      (symbolsOfLength lengths (L + 1))[j]? := by
  induction n with
  | zero => omega
  | succ n ih =>
    rw [List.range_succ, List.flatMap_append]
    by_cases h : L < n
    · rw [List.getElem?_append_left, ih h]
      have h1 : (((List.range n).flatMap fun k => symbolsOfLength lengths (k + 1))[startSlot lengths (L + 1) + j]?).isSome := by
        rw [ih h]
        rw [Option.isSome_iff_exists]
        exact ⟨_, List.getElem?_eq_getElem (by rw [symbolsOfLength_length]; exact hj)⟩
      by_contra hc
      rw [List.getElem?_eq_none (by omega)] at h1
      exact absurd h1 (by simp)
    · have : L = n := by omega
      subst this
      rw [List.getElem?_append_right (by rw [usedSymbols_prefix_length]; omega), usedSymbols_prefix_length]
      simp

/-- Every length starts after the slots of the shorter ones, and `K` slots are filled in all (R161). -/
theorem startSlot_le (lengths : List Nat) {L : Nat} (hL : L < 15) :
    startSlot lengths (L + 1) + codeCount lengths (L + 1) ≤ (usedSymbols lengths).length := by
  have hm : ∀ n, L + 1 ≤ n → startSlot lengths (L + 1) + codeCount lengths (L + 1) ≤ startSlot lengths (n + 1) := by
    intro n hn
    induction n with
    | zero => omega
    | succ n ih =>
      by_cases h : L + 1 ≤ n
      · have := ih h; simp only [startSlot] at *; omega
      · have : L = n := by omega
        subst this
        exact Nat.le_of_eq rfl
  rw [show (usedSymbols lengths).length = startSlot lengths 16 from usedSymbols_prefix_length lengths 15]
  exact hm 15 (by omega)

theorem usedSymbols_get (lengths : List Nat) {L j : Nat} (hL : L < 15) (hj : j < codeCount lengths (L + 1)) :
    ∃ sym, (usedSymbols lengths)[startSlot lengths (L + 1) + j]? = some sym ∧ lengths[sym]? = some (L + 1) ∧
      codeRank lengths sym = j := by
  have h1 := usedSymbols_prefix_get lengths hL hj
  have h2 := List.getElem?_eq_getElem (l := symbolsOfLength lengths (L + 1)) (i := j)
    (by rw [symbolsOfLength_length]; exact hj)
  have h3 := (symbolsOfLength_get lengths (L + 1) j _).1 h2
  exact ⟨_, h1.trans h2, h3⟩

/-- A symbol's rank is below the number of symbols of its length (R162). -/
theorem codeRank_lt {lengths : List Nat} {sym L : Nat} (h : lengths[sym]? = some (L + 1)) :
    codeRank lengths sym < codeCount lengths (L + 1) := by
  have h1 := (symbolsOfLength_get lengths (L + 1) (codeRank lengths sym) sym).2 ⟨h, rfl⟩
  rw [← symbolsOfLength_length]
  by_contra hc
  rw [List.getElem?_eq_none (by omega)] at h1
  exact absurd h1 (by simp)

/-- Two symbols of one length with one code are one symbol. -/
theorem codeOf_injective {lengths : List Nat} {a b L : Nat} (ha : lengths[a]? = some L) (hb : lengths[b]? = some L)
    (h : codeOf lengths a = codeOf lengths b) : a = b := by
  have hr : codeRank lengths a = codeRank lengths b := by
    simp only [codeOf, List.getD, ha, hb] at h
    simpa using h
  have h1 := (symbolsOfLength_get lengths L (codeRank lengths a) a).2 ⟨ha, rfl⟩
  have h2 := (symbolsOfLength_get lengths L (codeRank lengths b) b).2 ⟨hb, rfl⟩
  rw [hr, h2] at h1
  exact (Option.some.inj h1).symm

/-! ## The built table -/

theorem buildTable_maxCode (cap : Nat) (lengths : List Nat) (d : Nat) {L : Nat} (hL : L < 15) :
    (buildTable cap lengths d).maxCode[L]? = some (maxCodeOf lengths (L + 1)) := by
  simp [buildTable, hL]

theorem buildTable_offset (cap : Nat) (lengths : List Nat) (d : Nat) {L : Nat} (hL : L < 15) :
    (buildTable cap lengths d).offset[L]? = some (offsetOf lengths (L + 1)) := by
  simp [buildTable, hL]

/-- The match test of R168 in terms of the codes assigned. -/
theorem match_iff (lengths : List Nat) (L v : Nat) :
    (0 ≤ maxCodeOf lengths L ∧ (v : Int) ≤ maxCodeOf lengths L) ↔
      0 < codeCount lengths L ∧ v < firstCode lengths L + codeCount lengths L := by
  unfold maxCodeOf
  split <;> omega

/-- The lookup identity (R164), as `decode` performs it. -/
theorem symbolAt_ok {cap : Nat} {lengths : List Nat} (h : LengthsOk cap lengths) (hc : cap ≤ 512) (d : Nat) {L v : Nat}
    (hL : L < 15) (hv : firstCode lengths (L + 1) ≤ v)
    (hm : v < firstCode lengths (L + 1) + codeCount lengths (L + 1)) (s : State) :
    ∃ sym, symbolAt (buildTable cap lengths d) (offsetOf lengths (L + 1) + v) s = .ok sym s ∧
      lengths[sym]? = some (L + 1) ∧ codeOf lengths sym = v := by
  obtain ⟨sym, hs, hl, hr⟩ := usedSymbols_get lengths hL (j := v - firstCode lengths (L + 1)) (by omega)
  have hi : offsetOf lengths (L + 1) + (v : Int) =
      ((startSlot lengths (L + 1) + (v - firstCode lengths (L + 1)) : Nat) : Int) := by
    unfold offsetOf; omega
  have hslt : sym < 512 := by
    have : sym < lengths.length := by
      by_contra hc
      rw [List.getElem?_eq_none (by omega)] at hl
      exact absurd hl (by simp)
    have := h.1
    omega
  refine ⟨sym, ?_, hl, ?_⟩
  · have hlen := (List.getElem?_eq_some_iff.1 hs).1
    have hg : (buildTable cap lengths d).symbols[startSlot lengths (L + 1) + (v - firstCode lengths (L + 1))]? =
        some (BitVec.ofNat 9 sym) := by
      simp only [buildTable]
      rw [List.getElem?_append_left (by simpa using hlen), List.getElem?_map, hs]
      rfl
    rw [hi]
    simp only [symbolAt]
    rw [if_neg (by omega), Int.toNat_natCast, hg]
    simp [Nat.mod_eq_of_lt hslt]
  · have : codeOf lengths sym = firstCode lengths (L + 1) + codeRank lengths sym := by
      simp [codeOf, List.getD, hl]
    omega

/-! ## Decoding -/

/-- What `decode` ends in (R168, R169): a symbol whose code the stream holds, no shorter code having matched; or the slice
ends; or 15 bits match no code. -/
inductive Decoded (cap : Nat) (lengths : List Nat) (d : Nat) (s : State) (r : Res Nat) : Prop where
  | symbol (L sym : Nat) (b : BitReader) (used : lengths[sym]? = some L) (pos : 1 ≤ L) (le : L ≤ 15)
      (code : s.streamCode s.bitPos L = codeOf lengths sym)
      (shorter : ∀ j, 1 ≤ j → j < L → firstCode lengths j + codeCount lengths j ≤ s.streamCode s.bitPos j)
      (bits : L ≤ s.bitsLeft) (eq : r = .ok sym (s.withBr b)) (ok : ReaderOk (s.withBr b))
      (place : (s.withBr b).bitPos = s.bitPos + L)
  | truncated (b : BitReader) (bits : s.bitsLeft < 15)
      (none : ∀ j, 1 ≤ j → j ≤ s.bitsLeft → firstCode lengths j + codeCount lengths j ≤ s.streamCode s.bitPos j)
      (eq : r = .raise .truncatedInput (s.withBr b))
  | invalid (b : BitReader) (bits : 15 ≤ s.bitsLeft)
      (none : ∀ j, 1 ≤ j → j ≤ 15 → firstCode lengths j + codeCount lengths j ≤ s.streamCode s.bitPos j)
      (eq : r = .raise .invalidHuffmanCode (s.withBr b))

theorem decodeFrom_spec {cap : Nat} {lengths : List Nat} (h : LengthsOk cap lengths) (hc : cap ≤ 512) (d : Nat) (s : State)
    (fuel L : Nat) (b : BitReader) (hf : fuel + L = 15) (hr : ReaderOk (s.withBr b)) (hL : L ≤ s.bitsLeft)
    (hp : (s.withBr b).bitPos = s.bitPos + L)
    (hn : ∀ j, 1 ≤ j → j ≤ L → firstCode lengths j + codeCount lengths j ≤ s.streamCode s.bitPos j) :
    Decoded cap lengths d s
      (decodeFrom (buildTable cap lengths d) fuel L (s.streamCode s.bitPos L) (s.withBr b)) := by
  induction fuel generalizing L b with
  | zero =>
    have : L = 15 := by omega
    subst this
    exact .invalid b hL hn rfl
  | succ fuel ih =>
    have hbl : (s.withBr b).bitsLeft = s.bitsLeft - L := by
      unfold State.bitsLeft; rw [hp]; simp only [State.withBr_inSize]; omega
    by_cases hone : L + 1 ≤ s.bitsLeft
    · obtain ⟨b', he, hr', hp'⟩ := readBits_ok hr (n := 1) (by omega) (by omega)
      have hww : (s.withBr b).withBr b' = s.withBr b' := rfl
      rw [hww] at he hr' hp'
      have hbit : (s.withBr b).streamField (s.withBr b).bitPos 1 = s.streamBit (s.bitPos + L) := by
        rw [hp]; simp [State.streamField]
      have hcode : 2 * s.streamCode s.bitPos L + s.streamBit (s.bitPos + L) = s.streamCode s.bitPos (L + 1) := rfl
      have hfirst : firstCode lengths (L + 1) ≤ s.streamCode s.bitPos (L + 1) := by
        rw [← hcode]
        by_cases hL0 : L = 0
        · subst hL0; simp [firstCode, codeCount]
        · have := hn L (by omega) (by omega)
          have : firstCode lengths (L + 1) = (firstCode lengths L + codeCount lengths L) * 2 := rfl
          omega
      simp only [decodeFrom, he, Res.bind_ok, hbit, hcode, buildTable_maxCode cap lengths d (show L < 15 by omega),
        buildTable_offset cap lengths d (show L < 15 by omega)]
      split
      · rename_i hm
        rw [match_iff] at hm
        obtain ⟨sym, hs, hl, hco⟩ := symbolAt_ok h hc d (show L < 15 by omega) hfirst hm.2 (s.withBr b')
        refine .symbol (L + 1) sym b' hl (by omega) (by omega) hco.symm (fun j h1 h2 => hn j h1 (by omega)) hone hs hr' ?_
        rw [hp', hp]; omega
      · rename_i hm
        rw [match_iff] at hm
        refine ih (L + 1) b' (by omega) hr' hone (by rw [hp', hp]; omega) ?_
        intro j h1 h2
        by_cases hj : j ≤ L
        · exact hn j h1 hj
        · have : j = L + 1 := by omega
          subst this
          omega
    · obtain ⟨b', he⟩ := readBits_truncated hr (n := 1) (by omega) (by omega)
      have hww : (s.withBr b).withBr b' = s.withBr b' := rfl
      rw [hww] at he
      refine .truncated b' (by omega) (fun j h1 h2 => hn j h1 (by omega)) ?_
      simp only [decodeFrom, he, Res.bind_raise]

/-- `decode` on a built table from a legal reader (R168). -/
theorem decodeSymbol_spec {cap : Nat} {lengths : List Nat} (h : LengthsOk cap lengths) (hc : cap ≤ 512) (d : Nat)
    {s : State} (hr : ReaderOk s) :
    Decoded cap lengths d s (decodeSymbol (buildTable cap lengths d) s) :=
  decodeFrom_spec h hc d s 15 0 s.eng.br rfl hr (by omega) rfl (by omega)

end Sys2Proof.Machine
end

