-- ==== Sys2Proof/Laws/Sink.lean ====
section
/-! SUPPORT. The laws of the Byte Sink (R80, R81): the capacity, `push`, and the two copy loops that push. -/

namespace Sys2Proof.Machine

/-! ## Capacity -/

theorem growCap_ge (cap : Nat) : cap + 512 ≤ growCap cap := by unfold growCap; omega

theorem capFor_of_le {need cap : Nat} (fuel : Nat) (h : need ≤ cap) : capFor fuel need cap = cap := by
  cases fuel <;> simp [capFor, h]

/-- The bound on the steps does not matter once it is large enough. -/
theorem capFor_fuel {f g need cap : Nat} (hf : need ≤ cap + f) (hg : need ≤ cap + g) :
    capFor f need cap = capFor g need cap := by
  induction f generalizing g cap with
  | zero => rw [capFor_of_le _ (by omega), capFor_of_le _ (by omega)]
  | succ f ih =>
    cases g with
    | zero => rw [capFor_of_le _ (by omega), capFor_of_le _ (by omega)]
    | succ g =>
      simp only [capFor]
      split
      · rfl
      · have := growCap_ge cap
        exact ih (by omega) (by omega)

theorem capFor_ge {fuel need cap : Nat} : cap ≤ capFor fuel need cap := by
  induction fuel generalizing cap with
  | zero => exact Nat.le_refl _
  | succ f ih =>
    simp only [capFor]
    split
    · exact Nat.le_refl _
    · have := growCap_ge cap
      have := @ih (growCap cap)
      omega

theorem capFor_need {fuel need cap : Nat} (hf : need ≤ cap + fuel) : need ≤ capFor fuel need cap := by
  induction fuel generalizing cap with
  | zero => simpa [capFor] using hf
  | succ f ih =>
    simp only [capFor]
    split
    · assumption
    · have := growCap_ge cap
      exact ih (by omega)

/-- Growing for one byte more and then for the rest is growing for all. -/
theorem capFor_capFor {need need' cap f g h : Nat} (hn : need ≤ need') (hf : need ≤ cap + f) (hg : need' ≤ cap + g)
    (hh : need' ≤ capFor f need cap + h) : capFor h need' (capFor f need cap) = capFor g need' cap := by
  induction f generalizing cap g with
  | zero => exact capFor_fuel hh hg
  | succ f ih =>
    simp only [capFor] at hh ⊢
    split
    · rename_i hle
      rw [if_pos hle] at hh
      exact capFor_fuel hh hg
    · rename_i hle
      rw [if_neg hle] at hh
      have := growCap_ge cap
      rw [ih (g := g) (by omega) (by omega) hh]
      cases g with
      | zero => omega
      | succ g =>
        conv => rhs; rw [capFor, if_neg (by omega)]
        exact capFor_fuel (by omega) (by omega)

theorem capFor_mono {need need' cap f g : Nat} (hn : need ≤ need') (hf : need ≤ cap + f) (hg : need' ≤ cap + g) :
    capFor f need cap ≤ capFor g need' cap := by
  rw [← capFor_capFor (h := need') hn hf hg (by omega)]
  exact capFor_ge

/-- Growth keeps a capacity legal (R30). -/
theorem CapLegal.capFor {cap : Nat} (h : CapLegal cap) (fuel need : Nat) : CapLegal (capFor fuel need cap) := by
  induction fuel generalizing cap with
  | zero => exact h
  | succ f ih =>
    simp only [Machine.capFor]
    split
    · exact h
    · apply ih
      rcases h with rfl | ⟨k, rfl⟩
      · exact .inr ⟨0, rfl⟩
      · refine .inr ⟨k + 1, ?_⟩
        have : 1 ≤ 2 ^ k := Nat.one_le_two_pow
        unfold growCap
        rw [Nat.pow_succ]
        omega

/-! ## Replacing the sink -/

@[simp] theorem State.withSink_sinkMem (s : State) (m : Memory) (l c : Nat) : (s.withSink m l c).sinkMem = m := rfl
@[simp] theorem State.withSink_sinkLen (s : State) (m : Memory) (l c : Nat) :
    (s.withSink m l c).sinkLen = BitVec.ofNat 32 l := rfl
@[simp] theorem State.withSink_sinkCap (s : State) (m : Memory) (l c : Nat) :
    (s.withSink m l c).sinkCap = BitVec.ofNat 32 c := rfl
@[simp] theorem State.withSink_config (s : State) (m : Memory) (l c : Nat) : (s.withSink m l c).config = s.config := rfl
@[simp] theorem State.withSink_runState (s : State) (m : Memory) (l c : Nat) : (s.withSink m l c).runState = s.runState := rfl
@[simp] theorem State.withSink_err (s : State) (m : Memory) (l c : Nat) : (s.withSink m l c).err = s.err := rfl
@[simp] theorem State.withSink_last (s : State) (m : Memory) (l c : Nat) : (s.withSink m l c).last = s.last := rfl
@[simp] theorem State.withSink_inBase (s : State) (m : Memory) (l c : Nat) : (s.withSink m l c).inBase = s.inBase := rfl
@[simp] theorem State.withSink_inSize (s : State) (m : Memory) (l c : Nat) : (s.withSink m l c).inSize = s.inSize := rfl
@[simp] theorem State.withSink_inMem (s : State) (m : Memory) (l c : Nat) : (s.withSink m l c).inMem = s.inMem := rfl
@[simp] theorem State.withSink_pixMem (s : State) (m : Memory) (l c : Nat) : (s.withSink m l c).pixMem = s.pixMem := rfl
@[simp] theorem State.withSink_pixLen (s : State) (m : Memory) (l c : Nat) : (s.withSink m l c).pixLen = s.pixLen := rfl
@[simp] theorem State.withSink_phase (s : State) (m : Memory) (l c : Nat) : (s.withSink m l c).phase = s.phase := rfl
@[simp] theorem State.withSink_expect (s : State) (m : Memory) (l c : Nat) : (s.withSink m l c).expect = s.expect := rfl
@[simp] theorem State.withSink_eng (s : State) (m : Memory) (l c : Nat) : (s.withSink m l c).eng = s.eng := rfl
@[simp] theorem State.withSink_sinkWrapped (s : State) (m : Memory) (l c : Nat) : (s.withSink m l c).sinkWrapped = s.sinkWrapped := rfl
@[simp] theorem State.withSink_imgFormat (s : State) (m : Memory) (l c : Nat) : (s.withSink m l c).imgFormat = s.imgFormat := rfl
/-! An update of the sink passes one of the internal registers, and of two updates of one part the last counts. -/

theorem State.withSink_withSto (s : State) (r : StoredRegs) (m : Memory) (l c : Nat) :
    (s.withSto r).withSink m l c = (s.withSink m l c).withSto r := rfl
theorem State.withSink_withBr (s : State) (b : BitReader) (m : Memory) (l c : Nat) :
    (s.withBr b).withSink m l c = (s.withSink m l c).withBr b := rfl
theorem State.withSink_withBlk (s : State) (b : BlockRegs) (m : Memory) (l c : Nat) :
    (s.withBlk b).withSink m l c = (s.withSink m l c).withBlk b := rfl
theorem State.withSto_withBr (s : State) (b : BitReader) (r : StoredRegs) : (s.withBr b).withSto r = (s.withSto r).withBr b := rfl
theorem State.withSto_withSto (s : State) (r r' : StoredRegs) : (s.withSto r).withSto r' = s.withSto r' := rfl
theorem State.withBr_withBr (s : State) (b b' : BitReader) : (s.withBr b).withBr b' = s.withBr b' := rfl
theorem State.withBlk_withBlk (s : State) (b b' : BlockRegs) : (s.withBlk b).withBlk b' = s.withBlk b' := rfl
@[simp] theorem State.withSink_withSink (s : State) (m m' : Memory) (l l' c c' : Nat) :
    (s.withSink m l c).withSink m' l' c' = s.withSink m' l' c' := rfl

theorem State.withSink_self (s : State) : s.withSink s.sinkMem s.sinkLen.toNat s.sinkCap.toNat = s := by
  simp [State.withSink]

/-- What a load stores. -/
theorem Stored.load (m : Memory) (a : Nat) (bs : List Byte) (f : Nat → Byte) (h : ∀ k, k < bs.length → bs[k]? = some (f k)) :
    Stored m (m.load a bs) a bs.length f := by
  refine ⟨fun hm => Memory.load_wf hm a bs, fun hm k hk => ?_, fun x hx => ?_⟩
  · rw [Memory.read_load hm, if_pos (by omega), Nat.add_sub_cancel_left, h k hk]; rfl
  · clear h
    induction bs generalizing m a with
    | nil => rfl
    | cons b bs ih =>
      simp only [List.length_cons] at hx
      rw [Memory.load, ih _ _ (by omega)]
      exact Memory.read_write_other b (by omega)

/-! ## `push` -/

/-- The premises of every push: R29's "length ≤ capacity", and sizes that fit the registers. -/
structure Pushable (s : State) : Prop where
  len : s.sinkLen.toNat ≤ s.sinkCap.toNat
  cap : s.sinkCap.toNat ≤ s.config.sinkLimit
  limit : s.config.sinkLimit < 2 ^ 32

theorem SinkOk.pushable {s : State} (h : SinkOk s) (hc : s.config.Sized) : Pushable s := ⟨h.len, h.cap, hc.2.2.1⟩

/-- The state after pushing `v` (R80). -/
def State.pushed (s : State) (v : Byte) : State :=
  s.withSink (s.sinkMem.write s.sinkLen.toNat v) (s.sinkLen.toNat + 1) (s.capAfter 1)

theorem State.capAfter_need (s : State) (n : Nat) : s.sinkLen.toNat + n ≤ s.capAfter n := capFor_need (by omega)

theorem State.capAfter_zero {s : State} (h : Pushable s) : s.capAfter 0 = s.sinkCap.toNat := by
  have := h.len
  exact capFor_of_le _ (by omega)

theorem State.capAfter_mono (s : State) {m n : Nat} (h : m ≤ n) : s.capAfter m ≤ s.capAfter n :=
  capFor_mono (by omega) (by omega) (by omega)

/-- The first half of R80. -/
theorem growSink_spec {s : State} (h : Pushable s) :
    growSink s = if s.capAfter 1 ≤ s.config.sinkLimit then
      .ok () (s.withSink s.sinkMem s.sinkLen.toNat (s.capAfter 1)) else .raise .outOfMemory s := by
  have h1 := h.len
  have h2 := h.cap
  have hg := growCap_ge s.sinkCap.toNat
  have hl : BitVec.ofNat 32 s.sinkLen.toNat = s.sinkLen := by simp
  by_cases he : s.sinkLen = s.sinkCap
  · have hn : s.sinkLen.toNat = s.sinkCap.toNat := by rw [he]
    have hc : s.capAfter 1 = growCap s.sinkCap.toNat := by
      unfold State.capAfter
      rw [hn]
      simp only [capFor]
      rw [if_neg (by omega), capFor_of_le _ (by omega)]
    rw [hc, growSink, if_pos he]
    split
    · rw [if_neg (by omega)]
    · rw [if_pos (by omega), State.withSink, hl]
  · have hlt : s.sinkLen.toNat < s.sinkCap.toNat := by
      rcases Nat.lt_or_ge s.sinkLen.toNat s.sinkCap.toNat with h | h
      · exact h
      · exact absurd (BitVec.eq_of_toNat_eq (by omega)) he
    have hc : s.capAfter 1 = s.sinkCap.toNat := capFor_of_le _ (by omega)
    rw [hc, if_pos h2, growSink, if_neg he, State.withSink_self]

/-- The second half of R80, where `SINK_LEN` does not wrap. -/
theorem append_ok {s : State} (h : s.sinkLen.toNat < s.config.sinkLimit) (hl : s.config.sinkLimit < 2 ^ 32) (v : Byte) :
    ((writeByte .sink s.sinkLen.toNat v s).bind fun _ t =>
      Res.ok () { t with sinkLen := t.sinkLen + 1, sinkWrapped := t.sinkWrapped || decide (t.sinkLen + 1 = 0) }) =
      .ok () (s.withSink (s.sinkMem.write s.sinkLen.toNat v) (s.sinkLen.toNat + 1) s.sinkCap.toNat) := by
  have hlen : BitVec.ofNat 32 (s.sinkLen.toNat + 1) = s.sinkLen + 1 := by simp [BitVec.ofNat_add]
  have hcap : BitVec.ofNat 32 s.sinkCap.toNat = s.sinkCap := by simp
  have hwrap : s.sinkLen + 1 ≠ 0 := by
    intro h0
    have := congrArg BitVec.toNat hlen
    rw [h0, BitVec.toNat_ofNat, Nat.mod_eq_of_lt (by omega)] at this
    simp at this
  have hflag : (s.sinkWrapped || decide (s.sinkLen + 1 = 0)) = s.sinkWrapped := by rw [decide_eq_false hwrap, Bool.or_false]
  rw [writeByte_ok (sp := .sink) h, Res.bind_ok, State.withSink, hlen, hcap]
  show Res.ok () { s.withMem .sink _ with sinkLen := s.sinkLen + 1, sinkWrapped := s.sinkWrapped || decide (s.sinkLen + 1 = 0) } = _
  rw [hflag]
  rfl

/-- `push(v)` (R80): the byte is appended, or the capacity the sink needs passes its limit. -/
theorem push_spec {s : State} (h : Pushable s) (v : Byte) :
    push v s = if s.capAfter 1 ≤ s.config.sinkLimit then .ok () (s.pushed v) else .raise .outOfMemory s := by
  have h3 := h.limit
  have hn := s.capAfter_need 1
  rw [push, growSink_spec h]
  split
  · have hl : (BitVec.ofNat 32 s.sinkLen.toNat).toNat = s.sinkLen.toNat := by simp
    have hc : (BitVec.ofNat 32 (s.capAfter 1)).toNat = s.capAfter 1 := by
      rw [BitVec.toNat_ofNat, Nat.mod_eq_of_lt (by omega)]
    rw [Res.bind_ok, append_ok (by rw [State.withSink_sinkLen, hl]; show _ < s.config.sinkLimit; omega) (by exact h3)]
    simp only [State.withSink_sinkLen, State.withSink_sinkMem, State.withSink_sinkCap, hl, hc]
    rfl
  · rfl

theorem State.pushed_sinkLen {s : State} (h : Pushable s) (v : Byte) (hc : s.capAfter 1 ≤ s.config.sinkLimit) :
    (s.pushed v).sinkLen.toNat = s.sinkLen.toNat + 1 := by
  have := h.limit
  have := s.capAfter_need 1
  show (BitVec.ofNat 32 (s.sinkLen.toNat + 1)).toNat = _
  rw [BitVec.toNat_ofNat, Nat.mod_eq_of_lt (by omega)]

theorem State.pushed_sinkCap {s : State} (h : Pushable s) (v : Byte) (hc : s.capAfter 1 ≤ s.config.sinkLimit) :
    (s.pushed v).sinkCap.toNat = s.capAfter 1 := by
  have := h.limit
  show (BitVec.ofNat 32 (s.capAfter 1)).toNat = _
  rw [BitVec.toNat_ofNat, Nat.mod_eq_of_lt (by omega)]

/-- What the first half of R80 leaves as it is, whatever the sizes. -/
theorem growSink_keeps {s u : State} (h : growSink s = .ok () u) :
    u.sinkLen = s.sinkLen ∧ u.sinkWrapped = s.sinkWrapped ∧ u.config = s.config ∧ u.sinkMem = s.sinkMem ∧ u.phase = s.phase := by
  unfold growSink at h
  split at h
  · split at h
    · cases h
    · cases h; exact ⟨rfl, rfl, rfl, rfl, rfl⟩
  · cases h; exact ⟨rfl, rfl, rfl, rfl, rfl⟩

/-- The bytes written so far, after any push, one in which `SINK_LEN` wraps included: they are as many as before or more, and the byte
pushed is one of them. -/
theorem push_filled {s t : State} {v : Byte} (h : push v s = .ok () t) :
    s.sinkFilled ≤ t.sinkFilled ∧ s.sinkLen.toNat < t.sinkFilled ∧ t.sinkMem = s.sinkMem.write s.sinkLen.toNat v ∧
      t.phase = s.phase := by
  unfold push at h
  cases hu : growSink s with
  | raise e u => rw [hu] at h; cases h
  | fault f => rw [hu] at h; cases h
  | ok a u =>
    obtain ⟨hl, hw, hc, hm, hp⟩ := growSink_keeps hu
    rw [hu, Res.bind_ok] at h
    unfold writeByte at h
    split at h
    · rename_i hlt
      have hlt : u.sinkLen.toNat < u.config.sinkLimit := hlt
      rw [Res.bind_ok] at h
      have ht := (Res.ok.inj h).2
      have h1 : t.sinkLen = s.sinkLen + 1 := by rw [← ht, ← hl]; rfl
      have h2 : t.sinkWrapped = (s.sinkWrapped || decide (s.sinkLen + 1 = 0)) := by rw [← ht, ← hl, ← hw]; rfl
      have h3 : t.config = s.config := by rw [← ht, ← hc]; rfl
      have h4 : t.sinkMem = s.sinkMem.write s.sinkLen.toNat v := by rw [← ht, ← hl, ← hm]; rfl
      have h5 : t.phase = s.phase := by rw [← ht, ← hp]; rfl
      rw [hl, hc] at hlt
      have hs := s.sinkLen.isLt
      have hn : s.sinkLen + 1 ≠ 0 → (s.sinkLen + 1).toNat = s.sinkLen.toNat + 1 := by
        intro h0
        rw [BitVec.toNat_add]
        refine Nat.mod_eq_of_lt (Nat.lt_of_not_le fun hge => h0 (BitVec.eq_of_toNat_eq ?_))
        have hge : 2 ^ 32 ≤ s.sinkLen.toNat + 1 := hge
        rw [BitVec.toNat_add]
        show (s.sinkLen.toNat + 1) % 2 ^ 32 = 0
        rw [show s.sinkLen.toNat + 1 = 2 ^ 32 by omega, Nat.mod_self]
      refine ⟨?_, ?_, h4, h5⟩ <;>
      · unfold State.sinkFilled
        rw [h1, h2, h3]
        by_cases h0 : s.sinkLen + 1 = 0
        · rw [decide_eq_true h0, Bool.or_true, if_pos rfl]
          try split
          all_goals omega
        · rw [decide_eq_false h0, Bool.or_false, hn h0]
          split <;> omega
    · cases h

/-- What a push leaves is ready for the next one. -/
theorem Pushable.pushed {s : State} (h : Pushable s) (v : Byte) (hc : s.capAfter 1 ≤ s.config.sinkLimit) :
    Pushable (s.pushed v) := by
  refine ⟨?_, ?_, h.limit⟩
  · rw [State.pushed_sinkLen h v hc, State.pushed_sinkCap h v hc]; exact s.capAfter_need 1
  · rw [State.pushed_sinkCap h v hc]; exact hc

/-- Pushing one byte and then `n` more is pushing `n + 1`. -/
theorem State.capAfter_pushed {s : State} (h : Pushable s) (v : Byte) (n : Nat) (hc : s.capAfter 1 ≤ s.config.sinkLimit) :
    (s.pushed v).capAfter n = s.capAfter (n + 1) := by
  have := s.capAfter_need 1
  rw [State.capAfter, State.pushed_sinkLen h v hc, State.pushed_sinkCap h v hc,
    show s.sinkLen.toNat + 1 + n = s.sinkLen.toNat + (n + 1) by omega]
  exact capFor_capFor (by omega) (by omega) (by omega) (by omega)

/-! ## The copy loops -/

/-- The bytes a back-reference copies: the last `d` bytes of the sink, over and over (R226). -/
def State.periodic (s : State) (d n : Nat) : List Byte :=
  (List.range n).map fun k => s.sinkMem.read (s.sinkLen.toNat - d + k % d)

@[simp] theorem State.periodic_length (s : State) (d n : Nat) : (s.periodic d n).length = n := by simp [State.periodic]

theorem State.periodic_get (s : State) (d n k : Nat) (h : k < n) :
    (s.periodic d n)[k]? = some (s.sinkMem.read (s.sinkLen.toNat - d + k % d)) := by simp [State.periodic, h]

/-- One byte of a copy, and the copy that is left of it. -/
theorem State.periodic_succ {s : State} (h : Pushable s) (hw : s.sinkMem.wf) {d : Nat} (hd : 1 ≤ d)
    (hdl : d ≤ s.sinkLen.toNat) (n : Nat) (hc : s.capAfter 1 ≤ s.config.sinkLimit) :
    s.periodic d (n + 1) = s.sinkMem.read (s.sinkLen.toNat - d) ::
      (s.pushed (s.sinkMem.read (s.sinkLen.toNat - d))).periodic d n := by
  have hm : ∀ v, (s.pushed v).sinkMem = s.sinkMem.write s.sinkLen.toNat v := fun _ => rfl
  simp only [State.periodic, State.pushed_sinkLen h _ hc, hm]
  rw [List.range_succ_eq_map, List.map_cons, List.map_map]
  congr 1
  apply List.map_congr_left
  intro k _
  have hk : k % d < d := Nat.mod_lt _ (by omega)
  simp only [Function.comp]
  by_cases he : k % d = d - 1
  · have h1 : (k + 1) % d = 0 := by
      rw [Nat.add_mod, he]
      by_cases hd1 : d = 1
      · subst hd1; simp
      · rw [Nat.mod_eq_of_lt (show 1 < d by omega), Nat.sub_add_cancel hd, Nat.mod_self]
    have h2 : s.sinkLen.toNat + 1 - d + k % d = s.sinkLen.toNat := by omega
    rw [h2, Memory.read_write_same hw, show (k.succ) % d = 0 from h1, Nat.add_zero]
  · have h1 : (k + 1) % d = k % d + 1 := by
      rw [Nat.add_mod]
      by_cases hd1 : d = 1
      · omega
      · rw [Nat.mod_eq_of_lt (show 1 < d by omega), Nat.mod_eq_of_lt (by omega)]
    rw [Memory.read_write_other _ (by omega), show (k.succ) % d = k % d + 1 from h1]
    congr 1
    omega

/-- The state after the copy loop of R226. -/
def State.copied (s : State) (d n : Nat) : State :=
  (s.withSink (s.sinkMem.load s.sinkLen.toNat (s.periodic d n)) (s.sinkLen.toNat + n) (s.capAfter n)).withBlk
    { s.eng.blk with copyLeft := if n = 0 then s.eng.blk.copyLeft else 0 }

/-- Within the sink, the byte read is the one that stands there. -/
theorem readBehind_ok {s : State} (h : Pushable s) (hd : 1 ≤ s.eng.blk.dist.toNat) (hdl : s.eng.blk.dist.toNat ≤ s.sinkLen.toNat) :
    readBehind s = .ok (s.sinkMem.read (s.sinkLen.toNat - s.eng.blk.dist.toNat)) s := by
  have hl := h.len
  have hc := h.cap
  rw [readBehind, if_pos hdl]
  exact readByte_ok (sp := .sink) (show _ < s.config.sinkLimit by omega)

/-- Past the sink's start, which `SINK_LEN` reaches only by wrapping, the byte is a free value. -/
theorem readBehind_free {s : State} (hd : s.sinkLen.toNat < s.eng.blk.dist.toNat) :
    readBehind s = .ok (Config.freeBits 8 s.draws 0) { s with draws := s.draws + 1 } := if_neg (by omega)

/-- The copy loop of R226. -/
theorem copyBack_spec (n : Nat) (s : State) (h : Pushable s) (hw : s.sinkMem.wf) (hd : 1 ≤ s.eng.blk.dist.toNat)
    (hdl : s.eng.blk.dist.toNat ≤ s.sinkLen.toNat) :
    if s.capAfter n ≤ s.config.sinkLimit then copyBack n s = .ok () (s.copied s.eng.blk.dist.toNat n)
    else ∃ m l c b, copyBack n s = .raise .outOfMemory ((s.withSink m l c).withBlk b) ∧ (s.sinkMem.below s.config.sinkLimit →
      m.below s.config.sinkLimit) ∧ m.wf := by
  induction n generalizing s with
  | zero =>
    rw [State.capAfter_zero h, if_pos h.cap, State.copied, State.capAfter_zero h]
    simp only [State.periodic, List.range_zero, List.map_nil, Memory.load, Nat.add_zero, State.withSink_self]
    rfl
  | succ n ih =>
    have hl := h.len
    have hc := h.cap
    have hm1 := s.capAfter_mono (show 1 ≤ n + 1 by omega)
    obtain ⟨v, hv⟩ : ∃ v, v = s.sinkMem.read (s.sinkLen.toNat - s.eng.blk.dist.toNat) := ⟨_, rfl⟩
    have hread : readBehind s = .ok v s := by rw [hv]; exact readBehind_ok h hd hdl
    have hp := push_spec h v
    by_cases hone : s.capAfter 1 ≤ s.config.sinkLimit
    · rw [if_pos hone] at hp
      have hlen := State.pushed_sinkLen h v hone
      have hneed := s.capAfter_need 1
      obtain ⟨u, hu⟩ : ∃ u, u = (s.pushed v).withBlk { s.eng.blk with copyLeft := BitVec.ofNat 9 n } := ⟨_, rfl⟩
      have hstep : copyBack (n + 1) s = copyBack n u := by rw [copyBack, hread, Res.bind_ok, hp, hu]; rfl
      have hP : Pushable u := by rw [hu]; exact ⟨(h.pushed v hone).len, (h.pushed v hone).cap, h.limit⟩
      have hum : u.sinkMem = s.sinkMem.write s.sinkLen.toNat v := by rw [hu]; rfl
      have hud : u.eng.blk = { s.eng.blk with copyLeft := BitVec.ofNat 9 n } := by rw [hu]; rfl
      have huc : u.config = s.config := by rw [hu]; rfl
      have hul : u.sinkLen.toNat = s.sinkLen.toNat + 1 := by rw [hu]; exact hlen
      have hca : u.capAfter n = s.capAfter (n + 1) := by rw [hu]; exact State.capAfter_pushed h v n hone
      have huo : ∀ m l c b, (u.withSink m l c).withBlk b = (s.withSink m l c).withBlk b := by
        intro m l c b
        rw [hu, State.withSink_withBlk, State.withBlk_withBlk, State.pushed, State.withSink_withSink]
      have hup : u.periodic s.eng.blk.dist.toNat n = (s.pushed v).periodic s.eng.blk.dist.toNat n := by rw [hu]; rfl
      have hih := ih u hP (by rw [hum]; exact Memory.write_wf hw _ _) (by rw [hud]; exact hd)
        (by rw [hud, hul]; show s.eng.blk.dist.toNat ≤ _; omega)
      rw [hca, huc] at hih
      rw [hstep]
      split
      · rename_i hall
        rw [if_pos hall] at hih
        rw [hih]
        congr 1
        simp only [State.copied, hud]
        rw [huo, hca, hul, hup, hum, State.periodic_succ h hw hd hdl n hone, Memory.load, ← hv,
          show s.sinkLen.toNat + 1 + n = s.sinkLen.toNat + (n + 1) by omega, if_neg (show ¬ n + 1 = 0 by omega)]
        congr 2
        by_cases hn0 : n = 0
        · rw [if_pos hn0, hn0]; rfl
        · rw [if_neg hn0]
      · rename_i hall
        rw [if_neg hall] at hih
        obtain ⟨m, l, c, b, he, hb, hw'⟩ := hih
        rw [huo] at he
        refine ⟨m, l, c, b, he, fun hb' => hb ?_, hw'⟩
        rw [hum]
        exact Memory.write_below hb' (by omega) _
    · rw [if_neg (by omega)]
      rw [if_neg hone] at hp
      refine ⟨s.sinkMem, s.sinkLen.toNat, s.sinkCap.toNat, s.eng.blk, ?_, id, hw⟩
      rw [copyBack, hread, Res.bind_ok, hp, State.withSink_self]
      rfl

/-- The slice's bytes from position `p` on. -/
def State.sliceBytes (s : State) (p n : Nat) : List Byte :=
  (List.range n).map fun k => s.inMem.read (s.inBase.toNat + p + k)

@[simp] theorem State.sliceBytes_length (s : State) (p n : Nat) : (s.sliceBytes p n).length = n := by
  simp [State.sliceBytes]

theorem State.sliceBytes_get (s : State) (p n k : Nat) (h : k < n) :
    (s.sliceBytes p n)[k]? = some (s.inMem.read (s.inBase.toNat + p + k)) := by simp [State.sliceBytes, h]

theorem State.sliceBytes_succ (s : State) (p n : Nat) :
    s.sliceBytes p (n + 1) = s.inMem.read (s.inBase.toNat + p) :: s.sliceBytes (p + 1) n := by
  simp only [State.sliceBytes]
  rw [List.range_succ_eq_map, List.map_cons, List.map_map]
  congr 1
  apply List.map_congr_left
  intro k _
  simp only [Function.comp]
  congr 1
  omega

/-- The state after the copy loop of R184, but for the Bit Reader. -/
def State.storedCopied (s : State) (n : Nat) : State :=
  (s.withSink (s.sinkMem.load s.sinkLen.toNat (s.sliceBytes s.eng.br.pos.toNat n)) (s.sinkLen.toNat + n)
    (s.capAfter n)).withSto { s.eng.sto with left := if n = 0 then s.eng.sto.left else 0 }

/-- The copy loop of R184: all bytes are copied; or the slice ends, or the sink's limit is passed, whichever comes first. -/
theorem copyStored_spec (n : Nat) (s : State) (h : Pushable s) (hr : ReaderOk s) (hw : s.sinkMem.wf) :
    ∃ b : BitReader, ReaderOk (s.withBr b) ∧ s.bitPos ≤ (s.withBr b).bitPos ∧
      if s.eng.br.pos.toNat + n ≤ s.inSize.toNat ∧ s.capAfter n ≤ s.config.sinkLimit then
        copyStored n s = .ok () ((s.storedCopied n).withBr b) ∧
          b.pos.toNat = s.eng.br.pos.toNat + n ∧ (n ≠ 0 → b.cnt = 0 ∧ b.acc = 0) ∧ (n = 0 → b = s.eng.br)
      else ∃ e m l c r, copyStored n s = .raise e (((s.withSink m l c).withSto r).withBr b) ∧
        (s.sinkMem.below s.config.sinkLimit → m.below s.config.sinkLimit) ∧ m.wf ∧
        (s.capAfter (min n (s.inSize.toNat - s.eng.br.pos.toNat)) ≤ s.config.sinkLimit → e = .truncatedInput) ∧
        (s.config.sinkLimit < s.capAfter (min n (s.inSize.toNat - s.eng.br.pos.toNat)) → e = .outOfMemory) := by
  induction n generalizing s with
  | zero =>
    refine ⟨s.eng.br, hr, Nat.le_refl _, ?_⟩
    rw [State.capAfter_zero h, if_pos ⟨by have := hr.pos; omega, h.cap⟩, State.storedCopied, State.capAfter_zero h]
    refine ⟨?_, rfl, by simp, fun _ => rfl⟩
    simp only [State.sliceBytes, List.range_zero, List.map_nil, Memory.load, Nat.add_zero, State.withSink_self]
    rfl
  | succ n ih =>
    have hl := h.len
    have hc := h.cap
    by_cases hp : s.eng.br.pos.toNat < s.inSize.toNat
    · obtain ⟨b, he, hbpos, hb0, hba, hrb, hbp⟩ := readByteAligned_ok hr hp
      have hmono : s.bitPos ≤ (s.withBr b).bitPos := by rw [hbp]; unfold State.bitPos; omega
      obtain ⟨v, hv⟩ : ∃ v, v = s.inMem.read (s.inBase.toNat + s.eng.br.pos.toNat) := ⟨_, rfl⟩
      rw [← hv] at he
      have hPb : Pushable (s.withBr b) := ⟨h.len, h.cap, h.limit⟩
      have hpush := push_spec hPb v
      rw [show (s.withBr b).capAfter 1 = s.capAfter 1 from rfl, State.withBr_config] at hpush
      have hm1 := s.capAfter_mono (show 1 ≤ n + 1 by omega)
      by_cases hone : s.capAfter 1 ≤ s.config.sinkLimit
      · rw [if_pos hone] at hpush
        have hneed := s.capAfter_need 1
        have hlen := State.pushed_sinkLen h v hone
        obtain ⟨u, hu⟩ : ∃ u, u = ((s.withBr b).pushed v).withSto { s.eng.sto with left := BitVec.ofNat 16 n } := ⟨_, rfl⟩
        have hstep : copyStored (n + 1) s = copyStored n u := by rw [copyStored, he, Res.bind_ok, hpush, hu]; rfl
        have hP : Pushable u := by rw [hu]; exact ⟨(h.pushed v hone).len, (h.pushed v hone).cap, h.limit⟩
        have hum : u.sinkMem = s.sinkMem.write s.sinkLen.toNat v := by rw [hu]; rfl
        have hus : u.eng.sto = { s.eng.sto with left := BitVec.ofNat 16 n } := by rw [hu]; rfl
        have hub : u.eng.br = b := by rw [hu]; rfl
        have huc : u.config = s.config := by rw [hu]; rfl
        have hui : u.inSize = s.inSize := by rw [hu]; rfl
        have hul : u.sinkLen.toNat = s.sinkLen.toNat + 1 := by rw [hu]; exact hlen
        have hca : ∀ j, u.capAfter j = s.capAfter (j + 1) := by
          intro j; rw [hu]; exact State.capAfter_pushed h v j hone
        have huo : ∀ m l c r b', ((u.withSink m l c).withSto r).withBr b' = ((s.withSink m l c).withSto r).withBr b' := by
          intro m l c r b'
          rw [hu, State.withSink_withSto, State.withSto_withSto, State.pushed, State.withSink_withSink, State.withSink_withBr,
            State.withSto_withBr, State.withBr_withBr]
        have hsl : u.sliceBytes (s.eng.br.pos.toNat + 1) n = s.sliceBytes (s.eng.br.pos.toNat + 1) n := by rw [hu]; rfl
        have hru : ReaderOk u := by rw [hu]; exact hrb.congr rfl rfl rfl rfl rfl
        obtain ⟨b', hrb', hmono', hih⟩ := ih u hP hru (by rw [hum]; exact Memory.write_wf hw _ _)
        have hbu : u.bitPos = (s.withBr b).bitPos := by rw [hu]; rfl
        rw [hca, hca, hub, hbpos, huc, hui,
          show min n (s.inSize.toNat - (s.eng.br.pos.toNat + 1)) + 1 = min (n + 1) (s.inSize.toNat - s.eng.br.pos.toNat) by omega,
          show s.eng.br.pos.toNat + 1 + n = s.eng.br.pos.toNat + (n + 1) by omega] at hih
        refine ⟨b', hrb'.congr rfl (by rw [hu]; rfl) (by rw [hu]; rfl) (by rw [hu]; rfl) (by rw [hu]; rfl), ?_, ?_⟩
        · refine Nat.le_trans hmono ?_
          rw [← hbu]
          exact hmono'
        rw [hstep]
        split
        · rename_i hall
          rw [if_pos hall] at hih
          obtain ⟨heq, hpos', hz, hz0⟩ := hih
          refine ⟨?_, hpos', fun _ => ?_, by omega⟩
          · rw [heq]
            congr 1
            simp only [State.storedCopied, hus]
            rw [huo, hca, hul, hub, hbpos, hsl, hum, State.sliceBytes_succ, Memory.load, ← hv,
              show s.sinkLen.toNat + 1 + n = s.sinkLen.toNat + (n + 1) by omega, if_neg (show ¬ n + 1 = 0 by omega)]
            congr 3
            by_cases hn0 : n = 0
            · rw [if_pos hn0, hn0]; rfl
            · rw [if_neg hn0]
          · by_cases hn0 : n = 0
            · rw [hz0 hn0]; exact ⟨hb0, hba⟩
            · exact hz hn0
        · rename_i hall
          rw [if_neg hall] at hih
          obtain ⟨e, m, l, c, r, heq, hb, hw', h1, h2⟩ := hih
          rw [huo] at heq
          refine ⟨e, m, l, c, r, heq, fun hb' => hb ?_, hw', h1, h2⟩
          rw [hum]
          exact Memory.write_below hb' (by omega) _
      · rw [if_neg hone] at hpush
        refine ⟨b, hrb, hmono, ?_⟩
        have hm2 := s.capAfter_mono (show 1 ≤ min (n + 1) (s.inSize.toNat - s.eng.br.pos.toNat) by omega)
        rw [if_neg (by omega)]
        refine ⟨.outOfMemory, s.sinkMem, s.sinkLen.toNat, s.sinkCap.toNat, s.eng.sto, ?_, id, hw, by omega, fun _ => rfl⟩
        rw [copyStored, he, Res.bind_ok, hpush, State.withSink_self]
        rfl
    · have hal := alignToByte_ok hr
      refine ⟨⟨s.eng.br.pos, 0, 0⟩, hal.1, hal.2.2, ?_⟩
      rw [if_neg (by omega), show min (n + 1) (s.inSize.toNat - s.eng.br.pos.toNat) = 0 by omega, State.capAfter_zero h]
      refine ⟨.truncatedInput, s.sinkMem, s.sinkLen.toNat, s.sinkCap.toNat, s.eng.sto, ?_, id, hw, fun _ => rfl, by omega⟩
      rw [copyStored, readByteAligned_truncated (s := s) (by omega), State.withSink_self]
      rfl

end Sys2Proof.Machine
end

