-- ==== Sys2Proof/Laws/Invariant.lean ====
section
/-! SUPPORT. The parts of the invariant (Sys2Proof/Safety.lean) that every instruction needs, and that an error, a completion and
a change of the internal registers keep. -/

namespace Sys2Proof.Machine

/-- What holds of a BUSY machine wherever its command is. -/
structure Running (s : State) : Prop where
  sized : s.config.Sized
  memory : MemoryOk s
  busy : s.runState = .busy
  err : s.err = 0
  last : s.last = 1 ∨ s.last = 2
  sink : SinkOk s
  files : FilesOk s
  format : s.imgFormat.toNat < 2 ^ 16
  pixLen : s.pixLen.toNat ≤ s.config.pixLimit

/-- What an error needs of the state it is raised in. -/
structure Raisable (s : State) : Prop where
  sized : s.config.Sized
  memory : MemoryOk s
  last : s.last = 1 ∨ (s.last = 2 ∧ SinkOk s)
  format : s.imgFormat.toNat < 2 ^ 16
  pixLen : s.pixLen.toNat ≤ s.config.pixLimit

theorem Inv.running_of_busy {s : State} (h : Inv s) (hb : s.runState = .busy) : Running s := by
  have he := h.status.err
  rw [hb, if_neg (by decide)] at he
  have hl : s.last = 1 ∨ s.last = 2 := by
    have h1 := h.status.last
    have h2 : s.last ≠ 0 := h.status.started (by rw [hb]; decide)
    have h3 : s.last.toNat ≠ 0 := fun e => h2 (BitVec.eq_of_toNat_eq (by simpa using e))
    rcases (by omega : s.last.toNat = 1 ∨ s.last.toNat = 2) with h | h
    · exact .inl (BitVec.eq_of_toNat_eq (by simpa using h))
    · exact .inr (BitVec.eq_of_toNat_eq (by simpa using h))
  exact ⟨h.sized, h.memory, hb, he, hl, h.sink, h.files, h.format, h.pixLen⟩

theorem Running.inv {s : State} (h : Running s) (hr : InflateOk s ∨ ReconOk s) : Inv s := by
  have hb := h.busy
  refine ⟨h.sized, h.memory, ⟨?_, ?_, ?_, ?_⟩, h.sink, h.files, h.format, h.pixLen, ?_⟩
  · rw [hb, if_neg (by decide)]; exact h.err
  · rcases h.last with h | h <;> rw [h] <;> decide
  · rw [hb]; intro h; cases h
  · intro _; rcases h.last with h | h <;> rw [h] <;> decide
  · rw [if_pos hb]; exact hr

theorem Running.raisable {s : State} (h : Running s) : Raisable s :=
  ⟨h.sized, h.memory, h.last.imp_right fun hl => ⟨hl, h.sink⟩, h.format, h.pixLen⟩

/-- Changing internal registers, and no size of a register file, keeps a machine running. -/
theorem Running.withEng {s : State} (h : Running s) (e : Engine) (h1 : e.hdr.cll.length = 19) (h2 : e.hdr.lens.length = 320) :
    Running (s.withEng e) :=
  ⟨h.sized, ⟨h.memory.wf, h.memory.size⟩, h.busy, h.err, h.last, ⟨h.sink.len, h.sink.cap, h.sink.legal⟩, ⟨h1, h2⟩, h.format,
    h.pixLen⟩

theorem Running.withBr {s : State} (h : Running s) (b : BitReader) : Running (s.withBr b) :=
  h.withEng _ h.files.cll h.files.lens

theorem Running.withBlk {s : State} (h : Running s) (b : BlockRegs) : Running (s.withBlk b) :=
  h.withEng _ h.files.cll h.files.lens

theorem Running.withSto {s : State} (h : Running s) (r : StoredRegs) : Running (s.withSto r) :=
  h.withEng _ h.files.cll h.files.lens

theorem Running.withRcn {s : State} (h : Running s) (r : ReconRegs) : Running (s.withRcn r) :=
  h.withEng _ h.files.cll h.files.lens

theorem Running.withHdr {s : State} (h : Running s) (r : HeaderRegs) (h1 : r.cll.length = 19) (h2 : r.lens.length = 320) :
    Running (s.withHdr r) :=
  h.withEng _ h1 h2

theorem Running.withHeaderFlags {s : State} (h : Running s) (f t : Nat) : Running (s.withHeaderFlags f t) :=
  h.withEng _ h.files.cll h.files.lens

theorem Running.goTo {s : State} (h : Running s) (p : Phase) (e : Selector) : Running (s.goTo p e) :=
  ⟨h.sized, ⟨h.memory.wf, h.memory.size⟩, h.busy, h.err, h.last, ⟨h.sink.len, h.sink.cap, h.sink.legal⟩,
    ⟨h.files.cll, h.files.lens⟩, h.format, h.pixLen⟩

theorem Running.draws {s : State} (h : Running s) (n : Nat) : Running { s with draws := n } :=
  ⟨h.sized, ⟨h.memory.wf, h.memory.size⟩, h.busy, h.err, h.last, ⟨h.sink.len, h.sink.cap, h.sink.legal⟩,
    ⟨h.files.cll, h.files.lens⟩, h.format, h.pixLen⟩

theorem Running.buildLt {s : State} (h : Running s) (l : List Nat) : Running (s.buildLt l) :=
  (h.withEng { s.eng with lt := buildTable 288 l s.draws } h.files.cll h.files.lens).draws (s.draws + 1)

theorem Running.buildDt {s : State} (h : Running s) (l : List Nat) : Running (s.buildDt l) :=
  (h.withEng { s.eng with dt := buildTable 32 l s.draws } h.files.cll h.files.lens).draws (s.draws + 1)

theorem Running.buildCt {s : State} (h : Running s) (l : List Nat) : Running (s.buildCt l) :=
  (h.withEng { s.eng with ct := buildTable 19 l s.draws } h.files.cll h.files.lens).draws (s.draws + 1)

theorem Running.pushable {s : State} (h : Running s) : Pushable s := h.sink.pushable h.sized

/-- A longer sink keeps a machine running. -/
theorem Running.withSink {s : State} (h : Running s) {m : Memory} {l c : Nat} (hw : m.wf)
    (hb : m.below s.config.sinkLimit) (hl : l ≤ c) (hc : c ≤ s.config.sinkLimit) (hg : CapLegal c) :
    Running (s.withSink m l c) := by
  have hs := h.sized.2.2.1
  have h1 : (BitVec.ofNat 32 l).toNat = l := by rw [BitVec.toNat_ofNat, Nat.mod_eq_of_lt (by omega)]
  have h2 : (BitVec.ofNat 32 c).toNat = c := by rw [BitVec.toNat_ofNat, Nat.mod_eq_of_lt (by omega)]
  refine ⟨h.sized, ?_, h.busy, h.err, h.last, ⟨?_, ?_, ?_⟩, ⟨h.files.cll, h.files.lens⟩, h.format, h.pixLen⟩
  · have := h.memory.withMem .sink hw hb
    exact ⟨this.wf, this.size⟩
  · simp only [State.withSink_sinkLen, State.withSink_sinkCap, h1, h2]; exact hl
  · simp only [State.withSink_sinkCap, h2]; exact hc
  · simp only [State.withSink_sinkCap, h2]; exact hg

/-- An INFLATE may fail whatever its sink has become. -/
theorem Running.raisable_withSink {s : State} (h : Running s) (hl : s.last = 1) {m : Memory} (l c : Nat) (hw : m.wf)
    (hb : m.below s.config.sinkLimit) : Raisable (s.withSink m l c) := by
  have := h.memory.withMem .sink hw hb
  exact ⟨h.sized, ⟨this.wf, this.size⟩, .inl hl, h.format, h.pixLen⟩

theorem Raisable.withBr {s : State} (h : Raisable s) (b : BitReader) : Raisable (s.withBr b) :=
  ⟨h.sized, ⟨h.memory.wf, h.memory.size⟩, h.last.imp_right fun hl => ⟨hl.1, hl.2.len, hl.2.cap, hl.2.legal⟩, h.format,
    h.pixLen⟩

theorem Raisable.withBlk {s : State} (h : Raisable s) (b : BlockRegs) : Raisable (s.withBlk b) :=
  ⟨h.sized, ⟨h.memory.wf, h.memory.size⟩, h.last.imp_right fun hl => ⟨hl.1, hl.2.len, hl.2.cap, hl.2.legal⟩, h.format,
    h.pixLen⟩

theorem Raisable.withSto {s : State} (h : Raisable s) (b : StoredRegs) : Raisable (s.withSto b) :=
  ⟨h.sized, ⟨h.memory.wf, h.memory.size⟩, h.last.imp_right fun hl => ⟨hl.1, hl.2.len, hl.2.cap, hl.2.legal⟩, h.format,
    h.pixLen⟩

/-- The state an error leaves is legal, and no command runs in it. -/
theorem Raisable.inv {s : State} (h : Raisable s) (e : Error) :
    Inv (s.raiseError e) ∧ (s.raiseError e).runState = .error := by
  have hrun : (s.raiseError e).runState = .error := rfl
  have herr : (s.raiseError e).err = e.code := rfl
  refine ⟨⟨?_, ⟨?_, ?_⟩, ⟨?_, ?_, ?_, ?_⟩, ⟨?_, ?_, ?_⟩, ⟨?_, ?_⟩, ?_, ?_, ?_⟩, hrun⟩
  · rw [State.raiseError_config]; exact h.sized
  · intro sp
    cases sp with
    | input => show (s.raiseError e).inMem.wf; rw [State.raiseError_inMem]; exact h.memory.wf .input
    | sink =>
      show (s.raiseError e).sinkMem.wf
      rw [State.raiseError_sinkMem]
      split
      · exact Memory.scramble_wf (h.memory.wf .sink) _ _
      · exact h.memory.wf .sink
    | pix =>
      show (s.raiseError e).pixMem.wf
      rw [State.raiseError_pixMem]
      split
      · exact h.memory.wf .pix
      · split
        · exact Memory.scramble_wf (h.memory.wf .pix) _ _
        · exact h.memory.wf .pix
  · intro sp
    cases sp with
    | input =>
      show Memory.below (s.raiseError e).inMem (s.raiseError e).config.inLimit
      rw [State.raiseError_inMem, State.raiseError_config]; exact h.memory.size .input
    | sink =>
      show Memory.below (s.raiseError e).sinkMem (s.raiseError e).config.sinkLimit
      rw [State.raiseError_sinkMem, State.raiseError_config]
      split
      · exact Memory.scramble_below (h.memory.size .sink) _ s.sinkWritten_le
      · exact h.memory.size .sink
    | pix =>
      show Memory.below (s.raiseError e).pixMem (s.raiseError e).config.pixLimit
      rw [State.raiseError_pixMem, State.raiseError_config]
      split
      · exact h.memory.size .pix
      · split
        · exact Memory.scramble_below (h.memory.size .pix) _ s.pixWritten_le
        · exact h.memory.size .pix
  · rw [hrun, if_pos rfl, herr]; exact e.code_range
  · rw [State.raiseError_last]; rcases h.last with h | h <;> [rw [h]; rw [h.1]] <;> decide
  · rw [hrun]; intro h; cases h
  · intro _; rw [State.raiseError_last]; rcases h.last with h | h <;> [rw [h]; rw [h.1]] <;> decide
  · rw [State.raiseError_sinkLen, State.raiseError_sinkCap]
    rcases h.last with hl | hl
    · rw [if_pos hl, if_pos hl]
    · rw [hl.1, if_neg (by decide), if_neg (by decide)]; exact hl.2.len
  · rw [State.raiseError_sinkCap, State.raiseError_config]
    rcases h.last with hl | hl
    · rw [if_pos hl]; exact Nat.zero_le _
    · rw [hl.1, if_neg (by decide)]; exact hl.2.cap
  · rw [State.raiseError_sinkCap]
    rcases h.last with hl | hl
    · rw [if_pos hl]; exact .inl rfl
    · rw [hl.1, if_neg (by decide)]; exact hl.2.legal
  · rw [State.raiseError_eng]; simp [Engine.free, freeList]
  · rw [State.raiseError_eng]; simp [Engine.free, freeList]
  · rw [State.raiseError_imgFormat]; exact h.format
  · rw [State.raiseError_pixLen, State.raiseError_config]
    split
    · exact h.pixLen
    · split
      · exact Nat.zero_le _
      · exact h.pixLen
  · rw [hrun, if_neg (by decide)]
    exact ⟨rfl, .inr (.inr ⟨rfl, rfl⟩)⟩

/-- A raised error leaves what R345 says. -/
theorem FailedWith.raiseError (e : Error) (s : State) : FailedWith e s (s.raiseError e) where
  phase := rfl
  status := ⟨rfl, rfl, State.raiseError_last e s⟩
  inflate h := by
    rw [State.raiseError_sinkLen, State.raiseError_sinkCap, State.raiseError_consumed, State.raiseError_pixMem,
      State.raiseError_pixLen]
    simp [h]
  recon h := by
    rw [State.raiseError_sinkLen, State.raiseError_sinkCap, State.raiseError_consumed, State.raiseError_sinkMem,
      State.raiseError_pixLen]
    simp [h]
  host := ⟨State.raiseError_inBase e s, State.raiseError_inSize e s, State.raiseError_imgWidth e s,
    State.raiseError_imgHeight e s, State.raiseError_imgFormat e s, State.raiseError_inMem e s⟩
  model := ⟨State.raiseError_config e s, State.raiseError_script e s, State.raiseError_readData e s,
    State.raiseError_result e s⟩

end Sys2Proof.Machine
end

