-- ==== Sys2Proof/Laws/Inflate.lean ====
section
/-! SUPPORT. Every instruction of an INFLATE, from a legal state: it ends in a next state, which is legal, in which no stream bit
has been given back and nothing outside an INFLATE's reach has changed. -/

namespace Sys2Proof.Machine

/-- What no instruction of an INFLATE changes (R28, R35, R72). -/
structure InflateFrame (s t : State) : Prop where
  config : t.config = s.config
  inBase : t.inBase = s.inBase
  inSize : t.inSize = s.inSize
  inMem : t.inMem = s.inMem
  pixMem : t.pixMem = s.pixMem
  pixLen : t.pixLen = s.pixLen
  imgWidth : t.imgWidth = s.imgWidth
  imgHeight : t.imgHeight = s.imgHeight
  imgFormat : t.imgFormat = s.imgFormat
  last : t.last = s.last
  script : t.script = s.script
  readData : t.readData = s.readData
  result : t.result = s.result

theorem InflateFrame.refl (s : State) : InflateFrame s s := ⟨rfl, rfl, rfl, rfl, rfl, rfl, rfl, rfl, rfl, rfl, rfl, rfl, rfl⟩

theorem InflateFrame.trans {s t u : State} (h : InflateFrame s t) (k : InflateFrame t u) : InflateFrame s u :=
  ⟨k.config.trans h.config, k.inBase.trans h.inBase, k.inSize.trans h.inSize, k.inMem.trans h.inMem,
    k.pixMem.trans h.pixMem, k.pixLen.trans h.pixLen, k.imgWidth.trans h.imgWidth, k.imgHeight.trans h.imgHeight,
    k.imgFormat.trans h.imgFormat, k.last.trans h.last, k.script.trans h.script, k.readData.trans h.readData,
    k.result.trans h.result⟩

theorem InflateFrame.withBr {s t : State} (h : InflateFrame s t) (b : BitReader) : InflateFrame s (t.withBr b) :=
  h.trans ⟨rfl, rfl, rfl, rfl, rfl, rfl, rfl, rfl, rfl, rfl, rfl, rfl, rfl⟩

theorem InflateFrame.withBlk {s t : State} (h : InflateFrame s t) (b : BlockRegs) : InflateFrame s (t.withBlk b) :=
  h.trans ⟨rfl, rfl, rfl, rfl, rfl, rfl, rfl, rfl, rfl, rfl, rfl, rfl, rfl⟩

theorem InflateFrame.withSto {s t : State} (h : InflateFrame s t) (r : StoredRegs) : InflateFrame s (t.withSto r) :=
  h.trans ⟨rfl, rfl, rfl, rfl, rfl, rfl, rfl, rfl, rfl, rfl, rfl, rfl, rfl⟩

theorem InflateFrame.withSink {s t : State} (h : InflateFrame s t) (m : Memory) (l c : Nat) :
    InflateFrame s (t.withSink m l c) :=
  h.trans ⟨rfl, rfl, rfl, rfl, rfl, rfl, rfl, rfl, rfl, rfl, rfl, rfl, rfl⟩

theorem InflateFrame.goTo {s t : State} (h : InflateFrame s t) (p : Phase) (e : Selector) : InflateFrame s (t.goTo p e) :=
  h.trans ⟨rfl, rfl, rfl, rfl, rfl, rfl, rfl, rfl, rfl, rfl, rfl, rfl, rfl⟩

/-- An error raised in a state that an INFLATE has reached from `s` without leaving its frame. -/
theorem InflateFrame.failedWith {s t : State} (h : InflateFrame s t) (hl : s.last = 1) (e : Error) :
    FailedWith e s (t.raiseError e) := by
  have f := FailedWith.raiseError e t
  have hi := f.inflate (h.last.trans hl)
  refine ⟨f.phase, ⟨f.status.1, f.status.2.1, f.status.2.2.trans h.last⟩,
    fun _ => ⟨hi.1, hi.2.1, hi.2.2.1, hi.2.2.2.1.trans h.pixMem, hi.2.2.2.2.trans h.pixLen⟩,
    fun h2 => absurd (hl.symm.trans h2) (by decide), ?_, ?_⟩
  · exact ⟨f.host.1.trans h.inBase, f.host.2.1.trans h.inSize, f.host.2.2.1.trans h.imgWidth,
      f.host.2.2.2.1.trans h.imgHeight, f.host.2.2.2.2.1.trans h.imgFormat, f.host.2.2.2.2.2.trans h.inMem⟩
  · exact ⟨f.model.1.trans h.config, f.model.2.1.trans h.script, f.model.2.2.1.trans h.readData,
      f.model.2.2.2.trans h.result⟩

/-- The sink has only been appended to (R29, R80). -/
structure Grows (s t : State) : Prop where
  len : s.sinkLen.toNat ≤ t.sinkLen.toNat
  cap : s.sinkCap.toNat ≤ t.sinkCap.toNat
  bytes : ∀ a, a < s.sinkLen.toNat → t.sinkMem.read a = s.sinkMem.read a

theorem Grows.refl (s : State) : Grows s s := ⟨Nat.le_refl _, Nat.le_refl _, fun _ _ => rfl⟩

theorem Grows.trans {s t u : State} (h : Grows s t) (k : Grows t u) : Grows s u :=
  ⟨Nat.le_trans h.len k.len, Nat.le_trans h.cap k.cap,
    fun a ha => (k.bytes a (Nat.lt_of_lt_of_le ha h.len)).trans (h.bytes a ha)⟩

/-- Bytes stored from the sink's end up. -/
theorem Grows.load {s : State} (hw : s.sinkMem.wf) (bs : List Byte) {l c : Nat} (hl : s.sinkLen.toNat ≤ l) (hl' : l < 2 ^ 32)
    (hc : s.sinkCap.toNat ≤ c) (hc' : c < 2 ^ 32) : Grows s (s.withSink (s.sinkMem.load s.sinkLen.toNat bs) l c) := by
  refine ⟨?_, ?_, fun a ha => ?_⟩
  · rw [State.withSink_sinkLen, BitVec.toNat_ofNat, Nat.mod_eq_of_lt hl']; exact hl
  · rw [State.withSink_sinkCap, BitVec.toNat_ofNat, Nat.mod_eq_of_lt hc']; exact hc
  · rw [State.withSink_sinkMem, Memory.read_load hw, if_neg (by omega)]

/-- An INFLATE in the middle of an instruction that began in `s`. -/
structure Mid (s t : State) : Prop where
  running : Running t
  last : t.last = 1
  reader : ReaderOk t
  bits : s.bitPos ≤ t.bitPos
  grows : Grows s t
  frame : InflateFrame s t

/-- An INFLATE that may fail, in an instruction that began in `s`. -/
structure MidFail (s t : State) : Prop where
  raisable : Raisable t
  last : t.last = 1
  frame : InflateFrame s t

/-- How an instruction of an INFLATE that began in `s` may leave the machine. -/
structure InflateNext (s t : State) : Prop where
  inv : Inv t
  frame : InflateFrame s t
  going : t.runState = .busy → t.last = 1 ∧ t.bitsLeft ≤ s.bitsLeft
  failed : t.runState = .error → ∃ e, FailedWith e s t
  kept : t.runState ≠ .error → Grows s t ∧ s.bitPos ≤ t.bitPos ∧ ReaderOk t
  done : t.runState = .done → t.phase = .done ∧ t.err = 0 ∧ t.consumed = t.eng.br.pos ∧ t.eng.bfinal = 1

theorem Mid.refl {s : State} (h : Inv s) (hb : s.runState = .busy) (hi : InflateOk s) : Mid s s :=
  ⟨h.running_of_busy hb, hi.last, hi.reader, Nat.le_refl _, .refl s, .refl s⟩

theorem Mid.fail {s t : State} (h : Mid s t) : MidFail s t := ⟨h.running.raisable, h.last, h.frame⟩

theorem MidFail.withBr {s t : State} (h : MidFail s t) (b : BitReader) : MidFail s (t.withBr b) :=
  ⟨h.raisable.withBr b, h.last, h.frame.trans ⟨rfl, rfl, rfl, rfl, rfl, rfl, rfl, rfl, rfl, rfl, rfl, rfl, rfl⟩⟩

theorem MidFail.withBlk {s t : State} (h : MidFail s t) (b : BlockRegs) : MidFail s (t.withBlk b) :=
  ⟨h.raisable.withBlk b, h.last, h.frame.trans ⟨rfl, rfl, rfl, rfl, rfl, rfl, rfl, rfl, rfl, rfl, rfl, rfl, rfl⟩⟩

theorem MidFail.withSto {s t : State} (h : MidFail s t) (b : StoredRegs) : MidFail s (t.withSto b) :=
  ⟨h.raisable.withSto b, h.last, h.frame.trans ⟨rfl, rfl, rfl, rfl, rfl, rfl, rfl, rfl, rfl, rfl, rfl, rfl, rfl⟩⟩

/-- Changing internal registers other than the Bit Reader's. -/
theorem Mid.withEng {s t : State} (h : Mid s t) (e : Engine) (hb : e.br = t.eng.br) (h1 : e.hdr.cll.length = 19)
    (h2 : e.hdr.lens.length = 320) : Mid s (t.withEng e) :=
  ⟨h.running.withEng e h1 h2, h.last, h.reader.congr hb rfl rfl rfl rfl,
    by rw [State.bitPos_congr (t := t.withEng e) (s := t) hb]; exact h.bits,
    ⟨h.grows.len, h.grows.cap, h.grows.bytes⟩, h.frame.trans ⟨rfl, rfl, rfl, rfl, rfl, rfl, rfl, rfl, rfl, rfl, rfl, rfl, rfl⟩⟩

theorem Mid.withBlk {s t : State} (h : Mid s t) (b : BlockRegs) : Mid s (t.withBlk b) :=
  h.withEng _ rfl h.running.files.cll h.running.files.lens

theorem Mid.withSto {s t : State} (h : Mid s t) (r : StoredRegs) : Mid s (t.withSto r) :=
  h.withEng _ rfl h.running.files.cll h.running.files.lens

theorem Mid.withHdr {s t : State} (h : Mid s t) (r : HeaderRegs) (h1 : r.cll.length = 19) (h2 : r.lens.length = 320) :
    Mid s (t.withHdr r) :=
  h.withEng _ rfl h1 h2

theorem Mid.withHeaderFlags {s t : State} (h : Mid s t) (f b : Nat) : Mid s (t.withHeaderFlags f b) :=
  h.withEng _ rfl h.running.files.cll h.running.files.lens

theorem Mid.goTo {s t : State} (h : Mid s t) (p : Phase) (e : Selector) : Mid s (t.goTo p e) :=
  ⟨h.running.goTo p e, h.last, h.reader.congr rfl rfl rfl rfl rfl, h.bits, ⟨h.grows.len, h.grows.cap, h.grows.bytes⟩,
    h.frame.trans ⟨rfl, rfl, rfl, rfl, rfl, rfl, rfl, rfl, rfl, rfl, rfl, rfl, rfl⟩⟩

theorem Mid.buildLt {s t : State} (h : Mid s t) (l : List Nat) : Mid s (t.buildLt l) :=
  ⟨h.running.buildLt l, h.last, h.reader.congr rfl rfl rfl rfl rfl, h.bits, ⟨h.grows.len, h.grows.cap, h.grows.bytes⟩,
    h.frame.trans ⟨rfl, rfl, rfl, rfl, rfl, rfl, rfl, rfl, rfl, rfl, rfl, rfl, rfl⟩⟩

theorem Mid.buildDt {s t : State} (h : Mid s t) (l : List Nat) : Mid s (t.buildDt l) :=
  ⟨h.running.buildDt l, h.last, h.reader.congr rfl rfl rfl rfl rfl, h.bits, ⟨h.grows.len, h.grows.cap, h.grows.bytes⟩,
    h.frame.trans ⟨rfl, rfl, rfl, rfl, rfl, rfl, rfl, rfl, rfl, rfl, rfl, rfl, rfl⟩⟩

theorem Mid.buildCt {s t : State} (h : Mid s t) (l : List Nat) : Mid s (t.buildCt l) :=
  ⟨h.running.buildCt l, h.last, h.reader.congr rfl rfl rfl rfl rfl, h.bits, ⟨h.grows.len, h.grows.cap, h.grows.bytes⟩,
    h.frame.trans ⟨rfl, rfl, rfl, rfl, rfl, rfl, rfl, rfl, rfl, rfl, rfl, rfl, rfl⟩⟩

theorem Mid.withSink {s t : State} (h : Mid s t) {m : Memory} {l c : Nat} (hw : m.wf) (hb : m.below t.config.sinkLimit)
    (hl : l ≤ c) (hc : c ≤ t.config.sinkLimit) (hg : CapLegal c) (hgr : Grows t (t.withSink m l c)) :
    Mid s (t.withSink m l c) :=
  ⟨h.running.withSink hw hb hl hc hg, h.last, h.reader.congr rfl rfl rfl rfl rfl, h.bits, h.grows.trans hgr,
    h.frame.trans ⟨rfl, rfl, rfl, rfl, rfl, rfl, rfl, rfl, rfl, rfl, rfl, rfl, rfl⟩⟩

theorem Mid.fail_withSink {s t : State} (h : Mid s t) {m : Memory} (l c : Nat) (hw : m.wf)
    (hb : m.below t.config.sinkLimit) : MidFail s (t.withSink m l c) :=
  ⟨h.running.raisable_withSink h.last l c hw hb, h.last,
    h.frame.trans ⟨rfl, rfl, rfl, rfl, rfl, rfl, rfl, rfl, rfl, rfl, rfl, rfl, rfl⟩⟩

theorem Mid.bitsLeft {s t : State} (h : Mid s t) : t.bitsLeft ≤ s.bitsLeft := by
  have := h.bits
  unfold State.bitsLeft
  rw [h.frame.inSize]
  omega

/-- The reader moved on. -/
theorem Mid.withBr {s t : State} (h : Mid s t) {b : BitReader} (hr : ReaderOk (t.withBr b))
    (hp : t.bitPos ≤ (t.withBr b).bitPos) : Mid s (t.withBr b) :=
  ⟨h.running.withBr b, h.last, hr, Nat.le_trans h.bits hp,
    ⟨h.grows.len, h.grows.cap, h.grows.bytes⟩, h.frame.trans ⟨rfl, rfl, rfl, rfl, rfl, rfl, rfl, rfl, rfl, rfl, rfl, rfl, rfl⟩⟩

/-! ## Endings -/

/-- An error ends an INFLATE legally. -/
theorem MidFail.next {s t : State} (h : MidFail s t) (hl : s.last = 1) (e : Error) : InflateNext s (t.raiseError e) := by
  have hi := h.raisable.inv e
  have hs : (t.raiseError e).runState = .error := hi.2
  have hf := h.frame.failedWith hl e
  have h1 := hf.inflate hl
  refine ⟨hi.1, ⟨hf.model.1, hf.host.1, hf.host.2.1, hf.host.2.2.2.2.2, h1.2.2.2.1, h1.2.2.2.2, hf.host.2.2.1,
    hf.host.2.2.2.1, hf.host.2.2.2.2.1, hf.status.2.2, hf.model.2.1, hf.model.2.2.1, hf.model.2.2.2⟩, ?_, fun _ => ⟨e, hf⟩,
    fun h => absurd hs h, ?_⟩
  · intro hb; rw [hs] at hb; cases hb
  · intro hb; rw [hs] at hb; cases hb

/-- An instruction that leaves the command in one of its places. -/
theorem Mid.next {s t : State} (h : Mid s t)
    (hp : (t.phase = .header ∧ t.expect = .bh) ∨ (t.phase = .dynhdr ∧ t.expect = .cl ∧ HeaderOk t) ∨
      (t.phase = .symbols ∧ Built 288 t.eng.lt ∧ Built 32 t.eng.dt ∧
        (t.expect = .ll ∨ (t.expect = .ds ∧ 3 ≤ t.eng.blk.length.toNat ∧ t.eng.blk.length.toNat ≤ 258)))) :
    InflateNext s t :=
  ⟨h.running.inv (.inl ⟨h.last, h.reader, hp⟩), h.frame, fun _ => ⟨h.last, h.bitsLeft⟩,
    fun he => absurd (h.running.busy.symm.trans he) (by decide), fun _ => ⟨h.grows, h.bits, h.reader⟩,
    fun he => absurd (h.running.busy.symm.trans he) (by decide)⟩

/-- The end of a block (R181). -/
theorem Mid.endBlock {s t : State} (h : Mid s t) : InflateNext s t.endBlock := by
  unfold State.endBlock
  split
  · rename_i hfin
    have hr := h.running
    refine ⟨⟨hr.sized, ⟨hr.memory.wf, hr.memory.size⟩, ⟨?_, ?_, ?_, ?_⟩, ⟨hr.sink.len, hr.sink.cap, hr.sink.legal⟩,
      ⟨hr.files.cll, hr.files.lens⟩, hr.format, hr.pixLen, ?_⟩,
      h.frame.trans ⟨rfl, rfl, rfl, rfl, rfl, rfl, rfl, rfl, rfl, rfl, rfl, rfl, rfl⟩, ?_, ?_,
      fun _ => ⟨⟨h.grows.len, h.grows.cap, h.grows.bytes⟩, h.bits, h.reader.congr rfl rfl rfl rfl rfl⟩,
      fun _ => ⟨rfl, hr.err, rfl, hfin⟩⟩
    · exact hr.err
    · show t.last.toNat ≤ 2; rw [h.last]; decide
    · intro h; cases h
    · intro _; show t.last ≠ 0; rw [h.last]; decide
    · exact ⟨rfl, .inr (.inl ⟨rfl, rfl⟩)⟩
    · intro h; cases h
    · intro h; cases h
  · exact (h.goTo .header .bh).next (.inl ⟨rfl, rfl⟩)

/-- An instruction that consists of operations. -/
theorem Res.Sat.inflate {s : State} (hl : s.last = 1) {r : Res Unit}
    (h : r.Sat (fun _ t => InflateNext s t) fun _ t => MidFail s t) : ∃ t, r.finish = .next t ∧ InflateNext s t :=
  Res.Sat.finish (h.mono (fun _ _ h => h) fun e _ h => h.next hl e)

/-! ## Operations -/

theorem Mid.readBits {s t : State} (h : Mid s t) {n : Nat} (hn : n ≤ 25) :
    (readBits n t).Sat (fun v u => v < 2 ^ n ∧ n ≤ t.bitsLeft ∧ u.bitPos = t.bitPos + n ∧ ∃ b, u = t.withBr b ∧ Mid s u)
      fun _ u => MidFail s u := by
  by_cases hl : n ≤ t.bitsLeft
  · obtain ⟨b, he, hr, hp⟩ := readBits_ok h.reader hn hl
    rw [he]
    exact ⟨t.streamField_lt _ _, hl, hp, b, rfl, h.withBr hr (by omega)⟩
  · obtain ⟨b, he⟩ := readBits_truncated h.reader hn (by omega)
    rw [he]
    exact h.fail.withBr b

theorem Mid.readByteAligned {s t : State} (h : Mid s t) :
    (readByteAligned t).Sat (fun _ u => ∃ b, u = t.withBr b ∧ Mid s u) fun _ u => MidFail s u := by
  by_cases hl : t.eng.br.pos.toNat < t.inSize.toNat
  · obtain ⟨b, he, -, -, -, hr, hp⟩ := readByteAligned_ok h.reader hl
    rw [he]
    refine ⟨b, rfl, h.withBr hr ?_⟩
    rw [hp]
    unfold State.bitPos
    omega
  · rw [readByteAligned_truncated (by omega)]
    exact h.fail.withBr _

theorem Mid.readPairAligned {s t : State} (h : Mid s t) :
    (readPairAligned t).Sat (fun _ u => ∃ b, u = t.withBr b ∧ Mid s u) fun _ u => MidFail s u := by
  refine Res.Sat.bind h.readByteAligned ?_
  rintro lo u ⟨b, rfl, hu⟩
  refine Res.Sat.bind hu.readByteAligned ?_
  rintro hi v ⟨b', rfl, hv⟩
  exact ⟨b', rfl, hv⟩

theorem Mid.push {s t : State} (h : Mid s t) (v : Byte) :
    (push v t).Sat (fun _ u => u = t.pushed v ∧ Mid s u) fun _ u => MidFail s u := by
  rw [push_spec h.running.pushable]
  split
  · rename_i hc
    have hn := t.capAfter_need 1
    refine ⟨rfl, h.withSink (Memory.write_wf (h.running.memory.wf .sink) _ _)
      (Memory.write_below (h.running.memory.size .sink) (by show _ < t.config.sinkLimit; omega) _) hn hc ?_ ?_⟩
    · exact h.running.sink.legal.capFor _ _
    · have := h.running.sized.2.2.1
      exact .load (h.running.memory.wf .sink) [v] (by omega) (by omega) capFor_ge (by omega)
  · exact h.fail

theorem Mid.copyBack {s t : State} (h : Mid s t) (n : Nat) (hd : 1 ≤ t.eng.blk.dist.toNat)
    (hl : t.eng.blk.dist.toNat ≤ t.sinkLen.toNat) :
    (copyBack n t).Sat (fun _ u => u = t.copied t.eng.blk.dist.toNat n ∧ Mid s u) fun _ u => MidFail s u := by
  have hw := h.running.memory.wf .sink
  have hb := h.running.memory.size .sink
  have := copyBack_spec n t h.running.pushable hw hd hl
  have hn := t.capAfter_need n
  split at this
  · rename_i hc
    rw [this]
    refine ⟨rfl, (h.withSink (Memory.load_wf hw _ _) (Memory.load_below hb _ ?_) hn hc ?_ ?_).withBlk _⟩
    · rw [State.periodic_length]; show _ ≤ t.config.sinkLimit; omega
    · exact h.running.sink.legal.capFor _ _
    · have := h.running.sized.2.2.1
      exact .load hw _ (by omega) (by omega) capFor_ge (by omega)
  · obtain ⟨m, l, c, b, he, hb', hw'⟩ := this
    rw [he]
    exact (h.fail_withSink l c hw' (hb' hb)).withBlk b

theorem Mid.copyStored {s t : State} (h : Mid s t) (n : Nat) :
    (copyStored n t).Sat (fun _ u => Mid s u) fun _ u => MidFail s u := by
  have hw := h.running.memory.wf .sink
  have hb := h.running.memory.size .sink
  obtain ⟨b, hr, hp, this⟩ := copyStored_spec n t h.running.pushable h.reader hw
  have hn := t.capAfter_need n
  split at this
  · rename_i hc
    rw [this.1]
    have hm : Mid s (t.storedCopied n) := by
      refine (h.withSink (Memory.load_wf hw _ _) (Memory.load_below hb _ ?_) hn hc.2 ?_ ?_).withSto _
      · rw [State.sliceBytes_length]; show _ ≤ t.config.sinkLimit; omega
      · exact h.running.sink.legal.capFor _ _
      · have := h.running.sized.2.2.1
        exact .load hw _ (by omega) (by omega) capFor_ge (by omega)
    exact hm.withBr (hr.congr rfl rfl rfl rfl rfl) hp
  · obtain ⟨e, m, l, c, r, he, hb', hw', -, -⟩ := this
    rw [he]
    exact ((h.fail_withSink l c hw' (hb' hb)).withSto r).withBr b

/-- `decode` on a built table (R168, R169). -/
theorem Mid.decodeSymbol {s t : State} (h : Mid s t) {cap : Nat} {T : Table} (hT : Built cap T) (hc : cap ≤ 512) :
    (decodeSymbol T t).Sat
      (fun sym u => sym < cap ∧ t.bitPos < u.bitPos ∧ 1 ≤ t.bitsLeft ∧ ∃ b, u = t.withBr b ∧ Mid s u)
      fun _ u => MidFail s u := by
  obtain ⟨lengths, d, hl, rfl⟩ := hT
  cases decodeSymbol_spec hl hc d h.reader with
  | symbol L sym b used pos le code shorter bits eq ok place =>
    rw [eq]
    have hs : sym < lengths.length := (List.getElem?_eq_some_iff.1 used).1
    exact ⟨Nat.lt_of_lt_of_le hs hl.1, by omega, by omega, b, rfl, h.withBr ok (by omega)⟩
  | truncated b bits none eq =>
    rw [eq]; exact h.fail.withBr b
  | invalid b bits none eq =>
    rw [eq]; exact h.fail.withBr b

/-! ## The instructions -/

theorem execStored_next {s : State} (h : Mid s s) : ∃ t, execStored s = .next t ∧ InflateNext s t := by
  refine Res.Sat.inflate h.last ?_
  refine Res.Sat.bind (P := fun _ u => Mid s u) ?_ fun _ u hu => hu.endBlock
  have h0 := h.goTo .stored .bh
  have h1 : Mid s (alignToByte (s.goTo .stored .bh)) := h0.withBr (alignToByte_ok h0.reader).1 (alignToByte_ok h0.reader).2.2
  refine Res.Sat.bind h1.readPairAligned ?_
  rintro len u ⟨b, -, hu⟩
  refine Res.Sat.bind (hu.withSto _).readPairAligned ?_
  rintro nlen v ⟨b', -, hv⟩
  show Res.Sat (if _ then _ else _) _ _
  split
  · exact (hv.withSto _).fail
  · exact ((hv.withSto _).withSto _).copyStored _

theorem lengthsOk_fixedLitLen : LengthsOk 288 fixedLitLen := by decide +kernel
theorem lengthsOk_fixedDistLen : LengthsOk 32 fixedDistLen := by decide +kernel

theorem execFixed_next {s : State} (h : Mid s s) : ∃ t, execFixed s = .next t ∧ InflateNext s t := by
  refine ⟨_, rfl, (((h.buildLt fixedLitLen).buildDt fixedDistLen).goTo .symbols .ll).next (.inr (.inr ⟨rfl, ?_, ?_, .inl rfl⟩))⟩
  · exact ⟨_, _, lengthsOk_fixedLitLen, rfl⟩
  · exact ⟨_, _, lengthsOk_fixedDistLen, rfl⟩

theorem lengthsOk_map {w : Nat} (hw : w ≤ 4) (cap : Nat) (l : List (BitVec w)) (h : l.length ≤ cap) :
    LengthsOk cap (l.map BitVec.toNat) := by
  refine ⟨by simpa using h, fun x hx => ?_⟩
  obtain ⟨b, -, rfl⟩ := List.mem_map.1 hx
  have := b.isLt
  have : 2 ^ w ≤ 2 ^ 4 := Nat.pow_le_pow_right (by decide) hw
  omega

theorem Mid.readCodeLengthLengths {s : State} (ps : List Nat) {t : State} (h : Mid s t) :
    (readCodeLengthLengths ps t).Sat (fun _ u => Mid s u ∧ u.eng.hdr.hlit = t.eng.hdr.hlit ∧
      u.eng.hdr.hdist = t.eng.hdr.hdist ∧ u.phase = t.phase ∧ u.expect = t.expect) fun _ u => MidFail s u := by
  induction ps generalizing t with
  | nil => exact ⟨h, rfl, rfl, rfl, rfl⟩
  | cons p ps ih =>
    refine Res.Sat.bind (h.readBits (n := 3) (by omega)) ?_
    rintro v u ⟨-, -, -, b, rfl, hu⟩
    refine (ih (hu.withHdr _ ?_ ?_)).mono (fun _ _ h => h) fun _ _ h => h
    · simpa using h.running.files.cll
    · exact h.running.files.lens

theorem execDynamic_next {s : State} (h : Mid s s) : ∃ t, execDynamic s = .next t ∧ InflateNext s t := by
  refine Res.Sat.inflate h.last ?_
  have h0 := h.goTo .dynhdr .cl
  refine Res.Sat.bind (h0.readBits (n := 5) (by omega)) ?_
  rintro v1 u1 ⟨hv1, -, -, b1, rfl, h1⟩
  refine Res.Sat.bind (Mid.readBits (h1.withHdr _ ?_ ?_) (n := 5) (by omega)) ?_
  · exact h1.running.files.cll
  · exact h1.running.files.lens
  rintro v2 u2 ⟨hv2, -, -, b2, rfl, h2⟩
  refine Res.Sat.bind (Mid.readBits (h2.withHdr _ ?_ ?_) (n := 4) (by omega)) ?_
  · exact h2.running.files.cll
  · exact h2.running.files.lens
  rintro v3 u3 ⟨hv3, -, -, b3, rfl, h3⟩
  refine Res.Sat.bind (Mid.readCodeLengthLengths _ (h3.withHdr _ ?_ ?_)) ?_
  · simp
  · exact h3.running.files.lens
  rintro - u ⟨hu, hlit, hdist, hph, hex⟩
  have hlit : u.eng.hdr.hlit = BitVec.ofNat 9 (v1 + 257) := hlit
  have hdist : u.eng.hdr.hdist = BitVec.ofNat 6 (v2 + 1) := hdist
  have n1 : (BitVec.ofNat 9 (v1 + 257)).toNat = v1 + 257 := by simp; omega
  have n2 : (BitVec.ofNat 6 (v2 + 1)).toNat = v2 + 1 := by simp; omega
  have hc := hu.buildCt (u.eng.hdr.cll.map BitVec.toNat)
  refine Mid.next (hc.withHdr _ ?_ ?_) (.inr (.inl ⟨hph, hex, ?_⟩))
  · exact hc.running.files.cll
  · exact hc.running.files.lens
  refine ⟨⟨_, _, lengthsOk_map (by omega) 19 _ (by rw [hu.running.files.cll]), rfl⟩, ?_, ?_, ?_⟩
  · show 257 ≤ u.eng.hdr.hlit.toNat ∧ _
    rw [hlit, n1]; show _ ∧ u.eng.hdr.hlit.toNat ≤ 288; rw [hlit, n1]; omega
  · show 1 ≤ u.eng.hdr.hdist.toNat ∧ u.eng.hdr.hdist.toNat ≤ 32
    rw [hdist, n2]; omega
  · show 0 < u.eng.hdr.hlit.toNat + u.eng.hdr.hdist.toNat
    rw [hlit, n1]; omega

theorem raise_next {s : State} (h : Mid s s) (e : Error) :
    ∃ t, (Host.Outcome.next (s.raiseError e) : Host.Outcome State Fault Refusal) = .next t ∧ InflateNext s t :=
  ⟨_, rfl, h.fail.next h.last e⟩

/-- A run of code lengths within the declared number (R208): the header goes on, or the symbols begin. -/
theorem Mid.continueHeader {s t : State} (h : Mid s t) (hct : Built 19 t.eng.ct)
    (hl : 257 ≤ t.eng.hdr.hlit.toNat ∧ t.eng.hdr.hlit.toNat ≤ 288)
    (hd : 1 ≤ t.eng.hdr.hdist.toNat ∧ t.eng.hdr.hdist.toNat ≤ 32) : InflateNext s t.continueHeader := by
  unfold State.continueHeader
  split
  · rename_i hlt
    exact (h.goTo .dynhdr .cl).next (.inr (.inl ⟨rfl, rfl, hct, hl, hd, hlt⟩))
  · refine (((h.buildLt _).buildDt _).goTo .symbols .ll).next (.inr (.inr ⟨rfl, ?_, ?_, .inl rfl⟩))
    · exact ⟨_, _, lengthsOk_map (by omega) 288 _ (by simp; omega), rfl⟩
    · exact ⟨_, _, lengthsOk_map (by omega) 32 _ (by simp; omega), rfl⟩

theorem Mid.fillLens {s t : State} (h : Mid s t) (hct : Built 19 t.eng.ct)
    (hl : 257 ≤ t.eng.hdr.hlit.toNat ∧ t.eng.hdr.hlit.toNat ≤ 288)
    (hd : 1 ≤ t.eng.hdr.hdist.toNat ∧ t.eng.hdr.hdist.toNat ≤ 32) (rep : Nat) (l : BitVec 4)
    (hn : t.eng.hdr.nl.toNat + rep ≤ t.lengthsWanted) :
    ((fillLens rep l t).bind fun _ u => .ok () u.continueHeader).Sat (fun _ u => InflateNext s u)
      fun _ u => MidFail s u := by
  have hw : t.lengthsWanted ≤ 320 := by unfold State.lengthsWanted; omega
  unfold Machine.fillLens
  rw [if_pos (by omega)]
  refine Mid.continueHeader (h.withHdr _ h.running.files.cll ?_) hct hl hd
  simp [h.running.files.lens]
  omega

theorem Mid.checkedRun {s t : State} (h : Mid s t) (hct : Built 19 t.eng.ct)
    (hl : 257 ≤ t.eng.hdr.hlit.toNat ∧ t.eng.hdr.hlit.toNat ≤ 288)
    (hd : 1 ≤ t.eng.hdr.hdist.toNat ∧ t.eng.hdr.hdist.toNat ≤ 32) (rep : Nat) (l : BitVec 4) :
    (checkedRun rep l t).Sat (fun _ u => InflateNext s u) fun _ u => MidFail s u := by
  unfold Machine.checkedRun
  split
  · exact h.fail
  · exact h.fillLens hct hl hd rep l (by omega)

theorem Mid.readRepeat {s t : State} (h : Mid s t) (base : Nat) {extra : Nat} (hn : extra ≤ 25) :
    (readRepeat base extra t).Sat (fun _ u => ∃ b, u = t.withBr b ∧ Mid s u) fun _ u => MidFail s u := by
  refine Res.Sat.bind (h.readBits hn) ?_
  rintro v u ⟨-, -, -, b, rfl, hu⟩
  exact ⟨b, rfl, hu⟩

theorem execClLen_next {s : State} (h : Mid s s) (hh : HeaderOk s) (l : BitVec 4) :
    ∃ t, execClLen l s = .next t ∧ InflateNext s t :=
  Res.Sat.inflate h.last (h.fillLens hh.ct hh.hlit hh.hdist 1 l (by have := hh.nl; omega))

theorem execClRep_next {s : State} (h : Mid s s) (hh : HeaderOk s) : ∃ t, execClRep s = .next t ∧ InflateNext s t := by
  refine Res.Sat.inflate h.last ?_
  split
  · exact h.fail
  · have hlt : s.eng.hdr.nl.toNat - 1 < s.eng.hdr.lens.length := by
      have := hh.nl
      have h1 := hh.hlit
      have h2 := hh.hdist
      unfold State.lengthsWanted at this
      rw [h.running.files.lens]
      omega
    rw [List.getElem?_eq_getElem hlt]
    refine Res.Sat.bind (h.readRepeat 3 (by omega)) ?_
    rintro rep u ⟨b, rfl, hu⟩
    exact hu.checkedRun hh.ct hh.hlit hh.hdist _ _

theorem execClZero3_next {s : State} (h : Mid s s) (hh : HeaderOk s) : ∃ t, execClZero3 s = .next t ∧ InflateNext s t := by
  refine Res.Sat.inflate h.last (Res.Sat.bind (h.readRepeat 3 (by omega)) ?_)
  rintro rep u ⟨b, rfl, hu⟩
  exact hu.checkedRun hh.ct hh.hlit hh.hdist _ _

theorem execClZero11_next {s : State} (h : Mid s s) (hh : HeaderOk s) :
    ∃ t, execClZero11 s = .next t ∧ InflateNext s t := by
  refine Res.Sat.inflate h.last (Res.Sat.bind (h.readRepeat 11 (by omega)) ?_)
  rintro rep u ⟨b, rfl, hu⟩
  exact hu.checkedRun hh.ct hh.hlit hh.hdist _ _

theorem execLit_next {s : State} (h : Mid s s) (hlt : Built 288 s.eng.lt) (hdt : Built 32 s.eng.dt) (b : Byte) :
    ∃ t, execLit b s = .next t ∧ InflateNext s t := by
  refine Res.Sat.inflate h.last (Res.Sat.bind (h.push b) ?_)
  rintro - u ⟨rfl, hu⟩
  exact (hu.goTo .symbols .ll).next (.inr (.inr ⟨rfl, hlt, hdt, .inl rfl⟩))

theorem execEob_next {s : State} (h : Mid s s) : ∃ t, execEob s = .next t ∧ InflateNext s t := ⟨_, rfl, h.endBlock⟩

theorem lengthSymbol_next {s : State} (h : Mid s s) (hlt : Built 288 s.eng.lt) (hdt : Built 32 s.eng.dt)
    {sym base extra : Nat} (he : extra ≤ 25) (h1 : 3 ≤ base) (h2 : base + 2 ^ extra ≤ 259) :
    ∃ t, lengthSymbol sym base extra s = .next t ∧ InflateNext s t := by
  refine Res.Sat.inflate h.last ?_
  refine Res.Sat.bind (P := fun _ u => Mid s u ∧ u.eng.lt = s.eng.lt ∧ u.eng.dt = s.eng.dt ∧
    3 ≤ u.eng.blk.length.toNat ∧ u.eng.blk.length.toNat ≤ 258) (Res.Sat.bind (h.readBits he) ?_) ?_
  · rintro v u ⟨hv, -, -, b, rfl, hu⟩
    have hn : (BitVec.ofNat 9 (base + v)).toNat = base + v := by simp; omega
    refine ⟨hu.withBlk _, rfl, rfl, ?_, ?_⟩
    · show 3 ≤ (BitVec.ofNat 9 (base + v)).toNat; omega
    · show (BitVec.ofNat 9 (base + v)).toNat ≤ 258; omega
  · rintro - u ⟨hu, e1, e2, h3, h4⟩
    exact (hu.goTo .symbols .ds).next (.inr (.inr ⟨rfl, e1 ▸ hlt, e2 ▸ hdt, .inr ⟨rfl, h3, h4⟩⟩))

theorem Mid.backReference {s t : State} (h : Mid s t) (hlt : Built 288 t.eng.lt) (hdt : Built 32 t.eng.dt) :
    (backReference t).Sat (fun _ u => Mid s u ∧ Built 288 u.eng.lt ∧ Built 32 u.eng.dt) fun _ u => MidFail s u := by
  unfold Machine.backReference
  split
  · exact h.fail
  · refine ((h.withBlk _).copyBack _ ?_ ?_).mono ?_ fun _ _ h => h
    · show 1 ≤ t.eng.blk.dist.toNat; omega
    · show t.eng.blk.dist.toNat ≤ t.sinkLen.toNat; omega
    · rintro - u ⟨rfl, hu⟩
      exact ⟨hu, hlt, hdt⟩

theorem distanceSymbol_next {s : State} (h : Mid s s) (hlt : Built 288 s.eng.lt) (hdt : Built 32 s.eng.dt)
    {dsym base extra : Nat} (he : extra ≤ 25) : ∃ t, distanceSymbol dsym base extra s = .next t ∧ InflateNext s t := by
  refine Res.Sat.inflate h.last ?_
  refine Res.Sat.bind (P := fun _ u => Mid s u ∧ Built 288 u.eng.lt ∧ Built 32 u.eng.dt)
    (Res.Sat.bind ((h.withBlk _).readBits he) ?_) ?_
  · rintro v u ⟨-, -, -, b, rfl, hu⟩
    exact ⟨hu.withBlk _, hlt, hdt⟩
  · rintro - u ⟨hu, h1, h2⟩
    refine Res.Sat.bind (hu.backReference h1 h2) ?_
    rintro - v ⟨hv, h3, h4⟩
    exact (hv.goTo .symbols .ll).next (.inr (.inr ⟨rfl, h3, h4, .inl rfl⟩))

end Sys2Proof.Machine
end

