-- ==== Sys2Proof/Laws/Recon.lean ====
section
/-! SUPPORT. The row loop of a RECON, and every instruction of a RECON from a legal state: it ends in a next state, which is
legal and nearer to the end, and in which nothing outside a RECON's reach has changed. -/

namespace Sys2Proof.Machine

/-! ## Reconstructing a row -/

theorem neighbour_ok {inside : Bool} {row : List Byte} {X back : Nat} (h : inside = true → back ≤ X → X - back < row.length) :
    neighbour inside row X back = some (if inside = true ∧ back ≤ X then row.getD (X - back) 0 else 0) := by
  unfold neighbour
  by_cases h1 : inside = true ∧ back ≤ X
  · rw [if_pos (by simp [h1]), if_pos h1, List.getElem?_eq_getElem (h h1.1 h1.2), List.getD_eq_getElem]
  · rw [if_neg (by simpa using h1), if_neg h1]

/-- The byte loop of R263: every byte is what the rule says, from the bytes already reconstructed. -/
theorem rowBytes_spec (pred : Predictor) {s : State} (h : RowReady s) (n X : Nat) (row : List Byte) (hX : row.length = X)
    (hn : X + n = s.eng.rcn.stride.toNat) :
    ∃ out, rowBytes pred s n X row = .ok out s ∧ out.length = X + n ∧ out.take X = row ∧
      ∀ k, X ≤ k → k < X + n → out[k]? = some (s.rowByte pred out k) := by
  induction n generalizing X row with
  | zero => exact ⟨row, rfl, by omega, by simp [← hX], by omega⟩
  | succ n ih =>
    have hd := h.data
    have hb := h.bpp
    obtain ⟨v, hv⟩ : ∃ v, v = s.rowByte pred row X := ⟨_, rfl⟩
    have hstep : rowBytes pred s (n + 1) X row = rowBytes pred s n (X + 1) (row ++ [v]) := by
      rw [rowBytes, readByte_ok (sp := .sink) (show _ < s.config.sinkLimit by omega), Res.bind_ok,
        neighbour_ok (fun _ _ => by omega), neighbour_ok (fun hy _ => ?_), neighbour_ok (fun hy _ => ?_)]
      · simp only [hv, State.rowByte, State.mem]
        simp only [bne_iff_ne, ne_eq, true_and, Nat.zero_le, and_true, Nat.sub_zero]
      · have := h.prev (by simpa using hy); omega
      · have := h.prev (by simpa using hy); omega
    obtain ⟨out, he, hl, ht, hk⟩ := ih (X + 1) (row ++ [v]) (by simp [hX]) (by omega)
    have hget : ∀ j, j < X → out[j]? = row[j]? := by
      intro j hj
      have : (out.take (X + 1))[j]? = (row ++ [v])[j]? := by rw [ht]
      rw [List.getElem?_take_of_lt (by omega), List.getElem?_append_left (by omega)] at this
      exact this
    have hgx : out[X]? = some v := by
      have : (out.take (X + 1))[X]? = (row ++ [v])[X]? := by rw [ht]
      rw [List.getElem?_take_of_lt (by omega), List.getElem?_append_right (by omega)] at this
      simpa [hX] using this
    have hsame : s.rowByte pred out X = s.rowByte pred row X := by
      have : ∀ j, j < X → out.getD j 0 = row.getD j 0 := by
        intro j hj; simp only [List.getD, hget j hj]
      unfold State.rowByte
      by_cases hbX : s.eng.rcn.bpp.toNat ≤ X
      · rw [this (X - s.eng.rcn.bpp.toNat) (by omega)]
      · simp only [hbX, if_false]
    refine ⟨out, hstep.trans he, by omega, ?_, ?_⟩
    · have : (out.take (X + 1)).take X = (row ++ [v]).take X := by rw [ht]
      rw [List.take_take, Nat.min_eq_left (Nat.le_succ X), List.take_append_of_le_length (Nat.le_of_eq hX.symm),
        List.take_of_length_le (Nat.le_of_eq hX)] at this
      exact this
    · intro k h1 h2
      by_cases hkX : k = X
      · subst hkX; rw [hgx, hsame, hv]
      · exact hk k (by omega) (by omega)

/-! ## Formatting a row -/

/-- The four bytes of pixel `x` of the current row (R280). -/
def State.pixelBytes (s : State) (fmt : Formatter) (x : Nat) : List Byte :=
  match fmt ((s.eng.rcn.cur.drop (x * s.eng.rcn.bpp.toNat)).take s.eng.rcn.bpp.toNat) with
  | some (r, g, b, al) => [r, g, b, al]
  | none => []

/-- The formatter applies to every pixel of the current row. -/
def FormatOk (s : State) (fmt : Formatter) : Prop :=
  ∀ x, x < s.imgWidth.toNat → (fmt ((s.eng.rcn.cur.drop (x * s.eng.rcn.bpp.toNat)).take s.eng.rcn.bpp.toNat)).isSome

theorem pixelBytes_length {s : State} {fmt : Formatter} (h : FormatOk s fmt) {x : Nat} (hx : x < s.imgWidth.toNat) :
    (s.pixelBytes fmt x).length = 4 := by
  obtain ⟨p, hp⟩ := Option.isSome_iff_exists.1 (h x hx)
  simp [State.pixelBytes, hp]

/-- The loop of R280: the pixels' bytes, in order, from the row's place in `PIX` on. -/
theorem formatPixels_spec (fmt : Formatter) (n x : Nat) (s : State) (h : FormatOk s fmt) (hn : x + n = s.imgWidth.toNat)
    (hp : (s.eng.rcn.y.toNat * s.imgWidth.toNat + s.imgWidth.toNat) * 4 ≤ s.config.pixLimit) :
    formatPixels fmt n x s = .ok () (s.withMem .pix (s.pixMem.load ((s.eng.rcn.y.toNat * s.imgWidth.toNat + x) * 4)
      ((List.range n).flatMap fun i => s.pixelBytes fmt (x + i)))) := by
  induction n generalizing x s with
  | zero => rfl
  | succ n ih =>
    obtain ⟨⟨r, g, b, al⟩, hf⟩ := Option.isSome_iff_exists.1 (h x (by omega))
    have hpx : s.pixelBytes fmt x = [r, g, b, al] := by simp [State.pixelBytes, hf]
    obtain ⟨o, ho⟩ : ∃ o, o = (s.eng.rcn.y.toNat * s.imgWidth.toNat + x) * 4 := ⟨_, rfl⟩
    have hol : o + 4 ≤ s.config.pixLimit := by
      have : s.eng.rcn.y.toNat * s.imgWidth.toNat + x + 1 ≤ s.eng.rcn.y.toNat * s.imgWidth.toNat + s.imgWidth.toNat := by
        omega
      omega
    have hw : ∀ (m : Memory) (a : Nat) (v : Byte), a < s.config.pixLimit →
        writeByte .pix a v (s.withMem .pix m) = .ok () (s.withMem .pix (m.write a v)) := by
      intro m a v ha
      exact writeByte_ok (sp := .pix) (s := s.withMem .pix m) ha
    have hstep : formatPixels fmt (n + 1) x s = formatPixels fmt n (x + 1) (s.withMem .pix
        ((((s.pixMem.write o r).write (o + 1) g).write (o + 2) b).write (o + 3) al)) := by
      rw [formatPixels, hf]
      show (writeByte .pix ((s.eng.rcn.y.toNat * s.imgWidth.toNat + x) * 4) r (s.withMem .pix s.pixMem)).bind _ = _
      rw [← ho, hw _ _ _ (by omega), Res.bind_ok, hw _ _ _ (by omega), Res.bind_ok, hw _ _ _ (by omega), Res.bind_ok,
        hw _ _ _ (by omega), Res.bind_ok]
    have hih := ih (x + 1) (s.withMem .pix ((((s.pixMem.write o r).write (o + 1) g).write (o + 2) b).write (o + 3) al)) h
      (by show x + 1 + n = s.imgWidth.toNat; omega) hp
    rw [hstep, hih]
    congr 1
    rw [List.range_succ_eq_map, List.flatMap_cons, List.flatMap_map, show x + 0 = x from rfl, hpx]
    have hcong : ((List.range n).flatMap fun i => s.pixelBytes fmt (x + i.succ)) =
        (List.range n).flatMap fun i => s.pixelBytes fmt (x + 1 + i) := by
      congr 1
      funext i
      rw [show x + i.succ = x + 1 + i by omega]
    rw [hcong]
    show s.withMem .pix (Memory.load _ ((s.eng.rcn.y.toNat * s.imgWidth.toNat + (x + 1)) * 4) _) = s.withMem .pix _
    rw [show (s.eng.rcn.y.toNat * s.imgWidth.toNat + (x + 1)) * 4 = o + 1 + 1 + 1 + 1 by omega, ← ho]
    rfl

theorem flatMap_pixels_length {s : State} {fmt : Formatter} (h : FormatOk s fmt) (n : Nat) (hn : n ≤ s.imgWidth.toNat) :
    ((List.range n).flatMap fun i => s.pixelBytes fmt (0 + i)).length = 4 * n := by
  induction n with
  | zero => rfl
  | succ n ih =>
    rw [List.range_succ, List.flatMap_append, List.length_append, ih (by omega)]
    simp [pixelBytes_length h (show n < s.imgWidth.toNat by omega)]
    omega

/-! ## Legality -/

/-- What no instruction of a RECON changes (R72, R260). -/
structure ReconFrame (s t : State) : Prop where
  config : t.config = s.config
  inBase : t.inBase = s.inBase
  inSize : t.inSize = s.inSize
  inMem : t.inMem = s.inMem
  consumed : t.consumed = s.consumed
  sinkMem : t.sinkMem = s.sinkMem
  sinkLen : t.sinkLen = s.sinkLen
  sinkCap : t.sinkCap = s.sinkCap
  imgWidth : t.imgWidth = s.imgWidth
  imgHeight : t.imgHeight = s.imgHeight
  imgFormat : t.imgFormat = s.imgFormat
  last : t.last = s.last
  script : t.script = s.script
  readData : t.readData = s.readData
  result : t.result = s.result

/-- How an instruction of a RECON that began in `s` may leave the machine. -/
structure ReconNext (s t : State) : Prop where
  inv : Inv t
  frame : ReconFrame s t
  going : t.runState = .busy → t.last = 2 ∧ t.stepsLeft < s.stepsLeft
  failed : t.runState = .error → ∃ e, FailedWith e s t
  done : t.runState = .done → t.phase = .done ∧ t.err = 0 ∧
    t.pixLen.toNat = s.imgWidth.toNat * s.imgHeight.toNat * 4

/-- An error ends a RECON legally. -/
theorem ReconNext.raise {s : State} (h : Running s) (hl : s.last = 2) (e : Error) : ReconNext s (s.raiseError e) := by
  have hi := h.raisable.inv e
  have hf := FailedWith.raiseError e s
  have h1 := hf.recon hl
  refine ⟨hi.1, ⟨hf.model.1, hf.host.1, hf.host.2.1, hf.host.2.2.2.2.2, h1.2.2.2.2, h1.2.1, h1.2.2.1, h1.2.2.2.1,
    hf.host.2.2.1, hf.host.2.2.2.1, hf.host.2.2.2.2.1, hf.status.2.2, hf.model.2.1, hf.model.2.2.1, hf.model.2.2.2⟩, ?_,
    fun _ => ⟨e, hf⟩, fun hd => absurd (hi.2.symm.trans hd) (by decide)⟩
  intro hb
  have : (s.raiseError e).runState = .error := hi.2
  rw [this] at hb
  cases hb

/-- Once a RECON's rows have begun they do not change the number of bytes written for a failure, and failing forgets the registers
a check had written. -/
theorem State.raiseError_rcheck {s : State} (hp : s.phase = .rcheck) (e : Error) (r : ReconRegs) (h1 : r.prev = s.eng.rcn.prev)
    (h2 : r.cur = s.eng.rcn.cur) : (s.withRcn r).raiseError e = s.raiseError e := by
  have he : (s.withRcn r).eng.free s.draws = s.eng.free s.draws := by
    simp [Engine.free, Engine.freeTables, State.withRcn, h1, h2]
  have hpw : (s.withRcn r).pixWritten = s.pixWritten := by
    unfold State.pixWritten
    rw [State.withRcn_phase, hp]
  unfold State.raiseError
  rw [State.withRcn_last, State.withRcn_draws, he]
  split
  · rfl
  · split
    · unfold State.dropRecon; rw [hpw]; rfl
    · rfl

theorem stepsLeft_rcheck {s : State} (hl : s.last = 2) (hp : s.phase = .rcheck) :
    s.stepsLeft = 2 * s.imgHeight.toNat + (if s.expect = .depth then 3 else 2) := by
  unfold State.stepsLeft
  rw [hl, hp, if_neg (by decide), if_neg (by decide)]

theorem stepsLeft_rows {s : State} (hl : s.last = 2) (hp : s.phase = .rows) :
    s.stepsLeft = 2 * (s.imgHeight.toNat - s.eng.rcn.y.toNat) + (if s.expect = .sl then 1 else 0) := by
  unfold State.stepsLeft
  rw [hl, hp, if_neg (by decide), if_pos rfl]

theorem ReconNext.step {s t : State} (hf : ReconFrame s t) (hr : Running t) (ho : ReconOk t) (hs : t.stepsLeft < s.stepsLeft) :
    ReconNext s t :=
  ⟨hr.inv (.inr ho), hf, fun _ => ⟨ho.last, hs⟩, fun he => absurd (hr.busy.symm.trans he) (by decide),
    fun he => absurd (hr.busy.symm.trans he) (by decide)⟩

theorem execDepth8_next {s : State} (h : Running s) (hl : s.last = 2) (hp : s.phase = .rcheck) (he : s.expect = .depth)
    (hd : s.depth = 8) : ReconNext s (s.goTo .rcheck .ctype) := by
  refine .step ⟨rfl, rfl, rfl, rfl, rfl, rfl, rfl, rfl, rfl, rfl, rfl, rfl, rfl, rfl, rfl⟩ (h.goTo .rcheck .ctype)
    ⟨hl, .inr (.inl ⟨rfl, rfl, hd⟩)⟩ ?_
  rw [stepsLeft_rcheck hl hp, stepsLeft_rcheck (s := s.goTo .rcheck .ctype) hl rfl, he]
  show 2 * s.imgHeight.toNat + (if Selector.ctype = .depth then 3 else 2) < _
  simp

/-- The checks after the colour type's, over the registers they begin with (R261). -/
theorem checkImage_eq (bpp : Nat) (s : State) : checkImage bpp s =
    if s.imgWidth = 0 ∨ s.imgHeight = 0 then
      .raise .malformedPng (s.withRcn { s.eng.rcn with bpp := BitVec.ofNat 3 bpp })
    else if s.imgWidth.toNat * s.imgHeight.toNat * 4 > s.config.pixLimit then
      .raise .outOfMemory (s.withRcn { s.eng.rcn with bpp := BitVec.ofNat 3 bpp })
    else if s.sinkLen.toNat < s.imgHeight.toNat * (s.imgWidth.toNat * bpp + 1) then
      .raise .malformedPng (s.withRcn { s.eng.rcn with
        bpp := BitVec.ofNat 3 bpp, stride := BitVec.ofNat 34 (s.imgWidth.toNat * bpp) })
    else
      .ok () ((s.withRcn { s.eng.rcn with
        bpp := BitVec.ofNat 3 bpp, stride := BitVec.ofNat 34 (s.imgWidth.toNat * bpp), y := 0 }).goTo .rows .sl) := rfl

/-- The checks that follow the colour type's (R261). -/
theorem checkImage_next {s : State} (h : Running s) (hl : s.last = 2) (hp : s.phase = .rcheck) (he : s.expect = .ctype)
    (hd : s.depth = 8) {bpp : Nat} (hb : bppOf s.ctype = bpp) (hb1 : 1 ≤ bpp) (hb4 : bpp ≤ 4) :
    ∃ t, (checkImage bpp s).finish = .next t ∧ ReconNext s t := by
  have hraise : ∀ e (r : ReconRegs), r.prev = s.eng.rcn.prev → r.cur = s.eng.rcn.cur →
      ∃ t, (Res.raise e (s.withRcn r) : Res Unit).finish = .next t ∧ ReconNext s t := by
    intro e r h1 h2
    refine ⟨_, rfl, ?_⟩
    rw [State.raiseError_rcheck hp e r h1 h2]
    exact .raise h hl e
  have hct : s.ctype = 0 ∨ s.ctype = 2 ∨ s.ctype = 4 ∨ s.ctype = 6 := by
    unfold bppOf at hb
    repeat' split at hb
    all_goals first | omega | simp_all
  have hw := s.imgWidth.isLt
  have hmul : s.imgWidth.toNat * bpp < 2 ^ 34 := by
    calc s.imgWidth.toNat * bpp ≤ s.imgWidth.toNat * 4 := Nat.mul_le_mul_left _ hb4
      _ < 2 ^ 34 := by omega
  have hstride : (BitVec.ofNat 34 (s.imgWidth.toNat * bpp)).toNat = s.imgWidth.toNat * bpp := by
    rw [BitVec.toNat_ofNat, Nat.mod_eq_of_lt hmul]
  have hbpp : (BitVec.ofNat 3 bpp).toNat = bpp := by rw [BitVec.toNat_ofNat, Nat.mod_eq_of_lt (by omega)]
  rw [checkImage_eq]
  by_cases hz : s.imgWidth = 0 ∨ s.imgHeight = 0
  · rw [if_pos hz]
    exact hraise _ _ rfl rfl
  · rw [if_neg hz]
    by_cases hpix : s.imgWidth.toNat * s.imgHeight.toNat * 4 > s.config.pixLimit
    · rw [if_pos hpix]
      exact hraise _ _ rfl rfl
    · rw [if_neg hpix]
      by_cases hdata : s.sinkLen.toNat < s.imgHeight.toNat * (s.imgWidth.toNat * bpp + 1)
      · rw [if_pos hdata]
        exact hraise _ _ rfl rfl
      · rw [if_neg hdata]
        refine ⟨_, rfl, .step ⟨rfl, rfl, rfl, rfl, rfl, rfl, rfl, rfl, rfl, rfl, rfl, rfl, rfl, rfl, rfl⟩
          ((h.withRcn _).goTo .rows .sl) ⟨hl, .inr (.inr ⟨rfl, hd, ?_, .inl rfl⟩)⟩ ?_⟩
        · have hw1 : 1 ≤ s.imgWidth.toNat := by
            rcases Nat.eq_zero_or_pos s.imgWidth.toNat with h0 | h0
            · exact absurd (.inl (BitVec.eq_of_toNat_eq (by simpa using h0))) hz
            · exact h0
          have hh1 : 1 ≤ s.imgHeight.toNat := by
            rcases Nat.eq_zero_or_pos s.imgHeight.toNat with h0 | h0
            · exact absurd (.inr (BitVec.eq_of_toNat_eq (by simpa using h0))) hz
            · exact h0
          refine ⟨hct, ?_, ?_, ?_, hw1, ?_, ?_, ?_⟩
          · show (BitVec.ofNat 3 bpp).toNat = bppOf s.ctype; rw [hbpp, hb]
          · show (BitVec.ofNat 34 (s.imgWidth.toNat * bpp)).toNat = s.imgWidth.toNat * bppOf s.ctype; rw [hstride, hb]
          · show s.imgWidth.toNat * s.imgHeight.toNat * 4 ≤ s.config.pixLimit; omega
          · show s.imgHeight.toNat * ((BitVec.ofNat 34 (s.imgWidth.toNat * bpp)).toNat + 1) ≤ s.sinkLen.toNat
            rw [hstride]; omega
          · exact hh1
          · intro h0; exact absurd rfl h0
        · rw [stepsLeft_rcheck hl hp, he]
          refine Nat.lt_of_le_of_lt (Nat.le_of_eq (stepsLeft_rows ?_ rfl)) ?_
          · exact hl
          · show 2 * (s.imgHeight.toNat - 0) + 1 < _
            simp

/-- A filter's instruction (R263). -/
theorem filterRow_next {s : State} (h : Running s) (hl : s.last = 2) (hp : s.phase = .rows) (he : s.expect = .sl)
    (hd : s.depth = 8) (hr : RowsOk s) (ft : Byte) (pred : Predictor) :
    ∃ t, filterRow ft pred s = .next t ∧ ReconNext s t := by
  have hbpp : 1 ≤ bppOf s.ctype := by rcases hr.ctype with h | h | h | h <;> rw [h] <;> decide
  have hready : RowReady s := by
    refine ⟨by rw [hr.bpp]; exact hbpp, ?_, hr.prev⟩
    have h1 := hr.data
    have h2 := hr.y
    have h3 := h.sink.len
    have h4 := h.sink.cap
    have h5 : (s.eng.rcn.y.toNat + 1) * (s.eng.rcn.stride.toNat + 1) ≤ s.imgHeight.toNat * (s.eng.rcn.stride.toNat + 1) :=
      Nat.mul_le_mul_right _ h2
    rw [Nat.add_mul, Nat.one_mul] at h5
    unfold State.rowBase
    omega
  obtain ⟨row, hrow, hlen, -, -⟩ := rowBytes_spec pred hready s.eng.rcn.stride.toNat 0 [] rfl (by omega)
  refine ⟨(s.withRcn { s.eng.rcn with ft := ft, cur := row, x := s.lastByte }).goTo .rows .ctype, ?_, ?_⟩
  · unfold filterRow; rw [hrow]; rfl
  · refine .step ⟨rfl, rfl, rfl, rfl, rfl, rfl, rfl, rfl, rfl, rfl, rfl, rfl, rfl, rfl, rfl⟩
      ((h.withRcn _).goTo .rows .ctype) ⟨hl, .inr (.inr ⟨rfl, hd, ⟨hr.ctype, hr.bpp, hr.stride, hr.size, hr.width, hr.data,
        hr.y, hr.prev⟩, .inr ⟨rfl, ?_⟩⟩)⟩ ?_
    · show row.length = s.eng.rcn.stride.toNat; omega
    · rw [stepsLeft_rows hl hp, he]
      refine Nat.lt_of_le_of_lt (Nat.le_of_eq (stepsLeft_rows ?_ rfl)) ?_
      · exact hl
      · show 2 * (s.imgHeight.toNat - s.eng.rcn.y.toNat) + 0 < _
        simp

/-- The end of a row, over the registers it begins with (R260). -/
theorem endRow_eq (s : State) : s.endRow =
    if s.eng.rcn.y.toNat + 1 < s.imgHeight.toNat then
      (s.withRcn { s.eng.rcn with prev := s.eng.rcn.cur, y := s.eng.rcn.y + 1 }).goTo .rows .sl
    else (s.withRcn { s.eng.rcn with prev := s.eng.rcn.cur }).completeRecon := rfl

/-- The row formatter and the end of the row (R280, R260, R268). -/
theorem formatRow_next {s : State} (h : Running s) (hl : s.last = 2) (hp : s.phase = .rows) (he : s.expect = .ctype)
    (hd : s.depth = 8) (hr : RowsOk s) (hc : s.eng.rcn.cur.length = s.eng.rcn.stride.toNat) {fmt : Formatter}
    (hf : ∀ l : List Byte, l.length = bppOf s.ctype → (fmt l).isSome) :
    ∃ t, (formatRow fmt s).finish = .next t ∧ ReconNext s t := by
  have hy := hr.y
  have hsize := hr.size
  have hmul : s.eng.rcn.y.toNat * s.imgWidth.toNat + s.imgWidth.toNat ≤ s.imgWidth.toNat * s.imgHeight.toNat := by
    have : (s.eng.rcn.y.toNat + 1) * s.imgWidth.toNat ≤ s.imgHeight.toNat * s.imgWidth.toNat := Nat.mul_le_mul_right _ hy
    rw [Nat.add_mul, Nat.one_mul] at this
    rw [Nat.mul_comm s.imgWidth.toNat]
    exact this
  have hfo : FormatOk s fmt := by
    intro x hx
    apply hf
    rw [List.length_take, List.length_drop, hc, hr.stride, hr.bpp]
    have : (x + 1) * bppOf s.ctype ≤ s.imgWidth.toNat * bppOf s.ctype := Nat.mul_le_mul_right _ hx
    rw [Nat.add_mul, Nat.one_mul] at this
    omega
  have hpx := formatPixels_spec fmt s.imgWidth.toNat 0 s hfo (by omega) (by omega)
  obtain ⟨m, hm⟩ : ∃ m, m = s.pixMem.load ((s.eng.rcn.y.toNat * s.imgWidth.toNat + 0) * 4)
      ((List.range s.imgWidth.toNat).flatMap fun i => s.pixelBytes fmt (0 + i)) := ⟨_, rfl⟩
  have hmw : m.wf := by rw [hm]; exact Memory.load_wf (h.memory.wf .pix) _ _
  have hmb : m.below s.config.pixLimit := by
    rw [hm]
    refine Memory.load_below (h.memory.size .pix) _ ?_
    rw [flatMap_pixels_length hfo _ (Nat.le_refl _)]
    show _ ≤ s.config.pixLimit
    omega
  rw [← hm] at hpx
  have hmem := h.memory.withMem .pix hmw hmb
  have hrun : Running (s.withMem .pix m) := ⟨h.sized, ⟨hmem.wf, hmem.size⟩, h.busy, h.err, h.last,
    ⟨h.sink.len, h.sink.cap, h.sink.legal⟩, ⟨h.files.cll, h.files.lens⟩, h.format, h.pixLen⟩
  refine ⟨(s.withMem .pix m).endRow, by unfold formatRow; rw [hpx]; rfl, ?_⟩
  rw [endRow_eq]
  split
  · rename_i hlt
    have hlt : s.eng.rcn.y.toNat + 1 < s.imgHeight.toNat := hlt
    have hy1 : (s.eng.rcn.y + 1).toNat = s.eng.rcn.y.toNat + 1 := by
      have := s.imgHeight.isLt
      rw [BitVec.toNat_add]; simp; omega
    refine .step ⟨rfl, rfl, rfl, rfl, rfl, rfl, rfl, rfl, rfl, rfl, rfl, rfl, rfl, rfl, rfl⟩
      ((hrun.withRcn _).goTo .rows .sl) ⟨hl, .inr (.inr ⟨rfl, hd, ⟨hr.ctype, hr.bpp, hr.stride, hr.size, hr.width,
        hr.data, ?_, fun _ => hc⟩, .inl rfl⟩)⟩ ?_
    · show (s.eng.rcn.y + 1).toNat < s.imgHeight.toNat; omega
    · rw [stepsLeft_rows hl hp, he]
      refine Nat.lt_of_le_of_lt (Nat.le_of_eq (stepsLeft_rows ?_ rfl)) ?_
      · exact hl
      · show 2 * (s.imgHeight.toNat - (s.eng.rcn.y + 1).toNat) + 1 < _
        rw [hy1]
        simp
        omega
  · have hs2 := h.sized.2.2.2
    refine ⟨⟨h.sized, ⟨hmem.wf, hmem.size⟩, ⟨?_, ?_, ?_, ?_⟩, ⟨h.sink.len, h.sink.cap, h.sink.legal⟩,
      ⟨h.files.cll, h.files.lens⟩, h.format, ?_, ?_⟩,
      ⟨rfl, rfl, rfl, rfl, rfl, rfl, rfl, rfl, rfl, rfl, rfl, rfl, rfl, rfl, rfl⟩, ?_, ?_, fun _ => ⟨rfl, h.err, ?_⟩⟩
    · exact h.err
    · show s.last.toNat ≤ 2; rw [hl]; decide
    · intro h; cases h
    · intro _; show s.last ≠ 0; rw [hl]; decide
    · show (BitVec.ofNat 32 (s.imgWidth.toNat * s.imgHeight.toNat * 4)).toNat ≤ s.config.pixLimit
      rw [BitVec.toNat_ofNat]
      exact Nat.le_trans (Nat.mod_le _ _) hsize
    · exact ⟨rfl, .inr (.inl ⟨rfl, rfl⟩)⟩
    · intro h; cases h
    · intro h; cases h
    · show (BitVec.ofNat 32 (s.imgWidth.toNat * s.imgHeight.toNat * 4)).toNat = _
      rw [BitVec.toNat_ofNat, Nat.mod_eq_of_lt (by omega)]

end Sys2Proof.Machine
end

