-- ==== Sys2Proof/Laws/Fetch.lean ====
section
/-! SUPPORT. Fetching from a legal state: the selecting value lies in its space's range, at least one stream bit is consumed where the
value comes from the stream, and the command stays where it was. -/

namespace Sys2Proof.Machine

/-- A fetch of an INFLATE that began in `s` and ended in `t`: the same place, with fewer stream bits left. -/
structure Fetched (s t : State) : Prop where
  mid : Mid s t
  inflate : InflateOk t
  place : t.phase = s.phase ∧ t.expect = s.expect
  less : t.bitsLeft < s.bitsLeft

theorem bitsLeft_lt {s t : State} (hz : t.inSize = s.inSize) (hp : s.bitPos < t.bitPos) (hl : 1 ≤ s.bitsLeft) :
    t.bitsLeft < s.bitsLeft := by
  unfold State.bitsLeft at *
  rw [hz]
  omega

theorem fetchHeader_spec {s : State} (h : Mid s s) (hp : s.phase = .header) (he : s.expect = .bh) :
    (fetchHeader s).Sat (fun v t => v < 4 ∧ Fetched s t) fun _ t => MidFail s t := by
  refine Res.Sat.bind ((h.goTo .header .bh).readBits (n := 1) (by omega)) ?_
  rintro f u ⟨-, hl, hb, b, rfl, hu⟩
  refine Res.Sat.bind (hu.readBits (n := 2) (by omega)) ?_
  rintro t v ⟨ht, -, hb', b', rfl, hv⟩
  have hw := hv.withHeaderFlags f t
  refine ⟨ht, hw, ⟨hw.last, hw.reader, .inl ⟨rfl, rfl⟩⟩, ⟨hp.symm, he.symm⟩, bitsLeft_lt rfl ?_ hl⟩
  have h1 : (((s.goTo Phase.header Selector.bh).withBr b).withBr b').bitPos =
      ((s.goTo Phase.header Selector.bh).withBr b).bitPos + 2 := hb'
  have h2 : ((s.goTo Phase.header Selector.bh).withBr b).bitPos = s.bitPos + 1 := hb
  have h3 : (State.withHeaderFlags (((s.goTo Phase.header Selector.bh).withBr b).withBr b') f t).bitPos =
      (((s.goTo Phase.header Selector.bh).withBr b).withBr b').bitPos := rfl
  omega

/-- Fetching a code-length symbol (R202). -/
theorem fetchCodeLength_spec {s : State} (h : Mid s s) (hp : s.phase = .dynhdr) (he : s.expect = .cl) (hh : HeaderOk s) :
    (decodeSymbol s.eng.ct s).Sat (fun v t => v < 19 ∧ Fetched s t ∧ HeaderOk t) fun _ t => MidFail s t := by
  refine (h.decodeSymbol hh.ct (by omega)).mono ?_ fun _ _ h => h
  rintro v t ⟨hv, hb, hl, b, rfl, ht⟩
  have hh' : HeaderOk (s.withBr b) := ⟨hh.ct, hh.hlit, hh.hdist, hh.nl⟩
  exact ⟨hv, ⟨ht, ⟨ht.last, ht.reader, .inr (.inl ⟨hp, he, hh'⟩)⟩, ⟨rfl, rfl⟩, bitsLeft_lt rfl hb hl⟩, hh'⟩

/-- Fetching a literal/length symbol (R220). -/
theorem fetchLitLen_spec {s : State} (h : Mid s s) (hp : s.phase = .symbols) (he : s.expect = .ll)
    (hlt : Built 288 s.eng.lt) (hdt : Built 32 s.eng.dt) :
    (fetchLitLen s).Sat (fun v t => v < 288 ∧ Fetched s t ∧ Built 288 t.eng.lt ∧ Built 32 t.eng.dt)
      fun _ t => MidFail s t := by
  refine Res.Sat.bind (h.decodeSymbol hlt (by omega)) ?_
  rintro v t ⟨hv, hb, hl, b, rfl, ht⟩
  have hw := ht.withBlk { s.eng.blk with sym := BitVec.ofNat 9 v }
  exact ⟨hv, ⟨hw, ⟨hw.last, hw.reader, .inr (.inr ⟨hp, hlt, hdt, .inl he⟩)⟩, ⟨rfl, rfl⟩, bitsLeft_lt rfl hb hl⟩, hlt, hdt⟩

/-- Fetching a distance symbol (R225). -/
theorem fetchDistance_spec {s : State} (h : Mid s s) (hp : s.phase = .symbols) (he : s.expect = .ds)
    (hlt : Built 288 s.eng.lt) (hdt : Built 32 s.eng.dt)
    (hlen : 3 ≤ s.eng.blk.length.toNat ∧ s.eng.blk.length.toNat ≤ 258) :
    (fetchDistance s).Sat (fun v t => v < 32 ∧ Fetched s t ∧ Built 288 t.eng.lt ∧ Built 32 t.eng.dt)
      fun _ t => MidFail s t := by
  refine Res.Sat.bind (h.decodeSymbol hdt (by omega)) ?_
  rintro v t ⟨hv, hb, hl, b, rfl, ht⟩
  have hw := ht.withBlk { s.eng.blk with dsym := BitVec.ofNat 5 v }
  exact ⟨(BitVec.ofNat 5 v).isLt, ⟨hw, ⟨hw.last, hw.reader, .inr (.inr ⟨hp, hlt, hdt, .inr ⟨he, hlen⟩⟩)⟩, ⟨rfl, rfl⟩,
    bitsLeft_lt rfl hb hl⟩, hlt, hdt⟩

/-- Fetching a filter type (R263). -/
theorem fetchFilter_spec {s : State} (h : Running s) (hr : RowsOk s) :
    ∃ b, fetchFilter s = .ok b.toNat (s.withRcn { s.eng.rcn with ft := b }) := by
  have h1 := hr.data
  have h2 := hr.y
  have h3 := h.sink.len
  have h4 := h.sink.cap
  have h5 : (s.eng.rcn.y.toNat + 1) * (s.eng.rcn.stride.toNat + 1) ≤ s.imgHeight.toNat * (s.eng.rcn.stride.toNat + 1) :=
    Nat.mul_le_mul_right _ h2
  rw [Nat.add_mul, Nat.one_mul] at h5
  refine ⟨s.sinkMem.read s.rowBase, ?_⟩
  unfold fetchFilter
  rw [readByte_ok (sp := .sink) (by show s.rowBase < s.config.sinkLimit; unfold State.rowBase; omega)]
  rfl

end Sys2Proof.Machine
end

