-- ==== Sys2Proof/Laws/PerInstr.lean ====
section
/-! SUPPORT. The per-instruction law: the decoder reads back what the encoder writes, for every operand the opcode table gives the
instruction. -/

namespace Sys2Proof.Laws.RoundTrip

/-- Decoding the selecting value of a well-formed instruction, in its space, gives it back. -/
def Statement (i : Instr) : Prop := i.wf = true → decodeSel i.selector (encode i) = some i

theorem inflate : Statement .inflate := fun _ => rfl
theorem recon : Statement .recon := fun _ => rfl
theorem cmdNop (v : Word) : Statement (.cmdNop v) := by
  intro h
  have h1 : v.toNat ≠ 1 := fun e => by simp [Instr.wf, BitVec.eq_of_toNat_eq (y := 1) (by simpa using e)] at h
  have h2 : v.toNat ≠ 2 := fun e => by simp [Instr.wf, BitVec.eq_of_toNat_eq (y := 2) (by simpa using e)] at h
  have := v.isLt
  show decodeCmd v.toNat = _
  unfold decodeCmd
  rw [if_neg h1, if_neg h2, if_pos this]
  simp

theorem stored : Statement .stored := fun _ => rfl
theorem fixed : Statement .fixed := fun _ => rfl
theorem dynamic : Statement .dynamic := fun _ => rfl
theorem btypeRsvd : Statement .btypeRsvd := fun _ => rfl
theorem clLen (l : BitVec 4) : Statement (.clLen l) := by
  intro _
  show decodeCodeLength l.toNat = _
  unfold decodeCodeLength
  rw [if_pos l.isLt]
  simp

theorem clRep : Statement .clRep := fun _ => rfl
theorem clZero3 : Statement .clZero3 := fun _ => rfl
theorem clZero11 : Statement .clZero11 := fun _ => rfl
theorem lit (b : Byte) : Statement (.lit b) := by
  intro _
  have := b.isLt
  show decodeLitLen b.toNat = _
  unfold decodeLitLen
  rw [if_pos (by omega)]
  simp

theorem eob : Statement .eob := fun _ => rfl
theorem len257 : Statement .len257 := fun _ => rfl
theorem len258 : Statement .len258 := fun _ => rfl
theorem len259 : Statement .len259 := fun _ => rfl
theorem len260 : Statement .len260 := fun _ => rfl
theorem len261 : Statement .len261 := fun _ => rfl
theorem len262 : Statement .len262 := fun _ => rfl
theorem len263 : Statement .len263 := fun _ => rfl
theorem len264 : Statement .len264 := fun _ => rfl
theorem len265 : Statement .len265 := fun _ => rfl
theorem len266 : Statement .len266 := fun _ => rfl
theorem len267 : Statement .len267 := fun _ => rfl
theorem len268 : Statement .len268 := fun _ => rfl
theorem len269 : Statement .len269 := fun _ => rfl
theorem len270 : Statement .len270 := fun _ => rfl
theorem len271 : Statement .len271 := fun _ => rfl
theorem len272 : Statement .len272 := fun _ => rfl
theorem len273 : Statement .len273 := fun _ => rfl
theorem len274 : Statement .len274 := fun _ => rfl
theorem len275 : Statement .len275 := fun _ => rfl
theorem len276 : Statement .len276 := fun _ => rfl
theorem len277 : Statement .len277 := fun _ => rfl
theorem len278 : Statement .len278 := fun _ => rfl
theorem len279 : Statement .len279 := fun _ => rfl
theorem len280 : Statement .len280 := fun _ => rfl
theorem len281 : Statement .len281 := fun _ => rfl
theorem len282 : Statement .len282 := fun _ => rfl
theorem len283 : Statement .len283 := fun _ => rfl
theorem len284 : Statement .len284 := fun _ => rfl
theorem len285 : Statement .len285 := fun _ => rfl
theorem llRsvd (sym : BitVec 9) : Statement (.llRsvd sym) := by
  intro h
  have h : 286 ≤ sym.toNat := by simpa [Instr.wf] using h
  show decodeLitLen sym.toNat = _
  unfold decodeLitLen
  rw [if_neg (by omega), if_neg (by omega), if_neg (by omega), if_pos sym.isLt]
  simp

theorem dist0 : Statement .dist0 := fun _ => rfl
theorem dist1 : Statement .dist1 := fun _ => rfl
theorem dist2 : Statement .dist2 := fun _ => rfl
theorem dist3 : Statement .dist3 := fun _ => rfl
theorem dist4 : Statement .dist4 := fun _ => rfl
theorem dist5 : Statement .dist5 := fun _ => rfl
theorem dist6 : Statement .dist6 := fun _ => rfl
theorem dist7 : Statement .dist7 := fun _ => rfl
theorem dist8 : Statement .dist8 := fun _ => rfl
theorem dist9 : Statement .dist9 := fun _ => rfl
theorem dist10 : Statement .dist10 := fun _ => rfl
theorem dist11 : Statement .dist11 := fun _ => rfl
theorem dist12 : Statement .dist12 := fun _ => rfl
theorem dist13 : Statement .dist13 := fun _ => rfl
theorem dist14 : Statement .dist14 := fun _ => rfl
theorem dist15 : Statement .dist15 := fun _ => rfl
theorem dist16 : Statement .dist16 := fun _ => rfl
theorem dist17 : Statement .dist17 := fun _ => rfl
theorem dist18 : Statement .dist18 := fun _ => rfl
theorem dist19 : Statement .dist19 := fun _ => rfl
theorem dist20 : Statement .dist20 := fun _ => rfl
theorem dist21 : Statement .dist21 := fun _ => rfl
theorem dist22 : Statement .dist22 := fun _ => rfl
theorem dist23 : Statement .dist23 := fun _ => rfl
theorem dist24 : Statement .dist24 := fun _ => rfl
theorem dist25 : Statement .dist25 := fun _ => rfl
theorem dist26 : Statement .dist26 := fun _ => rfl
theorem dist27 : Statement .dist27 := fun _ => rfl
theorem dist28 : Statement .dist28 := fun _ => rfl
theorem dist29 : Statement .dist29 := fun _ => rfl
theorem dsRsvd (sym : BitVec 5) : Statement (.dsRsvd sym) := by
  intro h
  have h : 30 ≤ sym.toNat := by simpa [Instr.wf] using h
  show decodeDistance sym.toNat = _
  unfold decodeDistance
  rw [if_neg (by omega), if_pos sym.isLt]
  simp

theorem filtNone : Statement .filtNone := fun _ => rfl
theorem filtSub : Statement .filtSub := fun _ => rfl
theorem filtUp : Statement .filtUp := fun _ => rfl
theorem filtAvg : Statement .filtAvg := fun _ => rfl
theorem filtPaeth : Statement .filtPaeth := fun _ => rfl
theorem ftRsvd (ft : Byte) : Statement (.ftRsvd ft) := by
  intro h
  have h : 5 ≤ ft.toNat := by simpa [Instr.wf] using h
  show decodeFilter ft.toNat = _
  unfold decodeFilter
  rw [if_neg (by omega), if_neg (by omega), if_neg (by omega), if_neg (by omega), if_neg (by omega), if_pos ft.isLt]
  simp

theorem fmtGray : Statement .fmtGray := fun _ => rfl
theorem fmtRgb : Statement .fmtRgb := fun _ => rfl
theorem fmtGraya : Statement .fmtGraya := fun _ => rfl
theorem fmtRgba : Statement .fmtRgba := fun _ => rfl
theorem ctypeRsvd (c : Byte) : Statement (.ctypeRsvd c) := by revert c; unfold Statement; decide +kernel

theorem depth8 : Statement .depth8 := fun _ => rfl
theorem depthRsvd (d : Byte) : Statement (.depthRsvd d) := by revert d; unfold Statement; decide +kernel


end Sys2Proof.Laws.RoundTrip
end

