-- ==== Sys2Proof/Laws/Step.lean ====
section
/-! SUPPORT. The laws of one step and of the host's accesses: what each act of the host can lead to. -/

namespace Sys2Proof.Machine

/-- With a silent host, a BUSY engine takes the step. -/
theorem step_silent {s : State} (hb : s.runState = .busy) (hs : s.script = []) : step s = engineStep s := by
  unfold step
  rw [hs]
  simp only
  unfold engineTurn
  rw [if_pos hb]

/-- The engine's step once its selecting value has been fetched and decoded. -/
theorem engineStep_ok {s t : State} {v : Nat} {i : Instr} (hf : fetchSelector s = .ok v t)
    (hd : decodeSel s.expect v = some i) : engineStep s = exec i t := by
  unfold engineStep
  rw [hf]
  simp only
  rw [hd]

theorem engineStep_raise {s t : State} {e : Error} (hf : fetchSelector s = .raise e t) :
    engineStep s = .next (t.raiseError e) := by
  unfold engineStep
  rw [hf]

theorem regAccessOk_of {off : Nat} (h1 : off < 4096) (h2 : off % 4 = 0) : regAccessOk 4 off = true := by
  simp [regAccessOk, h1, h2]

/-- A register read changes the read data and the draws only. -/
theorem State.readReg_eq (s : State) (off : Nat) :
    s.readReg off = { s with readData := (s.readReg off).readData, draws := (s.readReg off).draws } := by
  have h : ∀ v, s.readResult v = { s with readData := (s.readResult v).readData, draws := (s.readResult v).draws } := by
    intro v
    by_cases hb : s.runState = .busy
    · simp only [State.readResult, if_pos hb]
    · simp only [State.readResult, if_neg hb]
  by_cases h1 : off = 0x10
  · subst h1; exact h _
  by_cases h2 : off = 0x14
  · subst h2; exact h _
  by_cases h3 : off = 0x18
  · subst h3; exact h _
  by_cases h4 : off = 0x28
  · subst h4; exact h _
  unfold State.readReg
  simp only [h1, h2, h3, h4, if_false]
  by_cases g1 : off = 4
  · subst g1; rfl
  by_cases g2 : off = 8
  · subst g2; rfl
  by_cases g3 : off = 12
  · subst g3; rfl
  by_cases g4 : off = 0x1c
  · subst g4; rfl
  by_cases g5 : off = 0x20
  · subst g5; rfl
  by_cases g6 : off = 0x24
  · subst g6; rfl
  simp only [g1, g2, g3, g4, g5, g6, if_false]

/-- A host access that ends in a next state was made while no command was BUSY, within the memory. -/
theorem hostAccess_next {s k t : State} {sp : Space} {n : Nat} (h : hostAccess s sp n k = .next t) :
    s.runState ≠ .busy ∧ n ≤ s.limit sp ∧ t = k := by
  unfold hostAccess at h
  split at h
  · cases h
  · split at h
    · cases h
    · cases h
      exact ⟨by assumption, by omega, rfl⟩

/-! ## Reset -/

@[simp] theorem State.resetFreeing_config (s : State) (m n : Nat) : (s.resetFreeing m n).config = s.config := rfl
@[simp] theorem State.resetFreeing_inMem (s : State) (m n : Nat) : (s.resetFreeing m n).inMem = s.inMem := rfl
@[simp] theorem State.resetFreeing_sinkMem (s : State) (m n : Nat) :
    (s.resetFreeing m n).sinkMem = s.sinkMem.scramble (s.draws + 1) m := rfl
@[simp] theorem State.resetFreeing_pixMem (s : State) (m n : Nat) :
    (s.resetFreeing m n).pixMem = s.pixMem.scramble (s.draws + 1) n := rfl
@[simp] theorem State.resetFreeing_script (s : State) (m n : Nat) : (s.resetFreeing m n).script = s.script := rfl

theorem State.sinkTouched_le (s : State) : s.sinkTouched ≤ s.config.sinkLimit := by
  unfold State.sinkTouched
  split <;> [exact s.sinkFilled_le; exact Nat.zero_le _]

theorem State.pixTouched_le (s : State) : s.pixTouched ≤ s.config.pixLimit := by
  have := s.pixWritten_le
  unfold State.pixTouched
  split
  · split <;> omega
  · omega

/-- A reset leaves a legal state, whichever of the memories' bytes it leaves unspecified. -/
theorem Inv.resetFreeing {s : State} (h : Inv s) {m n : Nat} (hm : m ≤ s.config.sinkLimit) (hn : n ≤ s.config.pixLimit) :
    Inv (s.resetFreeing m n) := by
  refine ⟨h.sized, ⟨fun sp => ?_, fun sp => ?_⟩, ⟨rfl, Nat.zero_le _, fun _ => rfl, fun h => absurd rfl h⟩,
    ⟨Nat.le_refl _, Nat.zero_le _, .inl rfl⟩, ⟨List.length_replicate, List.length_replicate⟩, (show 0 < 2 ^ 16 by decide),
    Nat.zero_le _, ⟨rfl, .inl ⟨rfl, rfl⟩⟩⟩
  · cases sp with
    | input => exact h.memory.wf .input
    | sink => exact Memory.scramble_wf (h.memory.wf .sink) _ _
    | pix => exact Memory.scramble_wf (h.memory.wf .pix) _ _
  · cases sp with
    | input => exact h.memory.size .input
    | sink => exact Memory.scramble_below (h.memory.size .sink) _ hm
    | pix => exact Memory.scramble_below (h.memory.size .pix) _ hn

/-- Every reset is one of `State.resetFreeing`: what a reset between two instructions is. -/
theorem State.applyReset_eq (s : State) : ∃ m n, m ≤ s.config.sinkLimit ∧ n ≤ s.config.pixLimit ∧ s.applyReset = s.resetFreeing m n := by
  unfold State.applyReset
  split
  · exact ⟨_, _, s.sinkWritten_le, s.pixWritten_le, rfl⟩
  · exact ⟨0, 0, Nat.zero_le _, Nat.zero_le _, rfl⟩

/-- What a reset within an instruction is: the reset of the state the instruction would have led to, or of a waiting state. -/
theorem tornReset_next {s t : State} {o : Host.Outcome State Fault Refusal} (h : s.tornReset o = .next t) :
    ∃ u m n, (o = .next u ∨ u = s) ∧ m ≤ u.config.sinkLimit ∧ n ≤ u.config.pixLimit ∧ t = u.resetFreeing m n := by
  unfold State.tornReset at h
  split at h
  · cases o with
    | next u => cases h; exact ⟨u, _, _, .inl rfl, u.sinkTouched_le, u.pixTouched_le, rfl⟩
    | fault f => cases h
    | refused r => cases h
  · cases h
    obtain ⟨m, n, hm, hn, he⟩ := s.applyReset_eq
    exact ⟨s, m, n, .inr rfl, hm, hn, he⟩

end Sys2Proof.Machine
end

