-- ==== Sys2Proof/Laws/Symbols.lean ====
section
/-! SUPPORT. The length and the distance instructions are the rows of the constant tables (R42, R224, R225): the numbers each
meaning was given from its own rule (R400 to R469) agree with the tables. -/

namespace Sys2Proof.Machine

theorem exec_length {k : Nat} (hk : k < 29) :
    ∃ i, lengthInstrs[k]? = some i ∧ exec i = lengthSymbol (257 + k) (lenBase.getD k 0) (lenExtra.getD k 0) := by
  interval_cases k <;> exact ⟨_, rfl, rfl⟩

theorem exec_distance {k : Nat} (hk : k < 30) :
    ∃ i, distanceInstrs[k]? = some i ∧ exec i = distanceSymbol k (distBase.getD k 0) (distExtra.getD k 0) := by
  interval_cases k <;> exact ⟨_, rfl, rfl⟩

/-- Every length lies in 3 to 258 (R224). -/
theorem lenTable_range {k : Nat} (hk : k < 29) :
    lenExtra.getD k 0 ≤ 5 ∧ 3 ≤ lenBase.getD k 0 ∧ lenBase.getD k 0 + 2 ^ lenExtra.getD k 0 ≤ 259 := by
  interval_cases k <;> decide

/-- Every distance lies in 1 to 32768 (R225). -/
theorem distTable_range {k : Nat} (hk : k < 30) :
    distExtra.getD k 0 ≤ 13 ∧ 1 ≤ distBase.getD k 0 ∧ distBase.getD k 0 + 2 ^ distExtra.getD k 0 ≤ 32769 := by
  interval_cases k <;> decide

end Sys2Proof.Machine
end

