-- ==== Sys2Proof/Machine/Assembler.lean ====
section
/-! DEFINITION. The assembler notation (spec 30_encoding.md R116, R117): the items of a program, the pseudo-instructions, and the bytes a
program stands for. It is the host's tool, not the engine's: no step uses it. -/

namespace Sys2Proof.Machine

/-- One line of a program (R116). -/
inductive AsmItem where
  /-- `BLOCK final=<0|1> type=<0..3>` -/
  | block (final : Bool) (type : BitVec 2)
  /-- `STORED len=<n> nlen=<m> bytes=<hex>` -/
  | stored (len nlen : BitVec 16) (bytes : List Byte)
  /-- `DYNHDR hlit= hdist= hclen= cll=`, the lengths in the order of `PERM` -/
  | dynhdr (hlit hdist hclen : Nat) (cll : List Nat)
  /-- `CL <0..15>` -/
  | cl (l : Nat)
  /-- `CL_REP <3..6>` -/
  | clRep (n : Nat)
  /-- `CL_ZERO3 <3..10>` -/
  | clZero3 (n : Nat)
  /-- `CL_ZERO11 <11..138>` -/
  | clZero11 (n : Nat)
  /-- `LIT <byte>` -/
  | lit (b : Byte)
  /-- `EOB` -/
  | eob
  /-- `LEN<s> +<extra>` -/
  | len (sym extra : Nat)
  /-- `DIST<d> +<extra>` -/
  | dist (sym extra : Nat)
  /-- `ROW ft=<0..4> bytes=<hex>` -/
  | row (ft : Byte) (bytes : List Byte)
deriving DecidableEq, Repr

/-- What the assembler keeps from one line to the next: the bits so far, the code lengths of the active tables, and a dynamic header's
lengths as far as they have been written. -/
structure Asm where
  bits : List Bool
  lt : List Nat
  dt : List Nat
  ct : List Nat
  hlit : Nat
  lens : List Nat
deriving DecidableEq, Repr

/-- The code of a symbol under given code lengths, in stream order (R162, R76). R116 does not say what an item stands for whose symbol has
no code, its length being 0 or absent; the model writes no code bits for it. DESIGN CHOICE (notes/assumptions/20.md). -/
def codeBits (lengths : List Nat) (sym : Nat) : List Bool :=
  bitsHigh (lengths.getD sym 0)
    (firstCode lengths (lengths.getD sym 0) + (lengths.take sym).count (lengths.getD sym 0))

/-- Appending bits. -/
def Asm.emit (a : Asm) (bits : List Bool) : Asm := { a with bits := a.bits ++ bits }

/-- A code-length instruction: its bits, and the lengths it stands for, split at `HLIT` (R208). -/
def Asm.emitLengths (a : Asm) (bits : List Bool) (ls : List Nat) : Asm :=
  { a with bits := a.bits ++ bits, lens := a.lens ++ ls, lt := (a.lens ++ ls).take a.hlit, dt := (a.lens ++ ls).drop a.hlit }

/-- The code-length-code lengths by symbol, from their values in the order of `PERM` (R201). -/
def clLengths (cll : List Nat) : List Nat :=
  (perm.zip cll).foldl (fun ls p => ls.set p.1 p.2) (List.replicate 19 0)

/-- The bits of one item (R116). -/
def Asm.item (a : Asm) : AsmItem → Asm
  | .block final type =>
    let a := { a with lens := [] }.emit (bitsLow 1 final.toNat ++ bitsLow 2 type.toNat)
    if type = 1 then { a with lt := fixedLitLen, dt := fixedDistLen } else a
  | .stored len nlen bytes =>
    a.emit (List.replicate ((8 - a.bits.length % 8) % 8) false ++ bitsLow 16 len.toNat ++ bitsLow 16 nlen.toNat ++
      bytes.flatMap fun b => bitsLow 8 b.toNat)
  | .dynhdr hlit hdist hclen cll =>
    { a with hlit := hlit, ct := clLengths (cll.take hclen) }.emit
      (bitsLow 5 (hlit - 257) ++ bitsLow 5 (hdist - 1) ++ bitsLow 4 (hclen - 4) ++ (cll.take hclen).flatMap fun l => bitsLow 3 l)
  | .cl l => a.emitLengths (codeBits a.ct l) [l]
  | .clRep n => a.emitLengths (codeBits a.ct 16 ++ bitsLow 2 (n - 3)) (List.replicate n (a.lens.getLastD 0))
  | .clZero3 n => a.emitLengths (codeBits a.ct 17 ++ bitsLow 3 (n - 3)) (List.replicate n 0)
  | .clZero11 n => a.emitLengths (codeBits a.ct 18 ++ bitsLow 7 (n - 11)) (List.replicate n 0)
  | .lit b => a.emit (codeBits a.lt b.toNat)
  | .eob => a.emit (codeBits a.lt 256)
  | .len sym extra => a.emit (codeBits a.lt sym ++ bitsLow (lenExtra.getD (sym - 257) 0) extra)
  | .dist sym extra => a.emit (codeBits a.dt sym ++ bitsLow (distExtra.getD sym 0) extra)
  | .row ft bytes => a.emit ((ft :: bytes).flatMap fun b => bitsLow 8 b.toNat)

/-- The bits of a program. -/
def assembleBits (p : List AsmItem) : List Bool := (p.foldl Asm.item ⟨[], [], [], [], 0, []⟩).bits

/-- The bytes of a program (R116): its bits packed low first, the last byte padded with zeros. -/
def assemble (p : List AsmItem) : List Byte := packBits (assembleBits p).length (assembleBits p)

/-- The last place of a rising table whose entry does not exceed `v` (R117, D39). -/
def lastBase (bases : List Nat) (v : Nat) : Nat := (bases.filter (· ≤ v)).length - 1

/-- `MATCH <length>, <distance>` (R117). -/
def asmMatch (length distance : Nat) : List AsmItem :=
  [.len (257 + lastBase lenBase length) (length - lenBase.getD (lastBase lenBase length) 0),
    .dist (lastBase distBase distance) (distance - distBase.getD (lastBase distBase distance) 0)]

/-- `LITS "<text>"` (R117). -/
def asmLits (text : List Byte) : List AsmItem := text.map .lit

/-- `ZEROS <n>` (R117). The first argument bounds the lines; `n` is always enough. -/
def asmZeros : Nat → Nat → List AsmItem
  | 0, _ => []
  | fuel + 1, n =>
    if n = 0 then []
    else if 11 ≤ n then .clZero11 (min n 138) :: asmZeros fuel (n - min n 138)
    else if 3 ≤ n then [.clZero3 n]
    else .cl 0 :: asmZeros fuel (n - 1)

end Sys2Proof.Machine
end

