-- ==== Sys2Proof/Tests/Slice0.lean ====
section
/-! SUPPORT. The model's own tests. Expected values come from the spec: the opcode table, the worked examples of the rules, and
spec/95_test_vectors.md. At the end, for every obligation with hypotheses, states that meet them (`meets_...`). -/

namespace Sys2Proof.Tests

open Sys2Proof Sys2Proof.Machine

set_option Elab.async false

/-! ## Small states -/

/-- What holds of the state an outcome ends in; `false` for a fault or a refusal. -/
def ends (o : Host.Outcome State Fault Refusal) (p : State → Bool) : Bool :=
  match o with
  | .next t => p t
  | .fault _ => false
  | .refused _ => false

/-- An INFLATE under way over the given slice, at a given place, with the fixed tables. -/
def mid (bytes : List Byte) (p : Phase) (e : Selector) : State :=
  { (State.reset.buildLt fixedLitLen).buildDt fixedDistLen with
    runState := .busy, last := 1, phase := p, expect := e
    inMem := Memory.load [] 0 bytes, inSize := BitVec.ofNat 32 bytes.length }

/-- The same over a slice of the given bits. -/
def midBits (bits : List Bool) (p : Phase) (e : Selector) : State := mid (packBits bits.length bits) p e

/-- A sink that holds the given bytes, of capacity 1024. -/
def withBytes (s : State) (bytes : List Byte) : State := s.withSink (Memory.load [] 0 bytes) bytes.length 1024

/-- The symbol loop over the given bits and sink. -/
def symbols (e : Selector) (bits : List Bool) (sink : List Byte) : State := withBytes (midBits bits .symbols e) sink

/-- A dynamic header under way: every code-length symbol has a 5-bit code equal to it; `LENS` holds 8 at 0 and at 255, and 1 elsewhere. -/
def header (bits : List Bool) (nl : Nat) : State :=
  ((midBits bits .dynhdr .cl).buildCt (List.replicate 19 5)).withHdr
    ⟨257, 1, 19, List.replicate 19 5, ((List.replicate 320 1).set 0 8).set 255 8, BitVec.ofNat 9 nl⟩

/-- A RECON under way in its checks. -/
def checks (w h depth ctype : Nat) (sink : List Byte) (e : Selector) : State :=
  { withBytes State.reset sink with
    runState := .busy, last := 2, phase := .rcheck, expect := e
    imgWidth := BitVec.ofNat 32 w, imgHeight := BitVec.ofNat 32 h, imgFormat := BitVec.ofNat 32 (depth + 256 * ctype) }

/-- A RECON under way in its row loop. -/
def rows (w h y ctype : Nat) (sink prev cur : List Byte) (e : Selector) : State :=
  { (checks w h 8 ctype sink e).withRcn
      ⟨BitVec.ofNat 3 (bppOf (BitVec.ofNat 8 ctype)), BitVec.ofNat 34 (w * bppOf (BitVec.ofNat 8 ctype)), BitVec.ofNat 32 y, 0, 0, prev, cur⟩ with
    phase := .rows }

/-- A waiting machine with one host act to do. -/
def host (act : HostAct) : State := { State.reset with script := [act] }

/-! ## Ill-formed terms are refused -/

theorem test_wf_cmdNop : (Instr.cmdNop 1).wf = false ∧ (Instr.cmdNop 2).wf = false ∧ (Instr.cmdNop 3).wf = true := by decide
theorem test_wf_llRsvd : (Instr.llRsvd 285).wf = false ∧ (Instr.llRsvd 286).wf = true := by decide
theorem test_wf_dsRsvd : (Instr.dsRsvd 29).wf = false ∧ (Instr.dsRsvd 30).wf = true := by decide
theorem test_wf_ftRsvd : (Instr.ftRsvd 4).wf = false ∧ (Instr.ftRsvd 5).wf = true := by decide
theorem test_wf_ctypeRsvd : (Instr.ctypeRsvd 6).wf = false ∧ (Instr.ctypeRsvd 3).wf = true := by decide
theorem test_wf_depthRsvd : (Instr.depthRsvd 8).wf = false ∧ (Instr.depthRsvd 16).wf = true := by decide

/-! ## Every constructor's decoding, from the opcode table (R112) -/

theorem test_decode_cmd : [1, 2, 0, 3, 0xFFFFFFFF].map (decodeSel .cmd) =
    [some .inflate, some .recon, some (.cmdNop 0), some (.cmdNop 3), some (.cmdNop 0xFFFFFFFF)] := by decide
theorem test_decode_bh : [0b00, 0b01, 0b10, 0b11].map (decodeSel .bh) =
    [some .stored, some .fixed, some .dynamic, some .btypeRsvd] := by decide
theorem test_decode_cl : [0, 15, 16, 17, 18, 19].map (decodeSel .cl) =
    [some (.clLen 0), some (.clLen 15), some .clRep, some .clZero3, some .clZero11, none] := by decide
theorem test_decode_ll : [0, 255, 256, 286, 287].map (decodeSel .ll) =
    [some (.lit 0), some (.lit 255), some .eob, some (.llRsvd 286), some (.llRsvd 287)] := by decide
theorem test_decode_len : [257, 258, 259, 260, 261, 262, 263, 264, 265, 266, 267, 268, 269, 270, 271, 272, 273, 274, 275, 276, 277,
    278, 279, 280, 281, 282, 283, 284, 285].map (decodeSel .ll) =
    [some .len257, some .len258, some .len259, some .len260, some .len261, some .len262, some .len263, some .len264,
     some .len265, some .len266, some .len267, some .len268, some .len269, some .len270, some .len271, some .len272,
     some .len273, some .len274, some .len275, some .len276, some .len277, some .len278, some .len279, some .len280,
     some .len281, some .len282, some .len283, some .len284, some .len285] := by decide
theorem test_decode_dist : [0, 1, 2, 3, 4, 5, 6, 7, 8, 9, 10, 11, 12, 13, 14, 15, 16, 17, 18, 19, 20, 21, 22, 23, 24, 25, 26, 27, 28, 29].map
    (decodeSel .ds) =
    [some .dist0, some .dist1, some .dist2, some .dist3, some .dist4, some .dist5, some .dist6, some .dist7, some .dist8,
     some .dist9, some .dist10, some .dist11, some .dist12, some .dist13, some .dist14, some .dist15, some .dist16,
     some .dist17, some .dist18, some .dist19, some .dist20, some .dist21, some .dist22, some .dist23, some .dist24,
     some .dist25, some .dist26, some .dist27, some .dist28, some .dist29] := by decide
theorem test_decode_ds_reserved : [30, 31, 32].map (decodeSel .ds) = [some (.dsRsvd 30), some (.dsRsvd 31), none] := by decide
theorem test_decode_sl : [0, 1, 2, 3, 4, 5, 255].map (decodeSel .sl) =
    [some .filtNone, some .filtSub, some .filtUp, some .filtAvg, some .filtPaeth, some (.ftRsvd 5), some (.ftRsvd 255)] := by decide
theorem test_decode_ctype : [0, 2, 4, 6, 1, 3].map (decodeSel .ctype) =
    [some .fmtGray, some .fmtRgb, some .fmtGraya, some .fmtRgba, some (.ctypeRsvd 1), some (.ctypeRsvd 3)] := by decide
theorem test_decode_depth : [8, 16].map (decodeSel .depth) = [some .depth8, some (.depthRsvd 16)] := by decide

/-- The bits a static block spells its symbols with (95_test_vectors.md 2.5, 2.6), and the bytes of a header (2.4). -/
theorem test_static_bits :
    staticLitLenBits 0x41 = [false, true, true, true, false, false, false, true] ∧
    staticLitLenBits 0x90 = [true, true, false, false, true, false, false, false, false] ∧
    staticLitLenBits 256 = [false, false, false, false, false, false, false] ∧
    staticLitLenBits 257 = [false, false, false, false, false, false, true] ∧
    staticLitLenBits 287 = [true, true, false, false, false, true, true, true] ∧
    staticDistanceBits 30 = [true, true, true, true, false] := by decide

/-! ## The assembler (R116, R117): the programs of 95_test_vectors.md -/

theorem test_assemble_P1 : assemble [.block true 0, .stored 3 0xFFFC [0x41, 0x42, 0x43]] =
    [0x01, 0x03, 0x00, 0xFC, 0xFF, 0x41, 0x42, 0x43] := by decide +kernel
theorem test_assemble_P3 : assemble ([.block true 1] ++ asmLits [0x61, 0x62] ++ asmMatch 5 2 ++ [.eob]) =
    [0x4B, 0x4C, 0x02, 0x43, 0x00] := by decide +kernel
/-- P4's header, as far as its last whole byte. -/
theorem test_assemble_P4 : (assemble
    [.block true 2, .dynhdr 261 3 18 [4, 4, 2, 3, 0, 0, 0, 0, 0, 0, 0, 0, 0, 2, 0, 3, 0, 3], .clZero11 97, .cl 2, .cl 3,
      .clRep 3, .clZero11 138, .clZero11 16, .cl 3, .clZero3 3, .cl 3, .cl 0, .cl 0, .cl 1]).take 15 =
    [0x25, 0xC2, 0x49, 0x0D, 0x00, 0x00, 0x00, 0xC2, 0x30, 0xAD, 0xE3, 0xF0, 0x6F, 0x81, 0x07] := by decide +kernel

/-! ## The Bit Reader (95_test_vectors.md 2.1) -/

/-- The value and the registers a read of `n` bits ends in. -/
def readOf (n : Nat) (s : State) : Option (Nat × Nat × Nat × Nat) :=
  match readBits n s with
  | .ok v t => some (v, t.eng.br.pos.toNat, t.eng.br.cnt.toNat, t.eng.br.acc.toNat)
  | .raise _ _ => none
  | .fault _ => none

theorem test_readBits : readOf 3 (mid [0xA5, 0x3C] .header .bh) = some (5, 1, 5, 0b10100) ∧
    readOf 4 ((mid [0xA5, 0x3C] .header .bh).atBit 3) = some (4, 1, 1, 1) ∧
    readOf 5 ((mid [0xA5, 0x3C] .header .bh).atBit 7) = some (25, 2, 4, 0b0011) ∧
    readOf 16 (mid [0xA5, 0x3C] .header .bh) = some (15525, 2, 0, 0) ∧
    readOf 17 (mid [0xA5, 0x3C] .header .bh) = none := by decide +kernel

theorem test_aligned_read : readByteAligned ((mid [0xA5, 0x3C, 0xFF] .header .bh).atBit 3) =
    .ok 0x3C ((mid [0xA5, 0x3C, 0xFF] .header .bh).atBit 16) := by rfl

/-! ## The Huffman tables (95_test_vectors.md 2.3) -/

/-- The pseudocode of R161, loop by loop (Sys2Proof/Safety.lean), on the table of R170: the definition that the builder is
compared with gives the spec's own numbers. -/
theorem test_buildByRule : (buildByRule 8 [3, 3, 3, 3, 3, 2, 4, 4]).maxCode.take 4 = [-1, 0, 6, 15] ∧
    (buildByRule 8 [3, 3, 3, 3, 3, 2, 4, 4]).offset.take 4 = [0, 0, -1, -8] ∧
    (buildByRule 8 [3, 3, 3, 3, 3, 2, 4, 4]).symbols = [5, 0, 1, 2, 3, 4, 6, 7] ∧
    (buildByRule 3 [1, 1, 1]).maxCode.take 1 = [2] ∧ (buildByRule 3 [0, 0, 0]).maxCode = List.replicate 15 (-1) := by
  decide +kernel
theorem test_build : (buildTable 4 [2, 1, 3, 3] 0).maxCode.take 3 = [0, 2, 7] ∧
    (buildTable 4 [2, 1, 3, 3] 0).offset.take 3 = [0, -1, -4] ∧ (buildTable 4 [2, 1, 3, 3] 0).symbols = [1, 0, 2, 3] ∧
    (buildTable 4 [0, 5, 0, 5] 0).symbols.take 2 = [1, 3] := by decide +kernel

/-- The symbol a table decodes from the given bits, and how many it consumes; 1000 for InvalidHuffmanCode. -/
def decoded (t : Table) (bits : List Bool) : Nat × Nat :=
  match decodeSymbol t (midBits bits .symbols .ll) with
  | .ok v s => (v, s.bitPos)
  | .raise _ s => (1000, s.bitPos)
  | .fault _ => (2000, 0)

theorem test_decode_table : decoded (buildTable 4 [2, 1, 3, 3] 0) [true, true, false] = (2, 3) ∧
    decoded (buildTable 4 [2, 1, 3, 3] 0) [false] = (1, 1) ∧
    decoded (buildTable 4 [0, 5, 0, 5] 0) [false, false, false, false, true] = (3, 5) ∧
    decoded (buildTable 4 [0, 5, 0, 5] 0) ([false, false, false, true] ++ List.replicate 12 false) = (1000, 15) ∧
    decoded (buildTable 1 [1] 0) (true :: List.replicate 15 false) = (1000, 15) ∧
    decoded (buildTable 3 [0, 0, 0] 0) (List.replicate 16 false) = (1000, 15) := by decide +kernel

/-! ## The Byte Sink (95_test_vectors.md 2.2) -/

/-- The capacity and the length after one push onto a sink of the given length, capacity and limit; `none` for OutOfMemory. -/
def pushOf (len cap limit : Nat) : Option (Nat × Nat × Byte) :=
  match push 0x41 { State.reset.withSink [] len cap with config := ⟨65536, limit, 65536⟩ } with
  | .ok _ t => some (t.sinkCap.toNat, t.sinkLen.toNat, t.sinkMem.read len)
  | .raise _ _ => none
  | .fault _ => none

theorem test_push : pushOf 0 0 65536 = some (1024, 1, 0x41) ∧ pushOf 1023 1024 65536 = some (1024, 1024, 0x41) ∧
    pushOf 1024 1024 4096 = some (2048, 1025, 0x41) ∧ pushOf 2048 2048 65536 = some (4096, 2049, 0x41) ∧
    pushOf 1024 1024 1024 = none ∧ pushOf 0 0 1023 = none := by decide +kernel

/-! ## One step of each instruction -/

/-- `STATUS` after an outcome. -/
def status (o : Host.Outcome State Fault Refusal) (w : Word) : Bool := ends o fun t => t.statusWord == w

theorem test_step_inflate : status (step (host (.regWrite 4 0 1))) 0x101 = true ∧
    status (step { host (.regWrite 4 0 1) with inBase := 65536, inSize := 1 }) 0x1B3 = true := by decide +kernel
theorem test_step_recon : status (step (host (.regWrite 4 0 2))) 0x201 = true := by decide +kernel
theorem test_step_cmdNop : step (host (.regWrite 4 0 3)) = .next State.reset := rfl

/-- P1's body: the header and the stored block are one instruction. -/
theorem test_step_stored : ends (step (mid [0x01, 0x03, 0x00, 0xFC, 0xFF, 0x41, 0x42, 0x43] .header .bh)) (fun t =>
    t.statusWord == 0x102 && t.sinkMem.readTo 3 == [0x41, 0x42, 0x43] && t.sinkLen == 3 && t.sinkCap == 1024 && t.consumed == 8) =
    true := by decide +kernel
/-- E2 (95_test_vectors.md): a wrong complement. -/
theorem test_step_stored_mismatch :
    status (step (mid [0x01, 0x03, 0x00, 0xFC, 0xFE, 0x41, 0x42, 0x43] .header .bh)) 0x183 = true := by decide +kernel
theorem test_step_fixed : ends (step (mid [0x73] .header .bh)) (fun t =>
    t.eng.bfinal == 1 && t.eng.btype == 1 && t.phase == .symbols && t.eng.lt.maxCode.drop 6 == [23, 199, 511, -1, -1, -1, -1, -1, -1]) =
    true := by decide +kernel
/-- P4's header (R200, R201, R210). -/
theorem test_step_dynamic : ends (step (mid [0x25, 0xC2, 0x49, 0x0D, 0, 0, 0, 0xC2, 0x30, 0xAD, 0xE3] .header .bh)) (fun t =>
    t.eng.hdr.hlit == 261 && t.eng.hdr.hdist == 3 && t.eng.hdr.hclen == 18 && t.eng.hdr.nl == 0 && t.phase == .dynhdr &&
    t.eng.hdr.cll == [3, 3, 3, 2, 0, 0, 0, 0, 0, 0, 0, 0, 0, 0, 0, 0, 4, 4, 2]) = true := by decide +kernel
theorem test_step_btypeRsvd : status (step (mid [0x07] .header .bh)) 0x163 = true ∧
    status (step (mid [0x06] .header .bh)) 0x163 = true := by decide +kernel

/-- The table of 95_test_vectors.md 2.8: `NL` before, the instruction's bits, `NL` after, and an entry of `LENS`. -/
theorem test_step_clLen : ends (step (header (bitsHigh 5 8) 0)) (fun t =>
    t.eng.hdr.nl == 1 && t.eng.hdr.lens.take 2 == [8, 1] && t.expect == .cl) = true := by decide +kernel
theorem test_step_clRep : ends (step (header (bitsHigh 5 16 ++ bitsLow 2 3) 1)) (fun t =>
    t.eng.hdr.nl == 7 && t.eng.hdr.lens.take 8 == [8, 8, 8, 8, 8, 8, 8, 1]) = true := by decide +kernel
theorem test_step_clRep_fails : status (step (header (bitsHigh 5 16 ++ bitsLow 2 0) 0)) 0x163 = true ∧
    status (step (header (bitsHigh 5 16 ++ bitsLow 2 0) 256)) 0x163 = true := by decide +kernel
theorem test_step_clZero3 : ends (step (header (bitsHigh 5 17 ++ bitsLow 3 7) 0)) (fun t =>
    t.eng.hdr.nl == 10 && t.eng.hdr.lens.take 11 == [0, 0, 0, 0, 0, 0, 0, 0, 0, 0, 1]) = true ∧
    ends (step (header (bitsHigh 5 17 ++ bitsLow 3 5) 250)) (fun t =>
      t.eng.hdr.nl == 258 && t.expect == .ll && t.phase == .symbols) = true := by decide +kernel
theorem test_step_clZero11 : ends (step (header (bitsHigh 5 18 ++ bitsLow 7 127) 0)) (fun t =>
    t.eng.hdr.nl == 138 && t.eng.hdr.lens.getD 137 9 == 0 && t.eng.hdr.lens.getD 138 9 == 1) = true ∧
    status (step (header (bitsHigh 5 18 ++ bitsLow 7 0) 250)) 0x163 = true := by decide +kernel

theorem test_step_lit : ends (step (symbols .ll [false, true, true, true, false, false, false, true] [0x40])) (fun t =>
    t.sinkMem.readTo 2 == [0x40, 0x41] && t.sinkLen == 2 && t.bitPos == 8) = true ∧
    ends (step (symbols .ll (List.replicate 9 true) [])) (fun t => t.sinkMem.readTo 1 == [0xFF] && t.bitPos == 9) = true := by
  decide +kernel
theorem test_step_eob : ends (step (symbols .ll (List.replicate 7 false) [])) (fun t =>
    t.phase == .header && t.expect == .bh && t.bitPos == 7) = true ∧
    ends (step ((symbols .ll (List.replicate 7 false) []).withHeaderFlags 1 1)) (fun t =>
      t.statusWord == 0x102 && t.consumed == 1) = true := by decide +kernel
theorem test_step_llRsvd : status (step (symbols .ll [true, true, false, false, false, true, true, false] [])) 0x163 = true ∧
    status (step (symbols .ll [true, true, false, false, false, true, true, true] [])) 0x163 = true := by decide +kernel

/-- The rows of 95_test_vectors.md 2.6: the symbol, its extra bits all 1, the `LENGTH`. -/
def lengthRows : List (Nat × Nat × Nat) :=
  [(257, 0, 3), (258, 0, 4), (259, 0, 5), (260, 0, 6), (261, 0, 7), (262, 0, 8), (263, 0, 9), (264, 0, 10), (265, 1, 12), (266, 1, 14),
   (267, 1, 16), (268, 1, 18), (269, 2, 22), (270, 2, 26), (271, 2, 30)] ++
  [(272, 2, 34), (273, 3, 42), (274, 3, 50), (275, 3, 58), (276, 3, 66), (277, 4, 82), (278, 4, 98), (279, 4, 114), (280, 4, 130),
   (281, 5, 162), (282, 5, 194), (283, 5, 226), (284, 5, 258), (285, 0, 258)]

/-- Each length symbol, in a static block. -/
theorem test_step_len : (lengthRows.all fun r =>
    ends (step (symbols .ll (staticLitLenBits r.1 ++ List.replicate r.2.1 true) [])) fun t =>
      t.eng.blk.length.toNat == r.2.2 && t.eng.blk.sym.toNat == r.1 && t.expect == .ds &&
        t.bitPos == (staticLitLenBits r.1).length + r.2.1) = true := by decide +kernel
theorem test_step_len_zero : ends (step (symbols .ll (staticLitLenBits 284 ++ List.replicate 5 false) [])) (fun t =>
    t.eng.blk.length == 227) = true ∧ status (step (symbols .ll (staticLitLenBits 280) [])) 0x1B3 = true := by decide +kernel

/-- The rows of 95_test_vectors.md 2.6: the symbol, its extra bits all 1, the `DIST`. -/
def distanceRows : List (Nat × Nat × Nat) :=
  [(0, 0, 1), (1, 0, 2), (2, 0, 3), (3, 0, 4), (4, 1, 6), (5, 1, 8), (6, 2, 12), (7, 2, 16), (8, 3, 24), (9, 3, 32), (10, 4, 48),
   (11, 4, 64), (12, 5, 96), (13, 5, 128), (14, 6, 192)] ++
  [(15, 6, 256), (16, 7, 384), (17, 7, 512), (18, 8, 768), (19, 8, 1024), (20, 9, 1536), (21, 9, 2048), (22, 10, 3072),
   (23, 10, 4096), (24, 11, 6144), (25, 11, 8192), (26, 12, 12288), (27, 12, 16384), (28, 13, 24576), (29, 13, 32768)]

/-- A place for a distance symbol, with a given `LENGTH`. -/
def distance (length : Nat) (bits : List Bool) (sink : List Byte) : State :=
  (symbols .ds bits sink).withBlk ⟨0, BitVec.ofNat 9 length, 0, 0, 0⟩

/-- Each distance symbol, in a static block, over a sink long enough: a copy of 3 bytes. -/
theorem test_step_dist : (distanceRows.all fun r =>
    ends (step ((distance 3 (staticDistanceBits r.1 ++ List.replicate r.2.1 true) []).withSink [(40000 - r.2.2, 0x77)] 40000 65536))
      fun t => t.eng.blk.dist.toNat == r.2.2 && t.eng.blk.dsym.toNat == r.1 && t.sinkLen == 40003 &&
        t.sinkMem.read 40000 == 0x77 && t.expect == .ll) = true := by decide +kernel

/-- The copies of 95_test_vectors.md 2.7: an overlapping one, a whole sink, one past the sink's beginning, and the longest. -/
theorem test_step_copy :
    ends (step (distance 5 (staticDistanceBits 1) [0x61, 0x62])) (fun t =>
      t.sinkMem.readTo 7 == [0x61, 0x62, 0x61, 0x62, 0x61, 0x62, 0x61] && t.sinkLen == 7) = true ∧
    ends (step (distance 3 (staticDistanceBits 4 ++ [true]) [0x30, 0x31, 0x32, 0x33, 0x34, 0x35])) (fun t =>
      t.sinkMem.readTo 9 == [0x30, 0x31, 0x32, 0x33, 0x34, 0x35, 0x30, 0x31, 0x32]) = true ∧
    status (step (distance 3 (staticDistanceBits 3) [0x61, 0x62, 0x63])) 0x173 = true := by decide +kernel
theorem test_step_dsRsvd : status (step (distance 3 (staticDistanceBits 30) [0x61])) 0x163 = true ∧
    status (step (distance 3 (staticDistanceBits 31) [0x61])) 0x163 = true := by decide +kernel

/-- The checks of 95_test_vectors.md 2.11: each over a sink of 20 bytes. -/
theorem test_step_depth : ends (step (checks 3 5 8 0 (List.replicate 20 0) .depth)) (fun t => t.expect == .ctype) = true ∧
    status (step (checks 3 5 16 3 (List.replicate 20 0) .depth)) 0x293 = true := by decide +kernel
theorem test_step_ctype : status (step (checks 3 5 8 3 (List.replicate 20 0) .ctype)) 0x2A3 = true ∧
    status (step (checks 0 5 8 0 (List.replicate 20 0) .ctype)) 0x223 = true ∧
    status (step { checks 3 5 8 0 (List.replicate 20 0) .ctype with config := ⟨65536, 65536, 59⟩ }) 0x2C3 = true ∧
    status (step (checks 3 6 8 0 (List.replicate 20 0) .ctype)) 0x223 = true ∧
    status (step (checks 4 5 8 0 (List.replicate 20 0) .ctype)) 0x223 = true := by decide +kernel
theorem test_step_ctype_passes : ([(0, 1), (2, 3), (4, 2), (6, 4)].all fun p =>
    ends (step (checks 2 2 8 p.1 (List.replicate 20 0) .ctype)) fun t =>
      t.eng.rcn.bpp.toNat == p.2 && t.eng.rcn.stride.toNat == 2 * p.2 && t.phase == .rows && t.expect == .sl) = true := by
  decide +kernel

/-- The row a filter type makes of the given data, below the given previous row, in a grey image of width 3. -/
def filtered (data prev : List Byte) : Option (List Byte) :=
  match step (rows 3 2 (if prev = [] then 0 else 1) 0 (if prev = [] then data else [0, 0, 0, 0] ++ data) prev [] .sl) with
  | .next t => some t.eng.rcn.cur
  | .fault _ => none
  | .refused _ => none

/-- P7's rows, one after another (95_test_vectors.md; 46_pixel_reconstructor.md), and the wrapping sums of 2.9. -/
theorem test_step_filtNone : filtered [0, 0x0A, 0x14, 0x1E] [] = some [0x0A, 0x14, 0x1E] := by decide +kernel
theorem test_step_filtSub : filtered [1, 5, 5, 5] [0x0A, 0x14, 0x1E] = some [5, 0x0A, 0x0F] ∧
    filtered [1, 2, 0xFF, 0] [9, 9, 9] = some [2, 1, 1] := by decide +kernel
theorem test_step_filtUp : filtered [2, 1, 2, 3] [5, 0x0A, 0x0F] = some [6, 0x0C, 0x12] ∧
    filtered [2, 1, 2, 3] [] = some [1, 2, 3] := by decide +kernel
theorem test_step_filtAvg : filtered [3, 4, 4, 4] [6, 0x0C, 0x12] = some [7, 0x0D, 0x13] ∧
    filtered [3, 200, 200, 0] [0, 210, 0] = some [200, 149, 74] := by decide +kernel
theorem test_step_filtPaeth : filtered [4, 1, 1, 1] [7, 0x0D, 0x13] = some [8, 0x0E, 0x14] ∧
    filtered [4, 30, 0, 1] [70, 50, 0] = some [100, 70, 1] := by decide +kernel
theorem test_step_ftRsvd : status (step (rows 3 1 0 0 [5, 1, 2, 3] [] [] .sl)) 0x223 = true := by decide +kernel

/-- The formatters (95_test_vectors.md 2.10), on the second of two rows of one pixel. -/
def formatted (ctype : Nat) (cur : List Byte) : Option (List Byte × Nat × Word) :=
  match step (rows 1 2 1 ctype [] [] cur .ctype) with
  | .next t => some ((t.pixMem.readTo 8).drop 4, t.pixLen.toNat, t.statusWord)
  | .fault _ => none
  | .refused _ => none

theorem test_step_fmtGray : formatted 0 [0x0A] = some ([0x0A, 0x0A, 0x0A, 0xFF], 8, 0x202) := by decide +kernel
theorem test_step_fmtRgb : formatted 2 [0xC8, 0x64, 0x32] = some ([0xC8, 0x64, 0x32, 0xFF], 8, 0x202) := by decide +kernel
theorem test_step_fmtGraya : formatted 4 [0x80, 0x40] = some ([0x80, 0x80, 0x80, 0x40], 8, 0x202) := by decide +kernel
theorem test_step_fmtRgba : formatted 6 [0x11, 0x22, 0x33, 0x44] = some ([0x11, 0x22, 0x33, 0x44], 8, 0x202) := by decide +kernel
theorem test_step_next_row : ends (step (rows 1 2 0 0 [] [] [0x0A] .ctype)) (fun t =>
    t.eng.rcn.y == 1 && t.eng.rcn.prev == [0x0A] && t.expect == .sl && t.runState == .busy) = true := by decide +kernel

/-! ## The host's side -/

/-- The value a register read returns. -/
def readOff (s : State) (off : Nat) : Option Word :=
  match step { s with script := [.regRead 4 off] } with
  | .next t => some t.readData
  | .fault _ => none
  | .refused _ => none

theorem test_reads : readOff { State.reset with runState := .error, err := 11, last := 1 } 4 = some 0x1B3 ∧
    readOff { State.reset with runState := .done, last := 2, pixLen := 60 } 0x28 = some 60 ∧ readOff State.reset 0 = some 0 ∧
    readOff State.reset 0xFFC = some 0 ∧ readOff State.reset 2 = none := by decide +kernel
theorem test_write_imgFormat : ends (step (host (.regWrite 4 0x24 0xABCD0608))) (fun t =>
    t.imgFormat == 0x0608 && t.ctype == 6 && t.depth == 8) = true := by decide +kernel
theorem test_reset : ends (step { mid [0x73] .symbols .ll with script := [.assertReset] }) (fun t =>
    t.statusWord == 0 && t.phase == .idle && t.inMem.read 0 == 0x73 && t.inSize == 0) = true := by decide +kernel
/-- A reset within the last instruction of an INFLATE, whose DONE is not reached (70_reset_and_hazards.md R370: "abandoned without
completing"), and one while the engine waits, which leaves the sink (R370: "reset does not change them"). -/
theorem test_reset_within : ends (step { mid [0x01, 0x01, 0x00, 0xFE, 0xFF, 0x41] .header .bh with script := [.assertResetWithin] }) (fun t =>
      t.statusWord == 0 && t.phase == .idle && t.sinkLen == 0 && t.inMem.read 5 == 0x41) = true ∧
    ends (step { withBytes State.reset [0x41] with runState := .done, last := 1, script := [.assertResetWithin] }) (fun t =>
      t.statusWord == 0 && t.sinkMem.read 0 == 0x41) = true := by decide +kernel
theorem test_memory_refused : step { mid [0x73] .symbols .ll with script := [.memRead .sink 0] } = .refused .hostMemoryWhileBusy ∧
    step (host (.memRead .input 65536)) = .fault (.address .input) := ⟨rfl, rfl⟩

/-- Adler-32 (95_test_vectors.md 2.12; S7). -/
theorem test_adler32 : adler32 [] = 1 ∧ adler32 [0x41] = 0x00420042 ∧ adler32 [0x41, 0x42, 0x43] = 0x018D00C7 ∧
    adler32 [0x00, 0x11, 0x22, 0x33, 0x44] = 0x015900AB := by decide +kernel
/-- The zlib checks (95_test_vectors.md 2.12; S9). -/
theorem test_zlib : zlibCheck [0x78, 0x9C, 0x03, 0, 0, 0, 0, 1] = none ∧
    zlibCheck [0x78, 0x9D, 0x03, 0, 0, 0, 0, 1] = some .badZlibHeader ∧
    zlibCheck [0x79, 0x9C, 0x03, 0, 0, 0, 0, 1] = some .unsupportedMethod ∧
    zlibCheck [0x78, 0xBB, 0x03, 0, 0, 0, 0, 1] = some .unsupportedMethod ∧
    zlibCheck [0x78, 0x9C, 0x03, 0, 0] = some .truncatedInput := by decide +kernel

/-- P6's file (95_test_vectors.md). -/
def pngFile : List Byte :=
  pngSignature ++
  [0x00, 0x00, 0x00, 0x0D, 0x49, 0x48, 0x44, 0x52, 0x00, 0x00, 0x00, 0x01, 0x00, 0x00, 0x00, 0x01, 0x08, 0x06, 0x00, 0x00, 0x00,
   0x1F, 0x15, 0xC4, 0x89] ++
  [0x00, 0x00, 0x00, 0x0D, 0x49, 0x44, 0x41, 0x54, 0x78, 0x9C, 0x63, 0x10, 0x54, 0x32, 0x76, 0x01, 0x00, 0x01, 0x59, 0x00, 0xAB,
   0x13, 0x2A, 0x25, 0xAB] ++
  [0x00, 0x00, 0x00, 0x00, 0x49, 0x45, 0x4E, 0x44, 0xAE, 0x42, 0x60, 0x82]

/-- The record of a parse, or an error's code. -/
def parsed (f : List Byte) : Option PngRecord × Nat :=
  match pngParse f with
  | .ok r => (some r, 0)
  | .error e => (none, e.code.toNat)

theorem test_png : parsed pngFile =
    (some ⟨1, 1, 8, 6, [0x78, 0x9C, 0x63, 0x10, 0x54, 0x32, 0x76, 0x01, 0x00, 0x01, 0x59, 0x00, 0xAB]⟩, 0) ∧
    (parsed (pngFile.drop 1)).2 = 1 ∧ (parsed (pngFile.take 40)).2 = 2 ∧
    (parsed (pngFile.take 33 ++ pngFile.drop 58)).2 = 2 := by decide +kernel

/-! ## States that meet the hypotheses of the obligations -/

/-- A stretch of zeros, at bit `k`. -/
def zerosAt (bytes k : Nat) (p : Phase) (e : Selector) : State := (mid (List.replicate bytes 0) p e).atBit k

theorem zerosAt_ok {bytes k : Nat} (h : bytes ≤ 100 ∧ k ≤ 8 * bytes) (p : Phase) (e : Selector) :
    ReaderOk (zerosAt bytes k p e) := by
  have hz : (mid (List.replicate bytes 0) p e).inSize.toNat = bytes := by
    show (BitVec.ofNat 32 (List.replicate bytes (0 : Byte)).length).toNat = bytes
    rw [List.length_replicate, BitVec.toNat_ofNat, Nat.mod_eq_of_lt (by omega)]
  refine (ReaderOk.place (s := mid (List.replicate bytes 0) p e) ?_ (by omega)).1
  show 0 + (mid (List.replicate bytes 0) p e).inSize.toNat ≤ 65536
  omega

theorem sinkOk_bytes (s : State) (bytes : List Byte) (h : bytes.length ≤ 1024) (hc : 1024 ≤ s.config.sinkLimit) :
    SinkOk (withBytes s bytes) := by
  refine ⟨?_, hc, .inr ⟨0, rfl⟩⟩
  show (BitVec.ofNat 32 bytes.length).toNat ≤ 1024
  rw [BitVec.toNat_ofNat]
  exact Nat.le_trans (Nat.mod_le _ _) h

theorem meets_DecodeEncodeAgree : (Instr.llRsvd 511).wf = true ∧ decodeSel .ll 511 = some (.llRsvd 511) ∧
    (Instr.cmdNop 0xFFFFFFFF).wf = true ∧ decodeSel .cl 18 = some .clZero11 := by decide

/-- The bits of a symbol, as the hypothesis of `StaticCodesFetchTheirSymbols` asks for them. -/
theorem bits_of {bits : List Bool} {p : Nat → Bool → Prop} (h : ∀ k, ∀ hk : k < bits.length, p k bits[k]) :
    ∀ k b, bits[k]? = some b → p k b := by
  intro k b hb
  obtain ⟨hk, rfl⟩ := List.getElem?_eq_some_iff.1 hb
  exact h k hk

theorem meets_StaticCodes_ll : ∃ (s : State) (d sym : Nat), ReaderOk s ∧ s.expect = .ll ∧ s.eng.lt = buildTable 288 fixedLitLen d ∧
    sym < 288 ∧ ∀ k b, (staticLitLenBits sym)[k]? = some b → k < s.bitsLeft ∧ s.streamBit (s.bitPos + k) = if b = true then 1 else 0 :=
  ⟨(mid [0xE3] .symbols .ll).atBit 0, 0, 287, (ReaderOk.place (by decide) (by decide)).1, rfl, rfl, by decide,
    bits_of (p := fun k b => k < _ ∧ _ = if b = true then 1 else 0) (by decide +kernel)⟩
theorem meets_StaticCodes_ds : ∃ (s : State) (d sym : Nat), ReaderOk s ∧ s.expect = .ds ∧ s.eng.dt = buildTable 32 fixedDistLen d ∧
    sym < 32 ∧ ∀ k b, (staticDistanceBits sym)[k]? = some b → k < s.bitsLeft ∧ s.streamBit (s.bitPos + k) = if b = true then 1 else 0 :=
  ⟨(mid [0xF8] .symbols .ds).atBit 3, 1, 31, (ReaderOk.place (by decide) (by decide)).1, rfl, rfl, by decide,
    bits_of (p := fun k b => k < _ ∧ _ = if b = true then 1 else 0) (by decide +kernel)⟩

theorem meets_Step_runs : ∃ (s t : State) (v : Nat) (i : Instr), s.script = [] ∧ s.runState = .busy ∧ fetchSelector s = .ok v t ∧
    decodeSel s.expect v = some i := ⟨checks 1 1 255 0 [] .depth, _, 255, .depthRsvd 255, rfl, rfl, rfl, rfl⟩
theorem meets_Step_raises : ∃ (s t : State) (e : Error), s.script = [] ∧ s.runState = .busy ∧ fetchSelector s = .raise e t :=
  ⟨mid [] .header .bh, _, .truncatedInput, rfl, rfl, rfl⟩
theorem meets_Step_command : ∃ (s : State) (rest : List HostAct) (v : Word) (i : Instr), s.script = .regWrite 4 0 v :: rest ∧
    decodeSel .cmd v.toNat = some i := ⟨host (.regWrite 4 0 2), [], 2, .recon, rfl, rfl⟩

theorem meets_BlockHeaderFetch : (∃ s, ReaderOk s ∧ s.expect = .bh ∧ s.bitsLeft = 3) ∧ ∃ s, ReaderOk s ∧ s.expect = .bh ∧ s.bitsLeft = 2 :=
  ⟨⟨zerosAt 1 5 .header .bh, zerosAt_ok (by decide) _ _, rfl, by decide +kernel⟩,
    ⟨zerosAt 1 6 .header .bh, zerosAt_ok (by decide) _ _, rfl, by decide +kernel⟩⟩

/-- The value an operation answers, if it does. -/
def answer {α : Type} (r : Res α) : Option α :=
  match r with
  | .ok v _ => some v
  | .raise _ _ => none
  | .fault _ => none

theorem ok_of_answer {α : Type} {r : Res α} {v : α} (h : answer r = some v) : ∃ t, r = .ok v t := by
  cases r with
  | ok w t => cases h; exact ⟨t, rfl⟩
  | raise e t => cases h
  | fault f => cases h

theorem meets_SelectorFetches_ok : (∃ s v t, s.expect = .ll ∧ decodeSymbol s.eng.lt s = .ok v t) ∧
    ∃ s v t, s.expect = .ds ∧ decodeSymbol s.eng.dt s = .ok v t ∧ v = 31 := by
  obtain ⟨t, ht⟩ := ok_of_answer (r := decodeSymbol (mid [0xE3] .symbols .ll).eng.lt (mid [0xE3] .symbols .ll)) (v := 287) (by decide +kernel)
  obtain ⟨u, hu⟩ := ok_of_answer (r := decodeSymbol (mid [0x1F] .symbols .ds).eng.dt (mid [0x1F] .symbols .ds)) (v := 31) (by decide +kernel)
  exact ⟨⟨_, _, t, rfl, ht⟩, ⟨_, _, u, rfl, hu, rfl⟩⟩
theorem meets_SelectorFetches_raise : (∃ s e t, s.expect = .ll ∧ decodeSymbol s.eng.lt s = .raise e t) ∧
    ∃ s e t, s.expect = .ds ∧ decodeSymbol s.eng.dt s = .raise e t :=
  ⟨⟨mid [] .symbols .ll, _, _, rfl, rfl⟩, ⟨mid [] .symbols .ds, _, _, rfl, rfl⟩⟩
theorem meets_SelectorFetches_sl : ∃ s : State, s.expect = .sl ∧
    s.eng.rcn.y.toNat * (s.eng.rcn.stride.toNat + 1) + 1 = s.config.sinkLimit :=
  ⟨rows 16384 4 3 2 [] [] [] .sl |> fun s => { s with config := ⟨65536, 3 * 49153 + 1, 65536⟩ }, rfl, by decide +kernel⟩

theorem meets_ReadBitsDelivers : (∃ s, ReaderOk s ∧ s.bitsLeft = 25) ∧ ∃ s, ReaderOk s ∧ s.bitsLeft = 24 :=
  ⟨⟨zerosAt 4 7 .header .bh, zerosAt_ok (by decide) _ _, by decide +kernel⟩, ⟨zerosAt 3 0 .header .bh, zerosAt_ok (by decide) _ _, by decide +kernel⟩⟩
theorem meets_AlignedReads : (∃ s : State, ReaderOk s ∧ s.eng.br.pos.toNat + 1 = s.inSize.toNat) ∧
    ∃ s : State, ReaderOk s ∧ s.inSize.toNat = s.eng.br.pos.toNat ∧ 0 < s.eng.br.cnt.toNat :=
  ⟨⟨zerosAt 2 3 .header .bh, zerosAt_ok (by decide) _ _, by decide +kernel⟩,
    ⟨zerosAt 2 11 .header .bh, zerosAt_ok (by decide) _ _, by decide +kernel, by decide +kernel⟩⟩

/-- A state and other contents of `IN` that agree with it in the slice only, for each of the three ways a step can end. -/
theorem meets_BytesOutside_next : ∃ (s : State) (m : Memory), (∀ a, s.inBase.toNat ≤ a → a < s.inBase.toNat + s.inSize.toNat →
    m.read a = s.inMem.read a) ∧ m ≠ s.inMem ∧ ∃ t, engineStep s = .next t := by
  refine ⟨mid [0x73] .header .bh, [(0, 0x73), (1, 0xFF)], ?_, by decide, _, rfl⟩
  intro a _ h
  have h : a < 0 + 1 := h
  obtain rfl : a = 0 := by omega
  decide
theorem meets_BytesOutside_stops : (∃ s f, engineStep s = .fault f) ∧ ∃ s r, engineStep s = .refused r := by
  refine ⟨⟨mid [] .header .cmd, _, rfl⟩, ⟨(mid [0] .dynhdr .cl).withEng { (mid [0] .dynhdr .cl).eng with ct := ⟨[1], [0], [200, 200]⟩ }, _, rfl⟩⟩

theorem meets_LengthsOk : LengthsOk 4 [15, 0, 15, 1] := by decide
theorem meets_LookupIdentity : ∃ (lengths : List Nat) (sym L : Nat), LengthsOk 4 lengths ∧ lengths[sym]? = some L ∧ L = 15 :=
  ⟨[15, 0, 15, 1], 2, 15, by decide, rfl, rfl⟩
theorem meets_CodeDecodes : ∃ (lengths : List Nat) (s : State) (sym L : Nat), LengthsOk 4 lengths ∧ ReaderOk s ∧ lengths[sym]? = some L ∧
    1 ≤ L ∧ L = s.bitsLeft ∧ s.streamCode s.bitPos L = codeOf lengths sym :=
  ⟨[2, 1, 3, 3], (mid [0x60] .symbols .ll).atBit 5, 2, 3, by decide, (ReaderOk.place (by decide) (by decide)).1, rfl, by decide,
    by decide +kernel, by decide +kernel⟩

/-- A slice of ones has no code of the table with the one code 0. -/
theorem ones_unmatched (s : State) (h : s.streamCode s.bitPos 1 = 1) : ∀ sym L, [1][sym]? = some L → 1 ≤ L → L ≤ s.bitsLeft →
    s.streamCode s.bitPos L ≠ codeOf [1] sym := by
  intro sym L hs h1 _
  obtain ⟨hk, hv⟩ := List.getElem?_eq_some_iff.1 hs
  obtain rfl : sym = 0 := by simpa using hk
  obtain rfl : 1 = L := hv
  rw [h]
  decide
theorem meets_Unmatched : (∃ s : State, ReaderOk s ∧ s.bitsLeft = 15 ∧ ∀ sym L, [1][sym]? = some L → 1 ≤ L → L ≤ s.bitsLeft →
      s.streamCode s.bitPos L ≠ codeOf [1] sym) ∧
    ∃ s : State, ReaderOk s ∧ s.bitsLeft = 14 ∧ ∀ sym L, [1][sym]? = some L → 1 ≤ L → L ≤ s.bitsLeft →
      s.streamCode s.bitPos L ≠ codeOf [1] sym :=
  ⟨⟨(mid [0xFF, 0xFF] .symbols .ll).atBit 1, (ReaderOk.place (by decide) (by decide)).1, by decide +kernel, ones_unmatched _ (by decide +kernel)⟩,
    ⟨(mid [0xFF, 0xFF] .symbols .ll).atBit 2, (ReaderOk.place (by decide) (by decide)).1, by decide +kernel, ones_unmatched _ (by decide +kernel)⟩⟩
/-- A table that agrees with a built one on its one filled slot and has no other. -/
theorem meets_UnfilledSlots : ∃ t : Table, LengthsOk 4 [1] ∧ t.maxCode = (buildTable 4 [1] 0).maxCode ∧
    t.offset = (buildTable 4 [1] 0).offset ∧ (∀ i, i < usedCount [1] → t.symbols[i]? = (buildTable 4 [1] 0).symbols[i]?) ∧
    t.symbols.length ≠ (buildTable 4 [1] 0).symbols.length := by
  refine ⟨⟨_, _, [0]⟩, by decide, rfl, rfl, fun i hi => ?_, by decide⟩
  obtain rfl : i = 0 := Nat.lt_one_iff.1 hi
  rfl
theorem meets_PrefixFree : (∀ l ∈ [1, 2, 15, 15], l ≤ 15) ∧ Kraft [1, 2, 15, 15] ∧ [1, 2, 15, 15][1]? = some 2 ∧
    [1, 2, 15, 15][3]? = some (2 + 13) ∧ Kraft [1, 1] := ⟨by decide, by unfold Kraft; decide, rfl, rfl, by unfold Kraft; decide⟩
theorem meets_Memory : Memory.wf [(3, 1), (65535, 2)] := by decide

theorem meets_Push_fails : ∃ s : State, SinkOk s ∧ s.config.Sized ∧ s.sinkLen = s.sinkCap ∧
    s.config.sinkLimit < max (s.sinkCap.toNat * 2) 1024 :=
  ⟨State.reset.withSink [] 65536 65536, ⟨by decide, by decide, .inr ⟨6, by decide⟩⟩, by decide, by decide, by decide⟩
theorem meets_Push_grows : ∃ s : State, SinkOk s ∧ s.config.Sized ∧ s.sinkLen = s.sinkCap ∧
    max (s.sinkCap.toNat * 2) 1024 = s.config.sinkLimit :=
  ⟨State.reset.withSink [] 32768 32768, ⟨by decide, by decide, .inr ⟨5, by decide⟩⟩, by decide, by decide, by decide⟩
theorem meets_Push_room : ∃ s : State, SinkOk s ∧ s.config.Sized ∧ s.sinkLen ≠ s.sinkCap :=
  ⟨withBytes State.reset [1], sinkOk_bytes _ _ (by decide) (by decide), by decide, by decide⟩
theorem meets_Capacity : ∃ (s : State) (n c : Nat), CapLegal s.sinkCap.toNat ∧ CapLegal c ∧ s.sinkCap.toNat ≤ c ∧ s.sinkLen.toNat + n ≤ c :=
  ⟨withBytes State.reset [1], 1024, 2048, .inr ⟨0, rfl⟩, .inr ⟨1, rfl⟩, by decide, by decide⟩

theorem meets_InflateStarts : (∃ s : State, s.runState ≠ .busy ∧ s.inBase.toNat + s.inSize.toNat = s.config.inLimit) ∧
    ∃ s : State, s.runState ≠ .busy ∧ s.inBase.toNat + s.inSize.toNat = s.config.inLimit + 1 :=
  ⟨⟨{ State.reset with inBase := 65535, inSize := 1 }, by decide, by decide⟩, ⟨{ State.reset with inBase := 65535, inSize := 2 }, by decide, by decide⟩⟩
theorem meets_ReconStarts : State.reset.runState ≠ .busy ∧ (mid [] .header .bh).runState = .busy := by decide

/-- P1's body after its header, over a slice that ends with the data. -/
def storedAt (slice : List Byte) : State := (mid slice .header .bh).atBit 3

theorem storedAt_sink (slice : List Byte) : SinkOk (storedAt slice) ∧ (storedAt slice).config.Sized ∧ (storedAt slice).sinkMem.wf :=
  ⟨⟨Nat.le_refl _, by show 0 ≤ _; omega, .inl rfl⟩, by show State.reset.config.Sized; decide, Memory.wf_nil⟩
theorem meets_StoredCopies : ∃ s : State, ReaderOk s ∧ SinkOk s ∧ s.config.Sized ∧ s.sinkMem.wf ∧
    s.eng.br.pos.toNat + 4 + (s.slicePair s.eng.br.pos.toNat).toNat = s.inSize.toNat ∧
    s.slicePair (s.eng.br.pos.toNat + 2) = ~~~ s.slicePair s.eng.br.pos.toNat ∧
    s.capAfter (s.slicePair s.eng.br.pos.toNat).toNat ≤ s.config.sinkLimit :=
  ⟨storedAt [0x01, 0x03, 0x00, 0xFC, 0xFF, 0x41, 0x42, 0x43], (ReaderOk.place (by decide) (by decide)).1, (storedAt_sink _).1, (storedAt_sink _).2.1,
    (storedAt_sink _).2.2, by decide +kernel, by decide +kernel, by decide +kernel⟩
theorem meets_StoredFails_length : (∃ s : State, ReaderOk s ∧ s.last = 1 ∧ s.phase = .header ∧ s.inSize.toNat + 1 = s.eng.br.pos.toNat + 4) ∧
    ∃ s : State, ReaderOk s ∧ s.last = 1 ∧ s.phase = .header ∧ s.eng.br.pos.toNat + 4 = s.inSize.toNat ∧
      s.slicePair (s.eng.br.pos.toNat + 2) ≠ ~~~ s.slicePair s.eng.br.pos.toNat :=
  ⟨⟨storedAt [0x01, 0x03, 0x00, 0xFC], (ReaderOk.place (by decide) (by decide)).1, rfl, rfl, by decide +kernel⟩,
    ⟨storedAt [0x01, 0x03, 0x00, 0xFC, 0xFE], (ReaderOk.place (by decide) (by decide)).1, rfl, rfl, by decide +kernel, by decide +kernel⟩⟩
theorem meets_StoredFails_data : (∃ s : State, ReaderOk s ∧ s.last = 1 ∧ s.phase = .header ∧ s.eng.br.pos.toNat + 4 ≤ s.inSize.toNat ∧
      s.slicePair (s.eng.br.pos.toNat + 2) = ~~~ s.slicePair s.eng.br.pos.toNat ∧
      s.inSize.toNat - (s.eng.br.pos.toNat + 4) + 1 = (s.slicePair s.eng.br.pos.toNat).toNat ∧
      s.capAfter (s.inSize.toNat - (s.eng.br.pos.toNat + 4)) ≤ s.config.sinkLimit) ∧
    ∃ s : State, ReaderOk s ∧ s.config.Sized ∧ s.eng.br.pos.toNat + 4 ≤ s.inSize.toNat ∧
      s.slicePair (s.eng.br.pos.toNat + 2) = ~~~ s.slicePair s.eng.br.pos.toNat ∧
      s.inSize.toNat - (s.eng.br.pos.toNat + 4) + 1 = (s.slicePair s.eng.br.pos.toNat).toNat ∧
      s.config.sinkLimit + 1 =
        s.capAfter (min (s.slicePair s.eng.br.pos.toNat).toNat (s.inSize.toNat - (s.eng.br.pos.toNat + 4))) :=
  ⟨⟨storedAt [0x01, 0x03, 0x00, 0xFC, 0xFF, 0x41, 0x42], (ReaderOk.place (by decide) (by decide)).1, rfl, rfl, by decide +kernel, by decide +kernel,
      by decide +kernel, by decide +kernel⟩,
    ⟨State.atBit { mid [0x01, 0x02, 0x00, 0xFD, 0xFF, 0x41] .header .bh with config := ⟨65536, 1023, 65536⟩ } 3,
      (ReaderOk.place (by decide) (by decide)).1,
      by decide, by decide +kernel, by decide +kernel, by decide +kernel, by decide +kernel⟩⟩

/-- A header whose count of code-length-code lengths is 4: 14 + 12 bits. -/
theorem meets_Dynamic : (∃ s : State, ReaderOk s ∧ 14 + 3 * (s.streamField (s.bitPos + 10) 4 + 4) = s.bitsLeft) ∧
    (∃ s : State, ReaderOk s ∧ s.bitsLeft = 13 ∧ s.last = 1 ∧ s.phase = .header) ∧
    ∃ s : State, ReaderOk s ∧ s.bitsLeft + 1 = 14 + 3 * (s.streamField (s.bitPos + 10) 4 + 4) ∧ s.last = 1 ∧ s.phase = .header :=
  ⟨⟨zerosAt 4 6 .header .bh, zerosAt_ok (by decide) _ _, by decide +kernel⟩,
    ⟨zerosAt 4 19 .header .bh, zerosAt_ok (by decide) _ _, by decide +kernel, rfl, rfl⟩,
    ⟨zerosAt 4 7 .header .bh, zerosAt_ok (by decide) _ _, by decide +kernel, rfl, rfl⟩⟩

/-- A header under way with `NL` and the bits that follow. -/
def headerAt (bytes k nl : Nat) : State :=
  ((mid (List.replicate bytes 0) .dynhdr .cl).withHdr ⟨257, 1, 19, List.replicate 19 5, List.replicate 320 1, BitVec.ofNat 9 nl⟩).atBit k

theorem headerAt_ok {bytes k nl : Nat} (h : bytes ≤ 100 ∧ k ≤ 8 * bytes) : ReaderOk (headerAt bytes k nl) := by
  have hz : ((mid (List.replicate bytes 0) .dynhdr .cl).withHdr
      ⟨257, 1, 19, List.replicate 19 5, List.replicate 320 1, BitVec.ofNat 9 nl⟩).inSize.toNat = bytes := by
    show (BitVec.ofNat 32 (List.replicate bytes (0 : Byte)).length).toNat = bytes
    rw [List.length_replicate, BitVec.toNat_ofNat, Nat.mod_eq_of_lt (by omega)]
  refine (ReaderOk.place ?_ (by omega)).1
  rw [hz]
  show 0 + bytes ≤ 65536
  omega
theorem headerAt_lens (bytes k nl : Nat) : (headerAt bytes k nl).eng.hdr.lens.length = 320 ∧ (headerAt bytes k nl).lengthsWanted = 258 :=
  ⟨List.length_replicate, rfl⟩
theorem meets_CodeLengths_len : ∃ s : State, ReaderOk s ∧ s.eng.hdr.lens.length = 320 ∧ s.lengthsWanted ≤ 320 ∧
    s.eng.hdr.nl.toNat + 1 = s.lengthsWanted :=
  ⟨headerAt 1 0 257, headerAt_ok (by decide), (headerAt_lens _ _ _).1, by rw [(headerAt_lens _ _ _).2]; decide, by rw [(headerAt_lens _ _ _).2]; rfl⟩
theorem meets_CodeLengths_runs :
    (∃ s : State, ReaderOk s ∧ 1 ≤ s.eng.hdr.nl.toNat ∧ 2 = s.bitsLeft ∧
      s.eng.hdr.nl.toNat + (3 + s.streamField s.bitPos 2) = s.lengthsWanted) ∧
    (∃ s : State, ReaderOk s ∧ 3 = s.bitsLeft ∧ s.eng.hdr.nl.toNat + (3 + s.streamField s.bitPos 3) = s.lengthsWanted) ∧
    ∃ s : State, ReaderOk s ∧ 7 = s.bitsLeft ∧ s.eng.hdr.nl.toNat + (11 + s.streamField s.bitPos 7) = s.lengthsWanted :=
  ⟨⟨headerAt 1 6 255, headerAt_ok (by decide), by decide +kernel, by decide +kernel, by decide +kernel⟩,
    ⟨headerAt 1 5 255, headerAt_ok (by decide), by decide +kernel, by decide +kernel⟩,
    ⟨headerAt 1 1 247, headerAt_ok (by decide), by decide +kernel, by decide +kernel⟩⟩
theorem meets_CodeLengthRunsFail_early : (headerAt 1 0 0).eng.hdr.nl.toNat = 0 ∧
    (∃ s : State, ReaderOk s ∧ 1 = s.eng.hdr.nl.toNat ∧ s.bitsLeft = 1) ∧ (∃ s : State, ReaderOk s ∧ s.bitsLeft = 2) ∧
    ∃ s : State, ReaderOk s ∧ s.bitsLeft = 6 :=
  ⟨rfl, ⟨headerAt 1 7 1, headerAt_ok (by decide), by decide +kernel, by decide +kernel⟩, ⟨headerAt 1 6 0, headerAt_ok (by decide), by decide +kernel⟩,
    ⟨headerAt 1 2 0, headerAt_ok (by decide), by decide +kernel⟩⟩
theorem meets_CodeLengthRunsFail_late :
    (∃ s : State, ReaderOk s ∧ 1 ≤ s.eng.hdr.nl.toNat ∧ s.eng.hdr.nl.toNat ≤ 320 ∧ 2 = s.bitsLeft ∧
      s.lengthsWanted + 1 = s.eng.hdr.nl.toNat + (3 + s.streamField s.bitPos 2)) ∧
    (∃ s : State, ReaderOk s ∧ 3 = s.bitsLeft ∧ s.lengthsWanted + 1 = s.eng.hdr.nl.toNat + (3 + s.streamField s.bitPos 3)) ∧
    ∃ s : State, ReaderOk s ∧ 7 = s.bitsLeft ∧ s.lengthsWanted + 1 = s.eng.hdr.nl.toNat + (11 + s.streamField s.bitPos 7) :=
  ⟨⟨headerAt 1 6 256, headerAt_ok (by decide), by decide +kernel, by decide +kernel, by decide +kernel, by decide +kernel⟩,
    ⟨headerAt 1 5 256, headerAt_ok (by decide), by decide +kernel, by decide +kernel⟩,
    ⟨headerAt 1 1 248, headerAt_ok (by decide), by decide +kernel, by decide +kernel⟩⟩
theorem meets_HeaderEnds : (headerAt 0 0 257).eng.hdr.nl.toNat + 1 = (headerAt 0 0 257).eng.hdr.hlit.toNat + (headerAt 0 0 257).eng.hdr.hdist.toNat ∧
    (headerAt 0 0 258).eng.hdr.hlit.toNat + (headerAt 0 0 258).eng.hdr.hdist.toNat = (headerAt 0 0 258).eng.hdr.nl.toNat := by decide +kernel

theorem meets_Literal : (∃ s : State, SinkOk s ∧ s.config.Sized ∧ s.capAfter 1 = s.config.sinkLimit) ∧
    ∃ s : State, SinkOk s ∧ s.config.Sized ∧ s.config.sinkLimit < s.capAfter 1 :=
  ⟨⟨State.reset.withSink [] 32768 32768, ⟨by decide, by decide, .inr ⟨5, by decide⟩⟩, by decide, by decide +kernel⟩,
    ⟨State.reset.withSink [] 65536 65536, ⟨by decide, by decide, .inr ⟨6, by decide⟩⟩, by decide, by decide +kernel⟩⟩
theorem meets_EndOfBlock : ((mid [] .symbols .ll).withHeaderFlags 1 0).eng.bfinal = 1 ∧ (mid [] .symbols .ll).eng.bfinal ≠ 1 := by decide +kernel

theorem meets_LengthSymbols : (∃ s : State, ReaderOk s ∧ 5 = s.bitsLeft) ∧ ∃ s : State, ReaderOk s ∧ s.bitsLeft = 4 :=
  ⟨⟨zerosAt 1 3 .symbols .ll, zerosAt_ok (by decide) _ _, by decide +kernel⟩, ⟨zerosAt 1 4 .symbols .ll, zerosAt_ok (by decide) _ _, by decide +kernel⟩⟩

/-- A distance's extra bits, all 1, over a sink of the given length. -/
def distanceAt (k len cap : Nat) : State :=
  (((mid [0xFF, 0xFF] .symbols .ds).withSink [] len cap).withBlk ⟨0, 258, 0, 0, 0⟩).atBit k

theorem distanceAt_ok {k len cap : Nat} (h : k ≤ 16) : ReaderOk (distanceAt k len cap) :=
  (ReaderOk.place (s := ((mid [0xFF, 0xFF] .symbols .ds).withSink [] len cap).withBlk ⟨0, 258, 0, 0, 0⟩)
    (by show 0 + 2 ≤ 65536; omega) (by show k ≤ 8 * 2; omega)).1
/-- The largest distance, the whole sink long. -/
theorem meets_DistanceCopies : ∃ s : State, ReaderOk s ∧ SinkOk s ∧ s.config.Sized ∧ s.sinkMem.wf ∧ 13 = s.bitsLeft ∧
    24577 + s.streamField s.bitPos 13 = s.sinkLen.toNat ∧ s.capAfter s.eng.blk.length.toNat = s.config.sinkLimit :=
  ⟨distanceAt 3 32768 32768, distanceAt_ok (by decide), ⟨by decide, by decide, .inr ⟨5, by decide⟩⟩, by decide, Memory.wf_nil,
    by decide +kernel, by decide +kernel, by decide +kernel⟩
theorem meets_DistanceFails :
    (∃ s : State, ReaderOk s ∧ s.last = 1 ∧ s.bitsLeft + 1 = 13) ∧
    (∃ s : State, ReaderOk s ∧ s.last = 1 ∧ 13 = s.bitsLeft ∧ s.sinkLen.toNat + 1 = 24577 + s.streamField s.bitPos 13) ∧
    ∃ s : State, ReaderOk s ∧ s.last = 1 ∧ 13 = s.bitsLeft ∧ 24577 + s.streamField s.bitPos 13 ≤ s.sinkLen.toNat ∧
      s.config.sinkLimit < s.capAfter s.eng.blk.length.toNat :=
  ⟨⟨distanceAt 4 0 0, distanceAt_ok (by decide), rfl, by decide +kernel⟩,
    ⟨distanceAt 3 32767 32768, distanceAt_ok (by decide), rfl, by decide +kernel, by decide +kernel⟩,
    ⟨distanceAt 3 65279 65536, distanceAt_ok (by decide), rfl, by decide +kernel, by decide +kernel, by decide +kernel⟩⟩
theorem meets_BackReference : ∃ s : State, SinkOk s ∧ s.config.Sized ∧ s.sinkMem.wf ∧ 1 ≤ s.eng.blk.dist.toNat ∧
    s.eng.blk.dist.toNat = s.sinkLen.toNat ∧ s.capAfter s.eng.blk.length.toNat ≤ s.config.sinkLimit :=
  ⟨(withBytes (mid [] .symbols .ds) [7]).withBlk ⟨0, 258, 0, 1, 0⟩, ⟨by decide, by decide, .inr ⟨0, by decide⟩⟩, by decide, by decide,
    by decide +kernel, by decide +kernel, by decide +kernel⟩
theorem meets_BackReference_fails : (∃ s : State, s.eng.blk.dist.toNat = s.sinkLen.toNat + 1) ∧ (∃ s : State, s.eng.blk.dist.toNat = 0) ∧
    ∃ s : State, 1 ≤ s.eng.blk.dist.toNat ∧ s.eng.blk.dist.toNat ≤ s.sinkLen.toNat ∧
      s.config.sinkLimit < s.capAfter s.eng.blk.length.toNat :=
  ⟨⟨(withBytes (mid [] .symbols .ds) [7]).withBlk ⟨0, 258, 0, 2, 0⟩, by decide +kernel⟩, ⟨State.reset, rfl⟩,
    ⟨(State.reset.withSink [] 65536 65536).withBlk ⟨0, 1, 0, 1, 0⟩, by decide, by decide, by decide +kernel⟩⟩

/-- The checks at their boundaries: a size of 0, one byte too much output, one byte too little data, and both exactly enough. -/
theorem meets_ReconChecks : (checks 0 5 8 0 [] .ctype).imgWidth.toNat = 0 ∧ (checks 0 5 8 0 [] .ctype).phase = .rcheck ∧
    (checks 1 16385 8 6 [] .ctype).config.pixLimit + 4 = (checks 1 16385 8 6 [] .ctype).imgWidth.toNat * (checks 1 16385 8 6 [] .ctype).imgHeight.toNat * 4 ∧
    (checks 1 1 8 6 [0, 1, 2, 3] .ctype).sinkLen.toNat + 1 = 1 * (1 * 4 + 1) ∧ (checks 1 1 8 6 [0, 1, 2, 3, 4] .ctype).sinkLen.toNat = 1 * (1 * 4 + 1) ∧
    (checks 1 16384 8 6 [] .ctype).imgWidth.toNat * (checks 1 16384 8 6 [] .ctype).imgHeight.toNat * 4 =
      (checks 1 16384 8 6 [] .ctype).config.pixLimit := by decide +kernel
theorem meets_Filters : ∃ s : State, RowReady s ∧ s.eng.rcn.y ≠ 0 :=
  ⟨rows 3 2 1 0 [0, 0, 0, 0, 1, 5, 5, 5] [1, 2, 3] [] .sl, ⟨by decide +kernel, by decide +kernel, by decide +kernel⟩, by decide +kernel⟩
/-- One case of each branch of the predictor: its distances. -/
theorem meets_Paeth : |(10 : Int) + 10 - 10 - 10| ≤ |(10 : Int) + 10 - 10 - 10| ∧
    ¬ (|(0 : Int) + 7 - 0 - 0| ≤ |(0 : Int) + 7 - 0 - 7| ∧ |(0 : Int) + 7 - 0 - 0| ≤ |(0 : Int) + 7 - 0 - 0|) ∧
    |(0 : Int) + 7 - 0 - 7| ≤ |(0 : Int) + 7 - 0 - 0| ∧ ¬ |(100 : Int) + 50 - 70 - 50| ≤ |(100 : Int) + 50 - 70 - 70| := by decide
theorem meets_Formatters : ∃ s : State, s.phase = .rows ∧ s.eng.rcn.bpp.toNat = 4 ∧ s.eng.rcn.cur.length = s.imgWidth.toNat * 4 ∧
    (s.eng.rcn.y.toNat + 1) * s.imgWidth.toNat * 4 = s.config.pixLimit :=
  ⟨rows 1 16384 16383 6 [] [] [1, 2, 3, 4] .ctype, rfl, by decide +kernel, by decide +kernel, by decide +kernel⟩
theorem meets_EndOfRow : (rows 1 3 1 0 [] [] [] .ctype).eng.rcn.y.toNat + 1 + 1 = (rows 1 3 1 0 [] [] [] .ctype).imgHeight.toNat ∧
    (rows 1 3 2 0 [] [] [] .ctype).imgHeight.toNat = (rows 1 3 2 0 [] [] [] .ctype).eng.rcn.y.toNat + 1 := by decide +kernel
theorem meets_RaiseError : (mid [] .header .bh).last = 1 ∧ (checks 1 1 8 0 [] .depth).last = 2 := by decide

theorem next_of_ends {o : Host.Outcome State Fault Refusal} {p : State → Bool} (h : ends o p = true) : ∃ t, o = .next t ∧ p t = true := by
  cases o with
  | next t => exact ⟨t, rfl, h⟩
  | fault f => cases h
  | refused r => cases h

theorem below_load {bytes : List Byte} {n : Nat} (h : bytes.length ≤ n) : Memory.below (Memory.load [] 0 bytes) n :=
  Memory.load_below (fun _ h => by cases h) _ (by omega)

theorem running_mid {bytes : List Byte} (h : bytes.length ≤ 65536) (p : Phase) (e : Selector) : Running (mid bytes p e) := by
  refine ⟨by show State.reset.config.Sized; decide, ⟨fun sp => ?_, fun sp => ?_⟩, rfl, rfl, .inl rfl,
    ⟨Nat.le_refl _, by show 0 ≤ _; omega, .inl rfl⟩, ⟨List.length_replicate, List.length_replicate⟩, by show 0 < _; omega, by show 0 ≤ _; omega⟩
  · cases sp with
    | input => exact Memory.load_wf Memory.wf_nil _ _
    | sink => exact Memory.wf_nil
    | pix => exact Memory.wf_nil
  · cases sp with
    | input => exact below_load h
    | sink => intro c hc; cases hc
    | pix => intro c hc; cases hc

theorem built_fixed (bytes : List Byte) (p : Phase) (e : Selector) :
    Built 288 (mid bytes p e).eng.lt ∧ Built 32 (mid bytes p e).eng.dt :=
  ⟨⟨_, _, lengthsOk_fixedLitLen, rfl⟩, ⟨_, _, lengthsOk_fixedDistLen, rfl⟩⟩

theorem reader_mid {bytes : List Byte} (h : bytes.length ≤ 65536) (p : Phase) (e : Selector) : ReaderOk (mid bytes p e) := by
  refine ⟨?_, Nat.zero_le _, Nat.zero_le _, Nat.zero_le _, rfl⟩
  show 0 + (BitVec.ofNat 32 bytes.length).toNat ≤ 65536
  rw [BitVec.toNat_ofNat, Nat.mod_eq_of_lt (by omega)]
  omega

/-- A legal state in each place a command can be in, and a waiting one. -/
theorem meets_Inv_waiting : Inv { State.reset with runState := .done, last := 1, phase := .done } :=
  ⟨by show State.reset.config.Sized; decide,
    ⟨fun sp => by cases sp <;> exact Memory.wf_nil, fun sp => by cases sp <;> (intro c hc; cases hc)⟩,
    ⟨rfl, by decide, (fun h => absurd h (by decide)), fun _ => by decide⟩, ⟨Nat.le_refl _, by show 0 ≤ _; omega, .inl rfl⟩,
    ⟨List.length_replicate, List.length_replicate⟩, by show 0 < _; omega, by show 0 ≤ _; omega, ⟨rfl, .inr (.inl ⟨rfl, rfl⟩)⟩⟩
/-- The sizes, memories, tables and line buffers after reset that the spec leaves open: one byte each, at the last address. -/
theorem meets_ResetIsLegal : (⟨1, 1, 1⟩ : Config).Sized ∧ MemoryOk { State.reset with
    config := ⟨1, 1, 1⟩, inMem := [(0, 7)], sinkMem := [(0, 7)], pixMem := [(0, 7)]
    eng := { State.reset.eng with
      lt := Table.atReset 0, dt := Table.atReset 0, ct := Table.atReset 0
      rcn := { State.reset.eng.rcn with prev := [7], cur := [7] } } } := by
  refine ⟨by decide, ⟨fun sp => ?_, fun sp => ?_⟩⟩ <;> cases sp <;> simp [State.mem, State.limit, Memory.wf, unlistedByte]
theorem meets_Inv_header {bytes : List Byte} (h : bytes.length ≤ 65536) : Inv (mid bytes .header .bh) :=
  (running_mid h _ _).inv (.inl ⟨rfl, reader_mid h _ _, .inl ⟨rfl, rfl⟩⟩)
theorem meets_Inv_symbols {bytes : List Byte} (h : bytes.length ≤ 65536) (f b : Nat) :
    Inv ((mid bytes .symbols .ll).withHeaderFlags f b) :=
  ((running_mid h _ _).withHeaderFlags f b).inv (.inl ⟨rfl, (reader_mid h .symbols .ll).congr rfl rfl rfl rfl rfl,
    .inr (.inr ⟨rfl, (built_fixed bytes .symbols .ll).1, (built_fixed bytes .symbols .ll).2, .inl rfl⟩)⟩)
theorem meets_Inv_distance {bytes : List Byte} (h : bytes.length ≤ 65536) : Inv ((mid bytes .symbols .ds).withBlk ⟨257, 258, 0, 0, 0⟩) :=
  ((running_mid h _ _).withBlk _).inv (.inl ⟨rfl, (reader_mid h .symbols .ds).congr rfl rfl rfl rfl rfl,
    .inr (.inr ⟨rfl, (built_fixed bytes .symbols .ds).1, (built_fixed bytes .symbols .ds).2,
      .inr ⟨rfl, by show 3 ≤ (258 : BitVec 9).toNat; decide, by show (258 : BitVec 9).toNat ≤ 258; decide⟩⟩)⟩)
theorem meets_Inv_dynhdr : Inv (header (bitsHigh 5 8) 257) := by
  have h : (packBits (bitsHigh 5 8).length (bitsHigh 5 8)).length ≤ 65536 := by decide
  refine (((running_mid h .dynhdr .cl).buildCt _).withHdr _ ?_ ?_).inv (.inl ⟨rfl, (reader_mid h .dynhdr .cl).congr rfl rfl rfl rfl rfl,
    .inr (.inl ⟨rfl, rfl, ⟨⟨List.replicate 19 5, _, by decide, rfl⟩, by decide, by decide, by decide⟩⟩)⟩)
  · exact List.length_replicate
  · show (((List.replicate 320 (1 : BitVec 4)).set 0 8).set 255 8).length = 320
    rw [List.length_set, List.length_set, List.length_replicate]

theorem running_checks (w h depth ctype : Nat) (hf : depth + 256 * ctype < 2 ^ 16) {sink : List Byte} (hs : sink.length ≤ 1024) (e : Selector) :
    Running (checks w h depth ctype sink e) := by
  have hl := (sinkOk_bytes State.reset sink hs (by decide))
  refine ⟨by show State.reset.config.Sized; decide, ⟨fun sp => ?_, fun sp => ?_⟩, rfl, rfl, .inr rfl,
    ⟨hl.len, hl.cap, hl.legal⟩, ⟨List.length_replicate, List.length_replicate⟩, ?_, by show 0 ≤ _; omega⟩
  · cases sp with
    | input => exact Memory.wf_nil
    | sink => exact Memory.load_wf Memory.wf_nil _ _
    | pix => exact Memory.wf_nil
  · cases sp with
    | input => intro c hc; cases hc
    | sink => exact below_load (by show _ ≤ 65536; omega)
    | pix => intro c hc; cases hc
  · show (BitVec.ofNat 32 (depth + 256 * ctype)).toNat < 2 ^ 16
    rw [BitVec.toNat_ofNat, Nat.mod_eq_of_lt (by omega)]
    exact hf
theorem meets_Inv_rcheck : Inv (checks 3 5 16 0 [] .depth) ∧ Inv (checks 3 5 8 3 [] .ctype) :=
  ⟨(running_checks 3 5 16 0 (by decide) (by decide) _).inv (.inr ⟨rfl, .inl ⟨rfl, rfl⟩⟩),
    (running_checks 3 5 8 3 (by decide) (by decide) _).inv (.inr ⟨rfl, .inr (.inl ⟨rfl, rfl, by decide⟩)⟩)⟩

theorem running_rows (w h y ctype : Nat) (hf : ctype < 256) {sink : List Byte} (hs : sink.length ≤ 1024) (prev cur : List Byte) (e : Selector) :
    Running (rows w h y ctype sink prev cur e) := by
  have hr := (running_checks w h 8 ctype (by omega) hs e).withRcn
    ⟨BitVec.ofNat 3 (bppOf (BitVec.ofNat 8 ctype)), BitVec.ofNat 34 (w * bppOf (BitVec.ofNat 8 ctype)), BitVec.ofNat 32 y, 0, 0, prev, cur⟩
  exact ⟨hr.sized, ⟨hr.memory.wf, hr.memory.size⟩, hr.busy, hr.err, hr.last, ⟨hr.sink.len, hr.sink.cap, hr.sink.legal⟩,
    ⟨hr.files.cll, hr.files.lens⟩, hr.format, hr.pixLen⟩
theorem meets_Inv_rows : Inv (rows 1 2 1 6 (List.replicate 10 1) [1, 2, 3, 4] [] .sl) ∧
    Inv (rows 1 2 1 6 (List.replicate 10 1) [1, 2, 3, 4] [5, 6, 7, 8] .ctype) :=
  ⟨(running_rows 1 2 1 6 (by decide) (by decide) _ _ _).inv (.inr ⟨rfl, .inr (.inr ⟨rfl, by decide, ⟨by decide, by decide, by decide, by decide,
      by decide, by decide, by decide, fun _ => by decide⟩, .inl rfl⟩)⟩),
    (running_rows 1 2 1 6 (by decide) (by decide) _ _ _).inv (.inr ⟨rfl, .inr (.inr ⟨rfl, by decide, ⟨by decide, by decide, by decide, by decide,
      by decide, by decide, by decide, fun _ => by decide⟩, .inr ⟨rfl, by decide⟩⟩)⟩)⟩

/-- A legal step, of a BUSY machine with a silent host: the premises of the whole-machine statements. -/
theorem meets_step : ∃ s t : State, Inv s ∧ s.runState = .busy ∧ s.script = [] ∧ s.last = 1 ∧ step s = .next t ∧ t.runState ≠ .error := by
  obtain ⟨t, ht, h⟩ := next_of_ends (o := step (mid [0x73] .header .bh)) (p := fun t => t.runState != .error) (by decide +kernel)
  exact ⟨_, t, meets_Inv_header (by decide), rfl, rfl, rfl, ht, by simpa using h⟩
theorem meets_step_error : ∃ s t : State, Inv s ∧ s.runState = .busy ∧ s.script = [] ∧ step s = .next t ∧ t.runState = .error := by
  obtain ⟨t, ht, h⟩ := next_of_ends (o := step (mid [0x07] .header .bh)) (p := fun t => t.runState == .error) (by decide +kernel)
  exact ⟨_, t, meets_Inv_header (by decide), rfl, rfl, ht, by simpa using h⟩
theorem meets_step_done_inflate : ∃ s t : State, Inv s ∧ s.runState = .busy ∧ s.script = [] ∧ s.last = 1 ∧ step s = .next t ∧ t.runState = .done := by
  obtain ⟨t, ht, h⟩ := next_of_ends (o := step ((mid [0] .symbols .ll).withHeaderFlags 1 1)) (p := fun t => t.runState == .done) (by decide +kernel)
  exact ⟨_, t, meets_Inv_symbols (by decide) 1 1, rfl, rfl, rfl, ht, by simpa using h⟩
theorem meets_step_done_recon : ∃ s t : State, Inv s ∧ s.runState = .busy ∧ s.script = [] ∧ s.last = 2 ∧ step s = .next t ∧ t.runState = .done := by
  obtain ⟨t, ht, h⟩ := next_of_ends (o := step (rows 1 2 1 6 (List.replicate 10 1) [1, 2, 3, 4] [5, 6, 7, 8] .ctype))
    (p := fun t => t.runState == .done) (by decide +kernel)
  exact ⟨_, t, meets_Inv_rows.2, rfl, rfl, rfl, ht, by simpa using h⟩
theorem meets_EveryCommandEnds : (∃ t, State.reset.runState ≠ .busy ∧ exec .inflate State.reset = .next t ∧ t.runState = .busy) ∧
    ∃ t, exec .recon State.reset = .next t := ⟨⟨_, by decide, rfl, rfl⟩, _, rfl⟩
theorem meets_WaitingStates : ∃ s t : State, s.runState ≠ .busy ∧ (∀ v rest, s.script ≠ .regWrite 4 0 v :: rest) ∧
    (∀ rest, s.script ≠ .assertReset :: rest) ∧ (∀ rest, s.script ≠ .assertResetWithin :: rest) ∧ step s = .next t := by
  refine ⟨{ host (.regWrite 4 8 7) with runState := .error, err := 6, last := 1, phase := .error }, _, by decide, ?_, ?_, ?_, rfl⟩
  · intro v rest h; cases h
  · intro rest h; cases h
  · intro rest h; cases h

/-- Host accesses at their boundaries: the last register offset, a width and an offset without meaning, and the last address of a
memory and the first past it. -/
theorem meets_host : (host (.regRead 4 0xFFC)).script = .regRead 4 0xFFC :: [] ∧ 0xFFC < 4096 ∧ 0xFFC % 4 = 0 ∧
    (2 ≠ 4 ∧ 0x02 % 4 ≠ 0) ∧ 4096 ≤ 4096 ∧ 65535 < State.reset.limit .pix ∧ State.reset.limit .pix ≤ 65536 ∧
    (host (.regWrite 4 8 1)).runState ≠ .busy := by decide
theorem meets_host_busy : ∃ s : State, s.runState = .busy ∧ s.script = .regRead 4 0x28 :: [] :=
  ⟨{ mid [] .header .bh with script := [.regRead 4 0x28] }, rfl, rfl⟩
theorem meets_Reset : (∃ (s t : State) (rest : List HostAct), s.script = .assertReset :: rest ∧ step s = .next t ∧ s.runState ≠ .busy) ∧
    ∃ (s t : State) (rest : List HostAct), s.script = .assertResetWithin :: rest ∧ step s = .next t ∧ s.runState ≠ .busy :=
  ⟨⟨host .assertReset, _, [], rfl, rfl, by decide⟩, ⟨host .assertResetWithin, _, [], rfl, rfl, by decide⟩⟩
theorem meets_Reset_busy : ∃ (s : State) (rest : List HostAct), s.script = .assertReset :: rest ∧ s.runState = .busy ∧ s.sinkMem.wf ∧
    s.pixMem.wf ∧ s.sinkWritten = 1 :=
  ⟨{ withBytes (mid [] .symbols .ll) [7] with script := [.assertReset] }, [], rfl, rfl, by decide, by decide, by decide⟩
/-- A reset within the last row's formatter, which would end DONE, and within the last copy of an INFLATE. -/
theorem meets_Reset_within : (∃ (s u : State) (rest : List HostAct), s.script = .assertResetWithin :: rest ∧ s.runState = .busy ∧
      engineStep { s with script := rest } = .next u ∧ u.sinkMem.wf ∧ u.pixMem.wf ∧ u.pixTouched = 4) ∧
    ∃ (s u : State) (rest : List HostAct), s.script = .assertResetWithin :: rest ∧ s.runState = .busy ∧
      engineStep { s with script := rest } = .next u ∧ u.sinkMem.wf ∧ u.pixMem.wf ∧ u.sinkTouched = 1 := by
  obtain ⟨u, hu, h⟩ := next_of_ends (o := engineStep (rows 1 1 0 0 [] [] [0x0A] .ctype))
    (p := fun u => decide (u.sinkMem.wf ∧ u.pixMem.wf ∧ u.pixTouched = 4)) (by decide +kernel)
  obtain ⟨v, hv, k⟩ := next_of_ends (o := engineStep (mid [0x01, 0x01, 0x00, 0xFE, 0xFF, 0x41] .header .bh))
    (p := fun u => decide (u.sinkMem.wf ∧ u.pixMem.wf ∧ u.sinkTouched = 1)) (by decide +kernel)
  exact ⟨⟨{ rows 1 1 0 0 [] [] [0x0A] .ctype with script := [.assertResetWithin] }, u, [], rfl, rfl, hu, of_decide_eq_true h⟩,
    ⟨{ mid [0x01, 0x01, 0x00, 0xFE, 0xFF, 0x41] .header .bh with script := [.assertResetWithin] }, v, [], rfl, rfl, hv, of_decide_eq_true k⟩⟩

/-- A push in which `SINK_LEN` wraps leaves every byte below 2^32 written (R345, U8), and the last row of an image of 2^32 bytes, whose
`PIX_LEN` wraps to 0, leaves all of them written (U14). -/
def wrapping : State := { withBytes (mid [] .symbols .ll) [7] with
  config := ⟨65536, 2 ^ 33, 2 ^ 32⟩, sinkLen := 0xFFFFFFFF, sinkCap := 0 }
theorem meets_Errors_push : ∃ t, wrapping.phase ∈ [Phase.header, .stored, .dynhdr, .symbols] ∧ push 9 wrapping = .ok () t ∧
    t.sinkLen = 0 ∧ t.sinkWritten = 2 ^ 32 ∧ wrapping.sinkWritten = 2 ^ 32 - 1 ∧ wrapping.last = 1 ∧ wrapping.sinkMem.wf :=
  ⟨_, by decide, rfl, by decide, by decide +kernel, by decide +kernel, by decide, by decide⟩
/-- A RECON of 32768 by 32768 pixels in the last row. -/
def lastRow : State := { rows 32768 32768 32767 6 [] [] [] .ctype with config := ⟨65536, 65536, 2 ^ 32⟩ }
theorem meets_Errors_row : lastRow.last = 2 ∧ lastRow.phase = .rows ∧ lastRow.runState = .busy ∧ lastRow.pixMem.wf ∧
    lastRow.eng.rcn.y.toNat < lastRow.imgHeight.toNat ∧
    (lastRow.eng.rcn.y.toNat + 1) * lastRow.imgWidth.toNat * 4 ≤ lastRow.config.pixLimit ∧
    lastRow.endRow.pixLen = 0 ∧ lastRow.endRow.pixTouched = 2 ^ 32 := by decide +kernel

/-- A buffer for each outcome of the zlib checks, at the boundary of each. -/
theorem meets_Zlib : [0x78, 0x9C, 3, 0, (0 : Byte)].length < 6 ∧ 6 ≤ [0x79, 0x9C, 3, 0, 0, (0 : Byte)].length ∧ (0x79 : Nat) &&& 0x0F ≠ 8 ∧
    (0x78 : Nat) &&& 0x0F = 8 ∧ (0x78 * 256 + 0x9D) % 31 ≠ 0 ∧ (0x78 * 256 + 0xBB) % 31 = 0 ∧ (0xBB : Nat) &&& 0x20 ≠ 0 ∧
    (0x78 * 256 + 0x9C) % 31 = 0 ∧ (0x9C : Nat) &&& 0x20 = 0 := by decide
theorem meets_Envelope : zlibCheck [0x78, 0x9D, 3, 0, 0, 0, 0, 1] = some .badZlibHeader ∧
    (zlibCheck [0x78, 0x9C, 3, 0, 0, 0, 0, 1] = none ∧ { State.reset with config := ⟨7, 0, 0⟩ }.config.inLimit < [0x78, 0x9C, 3, 0, 0, 0, 0, (1 : Byte)].length) ∧
    adler32 (State.reset.sinkMem.readTo State.reset.sinkLen.toNat) ≠ 2 ∧ adler32 (State.reset.sinkMem.readTo State.reset.sinkLen.toNat) = 1 := by
  decide +kernel
/-- A buffer that just fits at address 1, and a job about to check `STATUS`, in ERROR and in DONE. -/
theorem meets_Envelope_runs : [0x78, 0x9C, 3, 0, 0, 0, 0, (1 : Byte)].length ≤ { State.reset with config := ⟨9, 0, 0⟩ }.config.inLimit ∧
    1 + [0x78, 0x9C, 3, 0, 0, 0, 0, (1 : Byte)].length = { State.reset with config := ⟨9, 0, 0⟩ }.config.inLimit ∧
    (∀ x ∈ [HostAct.checkAdler 1, .takeSink], x ≠ .endJob) ∧
    ({ host .checkStatus with runState := .error, err := 6 } : State).runState = .error ∧ (host .checkStatus).runState ≠ .error := by decide
/-- Chunks of every kind: a short IHDR, two long ones, an IDAT without data, one with, and another type; and tails that end in an
IEND, within 12 bytes, and in a chunk one byte too long. -/
def pngChunks : List (List Byte × List Byte × List Byte) :=
  [(typeIhdr, List.replicate 12 1, [0, 0, 0, 0]), (typeIhdr, List.replicate 13 1, [0, 0, 0, 0]), (typeIhdr, List.replicate 13 2, [0, 0, 0, 0]),
    (typeIdat, [], [0, 0, 0, 0]), ([0x74, 0x45, 0x58, 0x74], [9], [0, 0, 0, 0]), (typeIdat, [7], [1, 2, 3, 4])]
theorem meets_Png : (∀ c ∈ pngChunks, c.1.length = 4 ∧ c.1 ≠ [0x49, 0x45, 0x4E, 0x44] ∧ c.2.1.length < 2 ^ 32 ∧ c.2.2.length = 4) ∧
    (List.replicate 11 (0 : Byte)).length < 12 ∧
    (12 + bigEndian ((chunkBytes typeIend [] [0, 0, 0, 0]).take 4) ≤ (chunkBytes typeIend [] [0, 0, 0, 0]).length ∧
      ((chunkBytes typeIend [] [0, 0, 0, 0]).drop 4).take 4 = [0x49, 0x45, 0x4E, 0x44]) ∧
    (12 ≤ (chunkBytes typeIdat [7] [0, 0, 0]).length ∧
      (chunkBytes typeIdat [7] [0, 0, 0]).length + 1 = 12 + bigEndian ((chunkBytes typeIdat [7] [0, 0, 0]).take 4)) := by decide
/-- The parser on those chunks: the last long IHDR counts, the short one and the other type do not (48_host_framing.md R313, R317). -/
theorem test_png_chunks : parsed (pngSignature ++ pngChunks.flatMap (fun c => chunkBytes c.1 c.2.1 c.2.2)) =
    (some ⟨0x02020202, 0x02020202, 2, 2, [7]⟩, 0) := by decide +kernel

/-! ## The host's probe (notes/assumptions/11.md) -/

theorem test_probe : decodeTableWord 32 1 = some .inflate ∧ decodeTableWord 8 2 = some .dynamic ∧ decodeTableWord 16 257 = some .len257 ∧
    status (step (State.reset.withFetchWord 32 1)) 0x101 = true ∧
    ends (step (State.reset.withFetchWord 8 1)) (fun t => t.eng.btype == 1 && t.phase == .symbols) = true ∧
    ends (step (State.reset.withFetchWord 16 257)) (fun t => t.eng.blk.length == 3 && t.expect == .ds) = true := by decide +kernel

end Sys2Proof.Tests
end

section
/-! Which instruction a step runs: the laws of a write to `CMD` (R24), beside those of the engine's own turn in Laws/Step. -/

namespace Sys2Proof.Machine

/-- A 32-bit write to offset 0 is handed to `CMD`, whatever the engine is doing. -/
@[simp] theorem hostAct_regWrite_cmd (v : Word) (s : State) : hostAct (.regWrite 4 0 v) s = .command v.toNat s := rfl

/-- With a write to `CMD` as the host's next act, the step is the command's. -/
theorem step_cmdWrite {s : State} {rest : List HostAct} {v : Word} (hs : s.script = .regWrite 4 0 v :: rest) :
    step s = commandStep v.toNat { s with script := rest } := by
  simp only [step, hs, hostAct_regWrite_cmd]

/-- A value that `CMD` decodes runs the instruction it selects. -/
theorem commandStep_of_decode {v : Nat} {i : Instr} (hd : decodeSel .cmd v = some i) (s : State) : commandStep v s = exec i s := by
  simp only [commandStep, hd]

/-- Settles O4: the engine's turn is `engineStep`, which follows the outcome of the fetch; a write to `CMD` is `commandStep`. -/
theorem stepRunsTheDecodedInstruction : Obligations.StepRunsTheDecodedInstruction := by
  refine ⟨?runs, ?raises, ?command⟩
  case runs =>
    intro s t v i hs hb hf hd
    exact (step_silent hb hs).trans (engineStep_ok hf hd)
  case raises =>
    intro s t e hs hb hf
    exact (step_silent hb hs).trans (engineStep_raise hf)
  case command =>
    intro s rest v i hs hd
    exact (step_cmdWrite hs).trans (commandStep_of_decode hd _)

end Sys2Proof.Machine
end

section
/-! The engine's turn within an INFLATE: the fetch, the instruction it selects, and what the two together leave (R149, R181). -/

namespace Sys2Proof.Machine

/-- Where an INFLATE has got to within a step, its next instruction begins. -/
theorem Mid.self {s t : State} (h : Mid s t) : Mid t t :=
  ⟨h.running, h.last, h.reader, Nat.le_refl _, .refl t, .refl t⟩

/-- An INFLATE that has failed from `t` has failed from any state that reached `t` within its frame. -/
theorem InflateFrame.failed {s t u : State} {e : Error} (h : InflateFrame s t) (hl : s.last = 1) (hf : FailedWith e t u) :
    FailedWith e s u := by
  obtain ⟨hphase, ⟨hrun, herr, hlast⟩, hinflate, -, ⟨hbase, hsize, hwidth, hheight, hformat, hin⟩,
    hconfig, hscript, hread, hresult⟩ := hf
  obtain ⟨hlen, hcap, hconsumed, hpix, hpixLen⟩ := hinflate (h.last.trans hl)
  refine ⟨hphase, ⟨hrun, herr, hlast.trans h.last⟩,
    fun _ => ⟨hlen, hcap, hconsumed, hpix.trans h.pixMem, hpixLen.trans h.pixLen⟩,
    fun h2 => absurd (hl.symm.trans h2) (by decide), ?_, ?_⟩
  · exact ⟨hbase.trans h.inBase, hsize.trans h.inSize, hwidth.trans h.imgWidth, hheight.trans h.imgHeight,
      hformat.trans h.imgFormat, hin.trans h.inMem⟩
  · exact ⟨hconfig.trans h.config, hscript.trans h.script, hread.trans h.readData, hresult.trans h.result⟩

/-- An instruction that begins where the step that began in `s` has got to. -/
theorem Mid.trans_next {s t u : State} (h : Mid s t) (k : InflateNext t u) : InflateNext s u where
  inv := k.inv
  frame := h.frame.trans k.frame
  going hb := ⟨(k.going hb).1, Nat.le_trans (k.going hb).2 h.bitsLeft⟩
  failed he := (k.failed he).imp fun _ hf => h.frame.failed (h.frame.last.symm.trans h.last) hf
  kept hn :=
    have ⟨hgrows, hbits, hreader⟩ := k.kept hn
    ⟨h.grows.trans hgrows, Nat.le_trans h.bits hbits, hreader⟩
  done := k.done

/-- How a whole step of an INFLATE leaves the machine: as an instruction does, and further on in the stream (R149). -/
structure InflateStepped (s t : State) : Prop where
  next : InflateNext s t
  forward : t.runState ≠ .error → s.bitPos < t.bitPos

/-- A fetch and the instruction it selects. -/
theorem Fetched.stepped {s t u : State} (h : Fetched s t) (k : InflateNext t u) : InflateStepped s u := by
  refine ⟨h.mid.trans_next k, fun hn => ?_⟩
  have hfetch := h.less
  have hexec := (k.kept hn).2.1
  unfold State.bitsLeft at hfetch
  rw [h.mid.frame.inSize] at hfetch
  omega

/-- A failed fetch ends the command. -/
theorem MidFail.stepped {s t : State} (h : MidFail s t) (e : Error) : InflateStepped s (t.raiseError e) :=
  ⟨h.next (h.frame.last.symm.trans h.last) e, fun hn => absurd rfl hn⟩

/-! ## The instruction a fetched value selects -/

theorem exec_blockType_next {s : State} (h : Mid s s) {v : Nat} (hv : v < 4) :
    ∃ i, decodeSel .bh v = some i ∧ ∃ t, exec i s = .next t ∧ InflateNext s t := by
  interval_cases v
  · exact ⟨.stored, rfl, execStored_next h⟩
  · exact ⟨.fixed, rfl, execFixed_next h⟩
  · exact ⟨.dynamic, rfl, execDynamic_next h⟩
  · exact ⟨.btypeRsvd, rfl, raise_next h _⟩

theorem exec_codeLength_next {s : State} (h : Mid s s) (hh : HeaderOk s) {v : Nat} (hv : v < 19) :
    ∃ i, decodeSel .cl v = some i ∧ ∃ t, exec i s = .next t ∧ InflateNext s t := by
  by_cases hlen : v < 16
  · exact ⟨_, if_pos hlen, execClLen_next h hh _⟩
  · obtain rfl | rfl | rfl : v = 16 ∨ v = 17 ∨ v = 18 := by omega
    · exact ⟨.clRep, rfl, execClRep_next h hh⟩
    · exact ⟨.clZero3, rfl, execClZero3_next h hh⟩
    · exact ⟨.clZero11, rfl, execClZero11_next h hh⟩

theorem exec_litLen_next {s : State} (h : Mid s s) (hlt : Built 288 s.eng.lt) (hdt : Built 32 s.eng.dt) {v : Nat} (hv : v < 288) :
    ∃ i, decodeSel .ll v = some i ∧ ∃ t, exec i s = .next t ∧ InflateNext s t := by
  show ∃ i, decodeLitLen v = some i ∧ _
  unfold decodeLitLen
  by_cases hlit : v ≤ 255
  · rw [if_pos hlit]
    exact ⟨_, rfl, execLit_next h hlt hdt _⟩
  by_cases heob : v = 256
  · rw [if_neg hlit, if_pos heob]
    exact ⟨_, rfl, execEob_next h⟩
  by_cases hlen : v ≤ 285
  · have hk : v - 257 < 29 := by omega
    obtain ⟨i, hi, hexec⟩ := exec_length hk
    obtain ⟨hextra, hbase, hmax⟩ := lenTable_range hk
    rw [if_neg hlit, if_neg heob, if_pos hlen, hi]
    exact ⟨i, rfl, hexec ▸ lengthSymbol_next h hlt hdt (by omega) hbase hmax⟩
  · rw [if_neg hlit, if_neg heob, if_neg hlen, if_pos (by omega)]
    exact ⟨_, rfl, raise_next h _⟩

theorem exec_distance_next {s : State} (h : Mid s s) (hlt : Built 288 s.eng.lt) (hdt : Built 32 s.eng.dt) {v : Nat} (hv : v < 32) :
    ∃ i, decodeSel .ds v = some i ∧ ∃ t, exec i s = .next t ∧ InflateNext s t := by
  show ∃ i, decodeDistance v = some i ∧ _
  unfold decodeDistance
  by_cases hdist : v < 30
  · obtain ⟨i, hi, hexec⟩ := exec_distance hdist
    rw [if_pos hdist, hi]
    exact ⟨i, rfl, hexec ▸ distanceSymbol_next h hlt hdt (by have := (distTable_range hdist).1; omega)⟩
  · rw [if_neg hdist, if_pos hv]
    exact ⟨_, rfl, raise_next h _⟩

/-! ## The step -/

/-- The engine's turn where the fetch is described by `P`, and `P` is enough for the instruction it selects. -/
theorem engineStep_of_fetch {s : State} {P : Nat → State → Prop} (hf : (fetchSelector s).Sat P fun _ t => MidFail s t)
    (hx : ∀ v t, P v t → Fetched s t ∧ ∃ i, decodeSel s.expect v = some i ∧ ∃ u, exec i t = .next u ∧ InflateNext t u) :
    ∃ u, engineStep s = .next u ∧ InflateStepped s u := by
  cases hr : fetchSelector s with
  | ok v t =>
    rw [hr] at hf
    obtain ⟨hfetch, i, hd, u, hu, hn⟩ := hx v t hf
    exact ⟨u, (engineStep_ok hr hd).trans hu, hfetch.stepped hn⟩
  | raise e t =>
    rw [hr] at hf
    exact ⟨_, engineStep_raise hr, hf.stepped e⟩
  | fault f =>
    rw [hr] at hf
    exact hf.elim

/-- The engine's turn in a legal INFLATE ends in a next state, legal and further on in the stream. -/
theorem engineStep_inflate {s : State} (h : Inv s) (hb : s.runState = .busy) (hi : InflateOk s) :
    ∃ t, engineStep s = .next t ∧ InflateStepped s t := by
  have hm := Mid.refl h hb hi
  rcases hi.place with ⟨hp, he⟩ | ⟨hp, he, hh⟩ | ⟨hp, hlt, hdt, he | ⟨he, hlen⟩⟩
  · refine engineStep_of_fetch (by rw [fetchSelector, he]; exact fetchHeader_spec hm hp he) ?_
    rintro v t ⟨hv, ht⟩
    exact ⟨ht, he ▸ exec_blockType_next ht.mid.self hv⟩
  · refine engineStep_of_fetch (by rw [fetchSelector, he]; exact fetchCodeLength_spec hm hp he hh) ?_
    rintro v t ⟨hv, ht, hht⟩
    exact ⟨ht, he ▸ exec_codeLength_next ht.mid.self hht hv⟩
  · refine engineStep_of_fetch (by rw [fetchSelector, he]; exact fetchLitLen_spec hm hp he hlt hdt) ?_
    rintro v t ⟨hv, ht, hlt', hdt'⟩
    exact ⟨ht, he ▸ exec_litLen_next ht.mid.self hlt' hdt' hv⟩
  · refine engineStep_of_fetch (by rw [fetchSelector, he]; exact fetchDistance_spec hm hp he hlt hdt hlen) ?_
    rintro v t ⟨hv, ht, hlt', hdt'⟩
    exact ⟨ht, he ▸ exec_distance_next ht.mid.self hlt' hdt' hv⟩

/-- A legal reader stands within the slice (R144). -/
theorem ReaderOk.bitPos_le {s : State} (h : ReaderOk s) : s.bitPos ≤ 8 * s.inSize.toNat := by
  have := h.pos
  unfold State.bitPos
  omega

/-- A legal BUSY state whose command is an INFLATE is in one of INFLATE's places. -/
theorem Inv.inflateOk {s : State} (h : Inv s) (hb : s.runState = .busy) (hl : s.last = 1) : InflateOk s := by
  have hr := h.running
  rw [if_pos hb] at hr
  exact hr.resolve_right fun hr => absurd (hl.symm.trans hr.last) (by decide)

/-- Settles O48: what a step of an INFLATE keeps (`InflateStepped`), whichever of its places the command is in. -/
theorem inflateOnlyAppends : Obligations.InflateOnlyAppends := by
  intro s t h hb hs hl ht hn
  obtain ⟨u, hu, hnext, hforward⟩ := engineStep_inflate h hb (h.inflateOk hb hl)
  obtain rfl : u = t := by rw [step_silent hb hs, hu] at ht; exact Host.Outcome.next.inj ht
  obtain ⟨hgrows, -, hreader⟩ := hnext.kept hn
  exact ⟨hgrows.len, hgrows.cap, hgrows.bytes, hforward hn, hnext.frame.inSize ▸ hreader.bitPos_le⟩

end Sys2Proof.Machine
end

section
/-! The engine's turn within a RECON: the fields of `IMG_FORMAT`, the filter-type bytes, and what their instructions leave (R261, R263,
R280). -/

namespace Sys2Proof.Machine

/-! ## The instruction a value selects -/

/-- A depth of 8, or one whose instruction fails (R261). -/
theorem exec_depth (d : Byte) : ∃ i, decodeSel .depth d.toNat = some i ∧
    ((d = 8 ∧ i = .depth8) ∨ ∀ s, exec i s = .next (s.raiseError .unsupportedBitDepth)) := by
  show ∃ i, decodeDepth d.toNat = some i ∧ _
  unfold decodeDepth
  by_cases hd : d.toNat = 8
  · exact ⟨.depth8, if_pos hd, .inl ⟨BitVec.eq_of_toNat_eq hd, rfl⟩⟩
  · exact ⟨.depthRsvd (BitVec.ofNat 8 d.toNat), by rw [if_neg hd, if_pos d.isLt], .inr fun _ => rfl⟩

/-- A formatter that applies to every pixel of `bpp` samples (R280 to R284). -/
def Formats (bpp : Nat) (fmt : Formatter) : Prop := ∀ px : List Byte, px.length = bpp → (fmt px).isSome

theorem formats_fmtGray : Formats 1 fmtGray := fun | [_], _ => rfl
theorem formats_fmtGraya : Formats 2 fmtGraya := fun | [_, _], _ => rfl
theorem formats_fmtRgb : Formats 3 fmtRgb := fun | [_, _, _], _ => rfl
theorem formats_fmtRgba : Formats 4 fmtRgba := fun | [_, _, _, _], _ => rfl

/-- A colour type with its bytes per pixel and its formatter (R262), or one whose instruction fails (R261). -/
theorem exec_colourType (c : Byte) : ∃ i, decodeSel .ctype c.toNat = some i ∧
    ((∃ fmt, 1 ≤ bppOf c ∧ bppOf c ≤ 4 ∧ Formats (bppOf c) fmt ∧ exec i = colourType (bppOf c) fmt) ∨
      (bppOf c = 0 ∧ ∀ s, exec i s = .next (s.raiseError .unsupportedColorType))) := by
  by_cases h0 : c = 0
  · subst h0
    exact ⟨.fmtGray, rfl, .inl ⟨fmtGray, by decide, by decide, formats_fmtGray, rfl⟩⟩
  by_cases h2 : c = 2
  · subst h2
    exact ⟨.fmtRgb, rfl, .inl ⟨fmtRgb, by decide, by decide, formats_fmtRgb, rfl⟩⟩
  by_cases h4 : c = 4
  · subst h4
    exact ⟨.fmtGraya, rfl, .inl ⟨fmtGraya, by decide, by decide, formats_fmtGraya, rfl⟩⟩
  by_cases h6 : c = 6
  · subst h6
    exact ⟨.fmtRgba, rfl, .inl ⟨fmtRgba, by decide, by decide, formats_fmtRgba, rfl⟩⟩
  · have hwf : (Instr.ctypeRsvd c).wf = true := by
      simp only [Instr.wf, Bool.and_eq_true, bne_iff_ne]
      exact ⟨⟨⟨h0, h2⟩, h4⟩, h6⟩
    have hbpp : bppOf c = 0 := by rw [bppOf, if_neg h0, if_neg h2, if_neg h4, if_neg h6]
    exact ⟨.ctypeRsvd c, Laws.RoundTrip.ctypeRsvd c hwf, .inr ⟨hbpp, fun _ => rfl⟩⟩

/-- A filter with its predictor (R264 to R269), or a filter type whose instruction fails (R271). -/
theorem exec_filter (b : Byte) : ∃ i, decodeSel .sl b.toNat = some i ∧
    ((∃ ft pred, exec i = filterRow ft pred) ∨ ∀ s, exec i s = .next (s.raiseError .malformedPng)) := by
  by_cases hb : b.toNat < 5
  · obtain h | h | h | h | h : b.toNat = 0 ∨ b.toNat = 1 ∨ b.toNat = 2 ∨ b.toNat = 3 ∨ b.toNat = 4 := by omega
    · rw [h]; exact ⟨.filtNone, rfl, .inl ⟨_, _, rfl⟩⟩
    · rw [h]; exact ⟨.filtSub, rfl, .inl ⟨_, _, rfl⟩⟩
    · rw [h]; exact ⟨.filtUp, rfl, .inl ⟨_, _, rfl⟩⟩
    · rw [h]; exact ⟨.filtAvg, rfl, .inl ⟨_, _, rfl⟩⟩
    · rw [h]; exact ⟨.filtPaeth, rfl, .inl ⟨_, _, rfl⟩⟩
  · exact ⟨.ftRsvd b, Laws.RoundTrip.ftRsvd b (by simp [Instr.wf]; omega), .inr fun _ => rfl⟩

/-- The bytes per pixel are 0 for the reserved colour types only (R262). -/
theorem bppOf_pos {c : Byte} (h : c = 0 ∨ c = 2 ∨ c = 4 ∨ c = 6) : 1 ≤ bppOf c := by
  rcases h with rfl | rfl | rfl | rfl <;> decide

/-! ## The step -/

/-- The filter-type register is written before it is read: an instruction that begins after a fetch of it leaves the machine as one
that begins before. -/
theorem ReconNext.of_withRcn_ft {s t : State} {b : Byte} (h : ReconNext (s.withRcn { s.eng.rcn with ft := b }) t) : ReconNext s t where
  inv := h.inv
  frame := ⟨h.frame.config, h.frame.inBase, h.frame.inSize, h.frame.inMem, h.frame.consumed, h.frame.sinkMem, h.frame.sinkLen,
    h.frame.sinkCap, h.frame.imgWidth, h.frame.imgHeight, h.frame.imgFormat, h.frame.last, h.frame.script, h.frame.readData,
    h.frame.result⟩
  going := h.going
  failed he := (h.failed he).imp fun _ hf => ⟨hf.phase, hf.status, hf.inflate, hf.recon, hf.host, hf.model⟩
  done := h.done

theorem RowsOk.withRcn_ft {s : State} (h : RowsOk s) (b : Byte) : RowsOk (s.withRcn { s.eng.rcn with ft := b }) :=
  ⟨h.ctype, h.bpp, h.stride, h.size, h.width, h.data, h.y, h.prev⟩

theorem engineStep_depth {s : State} (h : Running s) (hl : s.last = 2) (hp : s.phase = .rcheck) (he : s.expect = .depth) :
    ∃ t, engineStep s = .next t ∧ ReconNext s t := by
  obtain ⟨i, hd, hx⟩ := exec_depth s.depth
  rw [engineStep_ok (by rw [fetchSelector, he]) (he ▸ hd)]
  rcases hx with ⟨h8, rfl⟩ | hx
  · exact ⟨_, rfl, execDepth8_next h hl hp he h8⟩
  · exact ⟨_, hx s, .raise h hl _⟩

theorem engineStep_colourCheck {s : State} (h : Running s) (hl : s.last = 2) (hp : s.phase = .rcheck) (he : s.expect = .ctype)
    (hd : s.depth = 8) : ∃ t, engineStep s = .next t ∧ ReconNext s t := by
  obtain ⟨i, hi, hx⟩ := exec_colourType s.ctype
  rw [engineStep_ok (by rw [fetchSelector, he]) (he ▸ hi)]
  rcases hx with ⟨fmt, hb1, hb4, -, hx⟩ | ⟨-, hx⟩
  · rw [hx, colourType, if_pos hp]
    exact checkImage_next h hl hp he hd rfl hb1 hb4
  · exact ⟨_, hx s, .raise h hl _⟩

theorem engineStep_format {s : State} (h : Running s) (hl : s.last = 2) (hp : s.phase = .rows) (he : s.expect = .ctype)
    (hd : s.depth = 8) (hr : RowsOk s) (hc : s.eng.rcn.cur.length = s.eng.rcn.stride.toNat) :
    ∃ t, engineStep s = .next t ∧ ReconNext s t := by
  obtain ⟨i, hi, hx⟩ := exec_colourType s.ctype
  rw [engineStep_ok (by rw [fetchSelector, he]) (he ▸ hi)]
  rcases hx with ⟨fmt, -, -, hf, hx⟩ | ⟨h0, -⟩
  · rw [hx, colourType, if_neg (by rw [hp]; decide)]
    exact formatRow_next h hl hp he hd hr hc hf
  · exact absurd (bppOf_pos hr.ctype) (by omega)

theorem engineStep_filter {s : State} (h : Running s) (hl : s.last = 2) (hp : s.phase = .rows) (he : s.expect = .sl)
    (hd : s.depth = 8) (hr : RowsOk s) : ∃ t, engineStep s = .next t ∧ ReconNext s t := by
  obtain ⟨b, hf⟩ := fetchFilter_spec h hr
  obtain ⟨i, hi, hx⟩ := exec_filter b
  have hfetched := h.withRcn { s.eng.rcn with ft := b }
  rw [engineStep_ok (by rw [fetchSelector, he]; exact hf) (he ▸ hi)]
  rcases hx with ⟨ft, pred, hx⟩ | hx
  · obtain ⟨t, ht, hn⟩ := filterRow_next hfetched hl hp he hd (hr.withRcn_ft b) ft pred
    exact ⟨t, hx ▸ ht, hn.of_withRcn_ft⟩
  · exact ⟨_, hx _, (ReconNext.raise hfetched hl _).of_withRcn_ft⟩

/-- The engine's turn in a legal RECON ends in a next state, legal and nearer to the end. -/
theorem engineStep_recon {s : State} (h : Running s) (hr : ReconOk s) : ∃ t, engineStep s = .next t ∧ ReconNext s t := by
  rcases hr.place with ⟨hp, he⟩ | ⟨hp, he, hd⟩ | ⟨hp, hd, hrows, he | ⟨he, hc⟩⟩
  · exact engineStep_depth h hr.last hp he
  · exact engineStep_colourCheck h hr.last hp he hd
  · exact engineStep_filter h hr.last hp he hd hrows
  · exact engineStep_format h hr.last hp he hd hrows hc

end Sys2Proof.Machine
end

section
/-! What a host act changes, and the writes to `CMD` that start a command (R22 to R24, R70, R370). -/

namespace Sys2Proof.Machine

/-! ## Starting a command -/

/-- INFLATE from a machine that is not BUSY (R24, R180): the start of the command decides. -/
theorem exec_inflate {s : State} (hb : s.runState ≠ .busy) : exec .inflate s = (startInflate (s.startCommand 1)).finish :=
  if_neg hb

/-- RECON from a machine that is not BUSY (R24, R260). -/
theorem exec_recon {s : State} (hb : s.runState ≠ .busy) : exec .recon s = .next ((s.startCommand 2).goTo .rcheck .depth) :=
  if_neg hb

theorem exec_inflate_busy {s : State} (hb : s.runState = .busy) : exec .inflate s = .next s := if_pos hb

theorem exec_recon_busy {s : State} (hb : s.runState = .busy) : exec .recon s = .next s := if_pos hb

/-- An INFLATE before its first block header: a new Bit Reader and an empty sink (R180). -/
def State.inflateStarted (s : State) : State :=
  { (s.startCommand 1).withBr ⟨0, 0, 0⟩ with sinkLen := 0, sinkCap := 0, sinkWrapped := false, phase := .header, expect := .bh }

theorem startInflate_ok {s : State} (h : s.inBase.toNat + s.inSize.toNat ≤ s.config.inLimit) :
    startInflate (s.startCommand 1) = .ok () s.inflateStarted :=
  if_neg (Nat.not_lt.2 h)

theorem startInflate_truncated {s : State} (h : s.config.inLimit < s.inBase.toNat + s.inSize.toNat) :
    startInflate (s.startCommand 1) = .raise .truncatedInput (s.startCommand 1) :=
  if_pos h

/-- Settles O19: both outcomes of the slice check of R180. -/
theorem inflateStarts : Obligations.InflateStarts := by
  refine fun s hb => ⟨fun hfits => ?_, fun hpasses => ?_⟩
  · rw [exec_inflate hb, startInflate_ok hfits]; rfl
  · rw [exec_inflate hb, startInflate_truncated hpasses]; rfl

/-- Settles O20: a command starts only when none is BUSY (R24). -/
theorem reconStartsAndOtherCommandsDoNothing : Obligations.ReconStartsAndOtherCommandsDoNothing := by
  refine fun s => ⟨fun hb => ?_, fun _ => rfl, fun hb => ⟨exec_inflate_busy hb, exec_recon_busy hb⟩⟩
  rw [exec_recon hb]; rfl

/-- What `CMD` decodes is one of the command instructions (R24). -/
theorem decodeSel_cmd {v : Nat} {i : Instr} (h : decodeSel .cmd v = some i) : i = .inflate ∨ i = .recon ∨ ∃ w, i = .cmdNop w := by
  simp only [decodeSel, decodeCmd] at h
  split_ifs at h
  · exact .inl (Option.some.inj h).symm
  · exact .inr (.inl (Option.some.inj h).symm)
  · exact .inr (.inr ⟨_, (Option.some.inj h).symm⟩)

/-! ## The host's moves -/

theorem hostAct_regWrite (bytes off : Nat) (v : Word) (s : State) : hostAct (.regWrite bytes off v) s =
    if regAccessOk bytes off = false then .over (.refused .registerAccess)
    else if off = 0 then .command v.toNat s else .over (.next (s.writeReg off v)) := rfl

theorem hostAct_regRead (bytes off : Nat) (s : State) : hostAct (.regRead bytes off) s =
    if regAccessOk bytes off = false then .over (.refused .registerAccess) else .over (.next (s.readReg off)) := rfl

theorem hostAct_poll (s : State) : hostAct .poll s =
    if s.runState = .busy then .engine { s with script := .poll :: s.script }
    else .over (.next { s with readData := s.statusWord }) := rfl

/-- What a host act that takes the step for itself can have done: something to the host's own fields, with a free value drawn for a
read; a register written; a byte of a memory written, with no command BUSY; or a reset. -/
inductive HostDid (s : State) : State → Prop where
  | own (script : List HostAct) (readData : Word) (result : Option HostResult) (draws : Nat) :
    HostDid s { s with script := script, readData := readData, result := result, draws := draws }
  | register (off : Nat) (v : Word) : HostDid s (s.writeReg off v)
  | memory (sp : Space) (a : Nat) (v : Byte) (free : s.runState ≠ .busy) (within : a < s.limit sp) :
    HostDid s (s.withMem sp ((s.mem sp).write a v))
  | reset : HostDid s s.applyReset

theorem HostDid.refl (s : State) : HostDid s s := .own s.script s.readData s.result s.draws

theorem HostDid.readReg (s : State) (off : Nat) : HostDid s (s.readReg off) := by
  rw [s.readReg_eq off]
  exact .own _ _ _ _

theorem HostDid.failJob (s : State) (code : BitVec 4) : HostDid s (s.failJob code) := .own _ _ _ _

theorem HostDid.startZlib (s : State) (z : List Byte) (a : Nat) (after : List HostAct) : HostDid s (s.startZlib z a after) := by
  unfold State.startZlib
  split
  · exact .own _ _ _ _
  · split
    · exact .own _ _ _ _
    · exact .own _ _ _ _

theorem HostDid.startDecode (s : State) (f : List Byte) (a : Nat) : HostDid s (s.startDecode f a) := by
  unfold State.startDecode
  split
  · exact .own _ _ _ _
  · exact .startZlib s _ a _

/-- The moves the host can make of a step from `s`. -/
def HostMove.Of (s : State) : HostMove → Prop
  | .over o => ∀ t, o = .next t → HostDid s t
  | .command _ t => t = s
  | .engine t => ∃ script, t = { s with script := script }
  | .torn t => t = s

theorem HostMove.Of.over_next {s t : State} (h : HostDid s t) : (HostMove.over (.next t)).Of s := by
  intro _ ht
  exact Host.Outcome.next.inj ht ▸ h

theorem HostMove.Of.over_refused (s : State) (r : Refusal) : (HostMove.over (.refused r)).Of s := fun _ h => nomatch h

/-- A memory access that ends in a next state has done what it leads to. -/
theorem HostMove.Of.over_hostAccess {s k : State} {sp : Space} {n : Nat}
    (h : s.runState ≠ .busy → n ≤ s.limit sp → HostDid s k) : (HostMove.over (hostAccess s sp n k)).Of s := by
  intro t ht
  obtain ⟨hb, hn, rfl⟩ := hostAccess_next ht
  exact h hb hn

theorem hostAct_of (act : HostAct) (s : State) : (hostAct act s).Of s := by
  cases act with
  | regWrite bytes off v =>
    rw [hostAct_regWrite]
    split_ifs
    · exact .over_refused s _
    · rfl
    · exact .over_next (.register off v)
  | regRead bytes off =>
    rw [hostAct_regRead]
    split_ifs
    · exact .over_refused s _
    · exact .over_next (.readReg s off)
  | memWrite sp a v => exact .over_hostAccess fun hb hn => .memory sp a v hb hn
  | memRead sp a => exact .over_hostAccess fun _ _ => .own _ _ _ _
  | poll =>
    rw [hostAct_poll]
    split_ifs
    · exact ⟨_, rfl⟩
    · exact .over_next (.own _ _ _ _)
  | letRun => exact ⟨s.script, rfl⟩
  | assertReset => exact .over_next .reset
  | assertResetWithin => rfl
  | checkStatus =>
    refine .over_next ?_
    split_ifs
    · exact .failJob s _
    · exact .refl s
  | checkAdler trailer =>
    refine .over_hostAccess fun _ _ => ?_
    split_ifs
    · exact .refl s
    · exact .failJob s _
  | takeSink => exact .over_hostAccess fun _ _ => .own _ _ _ _
  | takePix w h => exact .over_hostAccess fun _ _ => .own _ _ _ _
  | endJob => exact .over_next (.refl s)
  | zlib z a => exact .over_next (.startZlib s z a _)
  | decodePng f a => exact .over_next (.startDecode s f a)

/-- Who can have taken a step, and how, from the state with the script as the host has left it. -/
theorem step_cases {s t : State} (h : step s = .next t) : ∃ u script, u = { s with script := script } ∧
    (HostDid u t ∨ (∃ v, commandStep v u = .next t) ∨ engineTurn u = .next t ∨ u.tornReset (engineTurn u) = .next t) := by
  unfold step at h
  split at h
  · exact ⟨s, s.script, rfl, .inr (.inr (.inl h))⟩
  · rename_i act rest hscript
    have hof := hostAct_of act { s with script := rest }
    rcases hm : hostAct act { s with script := rest } with o | ⟨v, u⟩ | u | u <;> rw [hm] at h hof
    · exact ⟨_, rest, rfl, .inl (hof t h)⟩
    · exact ⟨u, rest, hof, .inr (.inl ⟨v, h⟩)⟩
    · obtain ⟨script, hu⟩ := hof
      exact ⟨u, script, hu, .inr (.inr (.inl h))⟩
    · exact ⟨u, rest, hof, .inr (.inr (.inr h))⟩

end Sys2Proof.Machine
end

section
/-! Every step keeps the invariant of legal states: the engine's turn, a write to `CMD`, the host's other acts, and a reset. -/

namespace Sys2Proof.Machine

/-! ## The host's own fields -/

section
variable {s : State} (script : List HostAct) (readData : Word) (result : Option HostResult) (draws : Nat)

theorem InflateOk.own (h : InflateOk s) :
    InflateOk { s with script := script, readData := readData, result := result, draws := draws } where
  last := h.last
  reader := h.reader.congr rfl rfl rfl rfl rfl
  place := h.place.imp_right (.imp_left fun ⟨hp, he, hh⟩ => ⟨hp, he, hh.ct, hh.hlit, hh.hdist, hh.nl⟩)

theorem ReconOk.own (h : ReconOk s) :
    ReconOk { s with script := script, readData := readData, result := result, draws := draws } where
  last := h.last
  place := h.place.imp_right (.imp_right fun ⟨hp, hd, hr, he⟩ =>
    ⟨hp, hd, ⟨hr.ctype, hr.bpp, hr.stride, hr.size, hr.width, hr.data, hr.y, hr.prev⟩, he⟩)

/-- No part of the invariant is about the host's own fields or the number of draws. -/
theorem Inv.own (h : Inv s) : Inv { s with script := script, readData := readData, result := result, draws := draws } where
  sized := h.sized
  memory := ⟨h.memory.wf, h.memory.size⟩
  status := ⟨h.status.err, h.status.last, h.status.idle, h.status.started⟩
  sink := ⟨h.sink.len, h.sink.cap, h.sink.legal⟩
  files := ⟨h.files.cll, h.files.lens⟩
  format := h.format
  pixLen := h.pixLen
  running := by
    have hr := h.running
    by_cases hb : s.runState = .busy
    · rw [if_pos hb] at hr ⊢
      exact hr.imp (·.own script readData result draws) (·.own script readData result draws)
    · rw [if_neg hb] at hr ⊢
      exact ⟨hr.expect, hr.phase⟩

end

/-! ## Accesses to a machine that waits -/

/-- What a host access other than a write to `CMD` leaves as it is (R23, R350, R373). -/
structure HostFrame (s t : State) : Prop where
  config : t.config = s.config
  runState : t.runState = s.runState
  err : t.err = s.err
  last : t.last = s.last
  consumed : t.consumed = s.consumed
  sinkLen : t.sinkLen = s.sinkLen
  sinkCap : t.sinkCap = s.sinkCap
  pixLen : t.pixLen = s.pixLen
  phase : t.phase = s.phase
  eng : t.eng = s.eng
  expect : t.expect = s.expect

theorem HostFrame.writeReg (s : State) (off : Nat) (v : Word) : HostFrame s (s.writeReg off v) := by
  unfold State.writeReg
  split_ifs <;> exact ⟨rfl, rfl, rfl, rfl, rfl, rfl, rfl, rfl, rfl, rfl, rfl⟩

theorem HostFrame.withMem (s : State) (sp : Space) (m : Memory) : HostFrame s (s.withMem sp m) := by
  constructor <;> simp

/-- A machine that waits stays legal under every access that leaves the memories and `IMG_FORMAT` legal. -/
theorem Inv.of_hostFrame {s t : State} (h : Inv s) (hb : s.runState ≠ .busy) (f : HostFrame s t) (hm : MemoryOk t)
    (hf : t.imgFormat.toNat < 2 ^ 16) : Inv t := by
  have hw := h.running
  rw [if_neg hb] at hw
  refine ⟨?_, hm, ⟨?_, ?_, ?_, ?_⟩, ⟨?_, ?_, ?_⟩, ⟨?_, ?_⟩, hf, ?_, ?_⟩
  · rw [f.config]; exact h.sized
  · rw [f.runState, f.err]; exact h.status.err
  · rw [f.last]; exact h.status.last
  · rw [f.runState, f.last]; exact h.status.idle
  · rw [f.runState, f.last]; exact h.status.started
  · rw [f.sinkLen, f.sinkCap]; exact h.sink.len
  · rw [f.sinkCap, f.config]; exact h.sink.cap
  · rw [f.sinkCap]; exact h.sink.legal
  · rw [f.eng]; exact h.files.cll
  · rw [f.eng]; exact h.files.lens
  · rw [f.pixLen, f.config]; exact h.pixLen
  · rw [f.runState, if_neg hb]
    exact ⟨f.expect.trans hw.expect, by rw [f.runState, f.phase]; exact hw.phase⟩

theorem State.writeReg_busy {s : State} (hb : s.runState = .busy) (off : Nat) (v : Word) : s.writeReg off v = s := if_pos hb

theorem MemoryOk.writeReg {s : State} (h : MemoryOk s) (off : Nat) (v : Word) : MemoryOk (s.writeReg off v) := by
  unfold State.writeReg
  split_ifs <;> exact ⟨h.wf, h.size⟩

theorem State.writeReg_imgFormat (s : State) (off : Nat) (v : Word) :
    (s.writeReg off v).imgFormat = s.imgFormat ∨ (s.writeReg off v).imgFormat = v &&& 0xFFFF := by
  unfold State.writeReg
  split_ifs <;> simp

/-- `IMG_FORMAT` has 16 writable bits (R34). -/
theorem State.writeReg_imgFormat_lt {s : State} (h : s.imgFormat.toNat < 2 ^ 16) (off : Nat) (v : Word) :
    (s.writeReg off v).imgFormat.toNat < 2 ^ 16 := by
  rcases s.writeReg_imgFormat off v with hf | hf
  · rwa [hf]
  · rw [hf, BitVec.toNat_and]
    exact Nat.and_lt_two_pow _ (by decide)

theorem Inv.writeReg {s : State} (h : Inv s) (off : Nat) (v : Word) : Inv (s.writeReg off v) := by
  by_cases hb : s.runState = .busy
  · rwa [State.writeReg_busy hb]
  · exact h.of_hostFrame hb (.writeReg s off v) (h.memory.writeReg off v) (State.writeReg_imgFormat_lt h.format off v)

theorem Inv.hostDid {s t : State} (h : Inv s) (hd : HostDid s t) : Inv t := by
  cases hd with
  | own script readData result draws => exact h.own script readData result draws
  | register off v => exact h.writeReg off v
  | memory sp a v free within =>
    refine h.of_hostFrame free (.withMem s sp _) ?_ (by rw [State.withMem_imgFormat]; exact h.format)
    exact h.memory.withMem sp (Memory.write_wf (h.memory.wf sp) a v) (Memory.write_below (h.memory.size sp) within v)
  | reset =>
    obtain ⟨m, n, hm, hn, he⟩ := s.applyReset_eq
    exact he ▸ h.resetFreeing hm hn

/-! ## Commands -/

/-- A command that starts from a legal state runs. -/
theorem Inv.startCommand {s : State} (h : Inv s) {v : BitVec 2} (hv : v = 1 ∨ v = 2) : Running (s.startCommand v) :=
  ⟨h.sized, ⟨h.memory.wf, h.memory.size⟩, rfl, rfl, hv, ⟨h.sink.len, h.sink.cap, h.sink.legal⟩, ⟨h.files.cll, h.files.lens⟩,
    h.format, h.pixLen⟩

/-- An INFLATE whose slice lies inside `IN` starts in its first place (R180). -/
theorem Inv.inflateStarted {s : State} (h : Inv s) (hfits : s.inBase.toNat + s.inSize.toNat ≤ s.config.inLimit) :
    Inv s.inflateStarted := by
  have hr := h.startCommand (v := 1) (.inl rfl)
  refine Running.inv ⟨hr.sized, ⟨hr.memory.wf, hr.memory.size⟩, rfl, rfl, .inl rfl, ⟨Nat.le_refl _, Nat.zero_le _, .inl rfl⟩,
    ⟨hr.files.cll, hr.files.lens⟩, hr.format, hr.pixLen⟩ (.inl ⟨rfl, ?_, .inl ⟨rfl, rfl⟩⟩)
  exact ⟨hfits, Nat.zero_le _, Nat.zero_le _, Nat.zero_le _, rfl⟩

theorem Inv.execInflate {s t : State} (h : Inv s) (ht : exec .inflate s = .next t) : Inv t := by
  by_cases hb : s.runState = .busy
  · rw [exec_inflate_busy hb] at ht
    exact Host.Outcome.next.inj ht ▸ h
  rw [exec_inflate hb] at ht
  rcases Nat.lt_or_ge s.config.inLimit (s.inBase.toNat + s.inSize.toNat) with hpasses | hfits
  · rw [startInflate_truncated hpasses] at ht
    exact Host.Outcome.next.inj ht ▸ ((h.startCommand (.inl rfl)).raisable.inv _).1
  · rw [startInflate_ok hfits] at ht
    exact Host.Outcome.next.inj ht ▸ h.inflateStarted hfits

theorem Inv.execRecon {s t : State} (h : Inv s) (ht : exec .recon s = .next t) : Inv t := by
  by_cases hb : s.runState = .busy
  · rw [exec_recon_busy hb] at ht
    exact Host.Outcome.next.inj ht ▸ h
  · rw [exec_recon hb] at ht
    exact Host.Outcome.next.inj ht ▸
      ((h.startCommand (.inr rfl)).goTo .rcheck .depth).inv (.inr ⟨rfl, .inl ⟨rfl, rfl⟩⟩)

theorem Inv.commandStep {s t : State} (h : Inv s) {v : Nat} (ht : commandStep v s = .next t) : Inv t := by
  cases hd : decodeSel .cmd v with
  | none => rw [Machine.commandStep, hd] at ht; cases ht
  | some i =>
    rw [commandStep_of_decode hd] at ht
    obtain rfl | rfl | ⟨w, rfl⟩ := decodeSel_cmd hd
    · exact h.execInflate ht
    · exact h.execRecon ht
    · exact Host.Outcome.next.inj ht ▸ h

/-! ## The step -/

/-- The engine's turn in a legal BUSY state ends in a next state, which is legal. -/
theorem Inv.engineStep {s : State} (h : Inv s) (hb : s.runState = .busy) : ∃ t, engineStep s = .next t ∧ Inv t := by
  have hr := h.running
  rw [if_pos hb] at hr
  rcases hr with hi | hr
  · obtain ⟨t, ht, hn⟩ := engineStep_inflate h hb hi
    exact ⟨t, ht, hn.next.inv⟩
  · obtain ⟨t, ht, hn⟩ := engineStep_recon (h.running_of_busy hb) hr
    exact ⟨t, ht, hn.inv⟩

theorem Inv.engineTurn {s t : State} (h : Inv s) (ht : engineTurn s = .next t) : Inv t := by
  by_cases hb : s.runState = .busy
  · obtain ⟨u, hu, hinv⟩ := h.engineStep hb
    rw [Machine.engineTurn, if_pos hb, hu] at ht
    exact Host.Outcome.next.inj ht ▸ hinv
  · rw [Machine.engineTurn, if_neg hb] at ht
    exact Host.Outcome.next.inj ht ▸ h

theorem Inv.tornReset {s t : State} (h : Inv s) (ht : s.tornReset (Machine.engineTurn s) = .next t) : Inv t := by
  obtain ⟨u, m, n, hu, hm, hn, rfl⟩ := tornReset_next ht
  rcases hu with hu | rfl
  · exact (h.engineTurn hu).resetFreeing hm hn
  · exact h.resetFreeing hm hn

/-- Settles O42: whoever takes the step, from the state with the host's script moved on. -/
theorem stepKeepsInv : Obligations.StepKeepsInv := by
  intro s t h ht
  obtain ⟨u, script, rfl, hdid | ⟨v, hcommand⟩ | hengine | htorn⟩ := step_cases ht
  all_goals have hu := h.own script s.readData s.result s.draws
  · exact hu.hostDid hdid
  · exact hu.commandStep hcommand
  · exact hu.engineTurn hengine
  · exact hu.tornReset htorn

end Sys2Proof.Machine
end

section
/-! The capacity after pushes (R30, R80). -/

namespace Sys2Proof.Machine

/-- No legal capacity lies between a legal one and the next one that growth gives (R30, R80). -/
theorem CapLegal.growCap_le {cap c : Nat} (h : CapLegal cap) (hc : CapLegal c) (hlt : cap < c) : Machine.growCap cap ≤ c := by
  obtain rfl | ⟨j, rfl⟩ := hc
  · omega
  have hj : 1 ≤ 2 ^ j := Nat.one_le_two_pow
  obtain rfl | ⟨k, rfl⟩ := h
  · show 1024 ≤ _
    omega
  · have hkj : k + 1 ≤ j := (Nat.pow_lt_pow_iff_right (a := 2) (by decide)).1 (by omega)
    have hpow : 2 ^ (k + 1) ≤ 2 ^ j := Nat.pow_le_pow_right (by decide) hkj
    rw [Nat.pow_succ] at hpow
    unfold Machine.growCap
    omega

theorem CapLegal.growCap {cap : Nat} (h : CapLegal cap) : CapLegal (Machine.growCap cap) := by
  have hgrown := h.capFor 1 (cap + 1)
  rwa [Machine.capFor, if_neg (by omega), Machine.capFor] at hgrown

/-- Growth stops at the first legal capacity that is enough. -/
theorem CapLegal.capFor_le {fuel need cap c : Nat} (h : CapLegal cap) (hc : CapLegal c) (hcap : cap ≤ c) (hneed : need ≤ c) :
    Machine.capFor fuel need cap ≤ c := by
  induction fuel generalizing cap with
  | zero => exact hcap
  | succ fuel ih =>
    rw [Machine.capFor]
    split_ifs with henough
    · exact hcap
    · exact ih h.growCap (h.growCap_le hc (by omega))

/-- Settles O18: growth keeps a capacity legal, does not shrink it, reaches what is needed, and passes no legal capacity that would
do. -/
theorem capacityAfterPushesIsLeast : Obligations.CapacityAfterPushesIsLeast := by
  intro s n h
  exact ⟨h.capFor _ _, capFor_ge, s.capAfter_need n, fun c hc hcap hneed => h.capFor_le hc hcap hneed⟩

end Sys2Proof.Machine
end

section
/-! The host's accesses to the registers and the memories (R21 to R25, R34, R70, R380). -/

namespace Sys2Proof.Machine

/-! ## `STATUS` -/

theorem State.statusWord_state (s : State) : s.statusWord.extractLsb' 0 2 = s.runState.code := BitVec.extractLsb'_append_eq_right

/-- Above its two low bits, `STATUS` is the word of its other fields. -/
theorem State.statusWord_above (s : State) (n len : Nat) : s.statusWord.extractLsb' (2 + n) len =
    ((0 : BitVec 22) ++ s.last ++ s.err ++ (0 : BitVec 2)).extractLsb' n len :=
  (BitVec.extractLsb'_append_eq_of_le (Nat.le_add_right 2 n)).trans (by rw [Nat.add_sub_cancel_left])

theorem State.statusWord_gap (s : State) : s.statusWord.extractLsb' 2 2 = 0 :=
  (s.statusWord_above 0 2).trans BitVec.extractLsb'_append_eq_right

/-- Above its four low bits, `STATUS` is the word of `ERR`, `LAST` and the reserved bits above them. -/
theorem State.statusWord_aboveGap (s : State) (n len : Nat) : s.statusWord.extractLsb' (4 + n) len =
    ((0 : BitVec 22) ++ s.last ++ s.err).extractLsb' n len := by
  rw [show 4 + n = 2 + (2 + n) by omega, s.statusWord_above,
    BitVec.extractLsb'_append_eq_of_le (Nat.le_add_right 2 n), Nat.add_sub_cancel_left]

theorem State.statusWord_err (s : State) : s.statusWord.extractLsb' 4 4 = s.err :=
  (s.statusWord_aboveGap 0 4).trans BitVec.extractLsb'_append_eq_right

theorem State.statusWord_last (s : State) : s.statusWord.extractLsb' 8 2 = s.last :=
  ((s.statusWord_aboveGap 4 2).trans (BitVec.extractLsb'_append_eq_of_le (Nat.le_refl 4))).trans BitVec.extractLsb'_append_eq_right

theorem State.statusWord_reserved (s : State) : s.statusWord.extractLsb' 10 22 = 0 :=
  ((s.statusWord_aboveGap 6 22).trans (BitVec.extractLsb'_append_eq_of_le (show 4 ≤ 6 by decide))).trans
    BitVec.extractLsb'_append_eq_left

/-- Settles O50, field by field. -/
theorem statusLayout : Obligations.StatusLayout := by
  intro s
  have hstate := s.statusWord_state
  refine ⟨fun h => ?_, fun h => ?_, fun h => ?_, fun h => ?_, s.statusWord_gap, s.statusWord_err, s.statusWord_last,
    s.statusWord_reserved⟩ <;> rw [hstate, h] <;> rfl

/-! ## The registers -/

/-- An act that takes the step for itself is the step. -/
theorem step_over {s : State} {act : HostAct} {rest : List HostAct} {o : Host.Outcome State Fault Refusal}
    (hs : s.script = act :: rest) (h : hostAct act { s with script := rest } = .over o) : step s = o := by
  simp only [step, hs, h]

/-- A register read the spec gives a meaning to (R22). -/
theorem step_regRead {s : State} {off : Nat} {rest : List HostAct} (hs : s.script = .regRead 4 off :: rest) (hlt : off < 4096)
    (hal : off % 4 = 0) : step s = .next (({ s with script := rest } : State).readReg off) :=
  step_over hs (by rw [hostAct_regRead, regAccessOk_of hlt hal, if_neg (by decide)])

/-- A register write the spec gives a meaning to, to another register than `CMD` (R22). -/
theorem step_regWrite {s : State} {off : Nat} {v : Word} {rest : List HostAct} (hs : s.script = .regWrite 4 off v :: rest)
    (hlt : off < 4096) (hal : off % 4 = 0) (h0 : off ≠ 0) : step s = .next (({ s with script := rest } : State).writeReg off v) :=
  step_over hs (by rw [hostAct_regWrite, regAccessOk_of hlt hal, if_neg (by decide), if_neg h0])

theorem State.readResult_busy {s : State} (hb : s.runState = .busy) (v : Word) :
    s.readResult v = { s with readData := Config.freeBits 32 s.draws 0, draws := s.draws + 1 } := if_pos hb

theorem State.readResult_waiting {s : State} (hb : s.runState ≠ .busy) (v : Word) : s.readResult v = { s with readData := v } :=
  if_neg hb

/-- `CMD`, and the offsets past the last register, read 0 (R22, R24). -/
theorem State.readReg_none {s : State} {off : Nat} (h : off = 0 ∨ 0x2C ≤ off) : s.readReg off = { s with readData := 0 } := by
  unfold State.readReg
  iterate 10 rw [if_neg (by omega)]

/-- Settles O51, offset by offset. -/
theorem registerReads : Obligations.RegisterReads := by
  intro s off rest hs hlt hal
  rw [step_regRead hs hlt hal]
  refine ⟨?_, ?_, ?_, ?_, ?_, ?_, fun hb => ?waiting, fun hb => ?busy, fun h => congrArg _ (State.readReg_none h)⟩
  case waiting =>
    refine ⟨?_, ?_, ?_, ?_⟩ <;> rintro rfl <;> exact congrArg _ (State.readResult_waiting (s := { s with script := rest }) hb _)
  case busy =>
    rintro (rfl | rfl | rfl | rfl) <;> exact congrArg _ (State.readResult_busy (s := { s with script := rest }) hb _)
  all_goals rintro rfl; rfl

/-- A register's offset decides what a write outside BUSY does (R21, R34). -/
theorem State.writeReg_waiting {s : State} (hb : s.runState ≠ .busy) (off : Nat) (v : Word) : s.writeReg off v =
    if off = 0x08 then { s with inBase := v }
    else if off = 0x0C then { s with inSize := v }
    else if off = 0x1C then { s with imgWidth := v }
    else if off = 0x20 then { s with imgHeight := v }
    else if off = 0x24 then { s with imgFormat := v &&& 0xFFFF }
    else s := if_neg hb

/-- Settles O52, offset by offset. -/
theorem registerWrites : Obligations.RegisterWrites := by
  intro s off v rest hs hlt hal h0
  rw [step_regWrite hs hlt hal h0]
  refine ⟨fun hb => congrArg _ (State.writeReg_busy (s := { s with script := rest }) hb off v), fun hb => ?_⟩
  rw [State.writeReg_waiting (s := { s with script := rest }) hb]
  refine ⟨?_, ?_, ?_, ?_, ?_, fun h8 hC h1C h20 h24 => ?_⟩
  case refine_6 => rw [if_neg h8, if_neg hC, if_neg h1C, if_neg h20, if_neg h24]
  all_goals rintro rfl; rfl

/-! ## The memories -/

theorem regAccessOk_eq_false {bytes off : Nat} (h : bytes ≠ 4 ∨ off % 4 ≠ 0 ∨ 4096 ≤ off) : regAccessOk bytes off = false := by
  unfold regAccessOk
  rcases h with h | h | h <;> simp [h]

theorem hostAccess_busy {s : State} (hb : s.runState = .busy) (sp : Space) (n : Nat) (k : State) :
    hostAccess s sp n k = .refused .hostMemoryWhileBusy := if_pos hb

theorem hostAccess_within {s : State} (hb : s.runState ≠ .busy) {sp : Space} {n : Nat} (h : n ≤ s.limit sp) (k : State) :
    hostAccess s sp n k = .next k := by
  rw [hostAccess, if_neg hb, if_neg (Nat.not_lt.2 h)]

theorem hostAccess_past {s : State} (hb : s.runState ≠ .busy) {sp : Space} {n : Nat} (h : s.limit sp < n) (k : State) :
    hostAccess s sp n k = .fault (.address sp) := by
  rw [hostAccess, if_neg hb, if_pos h]

/-- The script is no part of a memory. -/
theorem State.mem_withScript (s : State) (rest : List HostAct) (sp : Space) :
    ({ s with script := rest } : State).mem sp = s.mem sp := by
  cases sp <;> rfl

theorem step_memWrite {s : State} {sp : Space} {a : Nat} {v : Byte} {rest : List HostAct}
    (hs : s.script = .memWrite sp a v :: rest) : step s = hostAccess { s with script := rest } sp (a + 1)
      (({ s with script := rest } : State).withMem sp ((s.mem sp).write a v)) :=
  step_over hs (by rw [← s.mem_withScript rest]; rfl)

theorem step_memRead {s : State} {sp : Space} {a : Nat} {rest : List HostAct} (hs : s.script = .memRead sp a :: rest) :
    step s = hostAccess { s with script := rest } sp (a + 1)
      { s with script := rest, readData := ((s.mem sp).read a).setWidth 32 } :=
  step_over hs (by rw [← s.mem_withScript rest]; rfl)

/-- Settles O53: an ill-formed register access is refused, and a memory access goes as `hostAccess` does. -/
theorem hostAccesses : Obligations.HostAccesses := by
  refine fun s rest => ⟨fun bytes off v hill => ?_, fun sp a v => ?_⟩
  · have hok := regAccessOk_eq_false hill
    exact ⟨fun hs => step_over hs (by rw [hostAct_regWrite, if_pos hok]),
      fun hs => step_over hs (by rw [hostAct_regRead, if_pos hok])⟩
  refine ⟨fun hb => ?busy, fun hb hin => ?within, fun hb hpast => ?past⟩
  case busy =>
    exact ⟨fun hs => (step_memWrite hs).trans (hostAccess_busy hb _ _ _), fun hs => (step_memRead hs).trans (hostAccess_busy hb _ _ _)⟩
  case within =>
    exact ⟨fun hs => (step_memWrite hs).trans (hostAccess_within hb hin _),
      fun hs => (step_memRead hs).trans (hostAccess_within hb hin _)⟩
  case past =>
    have hpast := Nat.lt_succ_of_le hpast
    exact ⟨fun hs => (step_memWrite hs).trans (hostAccess_past hb hpast _),
      fun hs => (step_memRead hs).trans (hostAccess_past hb hpast _)⟩

end Sys2Proof.Machine
end

section
/-! The memories (R71, R73, R74) and the append to the Byte Sink (R80). -/

namespace Sys2Proof.Machine

/-- Settles O16, by the laws of a read after a write, of the canonical form and of extensionality. -/
theorem memoryReadsWhatWasWritten : Obligations.MemoryReadsWhatWasWritten := by
  intro m a v hm
  exact ⟨Memory.write_wf hm a v, fun x => Memory.read_write hm a x v, fun m' hm' he => Memory.ext_read hm' hm he⟩

/-! ## `push` -/

/-- A full sink needs the next growth step's capacity for one byte more. -/
theorem State.capAfter_one_full {s : State} (he : s.sinkLen = s.sinkCap) : s.capAfter 1 = growCap s.sinkCap.toNat := by
  have hgrown := growCap_ge s.sinkCap.toNat
  rw [State.capAfter, he, capFor, if_neg (by omega), capFor_of_le _ (by omega)]

/-- A sink that is not full keeps its capacity. -/
theorem SinkOk.capAfter_one_room {s : State} (h : SinkOk s) (hne : s.sinkLen ≠ s.sinkCap) : s.capAfter 1 = s.sinkCap.toNat := by
  have hlen := h.len
  have hne' : s.sinkLen.toNat ≠ s.sinkCap.toNat := fun he => hne (BitVec.eq_of_toNat_eq he)
  exact capFor_of_le _ (by omega)

/-- `State.pushed`, field by field. -/
theorem State.pushed_eq (s : State) (v : Byte) : s.pushed v =
    { s with sinkCap := BitVec.ofNat 32 (s.capAfter 1), sinkMem := s.sinkMem.write s.sinkLen.toNat v, sinkLen := s.sinkLen + 1 } := by
  have hlen : BitVec.ofNat 32 (s.sinkLen.toNat + 1) = s.sinkLen + 1 := by simp [BitVec.ofNat_add]
  rw [State.pushed, State.withSink, hlen]

/-- Settles O17: `push_spec`, with the capacity for one byte more where the sink is full and where it has room. -/
theorem pushAppends : Obligations.PushAppends := by
  intro s v h hc
  have hpush := push_spec (h.pushable hc) v
  rw [State.pushed_eq] at hpush
  refine ⟨fun he hpast => ?_, fun he hfits => ?_, fun hne => ?_⟩
  · rw [hpush, State.capAfter_one_full he, growCap, if_neg (Nat.not_le.2 hpast)]
  · rw [hpush, State.capAfter_one_full he, growCap, if_pos hfits]
  · rw [hpush, h.capAfter_one_room hne, if_pos h.cap, BitVec.ofNat_toNat, BitVec.setWidth_eq]

end Sys2Proof.Machine
end

section
/-! The engine's turn, from any state whatever, leaves what is not the engine's to write: `IN`, the registers that only the host or a
`CMD` write sets, the host's own fields and the parameters (R23, R24, R72, R345). -/

namespace Sys2Proof.Machine

/-- The part of the state that no turn of the engine writes. -/
structure HostPart where
  config : Config
  inMem : Memory
  inBase : Word
  inSize : Word
  imgWidth : Word
  imgHeight : Word
  imgFormat : Word
  last : BitVec 2
  script : List HostAct
  readData : Word
  result : Option HostResult

/-- The host's part of a state. -/
def State.hostPart (s : State) : HostPart where
  config := s.config
  inMem := s.inMem
  inBase := s.inBase
  inSize := s.inSize
  imgWidth := s.imgWidth
  imgHeight := s.imgHeight
  imgFormat := s.imgFormat
  last := s.last
  script := s.script
  readData := s.readData
  result := s.result

/-- Whichever state an operation ends in, `p` is still the host's part of it. -/
def Res.Leaves {α : Type} (p : HostPart) : Res α → Prop
  | .ok _ t => t.hostPart = p
  | .raise _ t => t.hostPart = p
  | .fault _ => True

/-- If a turn ends in a next state, `p` is still the host's part of it. -/
def TurnLeaves (p : HostPart) : Host.Outcome State Fault Refusal → Prop
  | .next t => t.hostPart = p
  | .fault _ => True
  | .refused _ => True

theorem Res.Leaves.bind {α β : Type} {p : HostPart} {r : Res α} {k : α → State → Res β} (h : r.Leaves p)
    (hk : ∀ a t, t.hostPart = p → (k a t).Leaves p) : (r.bind k).Leaves p := by
  cases r with
  | ok a t => exact hk a t h
  | raise e t => exact h
  | fault f => trivial

/-- An error keeps the host's part (R345). -/
theorem State.raiseError_hostPart (e : Error) (s : State) : (s.raiseError e).hostPart = s.hostPart := by
  simp only [State.hostPart, State.raiseError_config, State.raiseError_inMem, State.raiseError_inBase, State.raiseError_inSize,
    State.raiseError_imgWidth, State.raiseError_imgHeight, State.raiseError_imgFormat, State.raiseError_last,
    State.raiseError_script, State.raiseError_readData, State.raiseError_result]

theorem Res.Leaves.finish {p : HostPart} {r : Res Unit} (h : r.Leaves p) : TurnLeaves p r.finish := by
  cases r with
  | ok _ t => exact h
  | raise e t => exact (t.raiseError_hostPart e).trans h
  | fault f => trivial

section
variable {s : State} {p : HostPart}

theorem turnLeaves_raise (e : Error) (h : s.hostPart = p) : TurnLeaves p (.next (s.raiseError e)) :=
  (s.raiseError_hostPart e).trans h

/-! ## Byte accesses -/

theorem readByte_leaves (sp : Space) (a : Nat) (h : s.hostPart = p) : (readByte sp a s).Leaves p := by
  unfold readByte
  split_ifs
  · exact h
  · trivial

/-- No memory but `IN` is the host's (R72). -/
theorem State.withMem_hostPart {sp : Space} (hsp : sp ≠ .input) (m : Memory) (h : s.hostPart = p) : (s.withMem sp m).hostPart = p := by
  cases sp with
  | input => exact absurd rfl hsp
  | sink => exact h
  | pix => exact h

theorem writeByte_leaves {sp : Space} (hsp : sp ≠ .input) (a : Nat) (v : Byte) (h : s.hostPart = p) :
    (writeByte sp a v s).Leaves p := by
  unfold writeByte
  split_ifs
  · exact State.withMem_hostPart hsp _ h
  · trivial

/-! ## The Bit Reader and the decoder -/

theorem fetchByte_leaves (h : s.hostPart = p) : (fetchByte s).Leaves p :=
  .bind (readByte_leaves _ _ h) fun _ _ h => h

theorem refill_leaves (fuel n : Nat) (h : s.hostPart = p) : (refill fuel n s).Leaves p := by
  induction fuel generalizing s with
  | zero => exact h
  | succ fuel ih =>
    rw [refill]
    split_ifs
    · exact h
    · exact .bind (fetchByte_leaves h) fun _ _ h => ih h
    · exact h

theorem readBits_leaves (n : Nat) (h : s.hostPart = p) : (readBits n s).Leaves p :=
  .bind (refill_leaves n n h) fun _ _ h => h

theorem readByteAligned_leaves (h : s.hostPart = p) : (readByteAligned s).Leaves p := by
  unfold readByteAligned
  dsimp only
  split_ifs
  · exact h
  · exact .bind (readByte_leaves _ _ h) fun _ _ h => h

theorem readPairAligned_leaves (h : s.hostPart = p) : (readPairAligned s).Leaves p :=
  .bind (readByteAligned_leaves h) fun _ _ h => .bind (readByteAligned_leaves h) fun _ _ h => h

theorem symbolAt_leaves (t : Table) (i : Int) (h : s.hostPart = p) : (symbolAt t i s).Leaves p := by
  unfold symbolAt
  split_ifs
  · trivial
  · cases t.symbols[i.toNat]? with
    | some sym => exact h
    | none => trivial

theorem decodeFrom_leaves (t : Table) (fuel L v : Nat) (h : s.hostPart = p) : (decodeFrom t fuel L v s).Leaves p := by
  induction fuel generalizing s L v with
  | zero => exact h
  | succ fuel ih =>
    refine .bind (readBits_leaves 1 h) fun _ _ h => ?_
    split
    · split_ifs
      · exact symbolAt_leaves t _ h
      · exact ih _ _ h
    · trivial

theorem decodeSymbol_leaves (t : Table) (h : s.hostPart = p) : (decodeSymbol t s).Leaves p := decodeFrom_leaves t 15 0 0 h

/-! ## The Byte Sink -/

theorem growSink_leaves (h : s.hostPart = p) : (growSink s).Leaves p := by
  unfold growSink
  split_ifs <;> exact h

theorem push_leaves (v : Byte) (h : s.hostPart = p) : (push v s).Leaves p :=
  .bind (growSink_leaves h) fun _ _ h => .bind (writeByte_leaves (by decide) _ v h) fun _ _ h => h

theorem readBehind_leaves (h : s.hostPart = p) : (readBehind s).Leaves p := by
  unfold readBehind
  split_ifs
  · exact readByte_leaves _ _ h
  · exact h

theorem copyBack_leaves (n : Nat) (h : s.hostPart = p) : (copyBack n s).Leaves p := by
  induction n generalizing s with
  | zero => exact h
  | succ n ih => exact .bind (readBehind_leaves h) fun b _ h => .bind (push_leaves b h) fun _ _ h => ih h

theorem backReference_leaves (h : s.hostPart = p) : (backReference s).Leaves p := by
  unfold backReference
  split_ifs
  · exact h
  · exact copyBack_leaves _ h

/-! ## The instructions of an INFLATE -/

theorem State.endBlock_hostPart (h : s.hostPart = p) : s.endBlock.hostPart = p := by
  unfold State.endBlock
  split_ifs <;> exact h

theorem copyStored_leaves (n : Nat) (h : s.hostPart = p) : (copyStored n s).Leaves p := by
  induction n generalizing s with
  | zero => exact h
  | succ n ih => exact .bind (readByteAligned_leaves h) fun b _ h => .bind (push_leaves b h) fun _ _ h => ih h

theorem storedBody_leaves (h : s.hostPart = p) : (storedBody s).Leaves p := by
  refine .bind (readPairAligned_leaves h) fun _ _ h => .bind (readPairAligned_leaves h) fun _ _ h => ?_
  dsimp only
  split_ifs
  · exact h
  · exact copyStored_leaves _ h

theorem execStored_leaves (h : s.hostPart = p) : TurnLeaves p (execStored s) :=
  Res.Leaves.finish <| .bind (storedBody_leaves h) fun _ _ h => State.endBlock_hostPart h

theorem readCodeLengthLengths_leaves (ps : List Nat) (h : s.hostPart = p) : (readCodeLengthLengths ps s).Leaves p := by
  induction ps generalizing s with
  | nil => exact h
  | cons _ ps ih => exact .bind (readBits_leaves 3 h) fun _ _ h => ih h

theorem execDynamic_leaves (h : s.hostPart = p) : TurnLeaves p (execDynamic s) :=
  Res.Leaves.finish <| .bind (readBits_leaves 5 h) fun _ _ h => .bind (readBits_leaves 5 h) fun _ _ h =>
    .bind (readBits_leaves 4 h) fun _ _ h => .bind (readCodeLengthLengths_leaves _ h) fun _ _ h => h

theorem fillLens_leaves (rep : Nat) (l : BitVec 4) (h : s.hostPart = p) : (fillLens rep l s).Leaves p := by
  unfold fillLens
  split_ifs
  · exact h
  · trivial

theorem State.continueHeader_hostPart (h : s.hostPart = p) : s.continueHeader.hostPart = p := by
  unfold State.continueHeader
  split_ifs <;> exact h

theorem fillLens_continue_leaves (rep : Nat) (l : BitVec 4) (h : s.hostPart = p) :
    ((fillLens rep l s).bind fun _ s => .ok () s.continueHeader).Leaves p :=
  .bind (fillLens_leaves rep l h) fun _ _ h => State.continueHeader_hostPart h

theorem readRepeat_leaves (base extra : Nat) (h : s.hostPart = p) : (readRepeat base extra s).Leaves p :=
  .bind (readBits_leaves extra h) fun _ _ h => h

/-- A run of code lengths whose number of repetitions is read from the stream (R204 to R207). -/
theorem readRun_leaves (base extra : Nat) (l : BitVec 4) (h : s.hostPart = p) :
    ((readRepeat base extra s).bind fun rep s => checkedRun rep l s).Leaves p := by
  refine .bind (readRepeat_leaves base extra h) fun rep _ h => ?_
  unfold checkedRun
  split_ifs
  · exact h
  · exact fillLens_continue_leaves rep l h

theorem execClRep_leaves (h : s.hostPart = p) : TurnLeaves p (execClRep s) := by
  refine Res.Leaves.finish ?_
  split_ifs
  · exact h
  · cases s.eng.hdr.lens[s.eng.hdr.nl.toNat - 1]? with
    | some prev => exact readRun_leaves 3 2 prev h
    | none => trivial

theorem execLit_leaves (b : Byte) (h : s.hostPart = p) : TurnLeaves p (execLit b s) :=
  Res.Leaves.finish <| .bind (push_leaves b h) fun _ _ h => h

theorem readLength_leaves (sym base extra : Nat) (h : s.hostPart = p) : (readLength sym base extra s).Leaves p :=
  .bind (readBits_leaves extra h) fun _ _ h => h

theorem lengthSymbol_leaves (sym base extra : Nat) (h : s.hostPart = p) : TurnLeaves p (lengthSymbol sym base extra s) :=
  Res.Leaves.finish <| .bind (readLength_leaves sym base extra h) fun _ _ h => h

theorem readDistance_leaves (dsym base extra : Nat) (h : s.hostPart = p) : (readDistance dsym base extra s).Leaves p :=
  .bind (readBits_leaves extra h) fun _ _ h => h

theorem distanceSymbol_leaves (dsym base extra : Nat) (h : s.hostPart = p) : TurnLeaves p (distanceSymbol dsym base extra s) :=
  Res.Leaves.finish <| .bind (readDistance_leaves dsym base extra h) fun _ _ h => .bind (backReference_leaves h) fun _ _ h => h

/-! ## The instructions of a RECON -/

theorem rowBytes_leaves (pred : Predictor) (n X : Nat) (done : List Byte) (h : s.hostPart = p) :
    (rowBytes pred s n X done).Leaves p := by
  induction n generalizing s X done with
  | zero => exact h
  | succ n ih =>
    refine .bind (readByte_leaves _ _ h) fun _ _ h => ?_
    split
    · exact ih _ _ h
    · trivial

theorem filterRow_leaves (ft : Byte) (pred : Predictor) (h : s.hostPart = p) : TurnLeaves p (filterRow ft pred s) :=
  Res.Leaves.finish <| .bind (rowBytes_leaves pred _ _ _ h) fun _ _ h => h

theorem checkImage_leaves (bpp : Nat) (h : s.hostPart = p) : (checkImage bpp s).Leaves p := by
  rw [checkImage_eq]
  split_ifs <;> exact h

theorem formatPixels_leaves (fmt : Formatter) (n x : Nat) (h : s.hostPart = p) : (formatPixels fmt n x s).Leaves p := by
  induction n generalizing s x with
  | zero => exact h
  | succ n ih =>
    rw [formatPixels]
    split
    · trivial
    · exact .bind (writeByte_leaves (by decide) _ _ h) fun _ _ h => .bind (writeByte_leaves (by decide) _ _ h) fun _ _ h =>
        .bind (writeByte_leaves (by decide) _ _ h) fun _ _ h => .bind (writeByte_leaves (by decide) _ _ h) fun _ _ h => ih _ h

theorem State.endRow_hostPart (h : s.hostPart = p) : s.endRow.hostPart = p := by
  rw [endRow_eq]
  split_ifs <;> exact h

theorem colourType_leaves (bpp : Nat) (fmt : Formatter) (h : s.hostPart = p) : TurnLeaves p (colourType bpp fmt s) := by
  refine Res.Leaves.finish ?_
  split_ifs
  · exact checkImage_leaves bpp h
  · exact .bind (formatPixels_leaves fmt _ _ h) fun _ _ h => State.endRow_hostPart h

/-! ## The instruction a value selects -/

theorem exec_blockType_leaves {v : Nat} {i : Instr} (hd : decodeBlockType v = some i) (h : s.hostPart = p) :
    TurnLeaves p (exec i s) := by
  unfold decodeBlockType at hd
  split_ifs at hd <;> cases hd
  · exact execStored_leaves h
  · exact h
  · exact execDynamic_leaves h
  · exact turnLeaves_raise _ h

theorem exec_codeLength_leaves {v : Nat} {i : Instr} (hd : decodeCodeLength v = some i) (h : s.hostPart = p) :
    TurnLeaves p (exec i s) := by
  unfold decodeCodeLength at hd
  split_ifs at hd <;> cases hd
  · exact (fillLens_continue_leaves 1 _ h).finish
  · exact execClRep_leaves h
  · exact (readRun_leaves 3 3 0 h).finish
  · exact (readRun_leaves 11 7 0 h).finish

theorem exec_length_leaves {k : Nat} (hk : k < 29) {i : Instr} (hd : lengthInstrs[k]? = some i) (h : s.hostPart = p) :
    TurnLeaves p (exec i s) := by
  obtain ⟨j, hj, hexec⟩ := exec_length hk
  obtain rfl := Option.some.inj (hj.symm.trans hd)
  rw [hexec]
  exact lengthSymbol_leaves _ _ _ h

theorem exec_litLen_leaves {v : Nat} {i : Instr} (hd : decodeLitLen v = some i) (h : s.hostPart = p) :
    TurnLeaves p (exec i s) := by
  unfold decodeLitLen at hd
  split_ifs at hd
  · cases hd; exact execLit_leaves _ h
  · cases hd; exact State.endBlock_hostPart h
  · exact exec_length_leaves (by omega) hd h
  · cases hd; exact turnLeaves_raise _ h

theorem exec_distance_leaves {v : Nat} {i : Instr} (hd : decodeDistance v = some i) (h : s.hostPart = p) :
    TurnLeaves p (exec i s) := by
  unfold decodeDistance at hd
  split_ifs at hd with hv
  · obtain ⟨j, hj, hexec⟩ := exec_distance hv
    obtain rfl := Option.some.inj (hj.symm.trans hd)
    rw [hexec]
    exact distanceSymbol_leaves _ _ _ h
  · cases hd; exact turnLeaves_raise _ h

theorem exec_filter_leaves {v : Nat} {i : Instr} (hd : decodeFilter v = some i) (h : s.hostPart = p) :
    TurnLeaves p (exec i s) := by
  unfold decodeFilter at hd
  split_ifs at hd <;> cases hd
  · exact filterRow_leaves _ _ h
  · exact filterRow_leaves _ _ h
  · exact filterRow_leaves _ _ h
  · exact filterRow_leaves _ _ h
  · exact filterRow_leaves _ _ h
  · exact turnLeaves_raise _ h

theorem exec_colourType_leaves {v : Nat} {i : Instr} (hd : decodeColourType v = some i) (h : s.hostPart = p) :
    TurnLeaves p (exec i s) := by
  unfold decodeColourType at hd
  split_ifs at hd <;> cases hd
  · exact colourType_leaves _ _ h
  · exact colourType_leaves _ _ h
  · exact colourType_leaves _ _ h
  · exact colourType_leaves _ _ h
  · exact turnLeaves_raise _ h

theorem exec_depth_leaves {v : Nat} {i : Instr} (hd : decodeDepth v = some i) (h : s.hostPart = p) :
    TurnLeaves p (exec i s) := by
  unfold decodeDepth at hd
  split_ifs at hd <;> cases hd
  · exact h
  · exact turnLeaves_raise _ h

/-- Only a value of `CMD` selects an instruction that writes the host's part, by setting `LAST` (R24). -/
theorem exec_leaves {sel : Selector} (hsel : sel ≠ .cmd) {v : Nat} {i : Instr} (hd : decodeSel sel v = some i)
    (h : s.hostPart = p) : TurnLeaves p (exec i s) := by
  cases sel with
  | cmd => exact absurd rfl hsel
  | bh => exact exec_blockType_leaves hd h
  | cl => exact exec_codeLength_leaves hd h
  | ll => exact exec_litLen_leaves hd h
  | ds => exact exec_distance_leaves hd h
  | sl => exact exec_filter_leaves hd h
  | ctype => exact exec_colourType_leaves hd h
  | depth => exact exec_depth_leaves hd h

/-! ## The turn -/

theorem fetchSelector_leaves (h : s.hostPart = p) : (fetchSelector s).Leaves p := by
  unfold fetchSelector
  cases s.expect with
  | cmd => trivial
  | bh => exact .bind (readBits_leaves 1 h) fun _ _ h => .bind (readBits_leaves 2 h) fun _ _ h => h
  | cl => exact decodeSymbol_leaves _ h
  | ll => exact .bind (decodeSymbol_leaves _ h) fun _ _ h => h
  | ds => exact .bind (decodeSymbol_leaves _ h) fun _ _ h => h
  | sl => exact .bind (readByte_leaves _ _ h) fun _ _ h => h
  | ctype => exact h
  | depth => exact h

/-- A BUSY engine that expects a `CMD` write cannot fetch. -/
theorem expect_of_fetchSelector_ok {t : State} {v : Nat} (h : fetchSelector s = .ok v t) : s.expect ≠ .cmd := by
  intro he
  rw [fetchSelector, he] at h
  cases h

theorem engineStep_leaves (h : s.hostPart = p) : TurnLeaves p (engineStep s) := by
  have hfetch := fetchSelector_leaves h
  unfold engineStep
  cases hr : fetchSelector s with
  | ok v t =>
    rw [hr] at hfetch
    dsimp only
    cases hd : decodeSel s.expect v with
    | some i => exact exec_leaves (expect_of_fetchSelector_ok hr) hd hfetch
    | none => trivial
  | raise e t =>
    rw [hr] at hfetch
    exact turnLeaves_raise e hfetch
  | fault f => trivial

theorem engineTurn_leaves (h : s.hostPart = p) : TurnLeaves p (engineTurn s) := by
  unfold engineTurn
  split_ifs
  · exact engineStep_leaves h
  · exact h

end

/-- With no act of the host left, the engine takes the turn. -/
theorem step_of_script_nil {s : State} (hs : s.script = []) : step s = engineTurn s := by
  simp only [step, hs]

/-- Settles O47: with a silent host the step is the engine's turn, which leaves the host's part as it is. -/
theorem engineWritesNothingOfTheHost : Obligations.EngineWritesNothingOfTheHost := by
  intro s t hs ht
  have hturn := engineTurn_leaves (s := s) rfl
  rw [← step_of_script_nil hs, ht] at hturn
  obtain ⟨hconfig, hinMem, hinBase, hinSize, hwidth, hheight, hformat, hlast, hscript, hread, hresult⟩ := HostPart.mk.inj hturn
  exact ⟨hinMem, hinBase, hinSize, hwidth, hheight, hformat, hlast, hconfig, hscript.trans hs, hread, hresult⟩

end Sys2Proof.Machine
end


section
/-! The two directions of the selector tables: a value's instruction, and an instruction's value (R112, R118). -/

namespace Sys2Proof

/-- The instruction `i` stands in the row of the value `v` in the space `sel` (R112). -/
structure Instr.InRow (sel : Selector) (v : Nat) (i : Instr) : Prop where
  wf : i.wf = true
  selector : i.selector = sel
  encode : encode i = v

/-- What the encoder writes is decoded to the instruction it was written from. -/
theorem decodeSel_encode {i : Instr} (hwf : i.wf = true) : decodeSel i.selector (encode i) = some i := by
  cases i with
  | cmdNop v => exact Laws.RoundTrip.cmdNop v hwf
  | clLen l => exact Laws.RoundTrip.clLen l hwf
  | lit b => exact Laws.RoundTrip.lit b hwf
  | llRsvd sym => exact Laws.RoundTrip.llRsvd sym hwf
  | dsRsvd sym => exact Laws.RoundTrip.dsRsvd sym hwf
  | ftRsvd ft => exact Laws.RoundTrip.ftRsvd ft hwf
  | ctypeRsvd c => exact Laws.RoundTrip.ctypeRsvd c hwf
  | depthRsvd d => exact Laws.RoundTrip.depthRsvd d hwf
  | _ => rfl

theorem Instr.InRow.decodeSel_eq {sel : Selector} {v : Nat} {i : Instr} (h : i.InRow sel v) : decodeSel sel v = some i := by
  obtain ⟨hwf, rfl, rfl⟩ := h
  exact decodeSel_encode hwf

/-! ## The rows of each space -/

/-- A value that fits is the number of the operand made of it. -/
theorem toNat_operand {n v : Nat} (hv : v < 2 ^ n) : (BitVec.ofNat n v).toNat = v := by
  rw [BitVec.toNat_ofNat, Nat.mod_eq_of_lt hv]

theorem exists_inRow_cmd {v : Nat} (hv : v < 2 ^ 32) : ∃ i : Instr, i.InRow .cmd v := by
  by_cases h1 : v = 1
  · exact ⟨.inflate, rfl, rfl, h1.symm⟩
  by_cases h2 : v = 2
  · exact ⟨.recon, rfl, rfl, h2.symm⟩
  · refine ⟨.cmdNop (BitVec.ofNat 32 v), ?_, rfl, toNat_operand hv⟩
    simp only [Instr.wf, Bool.and_eq_true, bne_iff_ne]
    constructor <;> bv_omega

theorem exists_inRow_bh {v : Nat} (hv : v < 4) : ∃ i : Instr, i.InRow .bh v := by
  obtain rfl | rfl | rfl | rfl : v = 0 ∨ v = 1 ∨ v = 2 ∨ v = 3 := by omega
  · exact ⟨.stored, rfl, rfl, rfl⟩
  · exact ⟨.fixed, rfl, rfl, rfl⟩
  · exact ⟨.dynamic, rfl, rfl, rfl⟩
  · exact ⟨.btypeRsvd, rfl, rfl, rfl⟩

theorem exists_inRow_cl {v : Nat} (hv : v < 19) : ∃ i : Instr, i.InRow .cl v := by
  by_cases hlen : v < 16
  · exact ⟨.clLen (BitVec.ofNat 4 v), rfl, rfl, toNat_operand hlen⟩
  obtain rfl | rfl | rfl : v = 16 ∨ v = 17 ∨ v = 18 := by omega
  · exact ⟨.clRep, rfl, rfl, rfl⟩
  · exact ⟨.clZero3, rfl, rfl, rfl⟩
  · exact ⟨.clZero11, rfl, rfl, rfl⟩

/-- The length instructions stand in the order of their symbols, from 257 up. -/
theorem inRow_lengthInstrs {k : Nat} (hk : k < lengthInstrs.length) : lengthInstrs[k].InRow .ll (257 + k) := by
  have : k < 29 := hk
  interval_cases k <;> exact ⟨rfl, rfl, rfl⟩

/-- The distance instructions stand in the order of their symbols, from 0 up. -/
theorem inRow_distanceInstrs {k : Nat} (hk : k < distanceInstrs.length) : distanceInstrs[k].InRow .ds k := by
  have : k < 30 := hk
  interval_cases k <;> exact ⟨rfl, rfl, rfl⟩

theorem exists_inRow_ll {v : Nat} (hv : v < 512) : ∃ i : Instr, i.InRow .ll v := by
  by_cases hlit : v < 256
  · exact ⟨.lit (BitVec.ofNat 8 v), rfl, rfl, toNat_operand hlit⟩
  by_cases heob : v = 256
  · exact ⟨.eob, rfl, rfl, heob.symm⟩
  by_cases hlen : v < 286
  · obtain ⟨k, rfl⟩ := Nat.exists_eq_add_of_le (show 257 ≤ v by omega)
    exact ⟨_, inRow_lengthInstrs (show k < 29 by omega)⟩
  · have hop := toNat_operand (n := 9) hv
    exact ⟨.llRsvd (BitVec.ofNat 9 v), by rw [Instr.wf, hop]; exact decide_eq_true (by omega), rfl, hop⟩

theorem exists_inRow_ds {v : Nat} (hv : v < 32) : ∃ i : Instr, i.InRow .ds v := by
  by_cases hdist : v < 30
  · exact ⟨_, inRow_distanceInstrs hdist⟩
  · have hop := toNat_operand (n := 5) hv
    exact ⟨.dsRsvd (BitVec.ofNat 5 v), by rw [Instr.wf, hop]; exact decide_eq_true (by omega), rfl, hop⟩

theorem exists_inRow_sl {v : Nat} (hv : v < 256) : ∃ i : Instr, i.InRow .sl v := by
  by_cases hfilt : v < 5
  · obtain rfl | rfl | rfl | rfl | rfl : v = 0 ∨ v = 1 ∨ v = 2 ∨ v = 3 ∨ v = 4 := by omega
    · exact ⟨.filtNone, rfl, rfl, rfl⟩
    · exact ⟨.filtSub, rfl, rfl, rfl⟩
    · exact ⟨.filtUp, rfl, rfl, rfl⟩
    · exact ⟨.filtAvg, rfl, rfl, rfl⟩
    · exact ⟨.filtPaeth, rfl, rfl, rfl⟩
  · have hop := toNat_operand (n := 8) hv
    exact ⟨.ftRsvd (BitVec.ofNat 8 v), by rw [Instr.wf, hop]; exact decide_eq_true (by omega), rfl, hop⟩

theorem exists_inRow_ctype {v : Nat} (hv : v < 256) : ∃ i : Instr, i.InRow .ctype v := by
  by_cases hfmt : v = 0 ∨ v = 2 ∨ v = 4 ∨ v = 6
  · obtain rfl | rfl | rfl | rfl := hfmt
    · exact ⟨.fmtGray, rfl, rfl, rfl⟩
    · exact ⟨.fmtRgb, rfl, rfl, rfl⟩
    · exact ⟨.fmtGraya, rfl, rfl, rfl⟩
    · exact ⟨.fmtRgba, rfl, rfl, rfl⟩
  · refine ⟨.ctypeRsvd (BitVec.ofNat 8 v), ?_, rfl, toNat_operand hv⟩
    simp only [Instr.wf, Bool.and_eq_true, bne_iff_ne]
    refine ⟨⟨⟨?_, ?_⟩, ?_⟩, ?_⟩ <;> bv_omega

theorem exists_inRow_depth {v : Nat} (hv : v < 256) : ∃ i : Instr, i.InRow .depth v := by
  by_cases h8 : v = 8
  · exact ⟨.depth8, rfl, rfl, h8.symm⟩
  · refine ⟨.depthRsvd (BitVec.ofNat 8 v), ?_, rfl, toNat_operand hv⟩
    rw [Instr.wf, bne_iff_ne]
    bv_omega

/-- Every value of a selecting field has a row. -/
theorem exists_inRow {sel : Selector} {v : Nat} (hv : v < sel.bound) : ∃ i : Instr, i.InRow sel v := by
  cases sel with
  | cmd => exact exists_inRow_cmd hv
  | bh => exact exists_inRow_bh hv
  | cl => exact exists_inRow_cl hv
  | ll => exact exists_inRow_ll hv
  | ds => exact exists_inRow_ds hv
  | sl => exact exists_inRow_sl hv
  | ctype => exact exists_inRow_ctype hv
  | depth => exact exists_inRow_depth hv

/-- A value past what the selecting field can hold fails every test of the decoder. -/
theorem decodeSel_of_bound_le {sel : Selector} {v : Nat} (h : sel.bound ≤ v) : decodeSel sel v = none := by
  cases sel <;> simp only [Selector.bound] at h <;>
    simp (disch := omega) only [decodeSel, decodeCmd, decodeBlockType, decodeCodeLength, decodeLitLen, decodeDistance, decodeFilter,
      decodeColourType, decodeDepth, if_neg]

theorem lt_bound_of_isSome {sel : Selector} {v : Nat} (h : (decodeSel sel v).isSome = true) : v < sel.bound := by
  by_contra hv
  rw [decodeSel_of_bound_le (Nat.le_of_not_lt hv)] at h
  cases h

/-- The decoder reads the opcode table: it answers the instruction in whose row the value stands. -/
theorem decodeSel_eq_some_iff {sel : Selector} {v : Nat} {i : Instr} : decodeSel sel v = some i ↔ i.InRow sel v := by
  refine ⟨fun h => ?_, Instr.InRow.decodeSel_eq⟩
  obtain ⟨j, hj⟩ := exists_inRow (lt_bound_of_isSome (Option.isSome_of_eq_some h))
  obtain rfl : j = i := Option.some.inj (hj.decodeSel_eq.symm.trans h)
  exact hj

/-- Settles O1: each word is looked up in the table of its format. -/
theorem opcodeTableWordsDecode : Obligations.OpcodeTableWordsDecode := by
  unfold Obligations.OpcodeTableWordsDecode
  decide

/-- Settles O2: the decoder reads the rows of the opcode table, every value below a field's bound has a row, and no other value
passes the decoder's tests. -/
theorem decodeEncodeAgree : Obligations.DecodeEncodeAgree := by
  refine ⟨fun i => decodeSel_encode, fun sel v i h => ?sound, fun sel v => ⟨lt_bound_of_isSome, fun hv => ?total⟩⟩
  case sound =>
    obtain ⟨hwf, hsel, henc⟩ := decodeSel_eq_some_iff.1 h
    exact ⟨hwf, hsel, henc⟩
  case total =>
    obtain ⟨i, hi⟩ := exists_inRow hv
    exact Option.isSome_of_eq_some hi.decodeSel_eq

end Sys2Proof
end

section
/-! A code the stream goes on with, and the static codes of R113 (R162, R168, R221). -/

namespace Sys2Proof

/-- The last of a code's bits is its lowest (R76). -/
theorem bitsHigh_succ (n v : Nat) : bitsHigh (n + 1) v = bitsHigh n (v / 2) ++ [v % 2 == 1] := by
  induction n with
  | zero => simp [bitsHigh]
  | succ n ih =>
    have hhigh : v / 2 ^ (n + 1) = v / 2 / 2 ^ n := by rw [Nat.div_div_eq_div_mul, Nat.pow_succ']
    rw [bitsHigh, ih, hhigh, bitsHigh, List.cons_append]

@[simp] theorem bitsHigh_length (n v : Nat) : (bitsHigh n v).length = n := by
  induction n with
  | zero => rfl
  | succ n ih => rw [bitsHigh, List.length_cons, ih]

end Sys2Proof

namespace Sys2Proof.Machine

/-! ## A code in the stream -/

/-- The stream goes on with the given bits: the hypothesis of the statements about static codes. -/
def State.GoesOn (s : State) (bits : List Bool) : Prop :=
  ∀ k b, bits[k]? = some b → k < s.bitsLeft ∧ s.streamBit (s.bitPos + k) = if b = true then 1 else 0

theorem State.GoesOn.length_le {s : State} {bits : List Bool} (h : s.GoesOn bits) : bits.length ≤ s.bitsLeft := by
  by_contra hlt
  have hlast := (h _ _ (List.getElem?_eq_getElem (show s.bitsLeft < bits.length by omega))).1
  exact Nat.lt_irrefl _ hlast

theorem State.GoesOn.left {s : State} {bits more : List Bool} (h : s.GoesOn (bits ++ more)) : s.GoesOn bits := by
  intro k b hb
  exact h k b (List.getElem?_append_left (List.getElem?_eq_some_iff.1 hb).1 ▸ hb)

/-- The bit that follows the given ones. -/
theorem State.GoesOn.next {s : State} {bits : List Bool} {b : Bool} (h : s.GoesOn (bits ++ [b])) :
    s.streamBit (s.bitPos + bits.length) = if b = true then 1 else 0 :=
  (h bits.length b (by simp)).2

/-- A stream that goes on with the bits of a code holds that code (R76). -/
theorem State.GoesOn.streamCode {s : State} {n v : Nat} (h : s.GoesOn (bitsHigh n v)) : s.streamCode s.bitPos n = v % 2 ^ n := by
  induction n generalizing v with
  | zero => rw [State.streamCode, Nat.pow_zero, Nat.mod_one]
  | succ n ih =>
    rw [bitsHigh_succ] at h
    have hbit := h.next
    rw [bitsHigh_length] at hbit
    rw [State.streamCode, ih h.left, hbit, Nat.pow_succ', Nat.mod_mul]
    obtain hv | hv := Nat.mod_two_eq_zero_or_one v <;> simp [hv, Nat.add_comm]

/-- The codes of a length begin where the shorter ones, lengthened, end: a stream that holds a code holds no shorter one (R162). -/
theorem shorter_code_le {lengths : List Nat} {s : State} {k l L : Nat} (hl : l < L)
    (hL : firstCode lengths L ≤ s.streamCode k L) : firstCode lengths l + codeCount lengths l ≤ s.streamCode k l := by
  obtain ⟨n, rfl⟩ : ∃ n, L = l + (n + 1) := ⟨L - l - 1, by omega⟩
  have hroom := (firstCode_add lengths l n).trans hL
  have hcode := (s.streamCode_add k l (n + 1)).2
  exact Nat.le_of_lt_succ (Nat.lt_of_mul_lt_mul_right (hroom.trans_lt hcode))

theorem codeOf_eq {lengths : List Nat} {sym L : Nat} (h : lengths[sym]? = some L) :
    codeOf lengths sym = firstCode lengths L + codeRank lengths sym := by
  rw [codeOf, List.getD_eq_getElem?_getD, h, Option.getD_some]

/-- The code of a symbol lies among those of its length (R162). -/
theorem codeOf_lt {lengths : List Nat} {sym L : Nat} (h : lengths[sym]? = some L) (hL : 1 ≤ L) :
    codeOf lengths sym < firstCode lengths L + codeCount lengths L := by
  obtain ⟨L, rfl⟩ := Nat.exists_eq_add_of_le' hL
  have := codeRank_lt h
  rw [codeOf_eq h]
  omega

/-- `decode` on a stream that goes on with the code of a used symbol (R168). A shorter code does not match, since the stream's is
above it; a longer one is not tried, since the symbol's own matches; and of those of its length, only its own is in the stream. -/
theorem decodeSymbol_code {cap : Nat} {lengths : List Nat} (h : LengthsOk cap lengths) (hc : cap ≤ 512) (d : Nat) {s : State}
    (hr : ReaderOk s) {sym L : Nat} (hs : lengths[sym]? = some L) (hL : 1 ≤ L) (hleft : L ≤ s.bitsLeft)
    (hcode : s.streamCode s.bitPos L = codeOf lengths sym) :
    decodeSymbol (buildTable cap lengths d) s = .ok sym (s.atBit (s.bitPos + L)) := by
  have hL15 : L ≤ 15 := h.2 L (List.mem_of_getElem? hs)
  have hmatch := hcode ▸ codeOf_lt hs hL
  have hfirst : firstCode lengths L ≤ s.streamCode s.bitPos L := by rw [hcode, codeOf_eq hs]; omega
  rcases decodeSymbol_spec h hc d hr with
    ⟨l, sym', b, hused, hpos, -, hcode', hshorter, -, heq, hok, hplace⟩ | ⟨b, -, hnone, -⟩ | ⟨b, -, hnone, -⟩
  · obtain hlt | rfl | hgt := Nat.lt_trichotomy l L
    · have hle := shorter_code_le hlt hfirst
      have hlt' := codeOf_lt hused hpos
      omega
    · obtain rfl := codeOf_injective hused hs (hcode'.symm.trans hcode)
      rw [heq, hok.atBit hplace]
    · have hle := hshorter L hL hgt
      omega
  · have hle := hnone L hL hleft
    omega
  · have hle := hnone L hL hL15
    omega

/-! ## The static codes -/

/-- The rows of R113's table. -/
theorem staticLitLenCode_cases {sym : Nat} (h : sym < 288) :
    (sym ≤ 143 ∧ staticLitLenCode sym = (0x30 + sym, 8)) ∨
    (144 ≤ sym ∧ sym ≤ 255 ∧ staticLitLenCode sym = (0x190 + (sym - 144), 9)) ∨
    (256 ≤ sym ∧ sym ≤ 279 ∧ staticLitLenCode sym = (sym - 256, 7)) ∨
    (280 ≤ sym ∧ sym ≤ 287 ∧ staticLitLenCode sym = (0xC0 + (sym - 280), 8)) := by
  unfold staticLitLenCode
  split_ifs <;> simp only [and_true] <;> omega

theorem staticLitLenCode_length_pos {sym : Nat} (h : sym < 288) : 1 ≤ (staticLitLenCode sym).2 := by
  obtain ⟨hi, hc⟩ | ⟨lo, hi, hc⟩ | ⟨lo, hi, hc⟩ | ⟨lo, hi, hc⟩ := staticLitLenCode_cases h <;> simp only [hc] <;> omega

/-- The code of R113 fits its length. -/
theorem staticLitLenCode_lt {sym : Nat} (h : sym < 288) : (staticLitLenCode sym).1 < 2 ^ (staticLitLenCode sym).2 := by
  obtain ⟨hi, hc⟩ | ⟨lo, hi, hc⟩ | ⟨lo, hi, hc⟩ | ⟨lo, hi, hc⟩ := staticLitLenCode_cases h <;> simp only [hc] <;> omega

/-- The lengths of R221 are those of R113. -/
theorem fixedLitLen_get {sym : Nat} (h : sym < 288) : fixedLitLen[sym]? = some (staticLitLenCode sym).2 := by
  simp only [fixedLitLen, List.getElem?_append, List.getElem?_replicate, List.length_append, List.length_replicate]
  obtain ⟨hi, hc⟩ | ⟨lo, hi, hc⟩ | ⟨lo, hi, hc⟩ | ⟨lo, hi, hc⟩ := staticLitLenCode_cases h <;> rw [hc] <;>
    simp (disch := omega) only [if_pos, if_neg]

/-- Among the first `n` lengths, those equal to `L`, stretch by stretch (R221). -/
theorem fixedLitLen_take_count (n L : Nat) : (fixedLitLen.take n).count L =
    (if 8 = L then min n 144 else 0) + (if 9 = L then min (n - 144) 112 else 0) + (if 7 = L then min (n - 256) 24 else 0) +
      (if 8 = L then min (n - 280) 8 else 0) := by
  simp only [fixedLitLen, List.take_append, List.take_replicate, List.count_append, List.count_replicate, List.length_append,
    List.length_replicate, beq_iff_eq]

theorem firstCode_fixedLitLen : firstCode fixedLitLen 7 = 0 ∧ firstCode fixedLitLen 8 = 0x30 ∧ firstCode fixedLitLen 9 = 0x190 := by
  decide +kernel

/-- The codes that `build` gives under the lengths of R221 are those of R113. -/
theorem codeOf_fixedLitLen {sym : Nat} (h : sym < 288) : codeOf fixedLitLen sym = (staticLitLenCode sym).1 := by
  obtain ⟨h7, h8, h9⟩ := firstCode_fixedLitLen
  rw [codeOf_eq (fixedLitLen_get h), codeRank, List.getD_eq_getElem?_getD, fixedLitLen_get h, Option.getD_some,
    fixedLitLen_take_count]
  obtain ⟨hi, hc⟩ | ⟨lo, hi, hc⟩ | ⟨lo, hi, hc⟩ | ⟨lo, hi, hc⟩ := staticLitLenCode_cases h <;>
    simp only [hc, h7, h8, h9, Nat.reduceEqDiff, if_true, if_false] <;> omega

theorem fixedDistLen_get {sym : Nat} (h : sym < 32) : fixedDistLen[sym]? = some 5 := by
  rw [fixedDistLen, List.getElem?_replicate, if_pos h]

/-- A distance symbol's code is its value (R113). -/
theorem codeOf_fixedDistLen {sym : Nat} (h : sym < 32) : codeOf fixedDistLen sym = sym := by
  have hfirst : firstCode fixedDistLen 5 = 0 := by decide
  have hrank : codeRank fixedDistLen sym = sym := by
    rw [codeRank, List.getD_eq_getElem?_getD, fixedDistLen_get h, Option.getD_some, fixedDistLen, List.take_replicate,
      List.count_replicate_self, Nat.min_eq_left h.le]
  rw [codeOf_eq (fixedDistLen_get h), hfirst, hrank, Nat.zero_add]

/-- The engine fetches a literal/length symbol whose static code the stream goes on with (R220). -/
theorem fetchLitLen_static {s : State} (d : Nat) {sym : Nat} (hr : ReaderOk s) (ht : s.eng.lt = buildTable 288 fixedLitLen d)
    (hsym : sym < 288) (hbits : s.GoesOn (staticLitLenBits sym)) :
    fetchLitLen s = .ok sym ((s.atBit (s.bitPos + (staticLitLenBits sym).length)).withBlk
      { s.eng.blk with sym := BitVec.ofNat 9 sym }) := by
  have hlen : (staticLitLenBits sym).length = (staticLitLenCode sym).2 := bitsHigh_length _ _
  have hcode : s.streamCode s.bitPos (staticLitLenCode sym).2 = codeOf fixedLitLen sym := by
    rw [hbits.streamCode, Nat.mod_eq_of_lt (staticLitLenCode_lt hsym), codeOf_fixedLitLen hsym]
  rw [fetchLitLen, ht, decodeSymbol_code lengthsOk_fixedLitLen (by decide) d hr (fixedLitLen_get hsym)
    (staticLitLenCode_length_pos hsym) (hlen ▸ hbits.length_le) hcode, Res.bind_ok, hlen]
  rfl

/-- The engine fetches a distance symbol whose five bits the stream goes on with (R225). -/
theorem fetchDistance_static {s : State} (d : Nat) {sym : Nat} (hr : ReaderOk s) (ht : s.eng.dt = buildTable 32 fixedDistLen d)
    (hsym : sym < 32) (hbits : s.GoesOn (staticDistanceBits sym)) :
    fetchDistance s = .ok sym ((s.atBit (s.bitPos + 5)).withBlk { s.eng.blk with dsym := BitVec.ofNat 5 sym }) := by
  have hcode : s.streamCode s.bitPos 5 = codeOf fixedDistLen sym := by
    rw [hbits.streamCode, Nat.mod_eq_of_lt (show sym < 2 ^ 5 from hsym), codeOf_fixedDistLen hsym]
  rw [fetchDistance, ht, decodeSymbol_code lengthsOk_fixedDistLen (by decide) d hr (fixedDistLen_get hsym) (by decide)
    hbits.length_le hcode, Res.bind_ok, toNat_operand hsym]
  rfl

/-- Settles O3: the static codes are those that `build` gives under the fixed lengths, so `decode` answers their symbols. -/
theorem staticCodesFetchTheirSymbols : Obligations.StaticCodesFetchTheirSymbols := by
  refine ⟨?litLen, ?distance⟩
  case litLen =>
    intro s d sym hr he ht hsym hbits
    rw [fetchSelector, he]
    exact fetchLitLen_static d hr ht hsym hbits
  case distance =>
    intro s d sym hr he ht hsym hbits
    rw [fetchSelector, he]
    exact fetchDistance_static d hr ht hsym hbits

end Sys2Proof.Machine
end

section
/-! The Bit Reader's operations from a legal reader (R143, R145, R146). -/

namespace Sys2Proof.Machine

/-- Settles O7: the field where enough bits are left, the error where the slice ends first. -/
theorem readBitsDelivers : Obligations.ReadBitsDelivers := by
  intro s n hr hn
  exact ⟨fun hleft => (readBits_atBit hr hn hleft).1, fun hleft => readBits_truncated hr hn hleft, readBits_zero s⟩

/-- Dropping the buffered bits of a legal reader moves it to the next byte boundary (R145, R148). -/
theorem alignToByte_atBit {s : State} (hr : ReaderOk s) : alignToByte s = s.atBit (8 * s.eng.br.pos.toNat) := by
  obtain ⟨haligned, hplace, -⟩ := alignToByte_ok hr
  exact haligned.atBit hplace

/-- `BR_POS` counts the bytes begun (R148). -/
theorem ReaderOk.pos_eq {s : State} (hr : ReaderOk s) : s.eng.br.pos.toNat = (s.bitPos + 7) / 8 := by
  have hcnt := hr.cnt
  have hfetched := hr.fetched
  unfold State.bitPos
  omega

/-- Settles O8: alignment, and the aligned read on both sides of the slice's end. -/
theorem alignedReads : Obligations.AlignedReads := by
  intro s
  refine ⟨rfl, fun hr => ⟨alignToByte_atBit hr, hr.pos_eq, fun hpos => ?_, fun hend => ?_⟩⟩
  · exact (readByteAligned_atBit hr hpos).1
  · exact readByteAligned_truncated hend

end Sys2Proof.Machine
end

section
/-! What `IN` holds outside the slice does not matter (R144). Each operation commutes with replacing the contents of `IN` by `m`. Most
never read `IN`, and commute whatever `m` is; those that read it do so inside the slice only (R142, R146), and commute where `m` agrees
with `IN` there. What they leave of the slice's registers and of `IN` is their `Res.Leaves`. -/

namespace Sys2Proof.Machine

/-- `m` holds the same bytes as `IN` inside the slice (R26, R27). -/
def SliceAgrees (m : Memory) (p : HostPart) : Prop :=
  ∀ a, p.inBase.toNat ≤ a → a < p.inBase.toNat + p.inSize.toNat → m.read a = p.inMem.read a

/-- The same result, with `m` in `IN`. -/
def Res.withIn {α : Type} (m : Memory) : Res α → Res α
  | .ok a t => .ok a (t.withMem .input m)
  | .raise e t => .raise e (t.withMem .input m)
  | .fault f => .fault f

/-- The same outcome, with `m` in `IN`. -/
def outcomeWithIn (m : Memory) : Host.Outcome State Fault Refusal → Host.Outcome State Fault Refusal
  | .next t => .next (t.withMem .input m)
  | .fault f => .fault f
  | .refused r => .refused r

/-! ## Sequencing -/

theorem Res.bind_withIn {α β : Type} {m : Memory} {r r' : Res α} {k : α → State → Res β} (hr : r.withIn m = r')
    (hk : ∀ a t, (k a t).withIn m = k a (t.withMem .input m)) : (r.bind k).withIn m = r'.bind k := by
  subst hr
  cases r with
  | ok a t => exact hk a t
  | raise e t => rfl
  | fault f => rfl

/-- The sequencing rule where the rest commutes only for an `m` that agrees with the slice. -/
theorem Res.bind_withIn_of_leaves {α β : Type} {m : Memory} {p : HostPart} {r r' : Res α} {k : α → State → Res β} (hl : r.Leaves p)
    (hr : r.withIn m = r') (hk : ∀ a t, t.hostPart = p → (k a t).withIn m = k a (t.withMem .input m)) :
    (r.bind k).withIn m = r'.bind k := by
  subst hr
  cases r with
  | ok a t => exact hk a t hl
  | raise e t => rfl
  | fault f => rfl

/-- A test that does not depend on `IN`; it may be written with `m` in `IN` on the right, since the two are the same by definition. -/
theorem Res.ite_withIn {α : Type} {m : Memory} {c : Prop} [Decidable c] {r₁ r₁' r₂ r₂' : Res α}
    (h₁ : c → r₁.withIn m = r₁') (h₂ : ¬c → r₂.withIn m = r₂') :
    (if c then r₁ else r₂).withIn m = if c then r₁' else r₂' := by
  split_ifs with hc
  · exact h₁ hc
  · exact h₂ hc

/-- What an error leaves does not depend on `IN` (R345). -/
theorem State.raiseError_withMem_input (e : Error) (s : State) (m : Memory) :
    (s.raiseError e).withMem .input m = (s.withMem .input m).raiseError e := by
  unfold State.raiseError
  rw [State.withMem_last]
  split_ifs <;> rfl

theorem Res.finish_withIn {m : Memory} {r r' : Res Unit} (hr : r.withIn m = r') : outcomeWithIn m r.finish = r'.finish := by
  subst hr
  cases r with
  | ok _ t => rfl
  | raise e t => exact congrArg Host.Outcome.next (t.raiseError_withMem_input e m)
  | fault f => rfl

section
variable (s : State) (m : Memory)

theorem raise_withIn (e : Error) : outcomeWithIn m (.next (s.raiseError e)) = .next ((s.withMem .input m).raiseError e) :=
  Res.finish_withIn (r := .raise e s) rfl

/-! ## Operations that do not read `IN` -/

theorem readByte_withIn {sp : Space} (hsp : sp ≠ .input) (a : Nat) :
    (readByte sp a s).withIn m = readByte sp a (s.withMem .input m) := by
  cases sp with
  | input => exact absurd rfl hsp
  | sink => exact Res.ite_withIn (fun _ => rfl) fun _ => rfl
  | pix => exact Res.ite_withIn (fun _ => rfl) fun _ => rfl

theorem writeByte_withIn {sp : Space} (hsp : sp ≠ .input) (a : Nat) (v : Byte) :
    (writeByte sp a v s).withIn m = writeByte sp a v (s.withMem .input m) := by
  cases sp with
  | input => exact absurd rfl hsp
  | sink => exact Res.ite_withIn (fun _ => rfl) fun _ => rfl
  | pix => exact Res.ite_withIn (fun _ => rfl) fun _ => rfl

theorem symbolAt_withIn (t : Table) (i : Int) : (symbolAt t i s).withIn m = symbolAt t i (s.withMem .input m) := by
  refine Res.ite_withIn (fun _ => rfl) fun _ => ?_
  cases t.symbols[i.toNat]? with
  | some sym => rfl
  | none => rfl

theorem growSink_withIn : (growSink s).withIn m = growSink (s.withMem .input m) :=
  Res.ite_withIn (fun _ => Res.ite_withIn (fun _ => rfl) fun _ => rfl) fun _ => rfl

theorem push_withIn (v : Byte) : (push v s).withIn m = push v (s.withMem .input m) :=
  Res.bind_withIn (growSink_withIn s m) fun _ t => Res.bind_withIn (writeByte_withIn t m (by decide) _ v) fun _ _ => rfl

theorem readBehind_withIn : (readBehind s).withIn m = readBehind (s.withMem .input m) :=
  Res.ite_withIn (fun _ => readByte_withIn s m (by decide) _) fun _ => rfl

theorem copyBack_withIn (n : Nat) : (copyBack n s).withIn m = copyBack n (s.withMem .input m) := by
  induction n generalizing s with
  | zero => rfl
  | succ n ih => exact Res.bind_withIn (readBehind_withIn s m) fun b t => Res.bind_withIn (push_withIn t m b) fun _ _ => ih _

theorem backReference_withIn : (backReference s).withIn m = backReference (s.withMem .input m) :=
  Res.ite_withIn (fun _ => rfl) fun _ => copyBack_withIn _ m _

theorem endBlock_withIn : (Res.ok () s.endBlock).withIn m = (Res.ok () (s.withMem .input m).endBlock) := by
  unfold State.endBlock
  rw [State.withMem_eng]
  split_ifs <;> rfl

theorem fillLens_withIn (rep : Nat) (l : BitVec 4) : (fillLens rep l s).withIn m = fillLens rep l (s.withMem .input m) :=
  Res.ite_withIn (fun _ => rfl) fun _ => rfl

theorem fillLens_continue_withIn (rep : Nat) (l : BitVec 4) :
    ((fillLens rep l s).bind fun _ s => .ok () s.continueHeader).withIn m =
      (fillLens rep l (s.withMem .input m)).bind fun _ s => .ok () s.continueHeader := by
  refine Res.bind_withIn (fillLens_withIn s m rep l) fun _ t => ?_
  unfold State.continueHeader State.lengthsWanted
  rw [State.withMem_eng]
  split_ifs <;> rfl

theorem checkedRun_withIn (rep : Nat) (l : BitVec 4) : (checkedRun rep l s).withIn m = checkedRun rep l (s.withMem .input m) :=
  Res.ite_withIn (fun _ => rfl) fun _ => fillLens_continue_withIn s m rep l

theorem rowBytes_withIn (pred : Predictor) (n X : Nat) (done : List Byte) :
    (rowBytes pred s n X done).withIn m = rowBytes pred (s.withMem .input m) n X done := by
  induction n generalizing s X done with
  | zero => rfl
  | succ n ih =>
    refine Res.bind_withIn (readByte_withIn s m (by decide) _) fun raw t => ?_
    simp only [State.withMem_eng]
    split
    · exact ih t _ _
    · rfl

theorem filterRow_withIn (ft : Byte) (pred : Predictor) :
    outcomeWithIn m (filterRow ft pred s) = filterRow ft pred (s.withMem .input m) :=
  Res.finish_withIn <| Res.bind_withIn (rowBytes_withIn s m pred _ _ _) fun _ _ => rfl

theorem checkImage_withIn (bpp : Nat) : (checkImage bpp s).withIn m = checkImage bpp (s.withMem .input m) := by
  rw [checkImage_eq, checkImage_eq]
  exact Res.ite_withIn (fun _ => rfl) fun _ => Res.ite_withIn (fun _ => rfl) fun _ => Res.ite_withIn (fun _ => rfl) fun _ => rfl

theorem formatPixels_withIn (fmt : Formatter) (n x : Nat) :
    (formatPixels fmt n x s).withIn m = formatPixels fmt n x (s.withMem .input m) := by
  induction n generalizing s x with
  | zero => rfl
  | succ n ih =>
    rw [formatPixels, formatPixels]
    simp only [State.withMem_eng, State.withMem_imgWidth]
    split
    · rfl
    · exact Res.bind_withIn (writeByte_withIn s m (by decide) _ _) fun _ t =>
        Res.bind_withIn (writeByte_withIn t m (by decide) _ _) fun _ t =>
        Res.bind_withIn (writeByte_withIn t m (by decide) _ _) fun _ t =>
        Res.bind_withIn (writeByte_withIn t m (by decide) _ _) fun _ t => ih t _

theorem endRow_withIn : (Res.ok () s.endRow).withIn m = (Res.ok () (s.withMem .input m).endRow) := by
  rw [endRow_eq, endRow_eq, State.withMem_eng, State.withMem_imgHeight]
  split_ifs <;> rfl

theorem colourType_withIn (bpp : Nat) (fmt : Formatter) :
    outcomeWithIn m (colourType bpp fmt s) = colourType bpp fmt (s.withMem .input m) :=
  Res.finish_withIn <| Res.ite_withIn (fun _ => checkImage_withIn s m bpp) fun _ =>
    Res.bind_withIn (formatPixels_withIn s m fmt _ _) fun _ t => endRow_withIn t m

end

/-! ## Operations that read `IN` -/

section
variable {s : State} {m : Memory} {p : HostPart} (hm : SliceAgrees m p)
include hm

/-- The one way in which the engine reads `IN` (R142, R146): the byte at `BR_POS`, once it has been seen to lie in the slice. -/
theorem readByte_slice_withIn (h : s.hostPart = p) (hpos : ¬s.inSize ≤ s.eng.br.pos) :
    (readByte .input (s.inBase.toNat + s.eng.br.pos.toNat) s).withIn m =
      readByte .input (s.inBase.toNat + s.eng.br.pos.toNat) (s.withMem .input m) := by
  subst h
  have hin : s.eng.br.pos.toNat < s.inSize.toNat := by rw [BitVec.le_def] at hpos; omega
  have hbyte := hm (s.inBase.toNat + s.eng.br.pos.toNat) (Nat.le_add_right _ _) (Nat.add_lt_add_left hin _)
  exact Res.ite_withIn (fun _ => congrArg (Res.ok · _) hbyte.symm) fun _ => rfl

theorem refill_withIn (fuel n : Nat) (h : s.hostPart = p) : (refill fuel n s).withIn m = refill fuel n (s.withMem .input m) := by
  induction fuel generalizing s with
  | zero => rfl
  | succ fuel ih =>
    refine Res.ite_withIn (fun _ => Res.ite_withIn (fun _ => rfl) fun hpos => ?_) fun _ => rfl
    have hfetch : (fetchByte s).withIn m = fetchByte (s.withMem .input m) :=
      Res.bind_withIn (readByte_slice_withIn hm h hpos) fun _ _ => rfl
    exact Res.bind_withIn_of_leaves (fetchByte_leaves h) hfetch fun _ _ h => ih h

theorem readBits_withIn (n : Nat) (h : s.hostPart = p) : (readBits n s).withIn m = readBits n (s.withMem .input m) :=
  Res.bind_withIn (refill_withIn hm n n h) fun _ _ => rfl

theorem readByteAligned_withIn (h : s.hostPart = p) : (readByteAligned s).withIn m = readByteAligned (s.withMem .input m) :=
  Res.ite_withIn (fun _ => rfl) fun hpos => Res.bind_withIn (readByte_slice_withIn hm h hpos) fun _ _ => rfl

theorem readPairAligned_withIn (h : s.hostPart = p) : (readPairAligned s).withIn m = readPairAligned (s.withMem .input m) :=
  Res.bind_withIn_of_leaves (readByteAligned_leaves h) (readByteAligned_withIn hm h) fun _ _ h =>
    Res.bind_withIn (readByteAligned_withIn hm h) fun _ _ => rfl

theorem decodeFrom_withIn (t : Table) (fuel L v : Nat) (h : s.hostPart = p) :
    (decodeFrom t fuel L v s).withIn m = decodeFrom t fuel L v (s.withMem .input m) := by
  induction fuel generalizing s L v with
  | zero => rfl
  | succ fuel ih =>
    refine Res.bind_withIn_of_leaves (readBits_leaves 1 h) (readBits_withIn hm 1 h) fun b u h => ?_
    split
    · exact Res.ite_withIn (fun _ => symbolAt_withIn u m t _) fun _ => ih _ _ h
    · rfl

theorem decodeSymbol_withIn (t : Table) (h : s.hostPart = p) : (decodeSymbol t s).withIn m = decodeSymbol t (s.withMem .input m) :=
  decodeFrom_withIn hm t 15 0 0 h

theorem copyStored_withIn (n : Nat) (h : s.hostPart = p) : (copyStored n s).withIn m = copyStored n (s.withMem .input m) := by
  induction n generalizing s with
  | zero => rfl
  | succ n ih =>
    exact Res.bind_withIn_of_leaves (readByteAligned_leaves h) (readByteAligned_withIn hm h) fun b t h =>
      Res.bind_withIn_of_leaves (push_leaves b h) (push_withIn t m b) fun _ _ h => ih h

theorem storedBody_withIn (h : s.hostPart = p) : (storedBody s).withIn m = storedBody (s.withMem .input m) :=
  Res.bind_withIn_of_leaves (readPairAligned_leaves h) (readPairAligned_withIn hm h) fun _ _ h =>
    Res.bind_withIn_of_leaves (readPairAligned_leaves h) (readPairAligned_withIn hm h) fun _ _ h =>
    Res.ite_withIn (fun _ => rfl) fun _ => copyStored_withIn hm _ h

theorem execStored_withIn (h : s.hostPart = p) : outcomeWithIn m (execStored s) = execStored (s.withMem .input m) :=
  Res.finish_withIn <| Res.bind_withIn (storedBody_withIn hm h) fun _ t => endBlock_withIn t m

theorem readCodeLengthLengths_withIn (ps : List Nat) (h : s.hostPart = p) :
    (readCodeLengthLengths ps s).withIn m = readCodeLengthLengths ps (s.withMem .input m) := by
  induction ps generalizing s with
  | nil => rfl
  | cons _ ps ih => exact Res.bind_withIn_of_leaves (readBits_leaves 3 h) (readBits_withIn hm 3 h) fun _ _ h => ih h

theorem execDynamic_withIn (h : s.hostPart = p) : outcomeWithIn m (execDynamic s) = execDynamic (s.withMem .input m) :=
  Res.finish_withIn <| Res.bind_withIn_of_leaves (readBits_leaves 5 h) (readBits_withIn hm 5 h) fun _ _ h =>
    Res.bind_withIn_of_leaves (readBits_leaves 5 h) (readBits_withIn hm 5 h) fun _ _ h =>
    Res.bind_withIn_of_leaves (readBits_leaves 4 h) (readBits_withIn hm 4 h) fun _ _ h =>
    Res.bind_withIn (readCodeLengthLengths_withIn hm _ h) fun _ _ => rfl

/-- A run of code lengths whose number of repetitions is read from the stream (R204 to R207). -/
theorem readRun_withIn (base extra : Nat) (l : BitVec 4) (h : s.hostPart = p) :
    ((readRepeat base extra s).bind fun rep s => checkedRun rep l s).withIn m =
      (readRepeat base extra (s.withMem .input m)).bind fun rep s => checkedRun rep l s :=
  Res.bind_withIn (Res.bind_withIn (readBits_withIn hm extra h) fun _ _ => rfl) fun rep t => checkedRun_withIn t m rep l

theorem execClRep_withIn (h : s.hostPart = p) : outcomeWithIn m (execClRep s) = execClRep (s.withMem .input m) := by
  refine Res.finish_withIn <| Res.ite_withIn (fun _ => rfl) fun _ => ?_
  rw [State.withMem_eng]
  cases s.eng.hdr.lens[s.eng.hdr.nl.toNat - 1]? with
  | some prev => exact readRun_withIn hm 3 2 prev h
  | none => rfl

theorem lengthSymbol_withIn (sym base extra : Nat) (h : s.hostPart = p) :
    outcomeWithIn m (lengthSymbol sym base extra s) = lengthSymbol sym base extra (s.withMem .input m) :=
  Res.finish_withIn <| Res.bind_withIn (Res.bind_withIn (readBits_withIn hm extra h) fun _ _ => rfl) fun _ _ => rfl

theorem distanceSymbol_withIn (dsym base extra : Nat) (h : s.hostPart = p) :
    outcomeWithIn m (distanceSymbol dsym base extra s) = distanceSymbol dsym base extra (s.withMem .input m) :=
  Res.finish_withIn <| Res.bind_withIn (Res.bind_withIn (readBits_withIn hm extra h) fun _ _ => rfl) fun _ t =>
    Res.bind_withIn (backReference_withIn t m) fun _ _ => rfl

theorem fetchSelector_withIn (h : s.hostPart = p) : (fetchSelector s).withIn m = fetchSelector (s.withMem .input m) := by
  unfold fetchSelector
  rw [State.withMem_expect]
  cases s.expect with
  | cmd => rfl
  | bh =>
    exact Res.bind_withIn_of_leaves (readBits_leaves 1 h) (readBits_withIn hm 1 h) fun _ _ h =>
      Res.bind_withIn (readBits_withIn hm 2 h) fun _ _ => rfl
  | cl => exact decodeSymbol_withIn hm _ h
  | ll => exact Res.bind_withIn (decodeSymbol_withIn hm _ h) fun _ _ => rfl
  | ds => exact Res.bind_withIn (decodeSymbol_withIn hm _ h) fun _ _ => rfl
  | sl => exact Res.bind_withIn (readByte_withIn s m (by decide) _) fun _ _ => rfl
  | ctype => rfl
  | depth => rfl

/-! ## The engine's step -/

/-- The instructions of one group share their meaning, given by its operands. -/
theorem exec_withIn (i : Instr) (h : s.hostPart = p) : outcomeWithIn m (exec i s) = exec i (s.withMem .input m) := by
  cases i with
  | inflate =>
    show outcomeWithIn m (execInflate s) = execInflate (s.withMem .input m)
    unfold execInflate
    rw [State.withMem_runState]
    split_ifs
    · rfl
    · exact Res.finish_withIn (Res.ite_withIn (fun _ => rfl) fun _ => rfl)
  | recon =>
    show outcomeWithIn m (execRecon s) = execRecon (s.withMem .input m)
    unfold execRecon
    rw [State.withMem_runState]
    split_ifs <;> rfl
  | cmdNop | fixed | depth8 => rfl
  | eob => exact Res.finish_withIn (endBlock_withIn s m)
  | btypeRsvd | llRsvd | dsRsvd | ftRsvd | ctypeRsvd | depthRsvd => exact raise_withIn s m _
  | stored => exact execStored_withIn hm h
  | dynamic => exact execDynamic_withIn hm h
  | clLen l => exact Res.finish_withIn (fillLens_continue_withIn s m 1 l)
  | clRep => exact execClRep_withIn hm h
  | clZero3 | clZero11 => exact Res.finish_withIn (readRun_withIn hm _ _ 0 h)
  | lit b => exact Res.finish_withIn (Res.bind_withIn (push_withIn s m b) fun _ _ => rfl)
  | len257 | len258 | len259 | len260 | len261 | len262 | len263 | len264 | len285 => exact lengthSymbol_withIn hm _ _ 0 h
  | len265 | len266 | len267 | len268 | len269 | len270 | len271 | len272 | len273 | len274 | len275 | len276 | len277 | len278
  | len279 | len280 | len281 | len282 | len283 | len284 => exact lengthSymbol_withIn hm _ _ _ h
  | dist0 | dist1 | dist2 | dist3 | dist4 | dist5 | dist6 | dist7 | dist8 | dist9 | dist10 | dist11 | dist12 | dist13 | dist14
  | dist15 | dist16 | dist17 | dist18 | dist19 | dist20 | dist21 | dist22 | dist23 | dist24 | dist25 | dist26 | dist27 | dist28
  | dist29 => exact distanceSymbol_withIn hm _ _ _ h
  | filtNone | filtSub | filtUp | filtAvg | filtPaeth => exact filterRow_withIn s m _ _
  | fmtGray | fmtRgb | fmtGraya | fmtRgba => exact colourType_withIn s m _ _

theorem engineStep_withIn (h : s.hostPart = p) : outcomeWithIn m (engineStep s) = engineStep (s.withMem .input m) := by
  have hleaves := fetchSelector_leaves h
  unfold engineStep
  rw [← fetchSelector_withIn hm h, State.withMem_expect]
  cases hr : fetchSelector s with
  | ok v t =>
    rw [hr] at hleaves
    dsimp only [Res.withIn]
    cases decodeSel s.expect v with
    | some i => exact exec_withIn hm i hleaves
    | none => rfl
  | raise e t => exact raise_withIn t m e
  | fault f => rfl

end

/-- Settles O9: the step with `m` in `IN` is the step without it, with `m` in `IN` of the state it ends in. -/
theorem bytesOutsideTheSliceDoNotMatter : Obligations.BytesOutsideTheSliceDoNotMatter := by
  intro s m hm
  have hstep : outcomeWithIn m (engineStep s) = engineStep { s with inMem := m } := engineStep_withIn (p := s.hostPart) hm rfl
  rw [← hstep]
  refine ⟨fun t ht => ?_, fun f hf => ?_, fun r hr => ?_⟩
  · rw [ht]; rfl
  · rw [hf]; rfl
  · rw [hr]; rfl

end Sys2Proof.Machine
end

section
/-! The Huffman tables (R161 to R171): what `decode` answers, where `build` puts each symbol, and that it is the pseudocode of R161. -/

namespace Sys2Proof.Machine

/-! ## What `decode` answers -/

/-- Settles O12: no shorter code matches, the symbol's own does, and no other symbol of its length has it. -/
theorem codeDecodesToItsSymbol : Obligations.CodeDecodesToItsSymbol := by
  intro cap lengths d s sym L h hc hr hs hL hleft hcode
  exact decodeSymbol_code h hc d hr hs hL hleft hcode

/-- Settles O13: of the ways in which `decode` ends, a symbol is excluded, and the bits left tell the other two apart. -/
theorem unmatchedCodeRaises : Obligations.UnmatchedCodeRaises := by
  intro cap lengths d s h hc hr hnone
  rcases decodeSymbol_spec h hc d hr with
    ⟨L, sym, -, hused, hpos, -, hcode, -, hleft, -, -, -⟩ | ⟨b, hleft, -, heq⟩ | ⟨b, hleft, -, heq⟩
  · exact absurd hcode (hnone sym L hused hpos hleft)
  · exact ⟨b, by rw [heq, if_neg (Nat.not_le.2 hleft)]⟩
  · exact ⟨b, by rw [heq, if_pos hleft]⟩

/-! ## The slot of a symbol -/

theorem codeRank_eq {lengths : List Nat} {sym L : Nat} (h : lengths[sym]? = some L) :
    codeRank lengths sym = (lengths.take sym).count L := by
  rw [codeRank, List.getD_eq_getElem?_getD, h, Option.getD_some]

/-- The symbols of the lengths up to `n` in slot order: each stands in the slot that its length and its rank give (R161). -/
theorem usedSymbols_prefix_get_iff (lengths : List Nat) (n i sym : Nat) :
    ((List.range n).flatMap fun k => symbolsOfLength lengths (k + 1))[i]? = some sym ↔
      ∃ L, L < n ∧ lengths[sym]? = some (L + 1) ∧ i = startSlot lengths (L + 1) + codeRank lengths sym := by
  constructor
  · intro h
    induction n with
    | zero => simp at h
    | succ n ih =>
      rw [List.range_succ, List.flatMap_append, List.getElem?_append, usedSymbols_prefix_length] at h
      split at h
      · obtain ⟨L, hL, hs⟩ := ih h
        exact ⟨L, by omega, hs⟩
      · rw [List.flatMap_singleton, symbolsOfLength_get] at h
        exact ⟨n, by omega, h.1, by omega⟩
  · rintro ⟨L, hL, hs, rfl⟩
    rw [usedSymbols_prefix_get lengths hL (codeRank_lt hs), symbolsOfLength_get]
    exact ⟨hs, rfl⟩

theorem usedSymbols_get_iff {lengths : List Nat} (h : ∀ l ∈ lengths, l ≤ 15) (i sym : Nat) :
    (usedSymbols lengths)[i]? = some sym ↔
      ∃ L, 1 ≤ L ∧ lengths[sym]? = some L ∧ i = startSlot lengths L + codeRank lengths sym := by
  rw [usedSymbols, usedSymbols_prefix_get_iff]
  constructor
  · rintro ⟨L, -, hs, hi⟩
    exact ⟨L + 1, by omega, hs, hi⟩
  · rintro ⟨L, hL, hs, hi⟩
    have hL15 := h L (List.mem_of_getElem? hs)
    obtain ⟨L, rfl⟩ := Nat.exists_eq_add_of_le' hL
    exact ⟨L, by omega, hs, hi⟩

/-- A symbol has one slot. -/
theorem slot_of_usedSymbols_get {lengths : List Nat} (h : ∀ l ∈ lengths, l ≤ 15) {i sym L : Nat}
    (hs : (usedSymbols lengths)[i]? = some sym) (hL : lengths[sym]? = some L) :
    1 ≤ L ∧ i = startSlot lengths L + codeRank lengths sym := by
  obtain ⟨L', hpos, hL', hi⟩ := (usedSymbols_get_iff h i sym).1 hs
  obtain rfl := Option.some.inj (hL'.symm.trans hL)
  exact ⟨hpos, hi⟩

/-- A filled slot of a built table (R161). -/
theorem buildTable_symbols_get (cap d : Nat) {lengths : List Nat} {i sym : Nat} (h : (usedSymbols lengths)[i]? = some sym) :
    (buildTable cap lengths d).symbols[i]? = some (BitVec.ofNat 9 sym) := by
  have hi := (List.getElem?_eq_some_iff.1 h).1
  rw [buildTable, List.getElem?_append_left (by rwa [List.length_map]), List.getElem?_map, h, Option.map_some]

theorem offsetOf_add_codeOf {lengths : List Nat} {sym L : Nat} (h : lengths[sym]? = some L) :
    offsetOf lengths L + codeOf lengths sym = (startSlot lengths L + codeRank lengths sym : Nat) := by
  rw [offsetOf, codeOf_eq h]
  omega

/-- Settles O11: `T.offset[L] + c` is the slot that `build` gives the symbol. -/
theorem lookupIdentity : Obligations.LookupIdentity := by
  intro cap lengths d sym L h _ hs hL
  have hL15 := h.2 L (List.mem_of_getElem? hs)
  have hslot := (usedSymbols_get_iff h.2 _ sym).2 ⟨L, hL, hs, rfl⟩
  have hoffset := buildTable_offset cap lengths d (show L - 1 < 15 by omega)
  rw [Nat.sub_add_cancel hL] at hoffset
  refine ⟨_, hoffset, ?_, ?_⟩
  · rw [offsetOf_add_codeOf hs]
    exact Int.natCast_nonneg _
  · rw [offsetOf_add_codeOf hs, Int.toNat_natCast]
    exact buildTable_symbols_get cap d hslot

/-! ## Sums over the lengths -/

theorem count_used (lengths : List Nat) (L : Nat) : (lengths.filter fun l => 1 ≤ l).count L = codeCount lengths L := by
  obtain rfl | hL := Nat.eq_zero_or_pos L
  · rw [codeCount, if_pos rfl, List.count_eq_zero]
    simp
  · rw [codeCount, if_neg hL.ne', List.count_filter (by exact decide_eq_true hL)]

/-- A sum over the used symbols, by length (R163). -/
theorem sum_used_eq {lengths : List Nat} (h : ∀ l ∈ lengths, l ≤ 15) (f : Nat → Nat) :
    ((lengths.filter fun l => 1 ≤ l).map f).sum = ∑ L ∈ Finset.range 16, codeCount lengths L * f L := by
  have hsub : (lengths.filter fun l => 1 ≤ l).toFinset ⊆ Finset.range 16 := by
    intro l hl
    simp only [List.mem_toFinset, List.mem_filter] at hl
    have := h l hl.1
    simp only [Finset.mem_range]
    omega
  rw [Finset.sum_list_map_count, Finset.sum_subset hsub]
  · simp only [count_used, smul_eq_mul]
  · intro L _ hL
    rw [List.mem_toFinset] at hL
    rw [List.count_eq_zero.2 hL, zero_smul]

theorem startSlot_eq_sum (lengths : List Nat) (n : Nat) : startSlot lengths n = ∑ L ∈ Finset.range n, codeCount lengths L := by
  induction n with
  | zero => rfl
  | succ n ih => rw [startSlot, ih, Finset.sum_range_succ]

/-- `K` counts the slots that `build` fills (R161). -/
theorem usedSymbols_length {lengths : List Nat} (h : ∀ l ∈ lengths, l ≤ 15) :
    (usedSymbols lengths).length = usedCount lengths := by
  have hsum := sum_used_eq h fun _ => 1
  rw [usedSymbols, usedSymbols_prefix_length, startSlot_eq_sum, usedCount]
  simpa using hsum.symm

theorem usedCount_le {cap : Nat} {lengths : List Nat} (h : LengthsOk cap lengths) : usedCount lengths ≤ cap :=
  (List.length_filter_le _ _).trans h.1

/-- The codes up to length `L`, each lengthened to 15 bits (R161). -/
theorem firstCode_eq_sum (lengths : List Nat) {L : Nat} (hL : L ≤ 15) :
    (firstCode lengths L + codeCount lengths L) * 2 ^ (15 - L) = ∑ l ∈ Finset.range (L + 1), codeCount lengths l * 2 ^ (15 - l) := by
  induction L with
  | zero => simp [firstCode]
  | succ L ih =>
    have hpow : 2 ^ (15 - L) = 2 * 2 ^ (15 - (L + 1)) := by rw [← Nat.pow_succ', Nat.succ_eq_add_one]; congr 1; omega
    rw [Finset.sum_range_succ, ← ih (by omega), firstCode, hpow]
    ring

/-- Under the sum of R170 the codes of a length end within it. -/
theorem firstCode_add_codeCount_le {lengths : List Nat} (h : ∀ l ∈ lengths, l ≤ 15) (hk : Kraft lengths) {L : Nat} (hL : L ≤ 15) :
    firstCode lengths L + codeCount lengths L ≤ 2 ^ L := by
  have hle : (firstCode lengths L + codeCount lengths L) * 2 ^ (15 - L) ≤ 2 ^ L * 2 ^ (15 - L) :=
    calc (firstCode lengths L + codeCount lengths L) * 2 ^ (15 - L)
        = ∑ l ∈ Finset.range (L + 1), codeCount lengths l * 2 ^ (15 - l) := firstCode_eq_sum lengths hL
      _ ≤ ∑ l ∈ Finset.range 16, codeCount lengths l * 2 ^ (15 - l) :=
          Finset.sum_le_sum_of_subset (Finset.range_mono (by omega))
      _ ≤ 2 ^ 15 := by rw [← sum_used_eq h fun l => 2 ^ (15 - l)]; exact hk
      _ = 2 ^ L * 2 ^ (15 - L) := by rw [← Nat.pow_add, Nat.add_sub_cancel' hL]
  exact Nat.le_of_mul_le_mul_right hle (Nat.two_pow_pos _)

/-- The codes of a length begin above every shorter code, lengthened by any bits (R162). -/
theorem codeOf_lt_div {lengths : List Nat} {a b L n : Nat} (ha : lengths[a]? = some L) (hb : lengths[b]? = some (L + (n + 1)))
    (hL : 1 ≤ L) : codeOf lengths a < codeOf lengths b / 2 ^ (n + 1) := by
  have hroom := firstCode_add lengths L n
  have hcode := codeOf_eq hb
  have hle : firstCode lengths L + codeCount lengths L ≤ codeOf lengths b / 2 ^ (n + 1) :=
    (Nat.le_div_iff_mul_le (Nat.two_pow_pos _)).2 (by omega)
  exact (codeOf_lt ha hL).trans_le hle

/-- Settles O14: the codes of a length end where the sum of R170 lets them, and those of a longer one begin above them. -/
theorem canonicalCodesArePrefixFree : Obligations.CanonicalCodesArePrefixFree := by
  intro lengths h hk
  refine ⟨fun a L ha hL => ?_, fun a b L n ha hb hL hab heq => ?_⟩
  · exact (codeOf_lt ha hL).trans_le (firstCode_add_codeCount_le h hk (h L (List.mem_of_getElem? ha)))
  · cases n with
    | zero =>
      rw [Nat.pow_zero, Nat.div_one] at heq
      exact hab (codeOf_injective ha hb heq.symm)
    | succ n =>
      have := codeOf_lt_div ha hb hL
      omega

/-! ## The unfilled slots -/

/-- A lookup of `decode` reads a filled slot: the value matched lies among the codes of its length (R169). -/
theorem exists_slot_of_match {lengths : List Nat} (h : ∀ l ∈ lengths, l ≤ 15) {L v : Nat} (hL : L < 15)
    (hfirst : firstCode lengths (L + 1) ≤ v) (hm : v < firstCode lengths (L + 1) + codeCount lengths (L + 1)) :
    ∃ i, i < usedCount lengths ∧ offsetOf lengths (L + 1) + (v : Int) = (i : Nat) := by
  have hle := startSlot_le lengths hL
  rw [usedSymbols_length h] at hle
  refine ⟨startSlot lengths (L + 1) + (v - firstCode lengths (L + 1)), by omega, ?_⟩
  rw [offsetOf]
  omega

theorem symbolAt_congr {t u : Table} {i : Nat} (h : t.symbols[i]? = u.symbols[i]?) (s : State) :
    symbolAt t i s = symbolAt u i s := by
  simp only [symbolAt, Int.toNat_natCast, h]

/-- The loop of `decode`, whatever stands in the unfilled slots: the value read is never below the first code of the length tried,
since no code of the length before matched. -/
theorem decodeFrom_congr {cap : Nat} {lengths : List Nat} (h : ∀ l ∈ lengths, l ≤ 15) (d : Nat) {t : Table}
    (hm : t.maxCode = (buildTable cap lengths d).maxCode) (ho : t.offset = (buildTable cap lengths d).offset)
    (hs : ∀ i, i < usedCount lengths → t.symbols[i]? = (buildTable cap lengths d).symbols[i]?)
    (fuel L v : Nat) (s : State) (hf : fuel + L = 15) (hfirst : firstCode lengths (L + 1) ≤ 2 * v) :
    decodeFrom t fuel L v s = decodeFrom (buildTable cap lengths d) fuel L v s := by
  induction fuel generalizing L v s with
  | zero => rfl
  | succ fuel ih =>
    have hL : L < 15 := by omega
    simp only [decodeFrom, hm, ho, buildTable_maxCode cap lengths d hL, buildTable_offset cap lengths d hL]
    congr 1
    funext b u
    split
    next hmatch =>
      rw [match_iff] at hmatch
      obtain ⟨i, hi, hslot⟩ := exists_slot_of_match h hL (v := 2 * v + b) (by omega) hmatch.2
      rw [hslot]
      exact symbolAt_congr (hs i hi) u
    next hmatch =>
      rw [match_iff] at hmatch
      refine ih (L + 1) (2 * v + b) u (by omega) ?_
      rw [firstCode]
      omega

/-- Settles O59: every lookup of `decode` reads one of the first `K` slots. -/
theorem unfilledSlotsDoNotMatter : Obligations.UnfilledSlotsDoNotMatter := by
  intro cap lengths d t s h hm ho hs
  exact decodeFrom_congr h.2 d hm ho hs 15 0 0 s rfl (by simp [firstCode, codeCount])

/-! ## The loops of R161 -/

theorem codeCount_cons (l : Nat) (lengths : List Nat) (L : Nat) :
    codeCount (l :: lengths) L = codeCount [l] L + codeCount lengths L := by
  unfold codeCount
  split
  · rfl
  · rw [← List.singleton_append, List.count_append]

theorem countStep_length (bl : List Nat) (l : Nat) : (countStep bl l).length = bl.length := by
  unfold countStep
  split
  · exact List.length_set
  · rfl

theorem countStep_getD {bl : List Nat} (hbl : bl.length = 16) {l : Nat} (hl : l ≤ 15) (L : Nat) :
    (countStep bl l).getD L 0 = bl.getD L 0 + codeCount [l] L := by
  simp only [countStep, codeCount, List.getD_eq_getElem?_getD, List.count_singleton]
  by_cases hused : 1 ≤ l
  · rw [if_pos ⟨hused, hl⟩, List.getElem?_set]
    by_cases hL : l = L
    · subst hL
      simp [show l < bl.length by omega, show l ≠ 0 by omega]
    · simp [hL]
  · obtain rfl : l = 0 := by omega
    rw [if_neg (by omega)]
    cases L <;> simp

/-- The counting loop of R161. -/
theorem foldl_countStep_getD {lengths : List Nat} (h : ∀ l ∈ lengths, l ≤ 15) {bl : List Nat} (hbl : bl.length = 16) (L : Nat) :
    (lengths.foldl countStep bl).getD L 0 = bl.getD L 0 + codeCount lengths L := by
  induction lengths generalizing bl with
  | nil => simp [codeCount]
  | cons l rest ih =>
    rw [List.forall_mem_cons] at h
    rw [List.foldl_cons, ih h.2 ((countStep_length bl l).trans hbl), countStep_getD hbl h.1, codeCount_cons l rest, Nat.add_assoc]

/-- The variables of the loop over `L` after the lengths 1 to `n`. -/
def levelsUpTo (lengths : List Nat) (n : Nat) : Levels where
  code := firstCode lengths n
  slot := startSlot lengths (n + 1)
  start := (List.range n).map fun k => startSlot lengths (k + 1)
  maxCode := (List.range n).map fun k => maxCodeOf lengths (k + 1)
  offset := (List.range n).map fun k => offsetOf lengths (k + 1)

theorem levelStep_levelsUpTo {lengths bl : List Nat} (hbl : ∀ L, bl.getD L 0 = codeCount lengths L) (n : Nat) :
    levelStep bl (levelsUpTo lengths n) (n + 1) = levelsUpTo lengths (n + 1) := by
  simp only [levelStep, levelsUpTo, hbl, Nat.add_sub_cancel, List.range_succ, List.map_append, List.map_singleton]
  rfl

/-- The loop over `L` of R161. -/
theorem foldl_levelStep {lengths bl : List Nat} (hbl : ∀ L, bl.getD L 0 = codeCount lengths L) (n : Nat) :
    (List.range' 1 n).foldl (levelStep bl) ⟨0, 0, [], [], []⟩ = levelsUpTo lengths n := by
  induction n with
  | zero => rfl
  | succ n ih =>
    rw [List.range'_1_concat, List.foldl_append, ih, Nat.add_comm 1 n]
    exact levelStep_levelsUpTo hbl n

theorem levelsByRule_eq {lengths : List Nat} (h : ∀ l ∈ lengths, l ≤ 15) : levelsByRule lengths = levelsUpTo lengths 15 := by
  have hcount : ∀ L, (lengths.foldl countStep (List.replicate 16 0)).getD L 0 = codeCount lengths L := by
    intro L
    rw [foldl_countStep_getD h List.length_replicate, List.getD_eq_getElem?_getD, List.getElem?_getD_replicate_default_eq,
      Nat.zero_add]
  exact foldl_levelStep hcount 15

/-- The filling loop of R161 has placed the symbols below `n`: each length's next slot follows those of its symbols below `n`. -/
structure Placed (cap : Nat) (lengths : List Nat) (n : Nat) (r : List Nat × List (BitVec 9)) : Prop where
  next : r.1 = (List.range 15).map fun k => startSlot lengths (k + 1) + (lengths.take n).count (k + 1)
  size : r.2.length = cap
  filled : ∀ i sym : Nat, (usedSymbols lengths)[i]? = some sym → sym < n → r.2[i]? = some (BitVec.ofNat 9 sym)

theorem Placed.start {cap : Nat} {lengths : List Nat} :
    Placed cap lengths 0 ((levelsUpTo lengths 15).start, List.replicate cap 0) where
  next := by simp [levelsUpTo]
  size := List.length_replicate
  filled := fun _ _ _ hsym => absurd hsym (Nat.not_lt_zero _)

theorem count_take_succ {lengths : List Nat} {n l : Nat} (h : lengths[n]? = some l) (L : Nat) :
    (lengths.take (n + 1)).count L = (lengths.take n).count L + if l = L then 1 else 0 := by
  rw [List.take_add_one, h, Option.toList_some, List.count_append, List.count_singleton]
  simp only [beq_iff_eq]

/-- The next slot of a symbol's length is the symbol's own. -/
theorem Placed.next_getD {cap n L : Nat} {lengths : List Nat} {r : List Nat × List (BitVec 9)} (hp : Placed cap lengths n r)
    (hn : lengths[n]? = some (L + 1)) (hL : L < 15) : r.1.getD L 0 = startSlot lengths (L + 1) + codeRank lengths n := by
  simp [hp.next, codeRank_eq hn, List.getD_eq_getElem?_getD, hL]

/-- The next slots once `placeStep` has raised that of the symbol's length. -/
theorem Placed.next_set {cap n L : Nat} {lengths : List Nat} {r : List Nat × List (BitVec 9)} (hp : Placed cap lengths n r)
    (hn : lengths[n]? = some (L + 1)) (hL : L < 15) : r.1.set L (r.1.getD L 0 + 1) =
      (List.range 15).map fun k => startSlot lengths (k + 1) + (lengths.take (n + 1)).count (k + 1) := by
  rw [hp.next_getD hn hL, codeRank_eq hn, hp.next]
  refine List.ext_getElem (by simp) fun k _ _ => ?_
  rw [List.getElem_set, List.getElem_map, List.getElem_map, List.getElem_range, count_take_succ hn]
  obtain rfl | hk := eq_or_ne L k
  · rw [if_pos rfl, if_pos rfl, Nat.add_assoc]
  · rw [if_neg hk, if_neg (by omega)]; rfl

/-- One turn of the filling loop. The slot written holds no other symbol, since a slot has one symbol. -/
theorem Placed.step {cap n l : Nat} {lengths : List Nat} {r : List Nat × List (BitVec 9)} (h : LengthsOk cap lengths)
    (hn : lengths[n]? = some l) (hp : Placed cap lengths n r) : Placed cap lengths (n + 1) (placeStep r (l, n)) := by
  cases l with
  | zero =>
    rw [placeStep, if_neg (Nat.not_succ_le_zero 0)]
    refine ⟨?_, hp.size, fun i sym hs hsym => hp.filled i sym hs ?_⟩
    · simp [hp.next, count_take_succ hn]
    · have hne : sym ≠ n := by
        rintro rfl
        exact Nat.not_succ_le_zero 0 (slot_of_usedSymbols_get h.2 hs hn).1
      omega
  | succ L =>
    have hL : L < 15 := h.2 (L + 1) (List.mem_of_getElem? hn)
    rw [placeStep, if_pos (Nat.le_add_left 1 L), Nat.add_sub_cancel]
    refine ⟨hp.next_set hn hL, List.length_set.trans hp.size, fun i sym hs hsym => ?_⟩
    rw [hp.next_getD hn hL]
    obtain rfl | hne := eq_or_ne sym n
    · have hi : i < r.2.length := by
        rw [hp.size]
        exact (List.getElem?_eq_some_iff.1 hs).1.trans_le (usedSymbols_length h.2 ▸ usedCount_le h)
      rw [← (slot_of_usedSymbols_get h.2 hs hn).2, List.getElem?_set_self hi]
    · have hslot := (usedSymbols_get_iff h.2 _ n).2 ⟨L + 1, Nat.le_add_left 1 L, hn, rfl⟩
      rw [List.getElem?_set_ne, hp.filled i sym hs (by omega)]
      rintro rfl
      exact hne (Option.some.inj (hs.symm.trans hslot))

theorem foldl_placeStep {cap n : Nat} {lengths rest : List Nat} {r : List Nat × List (BitVec 9)} (h : LengthsOk cap lengths)
    (hrest : lengths.drop n = rest) (hp : Placed cap lengths n r) :
    Placed cap lengths (n + rest.length) ((rest.zipIdx n).foldl placeStep r) := by
  induction rest generalizing n r with
  | nil => exact hp
  | cons l rest ih =>
    have hn : lengths[n]? = some l := by rw [← List.head?_drop, hrest, List.head?_cons]
    have hdrop : lengths.drop (n + 1) = rest := by rw [← List.tail_drop, hrest, List.tail_cons]
    have hplaced := ih hdrop (hp.step h hn)
    rw [Nat.add_right_comm] at hplaced
    exact hplaced

/-- The filling loop of R161. -/
theorem placed_buildByRule {cap : Nat} {lengths : List Nat} (h : LengthsOk cap lengths) :
    Placed cap lengths lengths.length
      (lengths.zipIdx.foldl placeStep ((levelsByRule lengths).start, List.replicate cap 0)) := by
  have hplaced := foldl_placeStep h List.drop_zero Placed.start
  rw [Nat.zero_add] at hplaced
  rw [levelsByRule_eq h.2]
  exact hplaced

theorem buildByRule_symbols_get {cap : Nat} {lengths : List Nat} (h : LengthsOk cap lengths) {i sym : Nat}
    (hs : (usedSymbols lengths)[i]? = some sym) : (buildByRule cap lengths).symbols[i]? = some (BitVec.ofNat 9 sym) := by
  obtain ⟨L, -, hused, -⟩ := (usedSymbols_get_iff h.2 i sym).1 hs
  exact (placed_buildByRule h).filled i sym hs (List.getElem?_eq_some_iff.1 hused).1

theorem buildTable_symbols_length {cap : Nat} {lengths : List Nat} (h : LengthsOk cap lengths) (d : Nat) :
    (buildTable cap lengths d).symbols.length = cap := by
  have hcap := usedCount_le h
  simp [buildTable, freeList, usedSymbols_length h.2, hcap]

/-- Settles O10: the three loops of R161 end in the entries of `buildTable`. -/
theorem buildFollowsThePseudocode : Obligations.BuildFollowsThePseudocode := by
  intro cap lengths d h
  refine ⟨?maxCode, ?offset, ?symbols, buildTable_symbols_length h d, usedCount_le h⟩
  case maxCode => rw [buildByRule, levelsByRule_eq h.2]; rfl
  case offset => rw [buildByRule, levelsByRule_eq h.2]; rfl
  case symbols =>
    refine List.ext_getElem? fun i => ?_
    rw [List.getElem?_take, List.getElem?_take]
    split
    next hi =>
      rw [← usedSymbols_length h.2] at hi
      have hs := List.getElem?_eq_getElem hi
      rw [buildTable_symbols_get cap d hs, buildByRule_symbols_get h hs]
    next => rfl

end Sys2Proof.Machine
end

section
/-! Every command ends (R189, R348, R384): a step of the engine in a legal BUSY state with a silent host ends the command or leaves it with
fewer steps left. -/

namespace Sys2Proof.Machine

/-! ## The bound -/

theorem stepsLeft_inflate {s : State} (hl : s.last = 1) : s.stepsLeft = s.bitsLeft + 1 := if_pos hl

/-- A command that runs has a step left. -/
theorem Inv.stepsLeft_pos {s : State} (h : Inv s) (hb : s.runState = .busy) : 1 ≤ s.stepsLeft := by
  have hr := h.running
  rw [if_pos hb] at hr
  rcases hr with hi | hr
  · rw [stepsLeft_inflate hi.last]
    omega
  rcases hr.place with ⟨hp, -⟩ | ⟨hp, -⟩ | ⟨hp, -, hrows, -⟩
  · rw [stepsLeft_rcheck hr.last hp]
    split_ifs <;> omega
  · rw [stepsLeft_rcheck hr.last hp]
    split_ifs <;> omega
  · have hy := hrows.y
    rw [stepsLeft_rows hr.last hp]
    omega

/-- A step of an INFLATE that goes on has used up a bit of the stream (R149, R189). -/
theorem InflateStepped.nearer {s t : State} (h : InflateStepped s t) (hl : s.last = 1) (hb : t.runState = .busy) :
    t.stepsLeft < s.stepsLeft := by
  have hne : t.runState ≠ .error := by rw [hb]; decide
  have hforward := h.forward hne
  obtain ⟨-, -, hreader⟩ := h.next.kept hne
  have hwithin := hreader.bitPos_le
  rw [stepsLeft_inflate hl, stepsLeft_inflate (h.next.going hb).1, State.bitsLeft, State.bitsLeft]
  rw [h.next.frame.inSize] at hwithin ⊢
  omega

/-! ## The step -/

/-- What a step of the engine leaves of a running command: a legal state with a silent host, in which the command has ended or has fewer
steps left. -/
structure Nearer (s t : State) : Prop where
  inv : Inv t
  silent : t.script = []
  last : t.last = s.last
  going : t.runState = .busy → t.stepsLeft < s.stepsLeft

theorem Inv.step_nearer {s : State} (h : Inv s) (hb : s.runState = .busy) (hs : s.script = []) : ∃ t, step s = .next t ∧ Nearer s t := by
  have hr := h.running
  rw [if_pos hb] at hr
  rw [step_silent hb hs]
  rcases hr with hi | hr
  · obtain ⟨t, ht, hn⟩ := engineStep_inflate h hb hi
    exact ⟨t, ht, hn.next.inv, hn.next.frame.script.trans hs, hn.next.frame.last, hn.nearer hi.last⟩
  · obtain ⟨t, ht, hn⟩ := engineStep_recon (h.running_of_busy hb) hr
    exact ⟨t, ht, hn.inv, hn.frame.script.trans hs, hn.frame.last, fun hb' => (hn.going hb').2⟩

/-- A command that no longer runs is DONE or has failed: no step of the engine leads back to IDLE. -/
theorem Nearer.ended {s t : State} (h : Nearer s t) (hl : s.last ≠ 0) (hb : t.runState ≠ .busy) :
    t.runState = .done ∨ t.runState = .error := by
  cases hrun : t.runState with
  | idle => exact absurd (h.last.symm.trans (h.inv.status.idle hrun)) hl
  | busy => exact absurd hrun hb
  | done => exact .inl rfl
  | error => exact .inr rfl

/-! ## The run -/

theorem runFor_succ {s t : State} (h : step s = .next t) (k : Nat) : runFor (k + 1) s = runFor k t := by
  rw [runFor, h]

/-- The command ends within any number of steps that bounds `stepsLeft`, by induction on that number. -/
theorem Inv.ends_within {n : Nat} {s : State} (h : Inv s) (hb : s.runState = .busy) (hs : s.script = []) (hn : s.stepsLeft ≤ n) :
    ∃ k t, k ≤ n ∧ runFor k s = .next t ∧ (t.runState = .done ∨ t.runState = .error) := by
  induction n generalizing s with
  | zero => exact absurd (h.stepsLeft_pos hb) (by omega)
  | succ n ih =>
    obtain ⟨t, ht, hnear⟩ := h.step_nearer hb hs
    by_cases hbt : t.runState = .busy
    · have hless := hnear.going hbt
      obtain ⟨k, u, hk, hrun, hend⟩ := ih hnear.inv hbt hnear.silent (by omega)
      exact ⟨k + 1, u, Nat.succ_le_succ hk, (runFor_succ ht k).trans hrun, hend⟩
    · have hl : s.last ≠ 0 := h.status.started (by rw [hb]; decide)
      exact ⟨1, t, by omega, runFor_succ ht 0, hnear.ended hl hbt⟩

/-! ## The bound at the start of a command -/

/-- An INFLATE that starts has the whole slice before it (R180). -/
theorem stepsLeft_inflateStarted (s : State) : s.inflateStarted.stepsLeft = 8 * s.inSize.toNat + 1 := rfl

theorem stepsLeft_reconStarted (s : State) :
    ((s.startCommand 2).goTo .rcheck .depth).stepsLeft = 2 * s.imgHeight.toNat + 3 := rfl

/-- Settles O45: each step of the engine brings the end nearer (`Nearer`), and `stepsLeft` counts down from the bounds that the two
commands start with. -/
theorem everyCommandEnds : Obligations.EveryCommandEnds := by
  refine ⟨fun s h hb hs => h.ends_within hb hs (Nat.le_refl _), fun s t hb ht hbt => ?inflate, fun s t hb ht => ?recon⟩
  case inflate =>
    rw [exec_inflate hb] at ht
    rcases Nat.lt_or_ge s.config.inLimit (s.inBase.toNat + s.inSize.toNat) with hpasses | hfits
    · rw [startInflate_truncated hpasses] at ht
      obtain rfl := Host.Outcome.next.inj ht
      exact nomatch hbt
    · rw [startInflate_ok hfits] at ht
      obtain rfl := Host.Outcome.next.inj ht
      exact (stepsLeft_inflateStarted s).le
  case recon =>
    rw [exec_recon hb] at ht
    obtain rfl := Host.Outcome.next.inj ht
    exact (stepsLeft_reconStarted s).le

end Sys2Proof.Machine
end

section
/-! The Bit Reader at a place of the stream: what a read of `n` bits from bit `k` does, whatever else the state has become, and the block
header (R143, R182). -/

namespace Sys2Proof.Machine

/-! ## Updates of other registers -/

@[simp] theorem State.goTo_streamField (s : State) (p : Phase) (e : Selector) (k n : Nat) :
    (s.goTo p e).streamField k n = s.streamField k n :=
  State.streamField_congr (by rfl) (by rfl) k n

@[simp] theorem State.goTo_bitPos (s : State) (p : Phase) (e : Selector) : (s.goTo p e).bitPos = s.bitPos := rfl

@[simp] theorem State.withHdr_streamField (s : State) (h : HeaderRegs) (k n : Nat) : (s.withHdr h).streamField k n = s.streamField k n :=
  State.streamField_congr (by rfl) (by rfl) k n

theorem State.atBit_withHdr (s : State) (h : HeaderRegs) (k : Nat) : (s.atBit k).withHdr h = (s.withHdr h).atBit k := by
  rw [State.atBit, State.atBit, State.readerAt_congr (s := s) (t := s.withHdr h) rfl rfl]
  rfl

theorem State.atBit_withSto (s : State) (r : StoredRegs) (k : Nat) : (s.atBit k).withSto r = (s.withSto r).atBit k := by
  rw [State.atBit, State.atBit, State.readerAt_congr (s := s) (t := s.withSto r) rfl rfl]
  rfl

/-! ## Reads -/

/-- A legal reader stands where its place says. -/
theorem ReaderOk.atBit_bitPos {s : State} (h : ReaderOk s) : s.atBit s.bitPos = s := (h.atBit (b := s.eng.br) rfl).symm

theorem ReaderOk.bitsLeft_eq {s : State} (h : ReaderOk s) : s.bitPos + s.bitsLeft = 8 * s.inSize.toNat :=
  Nat.add_sub_cancel' h.bitPos_le

theorem ReaderOk.goTo {s : State} (h : ReaderOk s) (p : Phase) (e : Selector) : ReaderOk (s.goTo p e) :=
  h.congr rfl rfl rfl rfl rfl

/-- `read_bits(n)` from bit `k` of a slice inside `IN` (R143): the field from there on and the reader past it, or the slice's end. -/
theorem readBits_place {s : State} (hs : s.inBase.toNat + s.inSize.toNat ≤ s.config.inLimit) {k n : Nat} (hk : k ≤ 8 * s.inSize.toNat)
    (hn : n ≤ 25) : (readBits n (s.atBit k)).Sat (fun v t => k + n ≤ 8 * s.inSize.toNat ∧ v = s.streamField k n ∧ t = s.atBit (k + n))
      fun e t => e = .truncatedInput ∧ 8 * s.inSize.toNat < k + n ∧ ∃ b, t = s.withBr b := by
  obtain ⟨hr, hp⟩ := ReaderOk.place hs hk
  have hleft := State.atBit_bitsLeft hp
  by_cases hl : n ≤ (s.atBit k).bitsLeft
  · have hread := (readBits_atBit hr hn hl).1
    rw [hp, State.atBit_streamField, State.atBit_atBit] at hread
    rw [hread]
    exact ⟨by omega, rfl, rfl⟩
  · obtain ⟨b, hread⟩ := readBits_truncated hr hn (Nat.lt_of_not_le hl)
    rw [hread]
    exact ⟨rfl, by omega, b, rfl⟩

/-- `read_bits(n)` from where a legal reader stands. -/
theorem ReaderOk.readBits_sat {s : State} (h : ReaderOk s) {n : Nat} (hn : n ≤ 25) : (readBits n s).Sat
    (fun v t => s.bitPos + n ≤ 8 * s.inSize.toNat ∧ v = s.streamField s.bitPos n ∧ t = s.atBit (s.bitPos + n))
    fun e t => e = .truncatedInput ∧ 8 * s.inSize.toNat < s.bitPos + n ∧ ∃ b, t = s.withBr b := by
  have hread := readBits_place h.slice h.bitPos_le hn
  rwa [h.atBit_bitPos] at hread

/-! ## The block header -/

/-- `read_bits(1)` delivers the next bit. -/
theorem State.streamField_one (s : State) (k : Nat) : s.streamField k 1 = s.streamBit k := by
  simp [State.streamField]

/-- The two reads of R182. -/
theorem fetchHeader_sat {s : State} (hr : ReaderOk s) : (fetchHeader s).Sat
    (fun v t => 3 ≤ s.bitsLeft ∧ v = s.streamField (s.bitPos + 1) 2 ∧
      t = ((s.goTo .header .bh).atBit (s.bitPos + 3)).withHeaderFlags (s.streamBit s.bitPos) (s.streamField (s.bitPos + 1) 2))
    fun e _ => e = .truncatedInput ∧ s.bitsLeft < 3 := by
  have h0 := hr.goTo .header .bh
  have hleft := hr.bitsLeft_eq
  refine Res.Sat.bind ((h0.readBits_sat (n := 1) (by omega)).mono (fun _ _ h => h) ?_) ?_
  · rintro e t ⟨he, hend, -⟩
    rw [State.goTo_inSize, State.goTo_bitPos] at hend
    exact ⟨he, by omega⟩
  rintro f t ⟨hf, rfl, rfl⟩
  refine Res.Sat.bind ((readBits_place h0.slice hf (n := 2) (by omega)).mono (fun _ _ h => h) ?_) ?_
  · rintro e t ⟨he, hend, -⟩
    rw [State.goTo_inSize, State.goTo_bitPos] at hend
    exact ⟨he, by omega⟩
  rintro v t ⟨hv, rfl, rfl⟩
  rw [State.goTo_inSize, State.goTo_bitPos] at hv
  simp only [State.goTo_streamField, State.goTo_bitPos, State.streamField_one]
  exact ⟨by omega, rfl, rfl⟩

/-- Settles O5: the fetch is `fetchHeader`, whose two outcomes exclude each other at three bits left. -/
theorem blockHeaderFetch : Obligations.BlockHeaderFetch := by
  intro s hr he
  have hsat := fetchHeader_sat hr
  rw [show fetchSelector s = fetchHeader s by rw [fetchSelector, he]]
  cases hf : fetchHeader s with
  | ok v t =>
    rw [hf] at hsat
    obtain ⟨hleft, rfl, rfl⟩ := hsat
    exact ⟨fun _ => rfl, fun hlt => by omega⟩
  | raise e t =>
    rw [hf] at hsat
    obtain ⟨rfl, hlt⟩ := hsat
    exact ⟨fun hleft => by omega, fun _ => ⟨t, rfl⟩⟩
  | fault f =>
    rw [hf] at hsat
    exact hsat.elim

end Sys2Proof.Machine
end

section
/-! The other instructions of the block-header space: STORED, FIXED, DYNAMIC, and the end of a block (R181, R184 to R188, R200, R201). -/

namespace Sys2Proof.Machine

/-- Settles O23: the two builds draw one after the other (R185). -/
theorem fixedBuildsItsTables : Obligations.FixedBuildsItsTables := fun _ => rfl

/-- Settles O29: whether the block was the final one decides (R181). -/
theorem endOfBlock : Obligations.EndOfBlock := by
  refine fun s => ⟨rfl, fun hfinal => ?_, fun hmore => ?_⟩
  · rw [State.endBlock, if_pos hfinal]; rfl
  · rw [State.endBlock, if_neg hmore]; rfl

/-- Settles O40: each reserved instruction raises its error and does nothing else. -/
theorem reservedInstructionsFail : Obligations.ReservedInstructionsFail :=
  fun _ => ⟨rfl, fun _ => rfl, fun _ => rfl, fun _ => rfl, fun _ => rfl, fun _ => rfl⟩

/-! ## A dynamic header's code-length-code lengths -/

/-- `CLL` once a 3-bit field from bit `k` on has been written for each of the given symbols, in order (R201). -/
def State.cllFrom (s : State) (k : Nat) : List Nat → List (BitVec 3) → List (BitVec 3)
  | [], cll => cll
  | p :: ps, cll => s.cllFrom (k + 3) ps (cll.set p (BitVec.ofNat 3 (s.streamField k 3)))

@[simp] theorem State.withHdr_cllFrom (s : State) (h : HeaderRegs) (k : Nat) (ps : List Nat) (cll : List (BitVec 3)) :
    (s.withHdr h).cllFrom k ps cll = s.cllFrom k ps cll := by
  induction ps generalizing k cll with
  | nil => rfl
  | cons p ps ih => rw [State.cllFrom, State.cllFrom, ih, State.withHdr_streamField]

@[simp] theorem State.goTo_cllFrom (s : State) (p : Phase) (e : Selector) (k : Nat) (ps : List Nat) (cll : List (BitVec 3)) :
    (s.goTo p e).cllFrom k ps cll = s.cllFrom k ps cll := by
  induction ps generalizing k cll with
  | nil => rfl
  | cons q ps ih => rw [State.cllFrom, State.cllFrom, ih, State.goTo_streamField]

@[simp] theorem State.cllFrom_length (s : State) (k : Nat) (ps : List Nat) (cll : List (BitVec 3)) :
    (s.cllFrom k ps cll).length = cll.length := by
  induction ps generalizing k cll with
  | nil => rfl
  | cons p ps ih => rw [State.cllFrom, ih, List.length_set]

/-- A symbol that is listed once gets the field that its place in the list counts to, and the others keep what they had. -/
theorem State.cllFrom_get (s : State) {ps : List Nat} (hps : ps.Nodup) (k : Nat) {cll : List (BitVec 3)} {sym : Nat} (hsym : sym < cll.length) :
    (s.cllFrom k ps cll)[sym]? = if sym ∈ ps then some (BitVec.ofNat 3 (s.streamField (k + 3 * ps.idxOf sym) 3)) else cll[sym]? := by
  induction ps generalizing k cll with
  | nil => rfl
  | cons p ps ih =>
    obtain ⟨hp, hps⟩ := List.nodup_cons.1 hps
    rw [State.cllFrom, ih hps _ (by rwa [List.length_set])]
    by_cases he : p = sym
    · subst he
      rw [if_neg hp, if_pos List.mem_cons_self, List.getElem?_set_self hsym, List.idxOf_cons_self, Nat.mul_zero, Nat.add_zero]
    · rw [List.getElem?_set_ne he, List.idxOf_cons_ne _ he, Nat.mul_succ, Nat.add_comm (3 * _) 3, ← Nat.add_assoc]
      simp only [List.mem_cons, Ne.symm he, false_or]

/-- What a dynamic header leaves of the state `s` it began in when the slice ends before bit `m`. -/
structure HeaderCut (s : State) (m : Nat) (e : Error) (t : State) : Prop where
  err : e = .truncatedInput
  short : 8 * s.inSize.toNat < m
  regs : ∃ h b, t = (s.withHdr h).withBr b

section
variable {s : State} {k m : Nat} (hs : s.inBase.toNat + s.inSize.toNat ≤ s.config.inLimit) (h : HeaderRegs) (hk : k ≤ 8 * s.inSize.toNat)
include hs hk

/-- A field of a header that ends no earlier than at bit `m`. -/
theorem readBits_header {n : Nat} (hn : n ≤ 25) (hm : k + n ≤ m) : (readBits n ((s.withHdr h).atBit k)).Sat
    (fun v t => k + n ≤ 8 * s.inSize.toNat ∧ v = s.streamField k n ∧ t = (s.withHdr h).atBit (k + n)) (HeaderCut s m) := by
  refine (readBits_place (s := s.withHdr h) hs hk hn).mono ?_ ?_
  · rintro v t ⟨hfits, rfl, rfl⟩
    exact ⟨hfits, s.withHdr_streamField h k n, rfl⟩
  · rintro e t ⟨he, hend, b, rfl⟩
    exact ⟨he, Nat.lt_of_lt_of_le hend hm, h, b, rfl⟩

/-- The loop of R201 from bit `k`: a field for each of the symbols, or the slice's end. -/
theorem readCodeLengthLengths_header (ps : List Nat) (hm : k + 3 * ps.length ≤ m) :
    (readCodeLengthLengths ps ((s.withHdr h).atBit k)).Sat
      (fun _ t => k + 3 * ps.length ≤ 8 * s.inSize.toNat ∧
        t = (s.withHdr { h with cll := s.cllFrom k ps h.cll }).atBit (k + 3 * ps.length)) (HeaderCut s m) := by
  induction ps generalizing h k with
  | nil => exact ⟨hk, rfl⟩
  | cons p ps ih =>
    rw [List.length_cons, Nat.mul_succ, Nat.add_comm (3 * _) 3, ← Nat.add_assoc] at hm ⊢
    refine Res.Sat.bind (readBits_header hs h hk (by omega) (by omega)) ?_
    rintro v t ⟨hfits, rfl, rfl⟩
    rw [State.atBit_withHdr]
    exact ih { h with cll := h.cll.set p (BitVec.ofNat 3 (s.streamField k 3)) } hfits hm

end

theorem State.withHdr_withHdr (s : State) (h h' : HeaderRegs) : (s.withHdr h).withHdr h' = s.withHdr h' := rfl

/-! ## The fixed part of a dynamic header -/

/-- `HCLEN` as the header that begins at the next bit declares it (R200). -/
def State.declaredHclen (s : State) : Nat := s.streamField (s.bitPos + 10) 4 + 4

theorem State.declaredHclen_le (s : State) : s.declaredHclen ≤ perm.length := by
  have hfield := s.streamField_lt (s.bitPos + 10) 4
  show s.streamField (s.bitPos + 10) 4 + 4 ≤ 19
  omega

/-- `CLL` as the header that begins at the next bit declares it (R201). -/
def State.declaredCll (s : State) : List (BitVec 3) :=
  s.cllFrom (s.bitPos + 14) (perm.take s.declaredHclen) (List.replicate 19 0)

/-- The header's registers after the fixed part (R200). -/
def State.declaredHdr (s : State) : HeaderRegs :=
  { s.eng.hdr with
    hlit := BitVec.ofNat 9 (s.streamField s.bitPos 5 + 257)
    hdist := BitVec.ofNat 6 (s.streamField (s.bitPos + 5) 5 + 1)
    hclen := BitVec.ofNat 5 s.declaredHclen, cll := s.declaredCll, nl := 0 }

/-- Every symbol stands in `PERM`, so `CLL` has the field of each symbol whose place is below `HCLEN`, and 0 for the others. -/
theorem State.declaredCll_eq (s : State) : s.declaredCll = (List.range 19).map fun sym =>
    if perm.idxOf sym < s.declaredHclen then BitVec.ofNat 3 (s.streamField (s.bitPos + 14 + 3 * perm.idxOf sym) 3) else 0 := by
  refine List.ext_getElem? fun sym => ?_
  rw [State.declaredCll]
  by_cases hsym : sym < 19
  · have hmem : sym ∈ perm := (by decide : ∀ sym < 19, sym ∈ perm) sym hsym
    have hnodup : (perm.take s.declaredHclen).Nodup := (by decide : perm.Nodup).sublist (List.take_sublist _ _)
    rw [s.cllFrom_get hnodup _ (by rwa [List.length_replicate]), List.getElem?_map, List.getElem?_range hsym, Option.map_some]
    by_cases hplace : perm.idxOf sym < s.declaredHclen
    · have htaken : sym ∈ perm.take s.declaredHclen := (List.mem_take_iff_idxOf_lt hmem).2 hplace
      have hidx : (perm.take s.declaredHclen).idxOf sym = perm.idxOf sym := by
        conv_rhs => rw [← List.take_append_drop s.declaredHclen perm, List.idxOf_append_of_mem htaken]
      rw [if_pos htaken, if_pos hplace, hidx]
    · rw [if_neg (mt (List.mem_take_iff_idxOf_lt hmem).1 hplace), if_neg hplace, List.getElem?_replicate, if_pos hsym]
  · rw [List.getElem?_eq_none (by simpa using hsym), List.getElem?_eq_none (by simpa using hsym)]

/-- The fixed part of a dynamic header (R200): the registers it declares, or the slice's end within it. -/
theorem dynamicHeader_sat {s : State} (hr : ReaderOk s) : (dynamicHeader s).Sat
    (fun _ t => s.bitPos + 14 + 3 * s.declaredHclen ≤ 8 * s.inSize.toNat ∧
      t = (((s.goTo .dynhdr .cl).atBit (s.bitPos + 14 + 3 * s.declaredHclen)).withHdr s.declaredHdr).buildCt
        (s.declaredCll.map BitVec.toNat))
    (HeaderCut (s.goTo .dynhdr .cl) (s.bitPos + 14 + 3 * s.declaredHclen)) := by
  have h0 := hr.goTo .dynhdr .cl
  have hstart : ((s.goTo .dynhdr .cl).withHdr s.eng.hdr).atBit s.bitPos = s.goTo .dynhdr .cl := h0.atBit_bitPos
  have hhclen : (s.goTo .dynhdr .cl).streamField (s.bitPos + 5 + 5) 4 + 4 = s.declaredHclen := by rw [State.goTo_streamField]; rfl
  have hlen : (perm.take s.declaredHclen).length = s.declaredHclen := List.length_take_of_le s.declaredHclen_le
  have hfirst := readBits_header h0.slice s.eng.hdr hr.bitPos_le (n := 5) (m := s.bitPos + 14 + 3 * s.declaredHclen)
    (by omega) (by omega)
  rw [hstart] at hfirst
  refine Res.Sat.bind hfirst ?_
  rintro hlit t ⟨hfits, rfl, rfl⟩
  rw [State.atBit_withHdr, State.withHdr_withHdr]
  refine Res.Sat.bind (readBits_header h0.slice _ hfits (by omega) (by omega)) ?_
  rintro hdist t ⟨hfits, rfl, rfl⟩
  rw [State.atBit_withHdr, State.withHdr_withHdr]
  refine Res.Sat.bind (readBits_header h0.slice _ hfits (by omega) (by omega)) ?_
  rintro hclen t ⟨hfits, rfl, rfl⟩
  rw [State.atBit_withHdr, State.withHdr_withHdr, hhclen]
  refine Res.Sat.bind (readCodeLengthLengths_header h0.slice _ hfits _ (by omega)) ?_
  rintro - t ⟨hfits, rfl⟩
  rw [hlen] at hfits ⊢
  refine ⟨hfits, ?_⟩
  rw [← State.atBit_withHdr, State.goTo_cllFrom]
  simp only [State.goTo_streamField]
  rfl

/-- Settles O24: both outcomes of `dynamicHeader_sat`; where the slice ends makes no difference to what the error leaves. -/
theorem dynamicHeaderIsRead : Obligations.DynamicHeaderIsRead := by
  intro s hr
  have hsat := dynamicHeader_sat hr
  have hleft := hr.bitsLeft_eq
  have hcll := s.declaredCll_eq
  show (14 + 3 * s.declaredHclen ≤ s.bitsLeft → (dynamicHeader s).finish = _) ∧
    (s.bitsLeft < 14 ∨ s.bitsLeft < 14 + 3 * s.declaredHclen → s.last = 1 → s.phase = .header → (dynamicHeader s).finish = _)
  cases hd : dynamicHeader s with
  | ok _ t =>
    rw [hd] at hsat
    obtain ⟨hfits, rfl⟩ := hsat
    refine ⟨fun _ => ?_, fun hshort => by omega⟩
    rw [State.declaredHdr, hcll]
    rfl
  | raise e t =>
    rw [hd] at hsat
    obtain ⟨rfl, hshort, h, b, rfl⟩ := hsat
    rw [State.goTo_inSize] at hshort
    refine ⟨fun hfits => by omega, fun _ hl hp => ?_⟩
    rw [Res.finish_raise, State.raiseError_withBr, State.raiseError_withHdr,
      State.raiseError_goTo hl hp (.inr (.inr (.inl rfl)))]
  | fault f =>
    rw [hd] at hsat
    exact hsat.elim

end Sys2Proof.Machine
end

section
/-! STORED (R184): the two length fields at the next byte boundary, the copy to the sink, and the errors of both. -/

namespace Sys2Proof.Machine

/-! ## Bytes from a byte boundary -/

/-- Bytes of the slice stored in the sink, in order. -/
theorem Stored.loadSlice (s : State) (m : Memory) (a p n : Nat) :
    Stored m (m.load a (s.sliceBytes p n)) a n fun k => s.sliceByte (p + k) := by
  have hload := Stored.load m a (s.sliceBytes p n) (fun k => s.sliceByte (p + k)) fun k hk => by
    rw [State.sliceBytes_length] at hk
    rw [s.sliceBytes_get p n k hk, Nat.add_assoc]
    rfl
  rwa [State.sliceBytes_length] at hload

/-- The state after the `n` bytes from byte `j` of the slice have been copied to the sink, but for the Bit Reader (R184). -/
def State.copiedFrom (s : State) (j n : Nat) : State :=
  (s.withSink (s.sinkMem.load s.sinkLen.toNat (s.sliceBytes j n)) (s.sinkLen.toNat + n) (s.capAfter n)).withSto
    { s.eng.sto with left := if n = 0 then s.eng.sto.left else 0 }

section
variable {s : State} (hs : s.inBase.toNat + s.inSize.toNat ≤ s.config.inLimit)
include hs

/-- A reader at a byte boundary of the slice. -/
theorem ReaderOk.place_byte {j : Nat} (hj : j ≤ s.inSize.toNat) :
    ReaderOk (s.atBit (8 * j)) ∧ (s.atBit (8 * j)).eng.br.pos.toNat = j := by
  obtain ⟨hr, hp⟩ := ReaderOk.place (k := 8 * j) hs (by omega)
  exact ⟨hr, by rw [hr.pos_eq, hp]; omega⟩

/-- Two bytes, low byte first, from byte `j` (R77). -/
theorem readPairAligned_place {j : Nat} (hj : j + 2 ≤ s.inSize.toNat) :
    readPairAligned (s.atBit (8 * j)) = .ok (s.slicePair j) (s.atBit (8 * (j + 2))) := by
  obtain ⟨hr, hp⟩ := ReaderOk.place_byte hs (j := j) (by omega)
  have hread := (readPairAligned_atBit hr (by rw [hp]; exact hj)).1
  rwa [hp, State.atBit_atBit] at hread

theorem readPairAligned_place_truncated {j : Nat} (hj : j ≤ s.inSize.toNat) (hend : s.inSize.toNat < j + 2) :
    ∃ b, readPairAligned (s.atBit (8 * j)) = .raise .truncatedInput (s.withBr b) := by
  obtain ⟨hr, hp⟩ := ReaderOk.place_byte hs hj
  exact readPairAligned_truncated hr (by rw [hp]; exact hend)

variable (h : Pushable s) (hw : s.sinkMem.wf) {j n : Nat} (hj : j ≤ s.inSize.toNat)
include h hw hj

/-- The copy of `n` bytes from byte `j`, where the slice and the sink hold them. -/
theorem copyStored_place (hn : j + n ≤ s.inSize.toNat) (hc : s.capAfter n ≤ s.config.sinkLimit) :
    copyStored n (s.atBit (8 * j)) = .ok () ((s.copiedFrom j n).atBit (8 * (j + n))) := by
  obtain ⟨hr, hp⟩ := ReaderOk.place_byte hs hj
  obtain ⟨b, hrb, -, hcopy⟩ := copyStored_spec n (s.atBit (8 * j)) ⟨h.len, h.cap, h.limit⟩ hr hw
  rw [if_pos (by rw [hp]; exact ⟨hn, hc⟩), hp] at hcopy
  obtain ⟨hcopy, hpos, hempty, hnone⟩ := hcopy
  have hcnt : b.cnt.toNat = 0 := by
    by_cases hn0 : n = 0
    · have hbits := (ReaderOk.place (k := 8 * j) hs (by omega)).2
      have hfetched := hr.fetched
      rw [State.bitPos] at hbits
      rw [hnone hn0]
      omega
    · rw [(hempty hn0).1]; rfl
  have hbits : ((s.copiedFrom j n).withBr b).bitPos = 8 * (j + n) := by
    show 8 * b.pos.toNat - b.cnt.toNat = _
    omega
  have hplace := ReaderOk.atBit (s := s.copiedFrom j n) (hrb.congr rfl rfl rfl rfl rfl) hbits
  rw [hcopy, ← hplace, State.storedCopied, hp]
  rfl

/-- The copy of `n` bytes from byte `j`, where the slice or the sink does not hold them: the slice's end counts where the sink holds the
bytes that are there. -/
theorem copyStored_place_fails (hn : ¬(j + n ≤ s.inSize.toNat ∧ s.capAfter n ≤ s.config.sinkLimit)) :
    ∃ e m l c r b, copyStored n (s.atBit (8 * j)) = .raise e (((s.withSink m l c).withSto r).withBr b) ∧
      (s.capAfter (min n (s.inSize.toNat - j)) ≤ s.config.sinkLimit → e = .truncatedInput) ∧
      (s.config.sinkLimit < s.capAfter (min n (s.inSize.toNat - j)) → e = .outOfMemory) := by
  obtain ⟨hr, hp⟩ := ReaderOk.place_byte hs hj
  obtain ⟨b, -, -, hcopy⟩ := copyStored_spec n (s.atBit (8 * j)) ⟨h.len, h.cap, h.limit⟩ hr hw
  rw [if_neg (by rw [hp]; exact hn), hp] at hcopy
  obtain ⟨e, m, l, c, r, hcopy, -, -, htruncated, hmemory⟩ := hcopy
  exact ⟨e, m, l, c, r, b, hcopy, htruncated, hmemory⟩

end

/-! ## The two length fields -/

/-- `LEN` of the stored block whose body begins at the next byte boundary (R184). -/
def State.lenField (s : State) : BitVec 16 := s.slicePair s.eng.br.pos.toNat

/-- `NLEN` of that block (R184). -/
def State.nlenField (s : State) : BitVec 16 := s.slicePair (s.eng.br.pos.toNat + 2)

/-- A stored block whose `LEN` and `NLEN` have been read, with `STOREDLEFT` given. -/
def State.storedLengths (s : State) (left : BitVec 16) : State :=
  (s.goTo .stored .bh).withSto ⟨s.lenField, s.nlenField, left⟩

/-- The copy that follows, with its block's registers written out: no byte is left to copy. -/
theorem State.storedLengths_copiedFrom (s : State) (j : Nat) :
    (s.storedLengths s.lenField).copiedFrom j s.lenField.toNat =
      ((s.goTo .stored .bh).withSink (s.sinkMem.load s.sinkLen.toNat (s.sliceBytes j s.lenField.toNat))
        (s.sinkLen.toNat + s.lenField.toNat) (s.capAfter s.lenField.toNat)).withSto
          ⟨s.lenField, s.nlenField, 0⟩ := by
  have hleft : (if s.lenField.toNat = 0 then s.lenField else 0) = 0 := by
    split_ifs with h0
    · exact BitVec.eq_of_toNat_eq h0
    · rfl
  rw [State.copiedFrom, State.storedLengths, State.withSto_eng, hleft]
  rfl

theorem alignToByte_goTo {s : State} (hr : ReaderOk s) (p : Phase) (e : Selector) :
    alignToByte (s.goTo p e) = (s.goTo p e).atBit (8 * s.eng.br.pos.toNat) :=
  alignToByte_atBit (hr.goTo p e)

/-- Both fields in the slice: the complement decides. -/
theorem storedBody_eq {s : State} (hr : ReaderOk s) (hp : s.eng.br.pos.toNat + 4 ≤ s.inSize.toNat) : storedBody s =
    if s.lenField ≠ ~~~ s.nlenField then
      .raise .lengthMismatch ((s.storedLengths s.eng.sto.left).atBit (8 * (s.eng.br.pos.toNat + 4)))
    else copyStored s.lenField.toNat ((s.storedLengths s.lenField).atBit (8 * (s.eng.br.pos.toNat + 4))) := by
  have h0 := (hr.goTo .stored .bh).slice
  have hlen := readPairAligned_place h0 (j := s.eng.br.pos.toNat) (by rw [State.goTo_inSize]; omega)
  have hnlen : ∀ r, readPairAligned (((s.goTo .stored .bh).withSto r).atBit (8 * (s.eng.br.pos.toNat + 2))) =
      .ok s.nlenField (((s.goTo .stored .bh).withSto r).atBit (8 * (s.eng.br.pos.toNat + 4))) :=
    fun r => readPairAligned_place (s := (s.goTo .stored .bh).withSto r) h0 hp
  rw [storedBody, alignToByte_goTo hr, hlen, Res.bind_ok, State.atBit_withSto, hnlen, Res.bind_ok]
  simp only [State.atBit_withSto, State.withSto_withSto]
  rfl

/-- The slice ends within the fields. -/
theorem storedBody_truncated {s : State} (hr : ReaderOk s) (hp : s.inSize.toNat < s.eng.br.pos.toNat + 4) :
    ∃ r b, storedBody s = .raise .truncatedInput (((s.goTo .stored .bh).withSto r).withBr b) := by
  have h0 := (hr.goTo .stored .bh).slice
  have hpos := hr.pos
  rw [storedBody, alignToByte_goTo hr]
  by_cases hlen : s.eng.br.pos.toNat + 2 ≤ s.inSize.toNat
  · obtain ⟨b, hread⟩ := readPairAligned_place_truncated
      (s := (s.goTo .stored .bh).withSto { s.eng.sto with len := s.lenField }) h0 hlen hp
    refine ⟨{ s.eng.sto with len := s.lenField }, b, ?_⟩
    rw [readPairAligned_place h0 hlen, Res.bind_ok, State.atBit_withSto]
    exact congrArg (Res.bind · _) hread
  · obtain ⟨b, hread⟩ := readPairAligned_place_truncated h0 hpos (Nat.lt_of_not_le hlen)
    exact ⟨s.eng.sto, b, by rw [hread]; rfl⟩

/-! ## The instruction -/

theorem execStored_ok {s t : State} (h : storedBody s = .ok () t) : exec .stored s = .next t.endBlock := by
  show execStored s = _
  rw [execStored, h]; rfl

theorem execStored_raise {s t : State} {e : Error} (h : storedBody s = .raise e t) : exec .stored s = .next (t.raiseError e) := by
  show execStored s = _
  rw [execStored, h]; rfl

/-- Fields that are each other's complement lead to the copy. -/
theorem storedBody_copy {s : State} (hr : ReaderOk s) (hp : s.eng.br.pos.toNat + 4 ≤ s.inSize.toNat)
    (hcomp : s.nlenField = ~~~ s.lenField) : storedBody s =
    copyStored s.lenField.toNat ((s.storedLengths s.lenField).atBit (8 * (s.eng.br.pos.toNat + 4))) :=
  (storedBody_eq hr hp).trans (if_neg (not_not.2 (BitVec.not_eq_comm.1 hcomp.symm)))

/-- Fields that are not: no data byte is read. -/
theorem storedBody_mismatch {s : State} (hr : ReaderOk s) (hp : s.eng.br.pos.toNat + 4 ≤ s.inSize.toNat)
    (hcomp : s.nlenField ≠ ~~~ s.lenField) : storedBody s =
    .raise .lengthMismatch ((s.storedLengths s.eng.sto.left).atBit (8 * (s.eng.br.pos.toNat + 4))) :=
  (storedBody_eq hr hp).trans (if_pos fun h => hcomp (BitVec.not_eq_comm.1 h.symm))

/-- The whole copy, where the slice and the sink hold the data. -/
theorem storedBody_copied {s : State} (hr : ReaderOk s) (h : Pushable s) (hw : s.sinkMem.wf)
    (hp : s.eng.br.pos.toNat + 4 + s.lenField.toNat ≤ s.inSize.toNat) (hcomp : s.nlenField = ~~~ s.lenField)
    (hc : s.capAfter s.lenField.toNat ≤ s.config.sinkLimit) : storedBody s = .ok () ((((s.goTo .stored .bh).withSink
      (s.sinkMem.load s.sinkLen.toNat (s.sliceBytes (s.eng.br.pos.toNat + 4) s.lenField.toNat))
      (s.sinkLen.toNat + s.lenField.toNat) (s.capAfter s.lenField.toNat)).withSto
        ⟨s.lenField, ~~~ s.lenField, 0⟩).atBit (8 * (s.eng.br.pos.toNat + 4 + s.lenField.toNat))) := by
  have hfields : s.eng.br.pos.toNat + 4 ≤ s.inSize.toNat := by omega
  have hcopy := copyStored_place (s := s.storedLengths s.lenField) hr.slice ⟨h.len, h.cap, h.limit⟩ hw hfields hp hc
  rw [storedBody_copy hr hfields hcomp, hcopy, State.storedLengths_copiedFrom, hcomp]

/-- Settles O21: both length fields are there and agree, and the slice and the sink hold the data. -/
theorem storedCopies : Obligations.StoredCopies := by
  intro s hr hk hz hw p len hp hcomp hc
  exact ⟨_, .loadSlice s s.sinkMem s.sinkLen.toNat (p + 4) len,
    execStored_ok (storedBody_copied hr (hk.pushable hz) hw hp hcomp hc)⟩

/-- The copy fails, in a state that the INFLATE has reached within its frame: at the slice's end, or where the sink cannot grow. -/
theorem storedBody_copy_fails {s : State} (hr : ReaderOk s) (h : Pushable s) (hw : s.sinkMem.wf)
    (hp : s.eng.br.pos.toNat + 4 ≤ s.inSize.toNat) (hcomp : s.nlenField = ~~~ s.lenField)
    (hn : ¬(s.eng.br.pos.toNat + 4 + s.lenField.toNat ≤ s.inSize.toNat ∧ s.capAfter s.lenField.toNat ≤ s.config.sinkLimit)) :
    ∃ e t, storedBody s = .raise e t ∧ InflateFrame s t ∧
      (s.capAfter (min s.lenField.toNat (s.inSize.toNat - (s.eng.br.pos.toNat + 4))) ≤ s.config.sinkLimit → e = .truncatedInput) ∧
      (s.config.sinkLimit < s.capAfter (min s.lenField.toNat (s.inSize.toNat - (s.eng.br.pos.toNat + 4))) → e = .outOfMemory) := by
  obtain ⟨e, m, l, c, r, b, hcopy, htruncated, hmemory⟩ :=
    copyStored_place_fails (s := s.storedLengths s.lenField) hr.slice ⟨h.len, h.cap, h.limit⟩ hw hp hn
  have hframe := ((((InflateFrame.refl s).goTo .stored .bh).withSto
    ⟨s.lenField, s.nlenField, s.lenField⟩).withSink m l c).withSto r
  exact ⟨e, _, (storedBody_copy hr hp hcomp).trans hcopy, hframe.withBr b, htruncated, hmemory⟩

/-- Settles O22: the three places the block can fail in, in their order. -/
theorem storedFails : Obligations.StoredFails := by
  intro s hr hk hz hw hl hphase p len avail
  have hgoTo : ∀ e, (s.goTo .stored .bh).raiseError e = s.raiseError e := State.raiseError_goTo hl hphase (.inr (.inl rfl)) .bh
  refine ⟨fun hend => ?fields, fun hp hcomp => ?complement, fun hp hcomp hlt hc => ?data, fun hp hcomp hc => ?sink⟩
  case fields =>
    obtain ⟨r, b, hbody⟩ := storedBody_truncated hr hend
    rw [execStored_raise hbody, State.raiseError_withBr, State.raiseError_withSto, hgoTo]
  case complement =>
    rw [execStored_raise (storedBody_mismatch hr hp hcomp), State.atBit, State.raiseError_withBr, State.storedLengths,
      State.raiseError_withSto, hgoTo]
  case data =>
    have hfails : ¬(p + 4 + len ≤ s.inSize.toNat ∧ s.capAfter len ≤ s.config.sinkLimit) := by omega
    have hhold : s.capAfter (min len avail) ≤ s.config.sinkLimit := by rwa [Nat.min_eq_right hlt.le]
    obtain ⟨e, t, hbody, hframe, htruncated, -⟩ := storedBody_copy_fails hr (hk.pushable hz) hw hp hcomp hfails
    obtain rfl := htruncated hhold
    exact ⟨_, execStored_raise hbody, hframe.failedWith hl _⟩
  case sink =>
    have hmono := s.capAfter_mono (Nat.min_le_left len avail)
    have hfails : ¬(p + 4 + len ≤ s.inSize.toNat ∧ s.capAfter len ≤ s.config.sinkLimit) := by omega
    obtain ⟨e, t, hbody, hframe, -, hmemory⟩ := storedBody_copy_fails hr (hk.pushable hz) hw hp hcomp hfails
    obtain rfl := hmemory hc
    exact ⟨_, execStored_raise hbody, hframe.failedWith hl _⟩

end Sys2Proof.Machine
end

section
/-! The code-length instructions of a dynamic header (R200, R203 to R208): the run that CL_REP, CL_ZERO3 and CL_ZERO11 share, and what
follows it. -/

namespace Sys2Proof.Machine

/-! ## A run -/

/-- What the three instructions with extra bits share: the repeat count, and the checked run of one length. -/
def readRun (base extra : Nat) (l : BitVec 4) (s : State) : Res Unit :=
  (readRepeat base extra s).bind fun rep s => checkedRun rep l s

theorem exec_clLen (l : BitVec 4) (s : State) :
    exec (.clLen l) s = ((fillLens 1 l s).bind fun _ s => .ok () s.continueHeader).finish := rfl

theorem exec_clZero3 (s : State) : exec .clZero3 s = (readRun 3 3 0 s).finish := rfl

theorem exec_clZero11 (s : State) : exec .clZero11 s = (readRun 11 7 0 s).finish := rfl

/-- CL_REP without a previous length (R204). -/
theorem exec_clRep_first {s : State} (h : s.eng.hdr.nl.toNat = 0) : exec .clRep s = .next (s.raiseError .invalidHuffmanCode) := by
  have hnl : s.eng.hdr.nl = 0 := BitVec.eq_of_toNat_eq h
  show execClRep s = _
  rw [execClRep, if_pos hnl, Res.finish_raise]

/-- CL_REP after a length: a run of that length. -/
theorem exec_clRep_run {s : State} (h : 1 ≤ s.eng.hdr.nl.toNat) (hlens : s.eng.hdr.nl.toNat ≤ s.eng.hdr.lens.length) :
    exec .clRep s = (readRun 3 2 (s.eng.hdr.lens.getD (s.eng.hdr.nl.toNat - 1) 0) s).finish := by
  have hnl : s.eng.hdr.nl ≠ 0 := fun h0 => by rw [h0] at h; exact absurd h (by decide)
  have hidx : s.eng.hdr.nl.toNat - 1 < s.eng.hdr.lens.length := by omega
  show execClRep s = _
  rw [execClRep, if_neg hnl, List.getElem?_eq_getElem hidx, List.getD_eq_getElem _ _ hidx]
  rfl

theorem checkedRun_fits {s : State} {rep : Nat} (l : BitVec 4) (hlens : s.eng.hdr.lens.length = 320) (hw : s.lengthsWanted ≤ 320)
    (hfit : s.eng.hdr.nl.toNat + rep ≤ s.lengthsWanted) : checkedRun rep l s = .ok () (s.filled rep l).continueHeader := by
  rw [checkedRun, if_neg (Nat.not_lt.2 hfit), fillLens_filled rep l hlens (hfit.trans hw), Res.bind_ok]

theorem checkedRun_overflows {s : State} {rep : Nat} (l : BitVec 4) (hover : s.lengthsWanted < s.eng.hdr.nl.toNat + rep) :
    checkedRun rep l s = .raise .invalidHuffmanCode s := if_pos hover

section
variable {s : State} {base extra : Nat} (l : BitVec 4)

theorem readRun_read (hr : ReaderOk s) (hn : extra ≤ 25) (hleft : extra ≤ s.bitsLeft) :
    readRun base extra l s = checkedRun (base + s.streamField s.bitPos extra) l (s.atBit (s.bitPos + extra)) := by
  rw [readRun, readRepeat, (readBits_atBit hr hn hleft).1, Res.bind_ok, Res.bind_ok]

/-- The run fits: it is written from `NL` up (R204 to R206). -/
theorem readRun_fits (hr : ReaderOk s) (hlens : s.eng.hdr.lens.length = 320) (hw : s.lengthsWanted ≤ 320) (hn : extra ≤ 25)
    (hleft : extra ≤ s.bitsLeft) (hfit : s.eng.hdr.nl.toNat + (base + s.streamField s.bitPos extra) ≤ s.lengthsWanted) :
    (readRun base extra l s).finish =
      .next (((s.filled (base + s.streamField s.bitPos extra) l).atBit (s.bitPos + extra)).continueHeader) := by
  rw [readRun_read l hr hn hleft, checkedRun_fits (s := s.atBit _) l hlens hw hfit, State.atBit_filled, Res.finish_ok]

/-- The slice ends within the extra bits. -/
theorem readRun_truncated (hr : ReaderOk s) (hn : extra ≤ 25) (hleft : s.bitsLeft < extra) :
    (readRun base extra l s).finish = .next (s.raiseError .truncatedInput) := by
  obtain ⟨b, hread⟩ := readBits_truncated hr hn hleft
  rw [readRun, readRepeat, hread, Res.bind_raise, Res.bind_raise, Res.finish_raise, State.raiseError_withBr]

/-- The run passes `HLIT + HDIST` (R207). -/
theorem readRun_overflows (hr : ReaderOk s) (hn : extra ≤ 25) (hleft : extra ≤ s.bitsLeft)
    (hover : s.lengthsWanted < s.eng.hdr.nl.toNat + (base + s.streamField s.bitPos extra)) :
    (readRun base extra l s).finish = .next (s.raiseError .invalidHuffmanCode) := by
  rw [readRun_read l hr hn hleft, checkedRun_overflows (s := s.atBit _) l hover, Res.finish_raise, State.atBit,
    State.raiseError_withBr]

end

/-- Settles O25: CL_LEN writes one length; the other three read their count and write a run that fits. -/
theorem codeLengthsAreWritten : Obligations.CodeLengthsAreWritten := by
  intro s hr hlens hw nl
  refine ⟨fun l hlt => ?len, fun h1 hleft hfit => ?rep, fun hleft hfit => ?zero3, fun hleft hfit => ?zero11⟩
  case len =>
    have hroom : s.eng.hdr.nl.toNat + 1 ≤ 320 := Nat.le_trans hlt hw
    rw [exec_clLen, fillLens_filled 1 l hlens hroom, Res.bind_ok, Res.finish_ok]
  case rep =>
    have hprev : s.eng.hdr.nl.toNat ≤ s.eng.hdr.lens.length := by omega
    rw [exec_clRep_run h1 hprev, readRun_fits _ hr hlens hw (by decide) hleft hfit]
  case zero3 => rw [exec_clZero3, readRun_fits _ hr hlens hw (by decide) hleft hfit]
  case zero11 => rw [exec_clZero11, readRun_fits _ hr hlens hw (by decide) hleft hfit]

/-- Settles O26: CL_REP looks for its previous length first; then the extra bits, and then the run's end, decide. -/
theorem codeLengthRunsFail : Obligations.CodeLengthRunsFail := by
  intro s hr hlens _ nl
  have hrep : 1 ≤ nl → nl ≤ 320 → exec .clRep s = (readRun 3 2 (s.eng.hdr.lens.getD (nl - 1) 0) s).finish :=
    fun h1 h320 => exec_clRep_run h1 (h320.trans_eq hlens.symm)
  refine ⟨exec_clRep_first, fun h1 h320 hleft => ?repEnds, readRun_truncated 0 hr (by decide), readRun_truncated 0 hr (by decide),
    fun h1 h320 hleft hover => ?repPasses, readRun_overflows 0 hr (by decide), readRun_overflows 0 hr (by decide)⟩
  case repEnds => rw [hrep h1 h320, readRun_truncated _ hr (by decide) hleft]
  case repPasses => rw [hrep h1 h320, readRun_overflows _ hr (by decide) hleft hover]

/-! ## After a run -/

theorem State.continueHeader_wanted {s : State} (h : s.eng.hdr.nl.toNat < s.lengthsWanted) : s.continueHeader = s.goTo .dynhdr .cl :=
  if_pos h

theorem State.continueHeader_complete {s : State} (h : s.lengthsWanted ≤ s.eng.hdr.nl.toNat) : s.continueHeader =
    ((s.buildLt ((s.eng.hdr.lens.take s.eng.hdr.hlit.toNat).map BitVec.toNat)).buildDt
      (((s.eng.hdr.lens.drop s.eng.hdr.hlit.toNat).take s.eng.hdr.hdist.toNat).map BitVec.toNat)).goTo .symbols .ll :=
  if_neg (Nat.not_lt.2 h)

/-- Settles O27: `NL` against `HLIT + HDIST` decides. -/
theorem headerEndsInItsTables : Obligations.HeaderEndsInItsTables :=
  fun _ => ⟨State.continueHeader_wanted, State.continueHeader_complete⟩

end Sys2Proof.Machine
end

section
/-! Where the engine reads each selecting value (R202, R220, R225, R261, R263). -/

namespace Sys2Proof.Machine

section
variable {s : State}

/-! ## The place `expect` names -/

theorem fetchSelector_cl (h : s.expect = .cl) : fetchSelector s = decodeSymbol s.eng.ct s := by rw [fetchSelector, h]

theorem fetchSelector_ll (h : s.expect = .ll) : fetchSelector s = fetchLitLen s := by rw [fetchSelector, h]

theorem fetchSelector_ds (h : s.expect = .ds) : fetchSelector s = fetchDistance s := by rw [fetchSelector, h]

theorem fetchSelector_sl (h : s.expect = .sl) : fetchSelector s = fetchFilter s := by rw [fetchSelector, h]

theorem fetchSelector_ctype (h : s.expect = .ctype) : fetchSelector s = .ok s.ctype.toNat s := by rw [fetchSelector, h]

theorem fetchSelector_depth (h : s.expect = .depth) : fetchSelector s = .ok s.depth.toNat s := by rw [fetchSelector, h]

/-! ## The fetches -/

theorem fetchLitLen_ok {v : Nat} {t : State} (h : decodeSymbol s.eng.lt s = .ok v t) :
    fetchLitLen s = .ok v (t.withBlk { t.eng.blk with sym := BitVec.ofNat 9 v }) := by
  rw [fetchLitLen, h, Res.bind_ok]

theorem fetchLitLen_raise {e : Error} {t : State} (h : decodeSymbol s.eng.lt s = .raise e t) : fetchLitLen s = .raise e t := by
  rw [fetchLitLen, h, Res.bind_raise]

/-- A distance symbol that fits `DSYM`, a 5-bit register. -/
theorem fetchDistance_ok {v : Nat} {t : State} (h : decodeSymbol s.eng.dt s = .ok v t) (hv : v < 32) :
    fetchDistance s = .ok v (t.withBlk { t.eng.blk with dsym := BitVec.ofNat 5 v }) := by
  rw [fetchDistance, h, Res.bind_ok, toNat_operand (n := 5) hv]

theorem fetchDistance_raise {e : Error} {t : State} (h : decodeSymbol s.eng.dt s = .raise e t) : fetchDistance s = .raise e t := by
  rw [fetchDistance, h, Res.bind_raise]

theorem fetchFilter_ok (h : s.rowBase < s.config.sinkLimit) : fetchFilter s =
    .ok (s.sinkMem.read s.rowBase).toNat (s.withRcn { s.eng.rcn with ft := s.sinkMem.read s.rowBase }) := by
  rw [fetchFilter, readByte_ok (sp := .sink) h, Res.bind_ok]
  rfl

/-! ## The fields of `IMG_FORMAT` -/

variable (s)

theorem State.ctype_toNat : s.ctype.toNat = s.imgFormat.toNat / 256 % 256 := by
  rw [State.ctype, BitVec.extractLsb'_toNat, Nat.shiftRight_eq_div_pow]

theorem State.depth_toNat : s.depth.toNat = s.imgFormat.toNat % 256 := by
  rw [State.depth, BitVec.extractLsb'_toNat, Nat.shiftRight_zero]

end

/-- Settles O6: one place after another. -/
theorem selectorFetches : Obligations.SelectorFetches := by
  refine fun s => ⟨fetchSelector_cl, fun v t he hd => ?litLen, fun v t he hd hv => ?distance, ?raises, fun he hlt => ?filter,
    fun he => ?colour, fun he => ?depth⟩
  case litLen => rw [fetchSelector_ll he, fetchLitLen_ok hd]
  case distance => rw [fetchSelector_ds he, fetchDistance_ok hd hv]
  case raises =>
    rintro e t (⟨he, hd⟩ | ⟨he, hd⟩)
    · rw [fetchSelector_ll he, fetchLitLen_raise hd]
    · rw [fetchSelector_ds he, fetchDistance_raise hd]
  case filter => exact (fetchSelector_sl he).trans (fetchFilter_ok hlt)
  case colour => rw [fetchSelector_ctype he, s.ctype_toNat]
  case depth => rw [fetchSelector_depth he, s.depth_toNat]

end Sys2Proof.Machine
end

section
/-! The symbols of a Huffman block (R221 to R229): a literal's push, a length's operand, a distance's operand, and the back-reference it
ends in. -/

namespace Sys2Proof.Machine

/-! ## Literals -/

/-- Settles O28: a literal is one push. -/
theorem literalIsPushed : Obligations.LiteralIsPushed := by
  intro s b h hz
  have hpush := push_spec (h.pushable hz) b
  have hexec : exec (.lit b) s = ((push b s).bind fun _ s => .ok () (s.goTo .symbols .ll)).finish := rfl
  refine ⟨fun hfits => ?_, fun hpast => ?_⟩
  · rw [hexec, hpush, if_pos hfits]; rfl
  · rw [hexec, hpush, if_neg (Nat.not_le.2 hpast)]; rfl

/-! ## Lengths -/

theorem lengthSymbol_ok {s : State} (hr : ReaderOk s) (sym base : Nat) {extra : Nat} (hn : extra ≤ 25) (hl : extra ≤ s.bitsLeft) :
    lengthSymbol sym base extra s = .next (((s.atBit (s.bitPos + extra)).withBlk
      { s.eng.blk with sym := BitVec.ofNat 9 sym, length := BitVec.ofNat 9 (base + s.streamField s.bitPos extra) }).goTo .symbols .ds) := by
  rw [lengthSymbol, readLength, (readBits_atBit hr hn hl).1]
  rfl

theorem lengthSymbol_truncated {s : State} (hr : ReaderOk s) (sym base : Nat) {extra : Nat} (hn : extra ≤ 25) (hl : s.bitsLeft < extra) :
    lengthSymbol sym base extra s = .next (s.raiseError .truncatedInput) := by
  obtain ⟨b, hread⟩ := readBits_truncated hr hn hl
  rw [lengthSymbol, readLength, hread, Res.bind_raise, Res.bind_raise, Res.finish_raise, State.raiseError_withBr]

/-- The rows R400 to R428: the instruction, its symbol, its base and its number of extra bits, from the tables of R224. -/
def lengthRows : List (Instr × Nat × Nat × Nat) :=
  (List.range 29).map fun k => (lengthInstrs.getD k .eob, 257 + k, lenBase.getD k 0, lenExtra.getD k 0)

theorem exec_lengthRow {i : Instr} {sym base extra : Nat} (h : (i, sym, base, extra) ∈ lengthRows) :
    exec i = lengthSymbol sym base extra ∧ extra ≤ 5 := by
  obtain ⟨k, hk, hrow⟩ := List.mem_map.1 h
  have hk := List.mem_range.1 hk
  obtain ⟨j, hj, hexec⟩ := exec_length hk
  cases hrow
  rw [List.getD_eq_getElem?_getD, hj]
  exact ⟨hexec, (lenTable_range hk).1⟩

/-- Settles O30: the rows are those of the tables, and each is `lengthSymbol` of its numbers. -/
theorem lengthSymbols : Obligations.LengthSymbols := by
  intro i sym base extra (hrow : _ ∈ lengthRows) s hr
  obtain ⟨hexec, hextra⟩ := exec_lengthRow hrow
  have hn : extra ≤ 25 := by omega
  rw [hexec]
  exact ⟨lengthSymbol_ok hr sym base hn, lengthSymbol_truncated hr sym base hn⟩

/-! ## The back-reference -/

/-- The bytes of a copy, stored from the sink's end up. -/
theorem Stored.loadPeriodic (s : State) (d n : Nat) : Stored s.sinkMem (s.sinkMem.load s.sinkLen.toNat (s.periodic d n))
    s.sinkLen.toNat n fun k => s.sinkMem.read (s.sinkLen.toNat - d + k % d) := by
  have hload := Stored.load s.sinkMem s.sinkLen.toNat (s.periodic d n)
    (fun k => s.sinkMem.read (s.sinkLen.toNat - d + k % d)) fun k hk => s.periodic_get d n k (by rwa [State.periodic_length] at hk)
  rwa [State.periodic_length] at hload

/-- In a memory that holds the last `d` bytes below `a` over and over from `a` up, each byte is the one `d` before it. -/
theorem Stored.read_behind {m m' : Memory} {a n d k : Nat} (h : Stored m m' a n fun k => m.read (a - d + k % d)) (hw : m.wf)
    (hd : 1 ≤ d) (hda : d ≤ a) (hk : k < n) : m'.read (a + k) = m'.read (a + k - d) := by
  rw [h.inside hw k hk]
  by_cases hkd : k < d
  · have hsource : a + k - d = a - d + k := by omega
    rw [Nat.mod_eq_of_lt hkd, hsource, h.outside _ (.inl (by omega))]
  · have hsource : a + k - d = a + (k - d) := by omega
    rw [hsource, h.inside hw (k - d) (by omega), Nat.mod_eq_sub_mod (Nat.le_of_not_lt hkd)]

/-- The state after a whole back-reference (R226). -/
def State.referenceCopied (s : State) : State :=
  (s.withSink (s.sinkMem.load s.sinkLen.toNat (s.periodic s.eng.blk.dist.toNat s.eng.blk.length.toNat))
    (s.sinkLen.toNat + s.eng.blk.length.toNat) (s.capAfter s.eng.blk.length.toNat)).withBlk { s.eng.blk with copyLeft := 0 }

theorem backReference_invalid {s : State} (h : s.eng.blk.dist.toNat = 0 ∨ s.sinkLen.toNat < s.eng.blk.dist.toNat) :
    backReference s = .raise .invalidBackReference s := if_pos h

/-- The state in which the copy loop begins: `COPYLEFT` is set (R226). -/
def State.copyStarted (s : State) : State := s.withBlk { s.eng.blk with copyLeft := s.eng.blk.length }

/-- Past the check, a back-reference is its copy loop. -/
theorem backReference_copy {s : State} (hd : 1 ≤ s.eng.blk.dist.toNat) (hdl : s.eng.blk.dist.toNat ≤ s.sinkLen.toNat) :
    backReference s = copyBack s.eng.blk.length.toNat s.copyStarted := if_neg (by omega)

/-- After the loop no byte is left to copy, even where there was none. -/
theorem State.copyStarted_copied (s : State) : s.copyStarted.copied s.eng.blk.dist.toNat s.eng.blk.length.toNat = s.referenceCopied := by
  have hleft : (if s.eng.blk.length.toNat = 0 then s.eng.blk.length else 0) = 0 := by
    split_ifs with h0
    · exact BitVec.eq_of_toNat_eq h0
    · rfl
  rw [State.copied, State.copyStarted, State.withBlk_eng, hleft]
  rfl

section

variable {s : State} (h : Pushable s) (hw : s.sinkMem.wf) (hd : 1 ≤ s.eng.blk.dist.toNat) (hdl : s.eng.blk.dist.toNat ≤ s.sinkLen.toNat)
include h hw hd hdl

theorem copyBack_ok {n : Nat} (hc : s.capAfter n ≤ s.config.sinkLimit) : copyBack n s = .ok () (s.copied s.eng.blk.dist.toNat n) := by
  have hcopy := copyBack_spec n s h hw hd hdl
  rwa [if_pos hc] at hcopy

theorem copyBack_outOfMemory {n : Nat} (hc : s.config.sinkLimit < s.capAfter n) :
    ∃ m l c b, copyBack n s = .raise .outOfMemory ((s.withSink m l c).withBlk b) := by
  have hcopy := copyBack_spec n s h hw hd hdl
  rw [if_neg (Nat.not_le.2 hc)] at hcopy
  obtain ⟨m, l, c, b, hraise, -, -⟩ := hcopy
  exact ⟨m, l, c, b, hraise⟩

theorem backReference_ok (hc : s.capAfter s.eng.blk.length.toNat ≤ s.config.sinkLimit) :
    backReference s = .ok () s.referenceCopied := by
  have hcopy := copyBack_ok (s := s.copyStarted) ⟨h.len, h.cap, h.limit⟩ hw hd hdl hc
  exact (backReference_copy hd hdl).trans (hcopy.trans (congrArg (Res.ok ()) s.copyStarted_copied))

theorem backReference_outOfMemory (hc : s.config.sinkLimit < s.capAfter s.eng.blk.length.toNat) :
    ∃ m l c b, backReference s = .raise .outOfMemory ((s.withSink m l c).withBlk b) := by
  obtain ⟨m, l, c, b, hraise⟩ := copyBack_outOfMemory (s := s.copyStarted) ⟨h.len, h.cap, h.limit⟩ hw hd hdl hc
  exact ⟨m, l, c, b, (backReference_copy hd hdl).trans hraise⟩

end

theorem State.referenceCopied_sinkLen {s : State} (h : Pushable s) (hc : s.capAfter s.eng.blk.length.toNat ≤ s.config.sinkLimit) :
    s.referenceCopied.sinkLen.toNat = s.sinkLen.toNat + s.eng.blk.length.toNat := by
  have hlimit := h.limit
  have hneed := s.capAfter_need s.eng.blk.length.toNat
  exact (BitVec.toNat_ofNat _ _).trans (Nat.mod_eq_of_lt (by omega))

/-- Settles O33: the check, the whole copy, and the copy that the sink cannot hold. -/
theorem backReferenceCopies : Obligations.BackReferenceCopies := by
  intro s hk hz hw dist length
  have h := hk.pushable hz
  have hstored := Stored.loadPeriodic s dist length
  refine ⟨backReference_invalid, fun hd hdl hc => ?copied, fun hd hdl hc => ?outOfMemory⟩
  case copied =>
    exact ⟨s.referenceCopied, backReference_ok h hw hd hdl hc, rfl, State.referenceCopied_sinkLen h hc,
      fun a ha => hstored.outside a (.inl ha), fun k hk => hstored.read_behind hw hd hdl hk⟩
  case outOfMemory =>
    obtain ⟨m, l, c, b, hraise⟩ := backReference_outOfMemory h hw hd hdl hc
    exact ⟨_, hraise⟩

/-! ## Distances -/

@[simp] theorem State.withBlk_streamField (s : State) (b : BlockRegs) (k n : Nat) : (s.withBlk b).streamField k n = s.streamField k n :=
  State.streamField_congr (by rfl) (by rfl) k n

theorem State.atBit_withBlk (s : State) (b : BlockRegs) (k : Nat) : (s.withBlk b).atBit k = (s.atBit k).withBlk b := by
  rw [State.atBit, State.atBit, State.readerAt_congr (s := s) (t := s.withBlk b) rfl rfl]
  rfl

theorem State.atBit_withSink (s : State) (m : Memory) (l c k : Nat) : (s.withSink m l c).atBit k = (s.atBit k).withSink m l c := by
  rw [State.atBit, State.atBit, State.readerAt_congr (s := s) (t := s.withSink m l c) rfl rfl]
  rfl

/-- The distance that the operand of a distance symbol gives (R225). -/
def State.distance (s : State) (base extra : Nat) : Nat := base + s.streamField s.bitPos extra

/-- The state once the operand of a distance symbol has been read (R225). -/
def State.distanceRead (s : State) (dsym base extra : Nat) : State :=
  (s.atBit (s.bitPos + extra)).withBlk
    { s.eng.blk with dsym := BitVec.ofNat 5 dsym, dist := BitVec.ofNat 16 (s.distance base extra) }

section

variable {s : State} (hr : ReaderOk s) {dsym base extra : Nat} (hn : extra ≤ 25)
include hr hn

theorem readDistance_ok (hl : extra ≤ s.bitsLeft) : readDistance dsym base extra s = .ok () (s.distanceRead dsym base extra) := by
  have hread := (readBits_atBit (s := s.withBlk { s.eng.blk with dsym := BitVec.ofNat 5 dsym }) (hr.congr rfl rfl rfl rfl rfl) hn hl).1
  rw [State.atBit_withBlk, State.withBlk_streamField] at hread
  rw [readDistance, hread]
  rfl

theorem distanceSymbol_ok {t : State} (hl : extra ≤ s.bitsLeft) (h : backReference (s.distanceRead dsym base extra) = .ok () t) :
    distanceSymbol dsym base extra s = .next (t.goTo .symbols .ll) := by
  rw [distanceSymbol, readDistance_ok hr hn hl, Res.bind_ok, h]
  rfl

theorem distanceSymbol_raise {e : Error} {t : State} (hl : extra ≤ s.bitsLeft)
    (h : backReference (s.distanceRead dsym base extra) = .raise e t) : distanceSymbol dsym base extra s = .next (t.raiseError e) := by
  rw [distanceSymbol, readDistance_ok hr hn hl, Res.bind_ok, h]
  rfl

theorem distanceSymbol_truncated (hl : s.bitsLeft < extra) :
    distanceSymbol dsym base extra s = .next (s.raiseError .truncatedInput) := by
  obtain ⟨b, hread⟩ := readBits_truncated (s := s.withBlk { s.eng.blk with dsym := BitVec.ofNat 5 dsym })
    (hr.congr rfl rfl rfl rfl rfl) hn hl
  rw [distanceSymbol, readDistance, hread, Res.bind_raise, Res.bind_raise, Res.finish_raise, State.raiseError_withBr,
    State.raiseError_withBlk]

end

/-- Every row's distance lies in 1 to 32768 (R225). -/
theorem State.distance_range (s : State) {k : Nat} (hk : k < 30) :
    1 ≤ s.distance (distBase.getD k 0) (distExtra.getD k 0) ∧ s.distance (distBase.getD k 0) (distExtra.getD k 0) ≤ 32768 := by
  obtain ⟨-, hbase, hmax⟩ := distTable_range hk
  have hfield := s.streamField_lt s.bitPos (distExtra.getD k 0)
  unfold State.distance
  omega

theorem State.distanceRead_dist (s : State) (dsym : Nat) {base extra : Nat} (h : s.distance base extra ≤ 32768) :
    (s.distanceRead dsym base extra).eng.blk.dist.toNat = s.distance base extra :=
  (BitVec.toNat_ofNat _ _).trans (Nat.mod_eq_of_lt (by omega))

theorem Pushable.distanceRead {s : State} (h : Pushable s) (dsym base extra : Nat) : Pushable (s.distanceRead dsym base extra) :=
  ⟨h.len, h.cap, h.limit⟩

theorem InflateFrame.distanceRead (s : State) (dsym base extra : Nat) : InflateFrame s (s.distanceRead dsym base extra) :=
  ((InflateFrame.refl s).withBr _).withBlk _

theorem exec_distanceInstr {k : Nat} {i : Instr} (h : distanceInstrs[k]? = some i) :
    k < 30 ∧ exec i = distanceSymbol k (distBase.getD k 0) (distExtra.getD k 0) := by
  have hk : k < 30 := (List.getElem?_eq_some_iff.1 h).1
  obtain ⟨j, hj, hexec⟩ := exec_distance hk
  obtain rfl := Option.some.inj (hj.symm.trans h)
  exact ⟨hk, hexec⟩

/-- The rows R440 to R469: the instruction, its symbol, its base and its number of extra bits, from the tables of R225. -/
def distanceRows : List (Instr × Nat × Nat × Nat) :=
  (List.range 30).map fun k => (distanceInstrs.getD k .eob, k, distBase.getD k 0, distExtra.getD k 0)

theorem mem_distanceRows {i : Instr} {dsym base extra : Nat} (h : (i, dsym, base, extra) ∈ distanceRows) :
    distanceInstrs[dsym]? = some i ∧ base = distBase.getD dsym 0 ∧ extra = distExtra.getD dsym 0 := by
  obtain ⟨k, hk, hrow⟩ := List.mem_map.1 h
  obtain ⟨j, hj, -⟩ := exec_distance (List.mem_range.1 hk)
  cases hrow
  rw [List.getD_eq_getElem?_getD, hj]
  exact ⟨rfl, rfl, rfl⟩

/-- The state after a distance symbol's operand and copy, with its registers written out. -/
theorem State.distanceRead_referenceCopied (s : State) (dsym : Nat) {base extra : Nat} (h : s.distance base extra ≤ 32768) :
    (s.distanceRead dsym base extra).referenceCopied =
      ((s.withSink (s.sinkMem.load s.sinkLen.toNat (s.periodic (s.distance base extra) s.eng.blk.length.toNat))
        (s.sinkLen.toNat + s.eng.blk.length.toNat) (s.capAfter s.eng.blk.length.toNat)).atBit (s.bitPos + extra)).withBlk
          { s.eng.blk with dsym := BitVec.ofNat 5 dsym, dist := BitVec.ofNat 16 (s.distance base extra), copyLeft := 0 } := by
  rw [State.referenceCopied, State.distanceRead_dist s dsym h, State.atBit_withSink]
  rfl

/-- Settles O31: the operand gives a distance that is within the sink, and the copy is that of the back-reference. -/
theorem distanceSymbolsCopy : Obligations.DistanceSymbolsCopy := by
  intro i dsym base extra (hrow : _ ∈ distanceRows) s hr hk hz hw hl dist length hdl hc
  obtain ⟨hi, rfl, rfl⟩ := mem_distanceRows hrow
  obtain ⟨hdsym, hexec⟩ := exec_distanceInstr hi
  obtain ⟨hpos, hmax⟩ := s.distance_range hdsym
  have hn := (distTable_range hdsym).1.trans (show 13 ≤ 25 by decide)
  have hdist := s.distanceRead_dist dsym hmax
  have hcopy := backReference_ok ((hk.pushable hz).distanceRead dsym _ _) hw (hpos.trans_eq hdist.symm) (hdist.trans_le hdl) hc
  rw [s.distanceRead_referenceCopied dsym hmax] at hcopy
  exact ⟨_, .loadPeriodic s dist length, hexec ▸ distanceSymbol_ok hr hn hl hcopy⟩

/-- Settles O32: the operand's bits, the check, and the copy, each failing where what comes before has not. -/
theorem distanceSymbolsFail : Obligations.DistanceSymbolsFail := by
  intro k i hi s hr hk hz hw hlast extra dist
  obtain ⟨hdsym, hexec⟩ := exec_distanceInstr hi
  obtain ⟨hpos, hmax⟩ := s.distance_range hdsym
  have hn := (distTable_range hdsym).1.trans (show 13 ≤ 25 by decide)
  have hdist := s.distanceRead_dist k hmax
  rw [hexec]
  refine ⟨distanceSymbol_truncated hr hn, fun hl hpast => ?invalid, fun hl hdl hc => ?outOfMemory⟩
  case invalid =>
    have hraise := backReference_invalid (s := s.distanceRead k _ _) (.inr (hpast.trans_eq hdist.symm))
    rw [distanceSymbol_raise hr hn hl hraise, State.distanceRead, State.raiseError_withBlk, State.atBit, State.raiseError_withBr]
  case outOfMemory =>
    obtain ⟨m, l, c, b, hraise⟩ :=
      backReference_outOfMemory ((hk.pushable hz).distanceRead k _ _) hw (hpos.trans_eq hdist.symm) (hdist.trans_le hdl) hc
    exact ⟨_, distanceSymbol_raise hr hn hl hraise,
      (((InflateFrame.distanceRead s k _ _).withSink m l c).withBlk b).failedWith hlast _⟩

/-! ## The fixed tables -/

/-- A table whose slots are all used has no free one. -/
theorem buildTable_symbols_full {cap : Nat} {lengths : List Nat} (h : (usedSymbols lengths).length = cap) (d : Nat) :
    (buildTable cap lengths d).symbols = (usedSymbols lengths).map (BitVec.ofNat 9) := by
  rw [buildTable, h, Nat.sub_self, freeList, List.range_zero, List.map_nil, List.append_nil]

/-- The symbols of the fixed literal/length code, the shorter lengths first (R162, R221). -/
theorem usedSymbols_fixedLitLen : usedSymbols fixedLitLen =
    (List.range 24).map (256 + ·) ++ List.range 144 ++ (List.range 8).map (280 + ·) ++ (List.range 112).map (144 + ·) := by
  decide +kernel

theorem usedSymbols_fixedDistLen : usedSymbols fixedDistLen = List.range 32 := by decide +kernel

/-- Settles O15: the lengths by their stretches, the tables' levels by evaluation, and the slots in the order of the used symbols. -/
theorem fixedTables : Obligations.FixedTables := by
  have hlit : (usedSymbols fixedLitLen).length = 288 := by simp [usedSymbols_fixedLitLen]
  have hdist : (usedSymbols fixedDistLen).length = 32 := by simp [usedSymbols_fixedDistLen]
  refine ⟨by simp only [fixedLitLen, List.length_append, List.length_replicate], rfl, fun sym h => ?lengths,
    fun sym h => fixedDistLen_get h, fun d => ⟨?maxCode, ?offset, ?symbols, ?distMaxCode, ?distOffset, ?distSymbols⟩⟩
  case lengths =>
    rw [fixedLitLen_get h, staticLitLenCode]
    split_ifs <;> rfl
  case maxCode => show (List.range 15).map (fun k => maxCodeOf fixedLitLen (k + 1)) = _; decide +kernel
  case offset => show (((List.range 15).map fun k => offsetOf fixedLitLen (k + 1)).drop 6).take 3 = _; decide +kernel
  case symbols =>
    rw [buildTable_symbols_full hlit, usedSymbols_fixedLitLen]
    simp only [List.map_append, List.map_map]
    rfl
  case distMaxCode => show (List.range 15).map (fun k => maxCodeOf fixedDistLen (k + 1)) = _; decide +kernel
  case distOffset => show ((List.range 15).map fun k => offsetOf fixedDistLen (k + 1))[4]? = _; decide +kernel
  case distSymbols => rw [buildTable_symbols_full hdist, usedSymbols_fixedDistLen]

end Sys2Proof.Machine
end

section
/-! The Pixel Reconstructor (R260 to R270): RECON's checks, the filters' rows, the Paeth predictor, and the end of a row. -/

namespace Sys2Proof.Machine

/-! ## The checks -/

/-- A colour type's instruction in `RCHECK`: the checks in their order (R261), a failing one forgetting the registers that those before
it have written. -/
theorem colourType_rcheck {s : State} (hp : s.phase = .rcheck) (bpp : Nat) (fmt : Formatter) : colourType bpp fmt s = .next (
    if s.imgWidth = 0 ∨ s.imgHeight = 0 then s.raiseError .malformedPng
    else if s.config.pixLimit < s.imgWidth.toNat * s.imgHeight.toNat * 4 then s.raiseError .outOfMemory
    else if s.sinkLen.toNat < s.imgHeight.toNat * (s.imgWidth.toNat * bpp + 1) then s.raiseError .malformedPng
    else (s.withRcn { s.eng.rcn with
      bpp := BitVec.ofNat 3 bpp, stride := BitVec.ofNat 34 (s.imgWidth.toNat * bpp), y := 0 }).goTo .rows .sl) := by
  have hraise : ∀ (e : Error) (r : ReconRegs), r.prev = s.eng.rcn.prev → r.cur = s.eng.rcn.cur →
      (Res.raise e (s.withRcn r) : Res Unit).finish = .next (s.raiseError e) :=
    fun e r hprev hcur => congrArg Host.Outcome.next (State.raiseError_rcheck hp e r hprev hcur)
  rw [colourType, if_pos hp, checkImage_eq]
  split_ifs
  · exact hraise _ _ rfl rfl
  · exact hraise _ _ rfl rfl
  · exact hraise _ _ rfl rfl
  · rfl

/-- The colour types' instructions, by their bytes per pixel (R262). -/
theorem exec_of_mem_bpp {i : Instr} {bpp : Nat}
    (h : (i, bpp) ∈ ([(.fmtGray, 1), (.fmtRgb, 3), (.fmtGraya, 2), (.fmtRgba, 4)] : List (Instr × Nat))) :
    ∃ fmt, exec i = colourType bpp fmt := by
  simp only [List.mem_cons, List.not_mem_nil, or_false, Prod.mk.injEq] at h
  obtain ⟨rfl, rfl⟩ | ⟨rfl, rfl⟩ | ⟨rfl, rfl⟩ | ⟨rfl, rfl⟩ := h
  · exact ⟨fmtGray, rfl⟩
  · exact ⟨fmtRgb, rfl⟩
  · exact ⟨fmtGraya, rfl⟩
  · exact ⟨fmtRgba, rfl⟩

/-- Settles O34: every colour type runs the same checks, of which each clause picks one outcome. -/
theorem reconChecks : Obligations.ReconChecks := by
  refine ⟨fun s => rfl, fun i bpp hi s hp => ?_⟩
  obtain ⟨fmt, hexec⟩ := exec_of_mem_bpp hi
  have hzero : s.imgWidth = 0 ∨ s.imgHeight = 0 ↔ s.imgWidth.toNat = 0 ∨ s.imgHeight.toNat = 0 :=
    or_congr BitVec.toNat_eq BitVec.toNat_eq
  rw [hexec, colourType_rcheck hp, if_congr hzero rfl rfl]
  refine ⟨fun h0 => ?empty, fun hw hh hpix => ?tooLarge, fun hw hh hpix hdata => ?tooShort, fun hw hh hpix hdata => ?passed⟩
  case empty => rw [if_pos h0]
  case tooLarge => rw [if_neg (not_or.2 ⟨hw, hh⟩), if_pos hpix]
  case tooShort => rw [if_neg (not_or.2 ⟨hw, hh⟩), if_neg hpix.not_gt, if_pos hdata]
  case passed => rw [if_neg (not_or.2 ⟨hw, hh⟩), if_neg hpix.not_gt, if_neg hdata.not_gt]

/-! ## The filters -/

/-- The row a filter reconstructs, and what else it writes (R263). -/
theorem filterRow_ok (ft : Byte) (pred : Predictor) {s : State} (h : RowReady s) : ∃ row, RowIs s pred row ∧
    filterRow ft pred s = .next ((s.withRcn { s.eng.rcn with ft := ft, cur := row, x := s.lastByte }).goTo .rows .ctype) := by
  obtain ⟨row, hrow, hlen, -, hbyte⟩ := rowBytes_spec pred h s.eng.rcn.stride.toNat 0 [] rfl (Nat.zero_add _)
  rw [Nat.zero_add] at hlen hbyte
  exact ⟨row, ⟨hlen, fun X hX => hbyte X X.zero_le hX⟩, by rw [filterRow, hrow, Res.bind_ok, Res.finish_ok]⟩

/-- Settles O35: each filter is the row loop with its predictor. -/
theorem filtersReconstructTheRow : Obligations.FiltersReconstructTheRow := by
  intro i ft pred hi s hready
  have hexec : exec i = filterRow ft pred := by
    simp only [List.mem_cons, List.not_mem_nil, or_false, Prod.mk.injEq] at hi
    obtain ⟨rfl, rfl, rfl⟩ | ⟨rfl, rfl, rfl⟩ | ⟨rfl, rfl, rfl⟩ | ⟨rfl, rfl, rfl⟩ | ⟨rfl, rfl, rfl⟩ := hi <;> rfl
  rw [hexec]
  exact filterRow_ok ft pred hready

/-! ## The Paeth predictor -/

/-- The predictor's branches over the distances as integers (R270). -/
theorem paethPredictor_eq (a b c : Byte) : paethPredictor a b c =
    let p : Int := (a.toNat : Int) + b.toNat - c.toNat
    if |p - a.toNat| ≤ |p - b.toNat| ∧ |p - a.toNat| ≤ |p - c.toNat| then a
    else if |p - b.toNat| ≤ |p - c.toNat| then b else c := by
  simp only [paethPredictor, Int.abs_eq_natAbs, Int.ofNat_le]

/-- In row 0 nothing stands above, and the left neighbour is at distance 0 (R269). -/
theorem paethPredictor_row_zero (a : Byte) : paethPredictor a 0 0 = a := by
  rw [paethPredictor_eq]
  exact if_pos (by simp)

/-- A row's first pixel has nothing to its left: the neighbour above is at distance 0, and the left one is as near only where both are
0 (R269). -/
theorem paethPredictor_first_pixel (b : Byte) : paethPredictor 0 b 0 = b := by
  rw [paethPredictor_eq]
  by_cases hb : b = 0
  · subst hb; rfl
  · have hpos : b.toNat ≠ 0 := fun h => hb (BitVec.eq_of_toNat_eq h)
    simp [hpos]

/-- Settles O36: the branches are the definition's over integers; the examples compute, and the corner cases are the two lemmas above. -/
theorem paethPredictorRule : Obligations.PaethPredictorRule := by
  refine ⟨fun a b c => ?_, rfl, rfl, rfl, rfl, rfl, paethPredictor_row_zero, paethPredictor_first_pixel⟩
  rw [paethPredictor_eq]
  exact ⟨fun hab hac => if_pos ⟨hab, hac⟩, fun ha hb => (if_neg ha).trans (if_pos hb), fun ha hb => (if_neg ha).trans (if_neg hb)⟩

/-! ## The end of a row -/

/-- Settles O38: the two branches of the row's end. -/
theorem endOfRow : Obligations.EndOfRow := by
  refine fun s => ⟨fun hmore => ?_, fun hlast => ?_⟩
  · rw [endRow_eq, if_pos hmore]; rfl
  · rw [endRow_eq, if_neg hlast.not_gt]; rfl

end Sys2Proof.Machine
end

section
/-! The row formatters (R280 to R284): the bytes a row's pixels become, and where in `PIX` they stand. -/

namespace Sys2Proof.Machine

/-! ## A formatter's four bytes -/

/-- `f` makes of the samples `p 0` to `p (bpp - 1)` the bytes `g p 0` to `g p 3`: R, G, B and A (R280). -/
def Renders (bpp : Nat) (f : Formatter) (g : (Nat → Byte) → Nat → Byte) : Prop :=
  ∀ p : Nat → Byte, f ((List.range bpp).map p) = some (g p 0, g p 1, g p 2, g p 3)

/-- The colour types' instructions, by their bytes per pixel and what they make of a pixel's samples (R262, R281 to R284). -/
theorem exec_of_mem_formatter {i : Instr} {bpp : Nat} {g : (Nat → Byte) → Nat → Byte}
    (h : (i, bpp, g) ∈
      ([(.fmtGray, 1, fun p c => if c < 3 then p 0 else 255), (.fmtRgb, 3, fun p c => if c < 3 then p c else 255),
        (.fmtGraya, 2, fun p c => if c < 3 then p 0 else p 1), (.fmtRgba, 4, fun p c => p c)] :
        List (Instr × Nat × ((Nat → Byte) → Nat → Byte)))) :
    ∃ f, exec i = colourType bpp f ∧ Renders bpp f g := by
  simp only [List.mem_cons, List.not_mem_nil, or_false, Prod.mk.injEq] at h
  obtain ⟨rfl, rfl, rfl⟩ | ⟨rfl, rfl, rfl⟩ | ⟨rfl, rfl, rfl⟩ | ⟨rfl, rfl, rfl⟩ := h
  · exact ⟨fmtGray, rfl, fun _ => rfl⟩
  · exact ⟨fmtRgb, rfl, fun _ => rfl⟩
  · exact ⟨fmtGraya, rfl, fun _ => rfl⟩
  · exact ⟨fmtRgba, rfl, fun _ => rfl⟩

/-! ## A row's pixels -/

/-- Sample `j` of pixel `x` of the current row (R280). -/
def State.sample (s : State) (x j : Nat) : Byte := s.eng.rcn.cur.getD (x * s.eng.rcn.bpp.toNat + j) 0

section
variable {s : State} (hcur : s.eng.rcn.cur.length = s.imgWidth.toNat * s.eng.rcn.bpp.toNat)
include hcur

/-- The slice of the row that the formatter is given. -/
theorem drop_take_eq_samples {x : Nat} (hx : x < s.imgWidth.toNat) :
    (s.eng.rcn.cur.drop (x * s.eng.rcn.bpp.toNat)).take s.eng.rcn.bpp.toNat =
      (List.range s.eng.rcn.bpp.toNat).map (s.sample x) := by
  have hend : x * s.eng.rcn.bpp.toNat + s.eng.rcn.bpp.toNat ≤ s.eng.rcn.cur.length := by
    rw [hcur, ← Nat.succ_mul]
    exact Nat.mul_le_mul_right _ hx
  refine List.ext_getElem ?_ fun j hj _ => ?_
  · rw [List.length_take, List.length_drop, List.length_map, List.length_range]
    omega
  · rw [List.length_take] at hj
    rw [List.getElem_take, List.getElem_drop, List.getElem_map, List.getElem_range, State.sample, List.getD_eq_getElem]

variable {f : Formatter} {g : (Nat → Byte) → Nat → Byte} (hf : Renders s.eng.rcn.bpp.toNat f g)
include hf

theorem Renders.formatOk : FormatOk s f := fun x hx => by rw [drop_take_eq_samples hcur hx, hf, Option.isSome_some]

/-- A pixel of the row as the formatter renders it. -/
theorem Renders.pixelBytes_eq {x : Nat} (hx : x < s.imgWidth.toNat) :
    s.pixelBytes f x = (List.range 4).map (g (s.sample x)) := by
  rw [State.pixelBytes, drop_take_eq_samples hcur hx, hf]
  rfl

/-- The bytes of the first `n` pixels, one after the other (R280). -/
theorem Renders.flatMap_pixelBytes_eq (n : Nat) (hn : n ≤ s.imgWidth.toNat) :
    ((List.range n).flatMap fun i => s.pixelBytes f (0 + i)) =
      (List.range (n * 4)).map fun k => g (s.sample (k / 4)) (k % 4) := by
  induction n with
  | zero => rfl
  | succ n ih =>
    rw [List.range_succ, List.flatMap_append, ih (Nat.le_of_succ_le hn), List.flatMap_singleton, Nat.zero_add,
      hf.pixelBytes_eq hcur hn, Nat.succ_mul, List.range_add, List.map_append, List.map_map]
    refine congrArg _ (List.map_congr_left fun c hc => ?_)
    have hc4 : c < 4 := List.mem_range.1 hc
    rw [Function.comp_apply, show (n * 4 + c) / 4 = n by omega, show (n * 4 + c) % 4 = c by omega]

/-- A row's bytes stored in `PIX`, and nothing else (R280). -/
theorem Renders.formatPixels_ok (hpix : (s.eng.rcn.y.toNat + 1) * s.imgWidth.toNat * 4 ≤ s.config.pixLimit) :
    ∃ m, Stored s.pixMem m (s.eng.rcn.y.toNat * s.imgWidth.toNat * 4) (s.imgWidth.toNat * 4)
        (fun k => g (s.sample (k / 4)) (k % 4)) ∧
      formatPixels f s.imgWidth.toNat 0 s = .ok () (s.withMem .pix m) := by
  have hload := Stored.load s.pixMem (s.eng.rcn.y.toNat * s.imgWidth.toNat * 4)
    ((List.range (s.imgWidth.toNat * 4)).map fun k => g (s.sample (k / 4)) (k % 4))
    (fun k => g (s.sample (k / 4)) (k % 4)) fun k hk => by
      rw [List.getElem?_eq_getElem hk, List.getElem_map, List.getElem_range]
  rw [List.length_map, List.length_range] at hload
  refine ⟨_, hload, ?_⟩
  rw [Nat.succ_mul] at hpix
  rw [formatPixels_spec f s.imgWidth.toNat 0 s (hf.formatOk hcur) (Nat.zero_add _) hpix,
    hf.flatMap_pixelBytes_eq hcur _ le_rfl, Nat.add_zero]

end

/-- A colour type's instruction in `ROWS`, once the row's pixels are written (R260, R280). -/
theorem colourType_rows {s t : State} {f : Formatter} (hp : s.phase = .rows) (bpp : Nat)
    (hpixels : formatPixels f s.imgWidth.toNat 0 s = .ok () t) : colourType bpp f s = .next t.endRow := by
  rw [colourType, hp, if_neg (by decide), formatRow, hpixels, Res.bind_ok, Res.finish_ok]

/-- Settles O37: each colour type's formatter renders a pixel's samples, and the loop stores what it renders. -/
theorem formattersWriteTheRow : Obligations.FormattersWriteTheRow := by
  intro i bpp fmt hi s hp hbpp hcur w y hpix
  obtain ⟨f, hexec, hf⟩ := exec_of_mem_formatter hi
  subst hbpp
  obtain ⟨m, hstored, hpixels⟩ := hf.formatPixels_ok hcur hpix
  exact ⟨m, hstored, hexec ▸ colourType_rows hp _ hpixels⟩

end Sys2Proof.Machine
end

section
/-! The engine in a legal BUSY state (R202, R343), and how its commands end (R188, R268, R345). -/

namespace Sys2Proof.Machine

/-- Settles O44: in a legal BUSY state the engine's step ends in a next state (`Inv.step_nearer`). -/
theorem engineNeverStops : Obligations.EngineNeverStops := by
  intro s h hb hs
  obtain ⟨t, ht, -⟩ := h.step_nearer hb hs
  exact ⟨t, ht⟩

/-- How a step from `s` to `t` ends a running command, if it ends it (R188, R268, R345), and what the step leaves to the other command
(R35, R74, R260). -/
structure EndsByRule (s t : State) : Prop where
  failed : t.runState = .error → ∃ e, FailedWith e s t
  done : t.runState = .done → t.phase = .done ∧ t.err = 0
  inflated : t.runState = .done → s.last = 1 →
    t.consumed = t.eng.br.pos ∧ t.consumed.toNat ≤ s.inSize.toNat ∧ t.eng.bfinal = 1
  rebuilt : t.runState = .done → s.last = 2 → t.pixLen.toNat = s.imgWidth.toNat * s.imgHeight.toNat * 4
  pixKept : s.last = 1 → t.pixMem = s.pixMem ∧ t.pixLen = s.pixLen
  sinkKept : s.last = 2 → t.sinkMem = s.sinkMem ∧ t.sinkLen = s.sinkLen ∧ t.sinkCap = s.sinkCap ∧ t.consumed = s.consumed

theorem InflateNext.endsByRule {s t : State} (h : InflateNext s t) (hl : s.last = 1) : EndsByRule s t where
  failed := h.failed
  done hd := ⟨(h.done hd).1, (h.done hd).2.1⟩
  inflated hd _ := by
    obtain ⟨-, -, hconsumed, hfinal⟩ := h.done hd
    obtain ⟨-, -, hreader⟩ := h.kept (by rw [hd]; decide)
    exact ⟨hconsumed, by rw [hconsumed, ← h.frame.inSize]; exact hreader.pos, hfinal⟩
  rebuilt _ h2 := absurd (hl.symm.trans h2) (by decide)
  pixKept _ := ⟨h.frame.pixMem, h.frame.pixLen⟩
  sinkKept h2 := absurd (hl.symm.trans h2) (by decide)

theorem ReconNext.endsByRule {s t : State} (h : ReconNext s t) (hl : s.last = 2) : EndsByRule s t where
  failed := h.failed
  done hd := ⟨(h.done hd).1, (h.done hd).2.1⟩
  inflated _ h1 := absurd (hl.symm.trans h1) (by decide)
  rebuilt hd _ := (h.done hd).2.2
  pixKept h1 := absurd (hl.symm.trans h1) (by decide)
  sinkKept _ := ⟨h.frame.sinkMem, h.frame.sinkLen, h.frame.sinkCap, h.frame.consumed⟩

/-- The engine's turn in a legal BUSY state, whichever command runs. -/
theorem Inv.engineStep_endsByRule {s : State} (h : Inv s) (hb : s.runState = .busy) :
    ∃ t, Machine.engineStep s = .next t ∧ EndsByRule s t := by
  have hr := h.running
  rw [if_pos hb] at hr
  rcases hr with hi | hr
  · obtain ⟨t, ht, hn⟩ := engineStep_inflate h hb hi
    exact ⟨t, ht, hn.next.endsByRule hi.last⟩
  · obtain ⟨t, ht, hn⟩ := engineStep_recon (h.running_of_busy hb) hr
    exact ⟨t, ht, hn.endsByRule hr.last⟩

/-- Settles O46: how the step ends the command is `EndsByRule`; and no step of a running command leads to IDLE, which has no `LAST`
(`Nearer.ended`). -/
theorem commandsEndAsTheRulesSay : Obligations.CommandsEndAsTheRulesSay := by
  intro s t h hb hs ht
  obtain ⟨u, hu, hends⟩ := h.engineStep_endsByRule hb
  obtain ⟨w, hw, hnear⟩ := h.step_nearer hb hs
  obtain rfl : u = t := by rw [step_silent hb hs, hu] at ht; exact Host.Outcome.next.inj ht
  obtain rfl : w = u := by rw [hw] at ht; exact Host.Outcome.next.inj ht
  refine ⟨hends.failed, fun hd => ⟨(hends.done hd).1, (hends.done hd).2, hends.inflated hd, hends.rebuilt hd⟩, fun hidle => ?_,
    hends.pixKept, hends.sinkKept⟩
  have hl : s.last ≠ 0 := h.status.started (by rw [hb]; decide)
  rcases hnear.ended hl (by rw [hidle]; decide) with hd | he
  · exact nomatch hidle.symm.trans hd
  · exact nomatch hidle.symm.trans he

end Sys2Proof.Machine
end

section
/-! The machine that waits: only a write to `CMD` or a reset leaves IDLE, DONE or ERROR (R350, R373). -/

namespace Sys2Proof.Machine

theorem HostFrame.own (s : State) (script : List HostAct) (readData : Word) (result : Option HostResult) (draws : Nat) :
    HostFrame s { s with script := script, readData := readData, result := result, draws := draws } :=
  ⟨rfl, rfl, rfl, rfl, rfl, rfl, rfl, rfl, rfl, rfl, rfl⟩

theorem HostFrame.trans {s t u : State} (h : HostFrame s t) (k : HostFrame t u) : HostFrame s u :=
  ⟨k.config.trans h.config, k.runState.trans h.runState, k.err.trans h.err, k.last.trans h.last, k.consumed.trans h.consumed,
    k.sinkLen.trans h.sinkLen, k.sinkCap.trans h.sinkCap, k.pixLen.trans h.pixLen, k.phase.trans h.phase, k.eng.trans h.eng,
    k.expect.trans h.expect⟩

/-- A register read leaves the read data and draws a free value at most (R21, R23). -/
theorem HostFrame.readReg (s : State) (off : Nat) : HostFrame s (s.readReg off) := by
  rw [s.readReg_eq off]
  exact .own s _ _ _ _

theorem HostFrame.failJob (s : State) (code : BitVec 4) : HostFrame s (s.failJob code) := .own s _ _ _ _

theorem HostFrame.startZlib (s : State) (z : List Byte) (a : Nat) (after : List HostAct) : HostFrame s (s.startZlib z a after) := by
  unfold State.startZlib
  split
  · exact .own s _ _ _ _
  · split
    · exact .own s _ _ _ _
    · exact .own s _ _ _ _

theorem HostFrame.startDecode (s : State) (f : List Byte) (a : Nat) : HostFrame s (s.startDecode f a) := by
  unfold State.startDecode
  split
  · exact .own s _ _ _ _
  · exact .startZlib s _ a _

/-- A move of the host that starts no command and asserts no reset, and keeps what `HostFrame` says. -/
def HostMove.Keeps (s : State) : HostMove → Prop
  | .over o => ∀ t, o = .next t → HostFrame s t
  | .command _ _ => False
  | .engine t => HostFrame s t
  | .torn _ => False

theorem HostMove.Keeps.over_next {s t : State} (h : HostFrame s t) : (HostMove.over (.next t)).Keeps s := by
  intro _ ht
  exact Host.Outcome.next.inj ht ▸ h

theorem HostMove.Keeps.over_refused (s : State) (r : Refusal) : (HostMove.over (.refused r)).Keeps s := fun _ h => nomatch h

/-- A memory access that ends in a next state has done what it leads to. -/
theorem HostMove.Keeps.over_hostAccess {s k : State} (sp : Space) (n : Nat) (h : HostFrame s k) :
    (HostMove.over (hostAccess s sp n k)).Keeps s := by
  intro t ht
  obtain ⟨-, -, rfl⟩ := hostAccess_next ht
  exact h

/-- Every act of the host but a write to `CMD` and the two resets keeps what `HostFrame` says. -/
theorem hostAct_keeps {act : HostAct} (s : State) (hcmd : ∀ v, act ≠ .regWrite 4 0 v) (hreset : act ≠ .assertReset)
    (hwithin : act ≠ .assertResetWithin) : (hostAct act s).Keeps s := by
  cases act with
  | regWrite bytes off v =>
    rw [hostAct_regWrite]
    split_ifs with hill h0
    · exact .over_refused s _
    · have hbytes : bytes = 4 := by
        by_contra hne
        exact hill (regAccessOk_eq_false (.inl hne))
      exact absurd (by rw [hbytes, h0]) (hcmd v)
    · exact .over_next (.writeReg s off v)
  | regRead bytes off =>
    rw [hostAct_regRead]
    split_ifs
    · exact .over_refused s _
    · exact .over_next (.readReg s off)
  | memWrite sp a v => exact .over_hostAccess sp _ (.withMem s sp _)
  | memRead sp a => exact .over_hostAccess sp _ (.own s _ _ _ _)
  | poll =>
    rw [hostAct_poll]
    split_ifs
    · exact HostFrame.own s _ _ _ _
    · exact .over_next (.own s _ _ _ _)
  | letRun => exact HostFrame.own s _ _ _ _
  | assertReset => exact absurd rfl hreset
  | assertResetWithin => exact absurd rfl hwithin
  | checkStatus =>
    refine .over_next ?_
    split_ifs
    · exact .failJob s _
    · exact .own s _ _ _ _
  | checkAdler trailer =>
    refine .over_hostAccess .sink _ ?_
    split_ifs
    · exact .own s _ _ _ _
    · exact .failJob s _
  | takeSink => exact .over_hostAccess .sink _ (.own s _ _ _ _)
  | takePix w h => exact .over_hostAccess .pix _ (.own s _ _ _ _)
  | endJob => exact .over_next (.own s _ _ _ _)
  | zlib z a => exact .over_next (.startZlib s z a _)
  | decodePng f a => exact .over_next (.startDecode s f a)

/-- A waiting engine's turn changes nothing (R350, R373). -/
theorem engineTurn_waiting {s : State} (hb : s.runState ≠ .busy) : engineTurn s = .next s := if_neg hb

/-- A step of a waiting machine that no write to `CMD` and no reset takes. -/
theorem step_hostFrame {s t : State} (hb : s.runState ≠ .busy) (hcmd : ∀ v rest, s.script ≠ .regWrite 4 0 v :: rest)
    (hreset : ∀ rest, s.script ≠ .assertReset :: rest) (hwithin : ∀ rest, s.script ≠ .assertResetWithin :: rest)
    (ht : step s = .next t) : HostFrame s t := by
  cases hs : s.script with
  | nil =>
    rw [step_of_script_nil hs, engineTurn_waiting hb] at ht
    exact Host.Outcome.next.inj ht ▸ .own s _ _ _ _
  | cons act rest =>
    have hkeeps := hostAct_keeps (act := act) { s with script := rest } (fun v ha => hcmd v rest (ha ▸ hs))
      (fun ha => hreset rest (ha ▸ hs)) fun ha => hwithin rest (ha ▸ hs)
    simp only [step, hs] at ht
    rcases hm : hostAct act { s with script := rest } with o | ⟨v, u⟩ | u | u <;> rw [hm] at ht hkeeps
    · exact (HostFrame.own s rest _ _ _).trans (hkeeps t ht)
    · exact hkeeps.elim
    · have hkeeps : HostFrame { s with script := rest } u := hkeeps
      dsimp only at ht
      rw [engineTurn_waiting (by rw [hkeeps.runState]; exact hb)] at ht
      exact Host.Outcome.next.inj ht ▸ (HostFrame.own s rest _ _ _).trans hkeeps
    · exact hkeeps.elim

/-- Settles O49: what the step keeps is part of `HostFrame`. -/
theorem waitingStatesStay : Obligations.WaitingStatesStay := by
  intro s t hb hcmd hreset hwithin ht
  have f := step_hostFrame hb hcmd hreset hwithin ht
  exact ⟨f.runState, f.phase, f.err, f.last, f.consumed, f.sinkLen, f.sinkCap, f.pixLen, f.eng, f.expect⟩

end Sys2Proof.Machine
end

section
/-! Errors: the codes, what a raised error leaves, and the bytes it frees (R340, R345, U8). -/

namespace Sys2Proof.Machine

/-- Settles O39, with `Error.code_range`. -/
theorem errorCodes : Obligations.ErrorCodes := ⟨rfl, Error.code_range⟩

/-- Settles O41, which is `FailedWith.raiseError` part by part. -/
theorem raiseErrorEffect : Obligations.RaiseErrorEffect := by
  intro s e
  obtain ⟨hphase, ⟨hrun, herr, hlast⟩, hinflate, hrecon, ⟨hbase, hsize, hwidth, hheight, hformat, hin⟩, -⟩ :=
    FailedWith.raiseError e s
  exact ⟨hphase, hrun, herr, hlast, hinflate, hrecon, hbase, hsize, hwidth, hheight, hformat, hin⟩

/-! ## The bytes written -/

/-- Within its block loop an INFLATE has written the bytes that fill the sink (R36). -/
theorem State.sinkWritten_inflating {s : State} (hp : s.phase ∈ [Phase.header, .stored, .dynhdr, .symbols]) :
    s.sinkWritten = s.sinkFilled := by
  unfold State.sinkWritten
  simp only [List.mem_cons, List.not_mem_nil, or_false] at hp
  rcases hp with hp | hp | hp | hp <;> rw [hp]

/-- Within its row loop a RECON has written the rows before the current one (R36). -/
theorem State.pixWritten_rows {s : State} (hp : s.phase = .rows) :
    s.pixWritten = min (s.eng.rcn.y.toNat * s.imgWidth.toNat * 4) s.config.pixLimit := by
  rw [State.pixWritten, hp]

/-- While a RECON runs, the bytes that a reset frees are those written (R370). -/
theorem State.pixTouched_running {s : State} (hl : s.last = 2) (hb : s.runState = .busy) : s.pixTouched = s.pixWritten := by
  rw [State.pixTouched, if_pos hl, if_neg (by rw [hb]; decide)]

/-- A completed RECON has written the image (R268). -/
theorem State.pixTouched_done {s : State} (hl : s.last = 2) (hd : s.runState = .done) :
    s.pixTouched = min (s.imgWidth.toNat * s.imgHeight.toNat * 4) s.config.pixLimit := by
  rw [State.pixTouched, if_pos hl, if_pos hd]

/-- The end of a row that fits in `PIX`: the rows up to it have been written, whether or not it was the last. -/
theorem State.endRow_pixTouched {s : State} (hl : s.last = 2) (hb : s.runState = .busy)
    (hy : s.eng.rcn.y.toNat < s.imgHeight.toNat)
    (hfits : (s.eng.rcn.y.toNat + 1) * s.imgWidth.toNat * 4 ≤ s.config.pixLimit) :
    s.endRow.pixTouched = (s.eng.rcn.y.toNat + 1) * s.imgWidth.toNat * 4 := by
  rw [endRow_eq]
  split_ifs with hmore
  · have hnext : (s.eng.rcn.y + 1).toNat = s.eng.rcn.y.toNat + 1 := BitVec.toNat_add_of_lt (by
      have := s.imgHeight.isLt
      show s.eng.rcn.y.toNat + 1 < _
      omega)
    rw [State.pixTouched_running (by exact hl) (by exact hb), State.pixWritten_rows (by rfl)]
    show min ((s.eng.rcn.y + 1).toNat * s.imgWidth.toNat * 4) s.config.pixLimit = _
    rw [hnext, Nat.min_eq_left hfits]
  · have hlast : s.imgHeight.toNat = s.eng.rcn.y.toNat + 1 := by omega
    rw [State.pixTouched_done (by exact hl) (by rfl)]
    show min (s.imgWidth.toNat * s.imgHeight.toNat * 4) s.config.pixLimit = _
    rw [hlast, Nat.mul_comm s.imgWidth.toNat, Nat.min_eq_left hfits]

/-- Settles O60: `push_filled` for the bytes of `SINK` written so far, and `Memory.read_scramble` for those an error frees. -/
theorem errorsFreeWhatWasWritten : Obligations.ErrorsFreeWhatWasWritten := by
  refine ⟨fun s t v hp ht => ?push, fun s e hl hw a => ?inflate, fun s e hl hw a => ?recon,
    fun s hl hp hb hy hfits => ⟨?rows, State.endRow_pixTouched hl hb hy hfits⟩⟩
  case push =>
    obtain ⟨hle, hlt, hmem, hphase⟩ := push_filled ht
    rw [State.sinkWritten_inflating hp, State.sinkWritten_inflating (s := t) (hphase ▸ hp)]
    refine ⟨hle, hlt, fun a ha => ?_⟩
    rw [hmem, Memory.read_write_other v (by omega)]
  case inflate => rw [State.raiseError_sinkMem, if_pos hl, Memory.read_scramble hw]
  case recon => rw [State.raiseError_pixMem, if_neg (by rw [hl]; decide), if_pos hl, Memory.read_scramble hw]
  case rows =>
    rw [Nat.add_mul, Nat.add_mul] at hfits
    rw [State.pixWritten_rows hp, Nat.min_eq_left (by omega)]

end Sys2Proof.Machine
end

section
/-! Reset (R370): the registers, and the bytes that it frees. -/

namespace Sys2Proof.Machine

/-- The state after reset, with everything that the spec leaves open there chosen freely (R9, R40, R43, R370). -/
def State.powerOn (c : Config) (inMem sinkMem pixMem : Memory) (lt dt ct : Table) (prev cur : List Byte) : State :=
  { State.reset with
    config := c, inMem := inMem, sinkMem := sinkMem, pixMem := pixMem
    eng := { State.reset.eng with lt := lt, dt := dt, ct := ct, rcn := { State.reset.eng.rcn with prev := prev, cur := cur } } }

section
variable {c : Config} {inMem sinkMem pixMem : Memory} {lt dt ct : Table} {prev cur : List Byte}

/-- The registers of a reset state are legal, so only the sizes and the memories can make it illegal. -/
theorem Inv.powerOn (hsized : c.Sized) (hmemory : MemoryOk (.powerOn c inMem sinkMem pixMem lt dt ct prev cur)) :
    Inv (.powerOn c inMem sinkMem pixMem lt dt ct prev cur) where
  sized := hsized
  memory := hmemory
  status := ⟨rfl, Nat.zero_le _, fun _ => rfl, fun h => absurd rfl h⟩
  sink := ⟨Nat.le_refl _, Nat.zero_le _, .inl rfl⟩
  files := ⟨List.length_replicate, List.length_replicate⟩
  format := show 0 < 2 ^ 16 by decide
  pixLen := Nat.zero_le _
  running := ⟨rfl, .inl ⟨rfl, rfl⟩⟩

end

/-- Settles O43: `State.reset` is the choice of 65536 for each size, and of memories that list nothing. -/
theorem resetIsLegal : Obligations.ResetIsLegal :=
  ⟨fun _ _ _ _ _ _ _ _ _ hsized hmemory => .powerOn hsized hmemory, Inv.powerOn (c := .atReset) (by decide) MemoryOk.reset⟩

/-- `STATUS` reads 0 in IDLE before the first command (R25, R370). -/
theorem State.statusWord_eq_zero {s : State} (hrun : s.runState = .idle) (herr : s.err = 0) (hlast : s.last = 0) : s.statusWord = 0 := by
  rw [State.statusWord, hrun, herr, hlast]
  rfl

/-- The bytes of a canonical memory that a reset frees, and those it keeps (R370, U14). -/
theorem Memory.scramble_parts {m : Memory} (h : m.wf) (d n : Nat) :
    (∀ a, n ≤ a → (m.scramble d n).read a = m.read a) ∧ ∀ a, a < n → (m.scramble d n).read a = Config.freeBits 8 d a :=
  ⟨fun a ha => by rw [Memory.read_scramble h, if_neg (Nat.not_lt.2 ha)], fun a ha => by rw [Memory.read_scramble h, if_pos ha]⟩

/-- A reset between two instructions (R370). -/
theorem step_assertReset {s : State} {rest : List HostAct} (hs : s.script = .assertReset :: rest) :
    step s = .next ({ s with script := rest } : State).applyReset := step_over hs rfl

/-- An act that tears the engine's turn: the step is the reset within it. -/
theorem step_torn {s u : State} {act : HostAct} {rest : List HostAct} (hs : s.script = act :: rest)
    (h : hostAct act { s with script := rest } = .torn u) : step s = u.tornReset (engineTurn u) := by
  simp only [step, hs, h]

/-- A reset within the engine's instruction (R370). -/
theorem step_assertResetWithin {s : State} {rest : List HostAct} (hs : s.script = .assertResetWithin :: rest) :
    step s = ({ s with script := rest } : State).tornReset (engineTurn { s with script := rest }) := step_torn hs rfl

theorem State.applyReset_busy {s : State} (hb : s.runState = .busy) : s.applyReset = s.resetFreeing s.sinkWritten s.pixWritten :=
  if_pos hb

theorem State.applyReset_waiting {s : State} (hb : s.runState ≠ .busy) : s.applyReset = s.resetFreeing 0 0 := if_neg hb

theorem State.tornReset_waiting {s : State} (hb : s.runState ≠ .busy) (o : Host.Outcome State Fault Refusal) :
    s.tornReset o = .next (s.resetFreeing 0 0) := by
  rw [← State.applyReset_waiting hb]
  exact if_neg hb

theorem State.tornReset_busy {s : State} (hb : s.runState = .busy) (u : State) :
    s.tornReset (.next u) = .next (u.resetFreeing u.sinkTouched u.pixTouched) := if_pos hb

/-- With no command BUSY, both resets free no byte. -/
theorem step_reset_waiting {s : State} {rest : List HostAct} (hs : s.script = .assertReset :: rest ∨ s.script = .assertResetWithin :: rest)
    (hb : s.runState ≠ .busy) : step s = .next (({ s with script := rest } : State).resetFreeing 0 0) := by
  rcases hs with hs | hs
  · rw [step_assertReset hs, State.applyReset_waiting (s := { s with script := rest }) hb]
  · rw [step_assertResetWithin hs, State.tornReset_waiting (s := { s with script := rest }) hb]

/-- Whichever reset it is, it is `State.resetFreeing` of some state. -/
theorem step_reset {s t : State} {rest : List HostAct} (hs : s.script = .assertReset :: rest ∨ s.script = .assertResetWithin :: rest)
    (ht : step s = .next t) : ∃ u m n, t = State.resetFreeing u m n := by
  rcases hs with hs | hs
  · obtain ⟨m, n, -, -, he⟩ := State.applyReset_eq { s with script := rest }
    rw [step_assertReset hs, he] at ht
    exact ⟨_, m, n, (Host.Outcome.next.inj ht).symm⟩
  · rw [step_assertResetWithin hs] at ht
    obtain ⟨u, m, n, -, -, -, rfl⟩ := tornReset_next ht
    exact ⟨u, m, n, rfl⟩

/-- Settles O54: the registers by the definition of `State.resetFreeing`, the memories by `Memory.scramble_parts`. -/
theorem resetValues : Obligations.ResetValues := by
  refine ⟨fun t ht => ?registers, fun s rest hs hb => ⟨_, step_reset_waiting hs hb, rfl, rfl, rfl⟩,
    fun s rest hs hb hsink hpix => ?between, fun s u rest hs hb hu hsink hpix => ?within⟩
  case registers =>
    have hreset : t = State.reset ∨ ∃ u m n, t = State.resetFreeing u m n := ht.imp_right fun ⟨_, _, hs, h⟩ => step_reset hs h
    rcases hreset with rfl | ⟨u, m, n, rfl⟩
    all_goals
      refine ⟨rfl, rfl, rfl, State.statusWord_eq_zero rfl rfl rfl, ?_⟩
      and_intros <;> rfl
  case between =>
    obtain ⟨hsinkKept, hsinkFree⟩ := Memory.scramble_parts hsink (s.draws + 1) s.sinkWritten
    obtain ⟨hpixKept, hpixFree⟩ := Memory.scramble_parts hpix (s.draws + 1) s.pixWritten
    refine ⟨_, (step_assertReset hs).trans (congrArg _ (State.applyReset_busy (s := { s with script := rest }) hb)), rfl,
      hsinkKept, hpixKept, hsinkFree, hpixFree⟩
  case within =>
    obtain ⟨hsinkKept, hsinkFree⟩ := Memory.scramble_parts hsink (u.draws + 1) u.sinkTouched
    obtain ⟨hpixKept, hpixFree⟩ := Memory.scramble_parts hpix (u.draws + 1) u.pixTouched
    have hturn : engineTurn { s with script := rest } = .next u := (if_pos hb).trans hu
    have hstep : step s = .next (u.resetFreeing u.sinkTouched u.pixTouched) := by
      rw [step_assertResetWithin hs, hturn]
      exact State.tornReset_busy (s := { s with script := rest }) hb u
    exact ⟨_, hstep, rfl, hsinkKept, hpixKept, hsinkFree, hpixFree⟩

end Sys2Proof.Machine
end

section
/-! The zlib envelope (R300 to R307): its checks, its checksum, and the job that it amounts to. -/

namespace Sys2Proof.Machine

/-! ## The checks -/

/-- The preset-dictionary bit of the second byte, as R303 tests it. -/
theorem Byte.and_32_eq_zero_iff (b : Byte) : b.toNat &&& 0x20 = 0 ↔ b.getLsbD 5 = false := by
  have hbit : b.toNat &&& 2 ^ 5 = (b.getLsbD 5).toNat * 2 ^ 5 := Nat.and_two_pow _ 5
  rw [show (0x20 : Nat) = 2 ^ 5 from rfl, hbit]
  cases b.getLsbD 5 <;> decide

/-- The low four bits of a byte, as R302 tests them. -/
theorem Byte.and_15_eq_mod (b : Byte) : b.toNat &&& 0x0F = b.toNat % 16 := Nat.and_two_pow_sub_one_eq_mod _ 4

/-- Settles O55: the branches of `zlibCheck`, with its bit tests written as remainders. -/
theorem zlibHeaderChecks : Obligations.ZlibHeaderChecks := by
  intro z
  dsimp only
  rw [Byte.and_15_eq_mod, ne_eq ((z.getD 1 0).toNat &&& 0x20), Byte.and_32_eq_zero_iff]
  unfold zlibCheck
  refine ⟨fun hshort => ?_, fun hlong hmethod => ?_, fun hlong hmethod hsum => ?_, fun hlong hmethod hsum hdict => ?_,
    fun hlong hmethod hsum hdict => ?_⟩
  · rw [if_pos hshort]
  · rw [if_neg (by omega), if_pos hmethod]
  · rw [if_neg (by omega), if_neg (not_not.2 hmethod), if_pos hsum]
  · rw [if_neg (by omega), if_neg (not_not.2 hmethod), if_neg (not_not.2 hsum), if_pos (by simpa using hdict)]
  · rw [if_neg (by omega), if_neg (not_not.2 hmethod), if_neg (not_not.2 hsum), if_neg (by simpa using hdict)]

/-! ## Adler-32 -/

/-- What the bytes of `d` add to the high sum: each counts once for every byte from it to the end (R305). -/
def weightedSum (d : List Byte) : Nat := ((List.range d.length).map fun i => (d.length - i) * (d.getD i 0).toNat).sum

theorem weightedSum_cons (b : Byte) (d : List Byte) : weightedSum (b :: d) = (d.length + 1) * b.toNat + weightedSum d := by
  simp only [weightedSum, List.length_cons, List.range_succ_eq_map, List.map_cons, List.map_map, List.sum_cons, Nat.sub_zero,
    List.getD_cons_zero, Function.comp_def, List.getD_cons_succ, Nat.succ_eq_add_one, Nat.add_sub_add_right]

/-- The recurrence of R305 from any two sums, in closed form. -/
theorem foldl_adlerStep (d : List Byte) {s1 s2 : Nat} (h1 : s1 < 65521) (h2 : s2 < 65521) : d.foldl adlerStep (s1, s2) =
    ((s1 + (d.map BitVec.toNat).sum) % 65521, (s2 + d.length * s1 + weightedSum d) % 65521) := by
  induction d generalizing s1 s2 with
  | nil => simp [weightedSum, Nat.mod_eq_of_lt h1, Nat.mod_eq_of_lt h2]
  | cons b d ih =>
    rw [List.foldl_cons, adlerStep, ih (Nat.mod_lt _ (by decide)) (Nat.mod_lt _ (by decide)), weightedSum_cons]
    congr 1
    · rw [List.map_cons, List.sum_cons, Nat.mod_add_mod, Nat.add_assoc]
    · have hstep : (s1 + b.toNat) % 65521 ≡ s1 + b.toNat [MOD 65521] := Nat.mod_modEq _ _
      have hhigh : (s2 + (s1 + b.toNat) % 65521) % 65521 ≡ s2 + (s1 + b.toNat) [MOD 65521] :=
        (Nat.mod_modEq _ _).trans (hstep.add_left s2)
      have hall := (hhigh.add (hstep.mul_left d.length)).add_right (weightedSum d)
      refine Eq.trans hall (congrArg (· % 65521) ?_)
      rw [List.length_cons]
      ring

/-- Settles O56: the closed form from the sums 1 and 0. -/
theorem adlerClosedForm : Obligations.AdlerClosedForm := by
  intro d
  rw [adler32, foldl_adlerStep d (by decide) (by decide), Nat.zero_add, Nat.mul_one]
  rfl

/-! ## The job -/

/-- The acts that place a buffer in `IN` write its bytes in order from address `a` up (R304). -/
theorem loadActs_eq (z : List Byte) (a : Nat) :
    loadActs a z = (List.range z.length).map fun k => .memWrite .input (a + k) (z.getD k 0) := by
  induction z generalizing a with
  | nil => rfl
  | cons b z ih =>
    rw [loadActs, ih, List.length_cons, List.range_succ_eq_map, List.map_cons, List.map_map]
    refine congrArg _ (List.map_congr_left fun k _ => ?_)
    show HostAct.memWrite .input (a + 1 + k) (z.getD k 0) = .memWrite .input (a + (k + 1)) (z.getD k 0)
    rw [Nat.add_assoc, Nat.add_comm 1]

/-- The buffer fits where the host places it (R304), which is where the host chose if it fits there. -/
theorem State.placeAt_fits (s : State) (a : Nat) {size : Nat} (h : size ≤ s.config.inLimit) :
    s.placeAt a size + size ≤ s.config.inLimit ∧ (a + size ≤ s.config.inLimit → s.placeAt a size = a) := by
  unfold State.placeAt
  omega

section
variable {s : State} {z : List Byte} (a : Nat) (after : List HostAct)

theorem State.startZlib_failed {e : Error} (h : zlibCheck z = some e) :
    s.startZlib z a after = { s with result := some (.failed e.code) } := by
  rw [State.startZlib, h]

theorem State.startZlib_tooLarge (h : zlibCheck z = none) (hlarge : s.config.inLimit < z.length) :
    s.startZlib z a after = { s with result := some (.failed 12) } := by
  rw [State.startZlib, h]
  exact if_pos hlarge

theorem State.startZlib_started (h : zlibCheck z = none) (hfits : z.length ≤ s.config.inLimit) : s.startZlib z a after =
    { s with result := none, script := zlibActs z (s.placeAt a z.length) ++ after ++ .endJob :: s.script } := by
  rw [State.startZlib, h]
  exact if_neg (Nat.not_lt.2 hfits)

end

/-- A job that fails goes on after its end (R304, R306, R320). -/
theorem State.failJob_eq {s : State} {acts more : List HostAct} (hs : s.script = acts ++ .endJob :: more)
    (hacts : ∀ x ∈ acts, x ≠ .endJob) (code : BitVec 4) : s.failJob code = { s with script := more, result := some (.failed code) } := by
  have hdrop : (acts ++ .endJob :: more).dropWhile (· != .endJob) = .endJob :: more := by
    rw [List.dropWhile_append_of_pos fun x hx => by simpa using hacts x hx]
    rfl
  rw [State.failJob, hs, hdrop]
  rfl

theorem step_checkStatus {s : State} {rest : List HostAct} (hs : s.script = .checkStatus :: rest) : step s =
    .next (if s.runState = .error then ({ s with script := rest } : State).failJob s.err else { s with script := rest }) :=
  step_over hs rfl

/-- The checksum of a waiting machine's sink, which lies within `SINK` (R305, R306). -/
theorem step_checkAdler {s : State} {trailer : Word} {rest : List HostAct} (hs : s.script = .checkAdler trailer :: rest)
    (hb : s.runState ≠ .busy) (hlen : s.sinkLen.toNat ≤ s.config.sinkLimit) : step s =
    .next (if adler32 (s.sinkMem.readTo s.sinkLen.toNat) = trailer then { s with script := rest }
      else ({ s with script := rest } : State).failJob 5) :=
  (step_over hs rfl).trans (hostAccess_within (s := { s with script := rest }) (sp := .sink) hb hlen _)

theorem step_zlib {s : State} {z : List Byte} {a : Nat} {rest : List HostAct} (hs : s.script = .zlib z a :: rest) :
    step s = .next (({ s with script := rest } : State).startZlib z a [.takeSink]) := step_over hs rfl

/-- Settles O57: how the envelope's job starts (`State.startZlib`), and the two acts of it that can end it (`State.failJob`). -/
theorem envelopeFailures : Obligations.EnvelopeFailures := by
  refine fun s rest => ⟨fun z a e hs hz => ?failed, fun z a hs hz hlarge => ?tooLarge, fun z a hs hz hfits => ?started,
    fun acts more hs hacts => ⟨fun hb => ?raised, fun hb => ?passed⟩,
    fun trailer more hs hb hlen => ⟨fun hne => ?mismatch, fun heq => ?verified⟩⟩
  case failed => rw [step_zlib hs, State.startZlib_failed a _ hz]
  case tooLarge => rw [step_zlib hs, State.startZlib_tooLarge (s := { s with script := rest }) a _ hz hlarge]
  case started =>
    obtain ⟨hA, hchosen⟩ := s.placeAt_fits a hfits
    refine ⟨s.placeAt a z.length, hA, hchosen, ?_⟩
    rw [step_zlib hs, State.startZlib_started (s := { s with script := rest }) a _ hz hfits, zlibActs, loadActs_eq]
    simp only [List.append_assoc]
    rfl
  case raised => rw [step_checkStatus hs, if_pos hb, State.failJob_eq rfl hacts]
  case passed => rw [step_checkStatus (rest := acts ++ .endJob :: more) hs, if_neg hb]
  case mismatch =>
    rw [step_checkAdler hs hb hlen, if_neg hne]
    exact congrArg _ (State.failJob_eq (acts := [.takeSink]) rfl (by decide) 5)
  case verified => rw [step_checkAdler hs hb hlen, if_pos heq]

end Sys2Proof.Machine
end

section
/-! The PNG parser (R310 to R317): what a walk over whole chunks captures, and how it ends. -/

namespace Sys2Proof.Machine

/-! ## Chunks -/

/-- Four bytes, the most significant first, read back as the number they were written from (R311). -/
theorem bigEndian_wordBytes (v : Word) : bigEndian (wordBytes v) = v.toNat := by
  have hv := v.isLt
  simp only [bigEndian, wordBytes, List.foldl_cons, List.foldl_nil, BitVec.extractLsb'_toNat, Nat.shiftRight_eq_div_pow]
  omega

/-- A chunk as its type, its payload and its CRC. -/
abbrev PngPart := List Byte × List Byte × List Byte

/-- A chunk's bytes in the file (R311). -/
def PngPart.bytes (c : PngPart) : List Byte := chunkBytes c.1 c.2.1 c.2.2

/-- A chunk that the walk passes over: its fields have their sizes (R311), and it is no IEND (R312). -/
abbrev PngPart.Passed (c : PngPart) : Prop :=
  c.1.length = 4 ∧ c.1 ≠ typeIend ∧ c.2.1.length < 2 ^ 32 ∧ c.2.2.length = 4

section
variable {c : PngPart} (h : c.Passed) (rest : List Byte)
include h

theorem PngPart.bytes_length : c.bytes.length = 12 + c.2.1.length := by
  obtain ⟨htype, -, -, hcrc⟩ := h
  simp only [PngPart.bytes, chunkBytes, wordBytes, List.length_append, List.length_cons, List.length_nil, htype, hcrc]
  omega

/-- The length field of a chunk at the front of the bytes left. -/
theorem PngPart.length_field : bigEndian ((c.bytes ++ rest).take 4) = c.2.1.length := by
  have hfront : (c.bytes ++ rest).take 4 = wordBytes (BitVec.ofNat 32 c.2.1.length) := rfl
  rw [hfront, bigEndian_wordBytes, BitVec.toNat_ofNat, Nat.mod_eq_of_lt h.2.2.1]

/-- Its type. -/
theorem PngPart.type_field : ((c.bytes ++ rest).drop 4).take 4 = c.1 := by
  have hfront : (c.bytes ++ rest).drop 4 = c.1 ++ c.2.1 ++ c.2.2 ++ rest := rfl
  rw [hfront, List.append_assoc, List.append_assoc, ← h.1, List.take_left]

/-- Its payload. -/
theorem PngPart.payload_field : ((c.bytes ++ rest).drop 8).take c.2.1.length = c.2.1 := by
  have hfront : (c.bytes ++ rest).drop 8 = (c.1 ++ c.2.1 ++ c.2.2 ++ rest).drop 4 := rfl
  rw [hfront, List.append_assoc, List.append_assoc, ← h.1, List.drop_left, List.take_left]

/-- One round of the walk passes over it (R312). -/
theorem pngWalk_chunk (fuel : Nat) (r : PngRecord) :
    pngWalk (fuel + 1) (c.bytes ++ rest) r = pngWalk fuel rest (pngChunk c.1 c.2.1 r) := by
  have hlength := c.bytes_length h
  rw [pngWalk, if_neg (by rw [List.length_append]; omega)]
  dsimp only
  rw [c.length_field h, c.type_field h, c.payload_field h, if_neg (by rw [List.length_append]; omega), if_neg h.2.1, ← hlength,
    List.drop_left]

end

/-! ## The record -/

/-- The record with the header that the IHDR payload `head` gives, all zeros for an empty one, and the image data `data` (R313, R314). -/
def PngRecord.of (head data : List Byte) : PngRecord where
  width := BitVec.ofNat 32 (bigEndian (head.take 4))
  height := BitVec.ofNat 32 (bigEndian ((head.drop 4).take 4))
  depth := head.getD 8 0
  ctype := head.getD 9 0
  idat := data

/-- The payloads of the IHDRs that are long enough (R313), in file order. -/
def pngHeads (chunks : List PngPart) : List (List Byte) :=
  (chunks.filter fun c => c.1 = typeIhdr ∧ 13 ≤ c.2.1.length).map fun c => c.2.1

/-- The payloads of the IDATs (R314), in file order. -/
def pngData (chunks : List PngPart) : List (List Byte) := (chunks.filter fun c => c.1 = typeIdat).map fun c => c.2.1

/-- A chunk before others: the last IHDR wins (R313), and the IDATs are appended (R314). -/
theorem pngChunk_of (c : PngPart) (chunks : List PngPart) (head data : List Byte) :
    ∃ head' data', pngChunk c.1 c.2.1 (.of head data) = .of head' data' ∧
      (pngHeads chunks).getLastD head' = (pngHeads (c :: chunks)).getLastD head ∧
      data' ++ (pngData chunks).flatten = data ++ (pngData (c :: chunks)).flatten := by
  by_cases hhead : c.1 = typeIhdr ∧ 13 ≤ c.2.1.length
  · have hdata : c.1 ≠ typeIdat := by rw [hhead.1]; decide
    have hheads : pngHeads (c :: chunks) = c.2.1 :: pngHeads chunks := by simp [pngHeads, hhead]
    refine ⟨c.2.1, data, if_pos hhead, ?_, ?_⟩
    · rw [hheads, List.getLastD_cons]
    · simp [pngData, hdata]
  by_cases hdata : c.1 = typeIdat
  · refine ⟨head, data ++ c.2.1, (if_neg hhead).trans (if_pos hdata), ?_, ?_⟩
    · simp [pngHeads, hhead]
    · simp [pngData, hdata]
  · refine ⟨head, data, (if_neg hhead).trans (if_neg hdata), ?_, ?_⟩
    · simp [pngHeads, hhead]
    · simp [pngData, hdata]

/-! ## The walk -/

/-- The walk over whole chunks, whatever follows them. -/
theorem pngWalk_chunks (chunks : List PngPart) (h : ∀ c ∈ chunks, c.Passed) (tail head data : List Byte) (fuel : Nat) :
    pngWalk (chunks.length + fuel) (chunks.flatMap PngPart.bytes ++ tail) (.of head data) =
      pngWalk fuel tail (.of ((pngHeads chunks).getLastD head) (data ++ (pngData chunks).flatten)) := by
  induction chunks generalizing head data with
  | nil => simp [pngHeads, pngData]
  | cons c chunks ih =>
    obtain ⟨head', data', hrecord, hheads, hdatas⟩ := pngChunk_of c chunks head data
    rw [List.flatMap_cons, List.append_assoc, List.length_cons, Nat.add_right_comm, pngWalk_chunk (h c List.mem_cons_self), hrecord,
      ih (fun d hd => h d (List.mem_cons_of_mem c hd)), hheads, hdatas]

/-- Each chunk takes bytes of the file, so a walk bounded by the file's length has rounds left after any chunks. -/
theorem length_le_flatMap_bytes (chunks : List PngPart) (h : ∀ c ∈ chunks, c.Passed) :
    chunks.length ≤ (chunks.flatMap PngPart.bytes).length := by
  induction chunks with
  | nil => exact Nat.le_refl _
  | cons c chunks ih =>
    have hlength := c.bytes_length (h c List.mem_cons_self)
    have hrest := ih fun d hd => h d (List.mem_cons_of_mem c hd)
    rw [List.flatMap_cons, List.length_append, List.length_cons]
    omega

section
variable {tail : List Byte} (fuel : Nat) (r : PngRecord)

/-- The walk ends at fewer than 12 bytes, and at an IEND (R312). -/
theorem pngWalk_end (h : tail.length < 12 ∨ (12 + bigEndian (tail.take 4) ≤ tail.length ∧ (tail.drop 4).take 4 = typeIend)) :
    pngWalk (fuel + 1) tail r = .ok r := by
  rw [pngWalk]
  by_cases hshort : tail.length < 12
  · rw [if_pos hshort]
  · obtain ⟨hwithin, hend⟩ := h.resolve_left hshort
    rw [if_neg hshort]
    dsimp only
    rw [if_neg (Nat.not_lt.2 hwithin), if_pos hend]

/-- A chunk that passes the end of the file ends the walk with an error (R312). -/
theorem pngWalk_past (hlong : 12 ≤ tail.length) (hpast : tail.length < 12 + bigEndian (tail.take 4)) :
    pngWalk (fuel + 1) tail r = .error .malformedPng := by
  rw [pngWalk, if_neg (Nat.not_lt.2 hlong)]
  exact if_pos hpast

end

/-! ## The file -/

/-- A file of the signature, whole chunks and a tail: the walk comes to the tail with what the chunks gave (R310, R312). -/
theorem pngParse_chunks (chunks : List PngPart) (h : ∀ c ∈ chunks, c.Passed) (tail : List Byte) : ∃ fuel,
    pngParse (pngSignature ++ chunks.flatMap PngPart.bytes ++ tail) =
      (pngWalk (fuel + 1) tail (.of ((pngHeads chunks).getLastD []) (pngData chunks).flatten)).bind pngFinal := by
  have hle := length_le_flatMap_bytes chunks h
  have hlength : (pngSignature ++ chunks.flatMap PngPart.bytes ++ tail).length =
      8 + (chunks.flatMap PngPart.bytes).length + tail.length := by
    rw [List.length_append, List.length_append]
    rfl
  obtain ⟨fuel, hfuel⟩ : ∃ fuel, (pngSignature ++ chunks.flatMap PngPart.bytes ++ tail).length = chunks.length + (fuel + 1) :=
    ⟨7 + (chunks.flatMap PngPart.bytes).length + tail.length - chunks.length, by omega⟩
  refine ⟨fuel, ?_⟩
  have hsignature : (pngSignature ++ chunks.flatMap PngPart.bytes ++ tail).take 8 = pngSignature := rfl
  rw [pngParse, if_neg (not_not.2 hsignature), hfuel, ← List.nil_append (pngData chunks).flatten,
    ← pngWalk_chunks chunks h tail [] [] (fuel + 1)]
  rfl

/-- Settles O58: the walk over the chunks (`pngParse_chunks`), and then how the tail ends it. -/
theorem pngParserReadsBack : Obligations.PngParserReadsBack := by
  refine ⟨fun chunks tail h => ?_, fun f hf => if_pos hf⟩
  obtain ⟨fuel, hparse⟩ := pngParse_chunks chunks h tail
  refine ⟨fun htail => hparse.trans ?_, fun hlong hpast => hparse.trans ?_⟩
  · rw [pngWalk_end fuel _ htail]
    rfl
  · rw [pngWalk_past fuel _ hlong hpast]
    rfl

end Sys2Proof.Machine
end
